-- ==== Sys2Proof/Word.lean ====
section
/-! DEFINITION. Sys2Proof/Word.lean: the three bit-vector widths of the machine (R6, R11, R40). -/
namespace Sys2Proof

/-- The addressable unit (R40): one 8-bit byte, also the width of `DB`, `PB` and the packed `P`. -/
abbrev Byte := BitVec 8

/-- The 16-bit registers `A`, `X`, `Y`, `D`, `S`, `PC` (R11) and every offset inside a bank (R40). -/
abbrev Word := BitVec 16

/-- A bus address: bank (8 bits) concatenated with offset (16 bits) (R40). -/
abbrev Address := BitVec 24

end Sys2Proof
end

