-- ==== Sys2Proof/Syntax.lean ====
section
/-! DEFINITION. Sys2Proof/Syntax.lean: the instructions, one constructor per row of spec/opcode_table.json (R77), and the
two columns every row names: its mnemonic and its addressing-mode operand (R71, R72). -/
namespace Sys2Proof

/-- A flag-dependent immediate (R73, R94, R95): the operand is one byte or one little-endian word. -/
inductive Imm where
  | imm8  (v : Byte)
  | imm16 (v : Word)
  deriving DecidableEq, Repr

/-- The modes that name a memory operand (R90, R96 to R110), with their operand bytes assembled (R74): a direct-page or
stack offset, a 16-bit address or a 24-bit address. -/
inductive MemOperand where
  | dp    (o : Byte)
  | dpx   (o : Byte)
  | dpy   (o : Byte)
  | ind   (o : Byte)
  | indx  (o : Byte)
  | indy  (o : Byte)
  | indl  (o : Byte)
  | indly (o : Byte)
  | abs   (a : Word)
  | absx  (a : Word)
  | absy  (a : Word)
  | long  (a : Address)
  | longx (a : Address)
  | sr    (o : Byte)
  | sry   (o : Byte)
  deriving DecidableEq, Repr

/-- The 27 addressing-mode tags of R72 with the operand each carries.  `blk` holds the destination bank first (R81). -/
inductive Operand where
  | imp
  | acc
  | imm8  (v : Byte)
  | imm16 (v : Word)
  | immM  (v : Imm)
  | immX  (v : Imm)
  | mem   (m : MemOperand)
  | rel8  (d : Byte)
  | rel16 (d : Word)
  | blk   (dst : Byte) (src : Byte)
  | aind  (a : Word)
  | aindx (a : Word)
  | aindl (a : Word)
  deriving DecidableEq, Repr

/-- The addressing-mode tags of R72 alone, as the descriptors of the instruction table name them. -/
inductive Mode where
  | imp | acc | imm8 | imm16 | immM | immX
  | dp | dpx | dpy | ind | indx | indy | indl | indly
  | abs | absx | absy | long | longx | sr | sry
  | rel8 | rel16 | blk | aind | aindx | aindl
  deriving DecidableEq, Repr

def MemOperand.mode : MemOperand → Mode
  | .dp _ => .dp
  | .dpx _ => .dpx
  | .dpy _ => .dpy
  | .ind _ => .ind
  | .indx _ => .indx
  | .indy _ => .indy
  | .indl _ => .indl
  | .indly _ => .indly
  | .abs _ => .abs
  | .absx _ => .absx
  | .absy _ => .absy
  | .long _ => .long
  | .longx _ => .longx
  | .sr _ => .sr
  | .sry _ => .sry

def Operand.mode : Operand → Mode
  | .imp => .imp
  | .acc => .acc
  | .imm8 _ => .imm8
  | .imm16 _ => .imm16
  | .immM _ => .immM
  | .immX _ => .immX
  | .mem m => m.mode
  | .rel8 _ => .rel8
  | .rel16 _ => .rel16
  | .blk _ _ => .blk
  | .aind _ => .aind
  | .aindx _ => .aindx
  | .aindl _ => .aindl

/-- The 92 mnemonics of R77. -/
inductive Mnemonic where
  | adc | and | asl | bcc | bcs | beq | bit | bmi | bne | bpl | bra | brk
  | brl | bvc | bvs | clc | cld | cli | clv | cmp | cop | cpx | cpy | dec
  | dex | dey | eor | inc | inx | iny | jml | jmp | jsl | jsr | lda | ldx
  | ldy | lsr | mvn | mvp | nop | ora | pea | pei | per | pha | phb | phd
  | phk | php | phx | phy | pla | plb | pld | plp | plx | ply | rep | rol
  | ror | rti | rtl | rts | sbc | sec | sed | sei | sep | sta | stp | stx
  | sty | stz | tax | tay | tcd | tcs | tdc | trb | tsb | tsc | tsx | txa
  | txs | txy | tya | tyx | wai | wdm | xba | xce
  deriving DecidableEq, Repr

/-- The instructions: one constructor per opcode value of R77.  A constructor carries the operand of its mode, assembled
little-endian from its operand bytes (R74).  The constructors with an operand stand first, each group in opcode order
(Lean's compiled code numbers at most 245 constructors that carry data). -/
inductive Instr where
  | brk (v : Byte)
  | oraIndx (o : Byte)
  | cop (v : Byte)
  | oraSr (o : Byte)
  | tsbDp (o : Byte)
  | oraDp (o : Byte)
  | aslDp (o : Byte)
  | oraIndl (o : Byte)
  | oraImmM (v : Imm)
  | tsbAbs (a : Word)
  | oraAbs (a : Word)
  | aslAbs (a : Word)
  | oraLong (a : Address)
  | bpl (d : Byte)
  | oraIndy (o : Byte)
  | oraInd (o : Byte)
  | oraSry (o : Byte)
  | trbDp (o : Byte)
  | oraDpx (o : Byte)
  | aslDpx (o : Byte)
  | oraIndly (o : Byte)
  | oraAbsy (a : Word)
  | trbAbs (a : Word)
  | oraAbsx (a : Word)
  | aslAbsx (a : Word)
  | oraLongx (a : Address)
  | jsrAbs (a : Word)
  | andIndx (o : Byte)
  | jsl (a : Address)
  | andSr (o : Byte)
  | bitDp (o : Byte)
  | andDp (o : Byte)
  | rolDp (o : Byte)
  | andIndl (o : Byte)
  | andImmM (v : Imm)
  | bitAbs (a : Word)
  | andAbs (a : Word)
  | rolAbs (a : Word)
  | andLong (a : Address)
  | bmi (d : Byte)
  | andIndy (o : Byte)
  | andInd (o : Byte)
  | andSry (o : Byte)
  | bitDpx (o : Byte)
  | andDpx (o : Byte)
  | rolDpx (o : Byte)
  | andIndly (o : Byte)
  | andAbsy (a : Word)
  | bitAbsx (a : Word)
  | andAbsx (a : Word)
  | rolAbsx (a : Word)
  | andLongx (a : Address)
  | eorIndx (o : Byte)
  | wdm (v : Byte)
  | eorSr (o : Byte)
  | mvp (dst : Byte) (src : Byte)
  | eorDp (o : Byte)
  | lsrDp (o : Byte)
  | eorIndl (o : Byte)
  | eorImmM (v : Imm)
  | jmpAbs (a : Word)
  | eorAbs (a : Word)
  | lsrAbs (a : Word)
  | eorLong (a : Address)
  | bvc (d : Byte)
  | eorIndy (o : Byte)
  | eorInd (o : Byte)
  | eorSry (o : Byte)
  | mvn (dst : Byte) (src : Byte)
  | eorDpx (o : Byte)
  | lsrDpx (o : Byte)
  | eorIndly (o : Byte)
  | eorAbsy (a : Word)
  | jmlLong (a : Address)
  | eorAbsx (a : Word)
  | lsrAbsx (a : Word)
  | eorLongx (a : Address)
  | adcIndx (o : Byte)
  | per (d : Word)
  | adcSr (o : Byte)
  | stzDp (o : Byte)
  | adcDp (o : Byte)
  | rorDp (o : Byte)
  | adcIndl (o : Byte)
  | adcImmM (v : Imm)
  | jmpAind (a : Word)
  | adcAbs (a : Word)
  | rorAbs (a : Word)
  | adcLong (a : Address)
  | bvs (d : Byte)
  | adcIndy (o : Byte)
  | adcInd (o : Byte)
  | adcSry (o : Byte)
  | stzDpx (o : Byte)
  | adcDpx (o : Byte)
  | rorDpx (o : Byte)
  | adcIndly (o : Byte)
  | adcAbsy (a : Word)
  | jmpAindx (a : Word)
  | adcAbsx (a : Word)
  | rorAbsx (a : Word)
  | adcLongx (a : Address)
  | bra (d : Byte)
  | staIndx (o : Byte)
  | brl (d : Word)
  | staSr (o : Byte)
  | styDp (o : Byte)
  | staDp (o : Byte)
  | stxDp (o : Byte)
  | staIndl (o : Byte)
  | bitImmM (v : Imm)
  | styAbs (a : Word)
  | staAbs (a : Word)
  | stxAbs (a : Word)
  | staLong (a : Address)
  | bcc (d : Byte)
  | staIndy (o : Byte)
  | staInd (o : Byte)
  | staSry (o : Byte)
  | styDpx (o : Byte)
  | staDpx (o : Byte)
  | stxDpy (o : Byte)
  | staIndly (o : Byte)
  | staAbsy (a : Word)
  | stzAbs (a : Word)
  | staAbsx (a : Word)
  | stzAbsx (a : Word)
  | staLongx (a : Address)
  | ldyImmX (v : Imm)
  | ldaIndx (o : Byte)
  | ldxImmX (v : Imm)
  | ldaSr (o : Byte)
  | ldyDp (o : Byte)
  | ldaDp (o : Byte)
  | ldxDp (o : Byte)
  | ldaIndl (o : Byte)
  | ldaImmM (v : Imm)
  | ldyAbs (a : Word)
  | ldaAbs (a : Word)
  | ldxAbs (a : Word)
  | ldaLong (a : Address)
  | bcs (d : Byte)
  | ldaIndy (o : Byte)
  | ldaInd (o : Byte)
  | ldaSry (o : Byte)
  | ldyDpx (o : Byte)
  | ldaDpx (o : Byte)
  | ldxDpy (o : Byte)
  | ldaIndly (o : Byte)
  | ldaAbsy (a : Word)
  | ldyAbsx (a : Word)
  | ldaAbsx (a : Word)
  | ldxAbsy (a : Word)
  | ldaLongx (a : Address)
  | cpyImmX (v : Imm)
  | cmpIndx (o : Byte)
  | rep (v : Byte)
  | cmpSr (o : Byte)
  | cpyDp (o : Byte)
  | cmpDp (o : Byte)
  | decDp (o : Byte)
  | cmpIndl (o : Byte)
  | cmpImmM (v : Imm)
  | cpyAbs (a : Word)
  | cmpAbs (a : Word)
  | decAbs (a : Word)
  | cmpLong (a : Address)
  | bne (d : Byte)
  | cmpIndy (o : Byte)
  | cmpInd (o : Byte)
  | cmpSry (o : Byte)
  | pei (o : Byte)
  | cmpDpx (o : Byte)
  | decDpx (o : Byte)
  | cmpIndly (o : Byte)
  | cmpAbsy (a : Word)
  | jmlAindl (a : Word)
  | cmpAbsx (a : Word)
  | decAbsx (a : Word)
  | cmpLongx (a : Address)
  | cpxImmX (v : Imm)
  | sbcIndx (o : Byte)
  | sep (v : Byte)
  | sbcSr (o : Byte)
  | cpxDp (o : Byte)
  | sbcDp (o : Byte)
  | incDp (o : Byte)
  | sbcIndl (o : Byte)
  | sbcImmM (v : Imm)
  | cpxAbs (a : Word)
  | sbcAbs (a : Word)
  | incAbs (a : Word)
  | sbcLong (a : Address)
  | beq (d : Byte)
  | sbcIndy (o : Byte)
  | sbcInd (o : Byte)
  | sbcSry (o : Byte)
  | pea (v : Word)
  | sbcDpx (o : Byte)
  | incDpx (o : Byte)
  | sbcIndly (o : Byte)
  | sbcAbsy (a : Word)
  | jsrAindx (a : Word)
  | sbcAbsx (a : Word)
  | incAbsx (a : Word)
  | sbcLongx (a : Address)
  | php
  | aslAcc
  | phd
  | clc
  | incAcc
  | tcs
  | plp
  | rolAcc
  | pld
  | sec
  | decAcc
  | tsc
  | rti
  | pha
  | lsrAcc
  | phk
  | cli
  | phy
  | tcd
  | rts
  | pla
  | rorAcc
  | rtl
  | sei
  | ply
  | tdc
  | dey
  | txa
  | phb
  | tya
  | txs
  | txy
  | tay
  | tax
  | plb
  | clv
  | tsx
  | tyx
  | iny
  | dex
  | wai
  | cld
  | phx
  | stp
  | inx
  | nop
  | xba
  | sed
  | plx
  | xce
  deriving DecidableEq, Repr

/-- The mnemonic of the opcode's descriptor (R71, R77). -/
def Instr.mnemonic : Instr → Mnemonic
  | .brk _ => .brk
  | .oraIndx _ => .ora
  | .cop _ => .cop
  | .oraSr _ => .ora
  | .tsbDp _ => .tsb
  | .oraDp _ => .ora
  | .aslDp _ => .asl
  | .oraIndl _ => .ora
  | .php => .php
  | .oraImmM _ => .ora
  | .aslAcc => .asl
  | .phd => .phd
  | .tsbAbs _ => .tsb
  | .oraAbs _ => .ora
  | .aslAbs _ => .asl
  | .oraLong _ => .ora
  | .bpl _ => .bpl
  | .oraIndy _ => .ora
  | .oraInd _ => .ora
  | .oraSry _ => .ora
  | .trbDp _ => .trb
  | .oraDpx _ => .ora
  | .aslDpx _ => .asl
  | .oraIndly _ => .ora
  | .clc => .clc
  | .oraAbsy _ => .ora
  | .incAcc => .inc
  | .tcs => .tcs
  | .trbAbs _ => .trb
  | .oraAbsx _ => .ora
  | .aslAbsx _ => .asl
  | .oraLongx _ => .ora
  | .jsrAbs _ => .jsr
  | .andIndx _ => .and
  | .jsl _ => .jsl
  | .andSr _ => .and
  | .bitDp _ => .bit
  | .andDp _ => .and
  | .rolDp _ => .rol
  | .andIndl _ => .and
  | .plp => .plp
  | .andImmM _ => .and
  | .rolAcc => .rol
  | .pld => .pld
  | .bitAbs _ => .bit
  | .andAbs _ => .and
  | .rolAbs _ => .rol
  | .andLong _ => .and
  | .bmi _ => .bmi
  | .andIndy _ => .and
  | .andInd _ => .and
  | .andSry _ => .and
  | .bitDpx _ => .bit
  | .andDpx _ => .and
  | .rolDpx _ => .rol
  | .andIndly _ => .and
  | .sec => .sec
  | .andAbsy _ => .and
  | .decAcc => .dec
  | .tsc => .tsc
  | .bitAbsx _ => .bit
  | .andAbsx _ => .and
  | .rolAbsx _ => .rol
  | .andLongx _ => .and
  | .rti => .rti
  | .eorIndx _ => .eor
  | .wdm _ => .wdm
  | .eorSr _ => .eor
  | .mvp _ _ => .mvp
  | .eorDp _ => .eor
  | .lsrDp _ => .lsr
  | .eorIndl _ => .eor
  | .pha => .pha
  | .eorImmM _ => .eor
  | .lsrAcc => .lsr
  | .phk => .phk
  | .jmpAbs _ => .jmp
  | .eorAbs _ => .eor
  | .lsrAbs _ => .lsr
  | .eorLong _ => .eor
  | .bvc _ => .bvc
  | .eorIndy _ => .eor
  | .eorInd _ => .eor
  | .eorSry _ => .eor
  | .mvn _ _ => .mvn
  | .eorDpx _ => .eor
  | .lsrDpx _ => .lsr
  | .eorIndly _ => .eor
  | .cli => .cli
  | .eorAbsy _ => .eor
  | .phy => .phy
  | .tcd => .tcd
  | .jmlLong _ => .jml
  | .eorAbsx _ => .eor
  | .lsrAbsx _ => .lsr
  | .eorLongx _ => .eor
  | .rts => .rts
  | .adcIndx _ => .adc
  | .per _ => .per
  | .adcSr _ => .adc
  | .stzDp _ => .stz
  | .adcDp _ => .adc
  | .rorDp _ => .ror
  | .adcIndl _ => .adc
  | .pla => .pla
  | .adcImmM _ => .adc
  | .rorAcc => .ror
  | .rtl => .rtl
  | .jmpAind _ => .jmp
  | .adcAbs _ => .adc
  | .rorAbs _ => .ror
  | .adcLong _ => .adc
  | .bvs _ => .bvs
  | .adcIndy _ => .adc
  | .adcInd _ => .adc
  | .adcSry _ => .adc
  | .stzDpx _ => .stz
  | .adcDpx _ => .adc
  | .rorDpx _ => .ror
  | .adcIndly _ => .adc
  | .sei => .sei
  | .adcAbsy _ => .adc
  | .ply => .ply
  | .tdc => .tdc
  | .jmpAindx _ => .jmp
  | .adcAbsx _ => .adc
  | .rorAbsx _ => .ror
  | .adcLongx _ => .adc
  | .bra _ => .bra
  | .staIndx _ => .sta
  | .brl _ => .brl
  | .staSr _ => .sta
  | .styDp _ => .sty
  | .staDp _ => .sta
  | .stxDp _ => .stx
  | .staIndl _ => .sta
  | .dey => .dey
  | .bitImmM _ => .bit
  | .txa => .txa
  | .phb => .phb
  | .styAbs _ => .sty
  | .staAbs _ => .sta
  | .stxAbs _ => .stx
  | .staLong _ => .sta
  | .bcc _ => .bcc
  | .staIndy _ => .sta
  | .staInd _ => .sta
  | .staSry _ => .sta
  | .styDpx _ => .sty
  | .staDpx _ => .sta
  | .stxDpy _ => .stx
  | .staIndly _ => .sta
  | .tya => .tya
  | .staAbsy _ => .sta
  | .txs => .txs
  | .txy => .txy
  | .stzAbs _ => .stz
  | .staAbsx _ => .sta
  | .stzAbsx _ => .stz
  | .staLongx _ => .sta
  | .ldyImmX _ => .ldy
  | .ldaIndx _ => .lda
  | .ldxImmX _ => .ldx
  | .ldaSr _ => .lda
  | .ldyDp _ => .ldy
  | .ldaDp _ => .lda
  | .ldxDp _ => .ldx
  | .ldaIndl _ => .lda
  | .tay => .tay
  | .ldaImmM _ => .lda
  | .tax => .tax
  | .plb => .plb
  | .ldyAbs _ => .ldy
  | .ldaAbs _ => .lda
  | .ldxAbs _ => .ldx
  | .ldaLong _ => .lda
  | .bcs _ => .bcs
  | .ldaIndy _ => .lda
  | .ldaInd _ => .lda
  | .ldaSry _ => .lda
  | .ldyDpx _ => .ldy
  | .ldaDpx _ => .lda
  | .ldxDpy _ => .ldx
  | .ldaIndly _ => .lda
  | .clv => .clv
  | .ldaAbsy _ => .lda
  | .tsx => .tsx
  | .tyx => .tyx
  | .ldyAbsx _ => .ldy
  | .ldaAbsx _ => .lda
  | .ldxAbsy _ => .ldx
  | .ldaLongx _ => .lda
  | .cpyImmX _ => .cpy
  | .cmpIndx _ => .cmp
  | .rep _ => .rep
  | .cmpSr _ => .cmp
  | .cpyDp _ => .cpy
  | .cmpDp _ => .cmp
  | .decDp _ => .dec
  | .cmpIndl _ => .cmp
  | .iny => .iny
  | .cmpImmM _ => .cmp
  | .dex => .dex
  | .wai => .wai
  | .cpyAbs _ => .cpy
  | .cmpAbs _ => .cmp
  | .decAbs _ => .dec
  | .cmpLong _ => .cmp
  | .bne _ => .bne
  | .cmpIndy _ => .cmp
  | .cmpInd _ => .cmp
  | .cmpSry _ => .cmp
  | .pei _ => .pei
  | .cmpDpx _ => .cmp
  | .decDpx _ => .dec
  | .cmpIndly _ => .cmp
  | .cld => .cld
  | .cmpAbsy _ => .cmp
  | .phx => .phx
  | .stp => .stp
  | .jmlAindl _ => .jml
  | .cmpAbsx _ => .cmp
  | .decAbsx _ => .dec
  | .cmpLongx _ => .cmp
  | .cpxImmX _ => .cpx
  | .sbcIndx _ => .sbc
  | .sep _ => .sep
  | .sbcSr _ => .sbc
  | .cpxDp _ => .cpx
  | .sbcDp _ => .sbc
  | .incDp _ => .inc
  | .sbcIndl _ => .sbc
  | .inx => .inx
  | .sbcImmM _ => .sbc
  | .nop => .nop
  | .xba => .xba
  | .cpxAbs _ => .cpx
  | .sbcAbs _ => .sbc
  | .incAbs _ => .inc
  | .sbcLong _ => .sbc
  | .beq _ => .beq
  | .sbcIndy _ => .sbc
  | .sbcInd _ => .sbc
  | .sbcSry _ => .sbc
  | .pea _ => .pea
  | .sbcDpx _ => .sbc
  | .incDpx _ => .inc
  | .sbcIndly _ => .sbc
  | .sed => .sed
  | .sbcAbsy _ => .sbc
  | .plx => .plx
  | .xce => .xce
  | .jsrAindx _ => .jsr
  | .sbcAbsx _ => .sbc
  | .incAbsx _ => .inc
  | .sbcLongx _ => .sbc

/-- The addressing-mode operand of the opcode's descriptor (R71, R72, R77). -/
def Instr.operand : Instr → Operand
  | .brk v => .imm8 v
  | .oraIndx o => .mem (.indx o)
  | .cop v => .imm8 v
  | .oraSr o => .mem (.sr o)
  | .tsbDp o => .mem (.dp o)
  | .oraDp o => .mem (.dp o)
  | .aslDp o => .mem (.dp o)
  | .oraIndl o => .mem (.indl o)
  | .php => .imp
  | .oraImmM v => .immM v
  | .aslAcc => .acc
  | .phd => .imp
  | .tsbAbs a => .mem (.abs a)
  | .oraAbs a => .mem (.abs a)
  | .aslAbs a => .mem (.abs a)
  | .oraLong a => .mem (.long a)
  | .bpl d => .rel8 d
  | .oraIndy o => .mem (.indy o)
  | .oraInd o => .mem (.ind o)
  | .oraSry o => .mem (.sry o)
  | .trbDp o => .mem (.dp o)
  | .oraDpx o => .mem (.dpx o)
  | .aslDpx o => .mem (.dpx o)
  | .oraIndly o => .mem (.indly o)
  | .clc => .imp
  | .oraAbsy a => .mem (.absy a)
  | .incAcc => .acc
  | .tcs => .imp
  | .trbAbs a => .mem (.abs a)
  | .oraAbsx a => .mem (.absx a)
  | .aslAbsx a => .mem (.absx a)
  | .oraLongx a => .mem (.longx a)
  | .jsrAbs a => .mem (.abs a)
  | .andIndx o => .mem (.indx o)
  | .jsl a => .mem (.long a)
  | .andSr o => .mem (.sr o)
  | .bitDp o => .mem (.dp o)
  | .andDp o => .mem (.dp o)
  | .rolDp o => .mem (.dp o)
  | .andIndl o => .mem (.indl o)
  | .plp => .imp
  | .andImmM v => .immM v
  | .rolAcc => .acc
  | .pld => .imp
  | .bitAbs a => .mem (.abs a)
  | .andAbs a => .mem (.abs a)
  | .rolAbs a => .mem (.abs a)
  | .andLong a => .mem (.long a)
  | .bmi d => .rel8 d
  | .andIndy o => .mem (.indy o)
  | .andInd o => .mem (.ind o)
  | .andSry o => .mem (.sry o)
  | .bitDpx o => .mem (.dpx o)
  | .andDpx o => .mem (.dpx o)
  | .rolDpx o => .mem (.dpx o)
  | .andIndly o => .mem (.indly o)
  | .sec => .imp
  | .andAbsy a => .mem (.absy a)
  | .decAcc => .acc
  | .tsc => .imp
  | .bitAbsx a => .mem (.absx a)
  | .andAbsx a => .mem (.absx a)
  | .rolAbsx a => .mem (.absx a)
  | .andLongx a => .mem (.longx a)
  | .rti => .imp
  | .eorIndx o => .mem (.indx o)
  | .wdm v => .imm8 v
  | .eorSr o => .mem (.sr o)
  | .mvp dst src => .blk dst src
  | .eorDp o => .mem (.dp o)
  | .lsrDp o => .mem (.dp o)
  | .eorIndl o => .mem (.indl o)
  | .pha => .imp
  | .eorImmM v => .immM v
  | .lsrAcc => .acc
  | .phk => .imp
  | .jmpAbs a => .mem (.abs a)
  | .eorAbs a => .mem (.abs a)
  | .lsrAbs a => .mem (.abs a)
  | .eorLong a => .mem (.long a)
  | .bvc d => .rel8 d
  | .eorIndy o => .mem (.indy o)
  | .eorInd o => .mem (.ind o)
  | .eorSry o => .mem (.sry o)
  | .mvn dst src => .blk dst src
  | .eorDpx o => .mem (.dpx o)
  | .lsrDpx o => .mem (.dpx o)
  | .eorIndly o => .mem (.indly o)
  | .cli => .imp
  | .eorAbsy a => .mem (.absy a)
  | .phy => .imp
  | .tcd => .imp
  | .jmlLong a => .mem (.long a)
  | .eorAbsx a => .mem (.absx a)
  | .lsrAbsx a => .mem (.absx a)
  | .eorLongx a => .mem (.longx a)
  | .rts => .imp
  | .adcIndx o => .mem (.indx o)
  | .per d => .rel16 d
  | .adcSr o => .mem (.sr o)
  | .stzDp o => .mem (.dp o)
  | .adcDp o => .mem (.dp o)
  | .rorDp o => .mem (.dp o)
  | .adcIndl o => .mem (.indl o)
  | .pla => .imp
  | .adcImmM v => .immM v
  | .rorAcc => .acc
  | .rtl => .imp
  | .jmpAind a => .aind a
  | .adcAbs a => .mem (.abs a)
  | .rorAbs a => .mem (.abs a)
  | .adcLong a => .mem (.long a)
  | .bvs d => .rel8 d
  | .adcIndy o => .mem (.indy o)
  | .adcInd o => .mem (.ind o)
  | .adcSry o => .mem (.sry o)
  | .stzDpx o => .mem (.dpx o)
  | .adcDpx o => .mem (.dpx o)
  | .rorDpx o => .mem (.dpx o)
  | .adcIndly o => .mem (.indly o)
  | .sei => .imp
  | .adcAbsy a => .mem (.absy a)
  | .ply => .imp
  | .tdc => .imp
  | .jmpAindx a => .aindx a
  | .adcAbsx a => .mem (.absx a)
  | .rorAbsx a => .mem (.absx a)
  | .adcLongx a => .mem (.longx a)
  | .bra d => .rel8 d
  | .staIndx o => .mem (.indx o)
  | .brl d => .rel16 d
  | .staSr o => .mem (.sr o)
  | .styDp o => .mem (.dp o)
  | .staDp o => .mem (.dp o)
  | .stxDp o => .mem (.dp o)
  | .staIndl o => .mem (.indl o)
  | .dey => .imp
  | .bitImmM v => .immM v
  | .txa => .imp
  | .phb => .imp
  | .styAbs a => .mem (.abs a)
  | .staAbs a => .mem (.abs a)
  | .stxAbs a => .mem (.abs a)
  | .staLong a => .mem (.long a)
  | .bcc d => .rel8 d
  | .staIndy o => .mem (.indy o)
  | .staInd o => .mem (.ind o)
  | .staSry o => .mem (.sry o)
  | .styDpx o => .mem (.dpx o)
  | .staDpx o => .mem (.dpx o)
  | .stxDpy o => .mem (.dpy o)
  | .staIndly o => .mem (.indly o)
  | .tya => .imp
  | .staAbsy a => .mem (.absy a)
  | .txs => .imp
  | .txy => .imp
  | .stzAbs a => .mem (.abs a)
  | .staAbsx a => .mem (.absx a)
  | .stzAbsx a => .mem (.absx a)
  | .staLongx a => .mem (.longx a)
  | .ldyImmX v => .immX v
  | .ldaIndx o => .mem (.indx o)
  | .ldxImmX v => .immX v
  | .ldaSr o => .mem (.sr o)
  | .ldyDp o => .mem (.dp o)
  | .ldaDp o => .mem (.dp o)
  | .ldxDp o => .mem (.dp o)
  | .ldaIndl o => .mem (.indl o)
  | .tay => .imp
  | .ldaImmM v => .immM v
  | .tax => .imp
  | .plb => .imp
  | .ldyAbs a => .mem (.abs a)
  | .ldaAbs a => .mem (.abs a)
  | .ldxAbs a => .mem (.abs a)
  | .ldaLong a => .mem (.long a)
  | .bcs d => .rel8 d
  | .ldaIndy o => .mem (.indy o)
  | .ldaInd o => .mem (.ind o)
  | .ldaSry o => .mem (.sry o)
  | .ldyDpx o => .mem (.dpx o)
  | .ldaDpx o => .mem (.dpx o)
  | .ldxDpy o => .mem (.dpy o)
  | .ldaIndly o => .mem (.indly o)
  | .clv => .imp
  | .ldaAbsy a => .mem (.absy a)
  | .tsx => .imp
  | .tyx => .imp
  | .ldyAbsx a => .mem (.absx a)
  | .ldaAbsx a => .mem (.absx a)
  | .ldxAbsy a => .mem (.absy a)
  | .ldaLongx a => .mem (.longx a)
  | .cpyImmX v => .immX v
  | .cmpIndx o => .mem (.indx o)
  | .rep v => .imm8 v
  | .cmpSr o => .mem (.sr o)
  | .cpyDp o => .mem (.dp o)
  | .cmpDp o => .mem (.dp o)
  | .decDp o => .mem (.dp o)
  | .cmpIndl o => .mem (.indl o)
  | .iny => .imp
  | .cmpImmM v => .immM v
  | .dex => .imp
  | .wai => .imp
  | .cpyAbs a => .mem (.abs a)
  | .cmpAbs a => .mem (.abs a)
  | .decAbs a => .mem (.abs a)
  | .cmpLong a => .mem (.long a)
  | .bne d => .rel8 d
  | .cmpIndy o => .mem (.indy o)
  | .cmpInd o => .mem (.ind o)
  | .cmpSry o => .mem (.sry o)
  | .pei o => .mem (.ind o)
  | .cmpDpx o => .mem (.dpx o)
  | .decDpx o => .mem (.dpx o)
  | .cmpIndly o => .mem (.indly o)
  | .cld => .imp
  | .cmpAbsy a => .mem (.absy a)
  | .phx => .imp
  | .stp => .imp
  | .jmlAindl a => .aindl a
  | .cmpAbsx a => .mem (.absx a)
  | .decAbsx a => .mem (.absx a)
  | .cmpLongx a => .mem (.longx a)
  | .cpxImmX v => .immX v
  | .sbcIndx o => .mem (.indx o)
  | .sep v => .imm8 v
  | .sbcSr o => .mem (.sr o)
  | .cpxDp o => .mem (.dp o)
  | .sbcDp o => .mem (.dp o)
  | .incDp o => .mem (.dp o)
  | .sbcIndl o => .mem (.indl o)
  | .inx => .imp
  | .sbcImmM v => .immM v
  | .nop => .imp
  | .xba => .imp
  | .cpxAbs a => .mem (.abs a)
  | .sbcAbs a => .mem (.abs a)
  | .incAbs a => .mem (.abs a)
  | .sbcLong a => .mem (.long a)
  | .beq d => .rel8 d
  | .sbcIndy o => .mem (.indy o)
  | .sbcInd o => .mem (.ind o)
  | .sbcSry o => .mem (.sry o)
  | .pea v => .imm16 v
  | .sbcDpx o => .mem (.dpx o)
  | .incDpx o => .mem (.dpx o)
  | .sbcIndly o => .mem (.indly o)
  | .sed => .imp
  | .sbcAbsy a => .mem (.absy a)
  | .plx => .imp
  | .xce => .imp
  | .jsrAindx a => .aindx a
  | .sbcAbsx a => .mem (.absx a)
  | .incAbsx a => .mem (.absx a)
  | .sbcLongx a => .mem (.longx a)

end Sys2Proof
end

