-- ==== Sys2Proof/WellFormed.lean ====
section
/-! DEFINITION. Sys2Proof/WellFormed.lean: when an instruction term agrees with the width flags it is decoded under
(R73, R323).  The operands' own ranges are in their types; what is left to check is the width of a flag-dependent
immediate. -/
namespace Sys2Proof

/-- The immediate has the 8-bit form. -/
def Imm.isByte : Imm → Bool
  | .imm8 _ => true
  | .imm16 _ => false

/-- The operand's width is the one the flags select: one byte for `imm_m` exactly when `P.M = 1`, for `imm_x` exactly
when `P.X = 1` (R73). -/
def Operand.wellFormed (m x : Bool) : Operand → Bool
  | .immM v => v.isByte == m
  | .immX v => v.isByte == x
  | .imp => true
  | .acc => true
  | .imm8 _ => true
  | .imm16 _ => true
  | .mem _ => true
  | .rel8 _ => true
  | .rel16 _ => true
  | .blk _ _ => true
  | .aind _ => true
  | .aindx _ => true
  | .aindl _ => true

/-- An instruction is well-formed under `P.M = m`, `P.X = x` when its operand is.  An ill-formed one is the "operand-width
variant inconsistent with the active M/X flag" of R323. -/
def Instr.wellFormed (m x : Bool) (i : Instr) : Bool := i.operand.wellFormed m x

end Sys2Proof
end

