-- ==== Sys2Proof/Decode.lean ====
section
/-! DEFINITION. Sys2Proof/Decode.lean: byte order of operands (R74), the instruction table (R77) and the operand sizes
(R72, R73), the decoder, the encoder, and the decoder on opcode-table words. -/
namespace Sys2Proof

/-! ### Bytes of words (R54, R74) -/

/-- `v[7:0]`. -/
def loByte (v : Word) : Byte := v.extractLsb' 0 8

/-- `v[15:8]`. -/
def hiByte (v : Word) : Byte := v.extractLsb' 8 8

/-- `hi:lo`, the word whose more significant byte is `hi`. -/
def mkWord (hi lo : Byte) : Word := hi ++ lo

/-- The 24-bit address `bank:offset` (R40). -/
def mkAddr (bank : Byte) (off : Word) : Address := bank ++ off

/-- `addr[23:16]` (R40). -/
def bankOf (a : Address) : Byte := a.extractLsb' 16 8

/-- `addr[15:0]` (R40). -/
def offsetOf (a : Address) : Word := a.extractLsb' 0 16

/-! ### The instruction table -/

/-- One row of the instruction table (R71): the mnemonic and the addressing-mode tag.  The operand size follows from the
tag (R72) and the cycle rule stands in Machine/Cycles.lean. -/
structure Descriptor where
  mnemonic : Mnemonic
  mode     : Mode
  deriving DecidableEq, Repr

/-- Row 0x of the matrix of R77. -/
def tableRow0 : List Descriptor := [
  ⟨.brk, .imm8⟩, ⟨.ora, .indx⟩, ⟨.cop, .imm8⟩, ⟨.ora, .sr⟩,
  ⟨.tsb, .dp⟩, ⟨.ora, .dp⟩, ⟨.asl, .dp⟩, ⟨.ora, .indl⟩,
  ⟨.php, .imp⟩, ⟨.ora, .immM⟩, ⟨.asl, .acc⟩, ⟨.phd, .imp⟩,
  ⟨.tsb, .abs⟩, ⟨.ora, .abs⟩, ⟨.asl, .abs⟩, ⟨.ora, .long⟩]

/-- Row 1x of the matrix of R77. -/
def tableRow1 : List Descriptor := [
  ⟨.bpl, .rel8⟩, ⟨.ora, .indy⟩, ⟨.ora, .ind⟩, ⟨.ora, .sry⟩,
  ⟨.trb, .dp⟩, ⟨.ora, .dpx⟩, ⟨.asl, .dpx⟩, ⟨.ora, .indly⟩,
  ⟨.clc, .imp⟩, ⟨.ora, .absy⟩, ⟨.inc, .acc⟩, ⟨.tcs, .imp⟩,
  ⟨.trb, .abs⟩, ⟨.ora, .absx⟩, ⟨.asl, .absx⟩, ⟨.ora, .longx⟩]

/-- Row 2x of the matrix of R77. -/
def tableRow2 : List Descriptor := [
  ⟨.jsr, .abs⟩, ⟨.and, .indx⟩, ⟨.jsl, .long⟩, ⟨.and, .sr⟩,
  ⟨.bit, .dp⟩, ⟨.and, .dp⟩, ⟨.rol, .dp⟩, ⟨.and, .indl⟩,
  ⟨.plp, .imp⟩, ⟨.and, .immM⟩, ⟨.rol, .acc⟩, ⟨.pld, .imp⟩,
  ⟨.bit, .abs⟩, ⟨.and, .abs⟩, ⟨.rol, .abs⟩, ⟨.and, .long⟩]

/-- Row 3x of the matrix of R77. -/
def tableRow3 : List Descriptor := [
  ⟨.bmi, .rel8⟩, ⟨.and, .indy⟩, ⟨.and, .ind⟩, ⟨.and, .sry⟩,
  ⟨.bit, .dpx⟩, ⟨.and, .dpx⟩, ⟨.rol, .dpx⟩, ⟨.and, .indly⟩,
  ⟨.sec, .imp⟩, ⟨.and, .absy⟩, ⟨.dec, .acc⟩, ⟨.tsc, .imp⟩,
  ⟨.bit, .absx⟩, ⟨.and, .absx⟩, ⟨.rol, .absx⟩, ⟨.and, .longx⟩]

/-- Row 4x of the matrix of R77. -/
def tableRow4 : List Descriptor := [
  ⟨.rti, .imp⟩, ⟨.eor, .indx⟩, ⟨.wdm, .imm8⟩, ⟨.eor, .sr⟩,
  ⟨.mvp, .blk⟩, ⟨.eor, .dp⟩, ⟨.lsr, .dp⟩, ⟨.eor, .indl⟩,
  ⟨.pha, .imp⟩, ⟨.eor, .immM⟩, ⟨.lsr, .acc⟩, ⟨.phk, .imp⟩,
  ⟨.jmp, .abs⟩, ⟨.eor, .abs⟩, ⟨.lsr, .abs⟩, ⟨.eor, .long⟩]

/-- Row 5x of the matrix of R77. -/
def tableRow5 : List Descriptor := [
  ⟨.bvc, .rel8⟩, ⟨.eor, .indy⟩, ⟨.eor, .ind⟩, ⟨.eor, .sry⟩,
  ⟨.mvn, .blk⟩, ⟨.eor, .dpx⟩, ⟨.lsr, .dpx⟩, ⟨.eor, .indly⟩,
  ⟨.cli, .imp⟩, ⟨.eor, .absy⟩, ⟨.phy, .imp⟩, ⟨.tcd, .imp⟩,
  ⟨.jml, .long⟩, ⟨.eor, .absx⟩, ⟨.lsr, .absx⟩, ⟨.eor, .longx⟩]

/-- Row 6x of the matrix of R77. -/
def tableRow6 : List Descriptor := [
  ⟨.rts, .imp⟩, ⟨.adc, .indx⟩, ⟨.per, .rel16⟩, ⟨.adc, .sr⟩,
  ⟨.stz, .dp⟩, ⟨.adc, .dp⟩, ⟨.ror, .dp⟩, ⟨.adc, .indl⟩,
  ⟨.pla, .imp⟩, ⟨.adc, .immM⟩, ⟨.ror, .acc⟩, ⟨.rtl, .imp⟩,
  ⟨.jmp, .aind⟩, ⟨.adc, .abs⟩, ⟨.ror, .abs⟩, ⟨.adc, .long⟩]

/-- Row 7x of the matrix of R77. -/
def tableRow7 : List Descriptor := [
  ⟨.bvs, .rel8⟩, ⟨.adc, .indy⟩, ⟨.adc, .ind⟩, ⟨.adc, .sry⟩,
  ⟨.stz, .dpx⟩, ⟨.adc, .dpx⟩, ⟨.ror, .dpx⟩, ⟨.adc, .indly⟩,
  ⟨.sei, .imp⟩, ⟨.adc, .absy⟩, ⟨.ply, .imp⟩, ⟨.tdc, .imp⟩,
  ⟨.jmp, .aindx⟩, ⟨.adc, .absx⟩, ⟨.ror, .absx⟩, ⟨.adc, .longx⟩]

/-- Row 8x of the matrix of R77. -/
def tableRow8 : List Descriptor := [
  ⟨.bra, .rel8⟩, ⟨.sta, .indx⟩, ⟨.brl, .rel16⟩, ⟨.sta, .sr⟩,
  ⟨.sty, .dp⟩, ⟨.sta, .dp⟩, ⟨.stx, .dp⟩, ⟨.sta, .indl⟩,
  ⟨.dey, .imp⟩, ⟨.bit, .immM⟩, ⟨.txa, .imp⟩, ⟨.phb, .imp⟩,
  ⟨.sty, .abs⟩, ⟨.sta, .abs⟩, ⟨.stx, .abs⟩, ⟨.sta, .long⟩]

/-- Row 9x of the matrix of R77. -/
def tableRow9 : List Descriptor := [
  ⟨.bcc, .rel8⟩, ⟨.sta, .indy⟩, ⟨.sta, .ind⟩, ⟨.sta, .sry⟩,
  ⟨.sty, .dpx⟩, ⟨.sta, .dpx⟩, ⟨.stx, .dpy⟩, ⟨.sta, .indly⟩,
  ⟨.tya, .imp⟩, ⟨.sta, .absy⟩, ⟨.txs, .imp⟩, ⟨.txy, .imp⟩,
  ⟨.stz, .abs⟩, ⟨.sta, .absx⟩, ⟨.stz, .absx⟩, ⟨.sta, .longx⟩]

/-- Row Ax of the matrix of R77. -/
def tableRowA : List Descriptor := [
  ⟨.ldy, .immX⟩, ⟨.lda, .indx⟩, ⟨.ldx, .immX⟩, ⟨.lda, .sr⟩,
  ⟨.ldy, .dp⟩, ⟨.lda, .dp⟩, ⟨.ldx, .dp⟩, ⟨.lda, .indl⟩,
  ⟨.tay, .imp⟩, ⟨.lda, .immM⟩, ⟨.tax, .imp⟩, ⟨.plb, .imp⟩,
  ⟨.ldy, .abs⟩, ⟨.lda, .abs⟩, ⟨.ldx, .abs⟩, ⟨.lda, .long⟩]

/-- Row Bx of the matrix of R77. -/
def tableRowB : List Descriptor := [
  ⟨.bcs, .rel8⟩, ⟨.lda, .indy⟩, ⟨.lda, .ind⟩, ⟨.lda, .sry⟩,
  ⟨.ldy, .dpx⟩, ⟨.lda, .dpx⟩, ⟨.ldx, .dpy⟩, ⟨.lda, .indly⟩,
  ⟨.clv, .imp⟩, ⟨.lda, .absy⟩, ⟨.tsx, .imp⟩, ⟨.tyx, .imp⟩,
  ⟨.ldy, .absx⟩, ⟨.lda, .absx⟩, ⟨.ldx, .absy⟩, ⟨.lda, .longx⟩]

/-- Row Cx of the matrix of R77. -/
def tableRowC : List Descriptor := [
  ⟨.cpy, .immX⟩, ⟨.cmp, .indx⟩, ⟨.rep, .imm8⟩, ⟨.cmp, .sr⟩,
  ⟨.cpy, .dp⟩, ⟨.cmp, .dp⟩, ⟨.dec, .dp⟩, ⟨.cmp, .indl⟩,
  ⟨.iny, .imp⟩, ⟨.cmp, .immM⟩, ⟨.dex, .imp⟩, ⟨.wai, .imp⟩,
  ⟨.cpy, .abs⟩, ⟨.cmp, .abs⟩, ⟨.dec, .abs⟩, ⟨.cmp, .long⟩]

/-- Row Dx of the matrix of R77. -/
def tableRowD : List Descriptor := [
  ⟨.bne, .rel8⟩, ⟨.cmp, .indy⟩, ⟨.cmp, .ind⟩, ⟨.cmp, .sry⟩,
  ⟨.pei, .ind⟩, ⟨.cmp, .dpx⟩, ⟨.dec, .dpx⟩, ⟨.cmp, .indly⟩,
  ⟨.cld, .imp⟩, ⟨.cmp, .absy⟩, ⟨.phx, .imp⟩, ⟨.stp, .imp⟩,
  ⟨.jml, .aindl⟩, ⟨.cmp, .absx⟩, ⟨.dec, .absx⟩, ⟨.cmp, .longx⟩]

/-- Row Ex of the matrix of R77. -/
def tableRowE : List Descriptor := [
  ⟨.cpx, .immX⟩, ⟨.sbc, .indx⟩, ⟨.sep, .imm8⟩, ⟨.sbc, .sr⟩,
  ⟨.cpx, .dp⟩, ⟨.sbc, .dp⟩, ⟨.inc, .dp⟩, ⟨.sbc, .indl⟩,
  ⟨.inx, .imp⟩, ⟨.sbc, .immM⟩, ⟨.nop, .imp⟩, ⟨.xba, .imp⟩,
  ⟨.cpx, .abs⟩, ⟨.sbc, .abs⟩, ⟨.inc, .abs⟩, ⟨.sbc, .long⟩]

/-- Row Fx of the matrix of R77. -/
def tableRowF : List Descriptor := [
  ⟨.beq, .rel8⟩, ⟨.sbc, .indy⟩, ⟨.sbc, .ind⟩, ⟨.sbc, .sry⟩,
  ⟨.pea, .imm16⟩, ⟨.sbc, .dpx⟩, ⟨.inc, .dpx⟩, ⟨.sbc, .indly⟩,
  ⟨.sed, .imp⟩, ⟨.sbc, .absy⟩, ⟨.plx, .imp⟩, ⟨.xce, .imp⟩,
  ⟨.jsr, .aindx⟩, ⟨.sbc, .absx⟩, ⟨.inc, .absx⟩, ⟨.sbc, .longx⟩]

/-- The matrix of R77, one list a row. -/
def tableRows : List (List Descriptor) :=
  [tableRow0, tableRow1, tableRow2, tableRow3, tableRow4, tableRow5, tableRow6, tableRow7,
   tableRow8, tableRow9, tableRowA, tableRowB, tableRowC, tableRowD, tableRowE, tableRowF]

/-- The descriptor found "by indexing a 256-entry table with the whole byte" (R70): row = high nibble, column = low
nibble.  The table has all 256 entries, so the default is never read. -/
def instructionTable (opcode : Byte) : Descriptor :=
  (tableRows.getD (opcode.toNat / 16) []).getD (opcode.toNat % 16) ⟨.nop, .imp⟩

/-- Operand bytes of a mode (R72), with the two flag-dependent modes sized by `P.M` and `P.X` (R73). -/
def Mode.operandBytes (m x : Bool) : Mode → Nat
  | .imp => 0
  | .acc => 0
  | .imm8 => 1
  | .imm16 => 2
  | .immM => if m then 1 else 2
  | .immX => if x then 1 else 2
  | .dp => 1
  | .dpx => 1
  | .dpy => 1
  | .ind => 1
  | .indx => 1
  | .indy => 1
  | .indl => 1
  | .indly => 1
  | .abs => 2
  | .absx => 2
  | .absy => 2
  | .long => 3
  | .longx => 3
  | .sr => 1
  | .sry => 1
  | .rel8 => 1
  | .rel16 => 2
  | .blk => 2
  | .aind => 2
  | .aindx => 2
  | .aindl => 2

/-- How many operand bytes follow an opcode byte under the width flags (R80). -/
def operandCount (m x : Bool) (opcode : Byte) : Nat := (instructionTable opcode).mode.operandBytes m x

/-! ### The decoder

Each row function decodes one row of the matrix: the low nibble selects the constructor, and the operand bytes are read
in ascending order, little-endian (R74).  A byte list too short for the operand is refused by `none`. -/

/-- What the decoder answers: the instruction and the bytes it left. -/
abbrev Decoded := Option (Instr × List Byte)

/-- No operand byte (`imp`, `acc`). -/
def take0 (i : Instr) (rest : List Byte) : Decoded := some (i, rest)

/-- One operand byte. -/
def take1 (mk : Byte → Instr) : List Byte → Decoded
  | o1 :: rest => some (mk o1, rest)
  | [] => none

/-- Two operand bytes: `op16 = o2:o1`. -/
def take2 (mk : Word → Instr) : List Byte → Decoded
  | o1 :: o2 :: rest => some (mk (mkWord o2 o1), rest)
  | _ => none

/-- Three operand bytes: `op24 = o3:o2:o1`. -/
def take3 (mk : Address → Instr) : List Byte → Decoded
  | o1 :: o2 :: o3 :: rest => some (mk (mkAddr o3 (mkWord o2 o1)), rest)
  | _ => none

/-- A flag-dependent immediate: one byte when the governing flag is 1, two when it is 0 (R73). -/
def takeImm (flag : Bool) (mk : Imm → Instr) (bytes : List Byte) : Decoded :=
  if flag then take1 (fun v => mk (.imm8 v)) bytes else take2 (fun v => mk (.imm16 v)) bytes

/-- The two bank bytes of a block move, destination first (R81). -/
def takeBlk (mk : Byte → Byte → Instr) : List Byte → Decoded
  | o1 :: o2 :: rest => some (mk o1 o2, rest)
  | _ => none

/-- Row 0x of R77. -/
def decodeRow0 (m _x : Bool) (lo : Nat) (b : List Byte) : Decoded :=
  match lo with
  | 0x0 => take1 .brk b
  | 0x1 => take1 .oraIndx b
  | 0x2 => take1 .cop b
  | 0x3 => take1 .oraSr b
  | 0x4 => take1 .tsbDp b
  | 0x5 => take1 .oraDp b
  | 0x6 => take1 .aslDp b
  | 0x7 => take1 .oraIndl b
  | 0x8 => take0 .php b
  | 0x9 => takeImm m .oraImmM b
  | 0xA => take0 .aslAcc b
  | 0xB => take0 .phd b
  | 0xC => take2 .tsbAbs b
  | 0xD => take2 .oraAbs b
  | 0xE => take2 .aslAbs b
  | 0xF => take3 .oraLong b
  | _ => none

/-- Row 1x of R77. -/
def decodeRow1 (_m _x : Bool) (lo : Nat) (b : List Byte) : Decoded :=
  match lo with
  | 0x0 => take1 .bpl b
  | 0x1 => take1 .oraIndy b
  | 0x2 => take1 .oraInd b
  | 0x3 => take1 .oraSry b
  | 0x4 => take1 .trbDp b
  | 0x5 => take1 .oraDpx b
  | 0x6 => take1 .aslDpx b
  | 0x7 => take1 .oraIndly b
  | 0x8 => take0 .clc b
  | 0x9 => take2 .oraAbsy b
  | 0xA => take0 .incAcc b
  | 0xB => take0 .tcs b
  | 0xC => take2 .trbAbs b
  | 0xD => take2 .oraAbsx b
  | 0xE => take2 .aslAbsx b
  | 0xF => take3 .oraLongx b
  | _ => none

/-- Row 2x of R77. -/
def decodeRow2 (m _x : Bool) (lo : Nat) (b : List Byte) : Decoded :=
  match lo with
  | 0x0 => take2 .jsrAbs b
  | 0x1 => take1 .andIndx b
  | 0x2 => take3 .jsl b
  | 0x3 => take1 .andSr b
  | 0x4 => take1 .bitDp b
  | 0x5 => take1 .andDp b
  | 0x6 => take1 .rolDp b
  | 0x7 => take1 .andIndl b
  | 0x8 => take0 .plp b
  | 0x9 => takeImm m .andImmM b
  | 0xA => take0 .rolAcc b
  | 0xB => take0 .pld b
  | 0xC => take2 .bitAbs b
  | 0xD => take2 .andAbs b
  | 0xE => take2 .rolAbs b
  | 0xF => take3 .andLong b
  | _ => none

/-- Row 3x of R77. -/
def decodeRow3 (_m _x : Bool) (lo : Nat) (b : List Byte) : Decoded :=
  match lo with
  | 0x0 => take1 .bmi b
  | 0x1 => take1 .andIndy b
  | 0x2 => take1 .andInd b
  | 0x3 => take1 .andSry b
  | 0x4 => take1 .bitDpx b
  | 0x5 => take1 .andDpx b
  | 0x6 => take1 .rolDpx b
  | 0x7 => take1 .andIndly b
  | 0x8 => take0 .sec b
  | 0x9 => take2 .andAbsy b
  | 0xA => take0 .decAcc b
  | 0xB => take0 .tsc b
  | 0xC => take2 .bitAbsx b
  | 0xD => take2 .andAbsx b
  | 0xE => take2 .rolAbsx b
  | 0xF => take3 .andLongx b
  | _ => none

/-- Row 4x of R77. -/
def decodeRow4 (m _x : Bool) (lo : Nat) (b : List Byte) : Decoded :=
  match lo with
  | 0x0 => take0 .rti b
  | 0x1 => take1 .eorIndx b
  | 0x2 => take1 .wdm b
  | 0x3 => take1 .eorSr b
  | 0x4 => takeBlk .mvp b
  | 0x5 => take1 .eorDp b
  | 0x6 => take1 .lsrDp b
  | 0x7 => take1 .eorIndl b
  | 0x8 => take0 .pha b
  | 0x9 => takeImm m .eorImmM b
  | 0xA => take0 .lsrAcc b
  | 0xB => take0 .phk b
  | 0xC => take2 .jmpAbs b
  | 0xD => take2 .eorAbs b
  | 0xE => take2 .lsrAbs b
  | 0xF => take3 .eorLong b
  | _ => none

/-- Row 5x of R77. -/
def decodeRow5 (_m _x : Bool) (lo : Nat) (b : List Byte) : Decoded :=
  match lo with
  | 0x0 => take1 .bvc b
  | 0x1 => take1 .eorIndy b
  | 0x2 => take1 .eorInd b
  | 0x3 => take1 .eorSry b
  | 0x4 => takeBlk .mvn b
  | 0x5 => take1 .eorDpx b
  | 0x6 => take1 .lsrDpx b
  | 0x7 => take1 .eorIndly b
  | 0x8 => take0 .cli b
  | 0x9 => take2 .eorAbsy b
  | 0xA => take0 .phy b
  | 0xB => take0 .tcd b
  | 0xC => take3 .jmlLong b
  | 0xD => take2 .eorAbsx b
  | 0xE => take2 .lsrAbsx b
  | 0xF => take3 .eorLongx b
  | _ => none

/-- Row 6x of R77. -/
def decodeRow6 (m _x : Bool) (lo : Nat) (b : List Byte) : Decoded :=
  match lo with
  | 0x0 => take0 .rts b
  | 0x1 => take1 .adcIndx b
  | 0x2 => take2 .per b
  | 0x3 => take1 .adcSr b
  | 0x4 => take1 .stzDp b
  | 0x5 => take1 .adcDp b
  | 0x6 => take1 .rorDp b
  | 0x7 => take1 .adcIndl b
  | 0x8 => take0 .pla b
  | 0x9 => takeImm m .adcImmM b
  | 0xA => take0 .rorAcc b
  | 0xB => take0 .rtl b
  | 0xC => take2 .jmpAind b
  | 0xD => take2 .adcAbs b
  | 0xE => take2 .rorAbs b
  | 0xF => take3 .adcLong b
  | _ => none

/-- Row 7x of R77. -/
def decodeRow7 (_m _x : Bool) (lo : Nat) (b : List Byte) : Decoded :=
  match lo with
  | 0x0 => take1 .bvs b
  | 0x1 => take1 .adcIndy b
  | 0x2 => take1 .adcInd b
  | 0x3 => take1 .adcSry b
  | 0x4 => take1 .stzDpx b
  | 0x5 => take1 .adcDpx b
  | 0x6 => take1 .rorDpx b
  | 0x7 => take1 .adcIndly b
  | 0x8 => take0 .sei b
  | 0x9 => take2 .adcAbsy b
  | 0xA => take0 .ply b
  | 0xB => take0 .tdc b
  | 0xC => take2 .jmpAindx b
  | 0xD => take2 .adcAbsx b
  | 0xE => take2 .rorAbsx b
  | 0xF => take3 .adcLongx b
  | _ => none

/-- Row 8x of R77. -/
def decodeRow8 (m _x : Bool) (lo : Nat) (b : List Byte) : Decoded :=
  match lo with
  | 0x0 => take1 .bra b
  | 0x1 => take1 .staIndx b
  | 0x2 => take2 .brl b
  | 0x3 => take1 .staSr b
  | 0x4 => take1 .styDp b
  | 0x5 => take1 .staDp b
  | 0x6 => take1 .stxDp b
  | 0x7 => take1 .staIndl b
  | 0x8 => take0 .dey b
  | 0x9 => takeImm m .bitImmM b
  | 0xA => take0 .txa b
  | 0xB => take0 .phb b
  | 0xC => take2 .styAbs b
  | 0xD => take2 .staAbs b
  | 0xE => take2 .stxAbs b
  | 0xF => take3 .staLong b
  | _ => none

/-- Row 9x of R77. -/
def decodeRow9 (_m _x : Bool) (lo : Nat) (b : List Byte) : Decoded :=
  match lo with
  | 0x0 => take1 .bcc b
  | 0x1 => take1 .staIndy b
  | 0x2 => take1 .staInd b
  | 0x3 => take1 .staSry b
  | 0x4 => take1 .styDpx b
  | 0x5 => take1 .staDpx b
  | 0x6 => take1 .stxDpy b
  | 0x7 => take1 .staIndly b
  | 0x8 => take0 .tya b
  | 0x9 => take2 .staAbsy b
  | 0xA => take0 .txs b
  | 0xB => take0 .txy b
  | 0xC => take2 .stzAbs b
  | 0xD => take2 .staAbsx b
  | 0xE => take2 .stzAbsx b
  | 0xF => take3 .staLongx b
  | _ => none

/-- Row Ax of R77. -/
def decodeRowA (m x : Bool) (lo : Nat) (b : List Byte) : Decoded :=
  match lo with
  | 0x0 => takeImm x .ldyImmX b
  | 0x1 => take1 .ldaIndx b
  | 0x2 => takeImm x .ldxImmX b
  | 0x3 => take1 .ldaSr b
  | 0x4 => take1 .ldyDp b
  | 0x5 => take1 .ldaDp b
  | 0x6 => take1 .ldxDp b
  | 0x7 => take1 .ldaIndl b
  | 0x8 => take0 .tay b
  | 0x9 => takeImm m .ldaImmM b
  | 0xA => take0 .tax b
  | 0xB => take0 .plb b
  | 0xC => take2 .ldyAbs b
  | 0xD => take2 .ldaAbs b
  | 0xE => take2 .ldxAbs b
  | 0xF => take3 .ldaLong b
  | _ => none

/-- Row Bx of R77. -/
def decodeRowB (_m _x : Bool) (lo : Nat) (b : List Byte) : Decoded :=
  match lo with
  | 0x0 => take1 .bcs b
  | 0x1 => take1 .ldaIndy b
  | 0x2 => take1 .ldaInd b
  | 0x3 => take1 .ldaSry b
  | 0x4 => take1 .ldyDpx b
  | 0x5 => take1 .ldaDpx b
  | 0x6 => take1 .ldxDpy b
  | 0x7 => take1 .ldaIndly b
  | 0x8 => take0 .clv b
  | 0x9 => take2 .ldaAbsy b
  | 0xA => take0 .tsx b
  | 0xB => take0 .tyx b
  | 0xC => take2 .ldyAbsx b
  | 0xD => take2 .ldaAbsx b
  | 0xE => take2 .ldxAbsy b
  | 0xF => take3 .ldaLongx b
  | _ => none

/-- Row Cx of R77. -/
def decodeRowC (m x : Bool) (lo : Nat) (b : List Byte) : Decoded :=
  match lo with
  | 0x0 => takeImm x .cpyImmX b
  | 0x1 => take1 .cmpIndx b
  | 0x2 => take1 .rep b
  | 0x3 => take1 .cmpSr b
  | 0x4 => take1 .cpyDp b
  | 0x5 => take1 .cmpDp b
  | 0x6 => take1 .decDp b
  | 0x7 => take1 .cmpIndl b
  | 0x8 => take0 .iny b
  | 0x9 => takeImm m .cmpImmM b
  | 0xA => take0 .dex b
  | 0xB => take0 .wai b
  | 0xC => take2 .cpyAbs b
  | 0xD => take2 .cmpAbs b
  | 0xE => take2 .decAbs b
  | 0xF => take3 .cmpLong b
  | _ => none

/-- Row Dx of R77. -/
def decodeRowD (_m _x : Bool) (lo : Nat) (b : List Byte) : Decoded :=
  match lo with
  | 0x0 => take1 .bne b
  | 0x1 => take1 .cmpIndy b
  | 0x2 => take1 .cmpInd b
  | 0x3 => take1 .cmpSry b
  | 0x4 => take1 .pei b
  | 0x5 => take1 .cmpDpx b
  | 0x6 => take1 .decDpx b
  | 0x7 => take1 .cmpIndly b
  | 0x8 => take0 .cld b
  | 0x9 => take2 .cmpAbsy b
  | 0xA => take0 .phx b
  | 0xB => take0 .stp b
  | 0xC => take2 .jmlAindl b
  | 0xD => take2 .cmpAbsx b
  | 0xE => take2 .decAbsx b
  | 0xF => take3 .cmpLongx b
  | _ => none

/-- Row Ex of R77. -/
def decodeRowE (m x : Bool) (lo : Nat) (b : List Byte) : Decoded :=
  match lo with
  | 0x0 => takeImm x .cpxImmX b
  | 0x1 => take1 .sbcIndx b
  | 0x2 => take1 .sep b
  | 0x3 => take1 .sbcSr b
  | 0x4 => take1 .cpxDp b
  | 0x5 => take1 .sbcDp b
  | 0x6 => take1 .incDp b
  | 0x7 => take1 .sbcIndl b
  | 0x8 => take0 .inx b
  | 0x9 => takeImm m .sbcImmM b
  | 0xA => take0 .nop b
  | 0xB => take0 .xba b
  | 0xC => take2 .cpxAbs b
  | 0xD => take2 .sbcAbs b
  | 0xE => take2 .incAbs b
  | 0xF => take3 .sbcLong b
  | _ => none

/-- Row Fx of R77. -/
def decodeRowF (_m _x : Bool) (lo : Nat) (b : List Byte) : Decoded :=
  match lo with
  | 0x0 => take1 .beq b
  | 0x1 => take1 .sbcIndy b
  | 0x2 => take1 .sbcInd b
  | 0x3 => take1 .sbcSry b
  | 0x4 => take2 .pea b
  | 0x5 => take1 .sbcDpx b
  | 0x6 => take1 .incDpx b
  | 0x7 => take1 .sbcIndly b
  | 0x8 => take0 .sed b
  | 0x9 => take2 .sbcAbsy b
  | 0xA => take0 .plx b
  | 0xB => take0 .xce b
  | 0xC => take2 .jsrAindx b
  | 0xD => take2 .sbcAbsx b
  | 0xE => take2 .incAbsx b
  | 0xF => take3 .sbcLongx b
  | _ => none

/-- The opcode selects the instruction by its high nibble (row) and low nibble (column) of R77. -/
def decodeOpcode (m x : Bool) (opcode : Byte) (b : List Byte) : Decoded :=
  let lo := opcode.toNat % 16
  match opcode.toNat / 16 with
  | 0x0 => decodeRow0 m x lo b
  | 0x1 => decodeRow1 m x lo b
  | 0x2 => decodeRow2 m x lo b
  | 0x3 => decodeRow3 m x lo b
  | 0x4 => decodeRow4 m x lo b
  | 0x5 => decodeRow5 m x lo b
  | 0x6 => decodeRow6 m x lo b
  | 0x7 => decodeRow7 m x lo b
  | 0x8 => decodeRow8 m x lo b
  | 0x9 => decodeRow9 m x lo b
  | 0xA => decodeRowA m x lo b
  | 0xB => decodeRowB m x lo b
  | 0xC => decodeRowC m x lo b
  | 0xD => decodeRowD m x lo b
  | 0xE => decodeRowE m x lo b
  | 0xF => decodeRowF m x lo b
  | _ => none

/-- The decoder (R70, R73): the first byte is the opcode; `m`, `x` are `P.M`, `P.X` as they stand when it is decoded.
It is total: it answers an instruction and the bytes left, or `none` when the list is empty or ends inside an operand
(every opcode value decodes, R79). -/
def decode (m x : Bool) : List Byte → Decoded
  | [] => none
  | opcode :: rest => decodeOpcode m x opcode rest

/-! ### The encoder -/

/-- The opcode byte of each constructor: its row of spec/opcode_table.json (R77). -/
def Instr.opcode : Instr → Byte
  | .brk _ => 0x00#8
  | .oraIndx _ => 0x01#8
  | .cop _ => 0x02#8
  | .oraSr _ => 0x03#8
  | .tsbDp _ => 0x04#8
  | .oraDp _ => 0x05#8
  | .aslDp _ => 0x06#8
  | .oraIndl _ => 0x07#8
  | .php => 0x08#8
  | .oraImmM _ => 0x09#8
  | .aslAcc => 0x0A#8
  | .phd => 0x0B#8
  | .tsbAbs _ => 0x0C#8
  | .oraAbs _ => 0x0D#8
  | .aslAbs _ => 0x0E#8
  | .oraLong _ => 0x0F#8
  | .bpl _ => 0x10#8
  | .oraIndy _ => 0x11#8
  | .oraInd _ => 0x12#8
  | .oraSry _ => 0x13#8
  | .trbDp _ => 0x14#8
  | .oraDpx _ => 0x15#8
  | .aslDpx _ => 0x16#8
  | .oraIndly _ => 0x17#8
  | .clc => 0x18#8
  | .oraAbsy _ => 0x19#8
  | .incAcc => 0x1A#8
  | .tcs => 0x1B#8
  | .trbAbs _ => 0x1C#8
  | .oraAbsx _ => 0x1D#8
  | .aslAbsx _ => 0x1E#8
  | .oraLongx _ => 0x1F#8
  | .jsrAbs _ => 0x20#8
  | .andIndx _ => 0x21#8
  | .jsl _ => 0x22#8
  | .andSr _ => 0x23#8
  | .bitDp _ => 0x24#8
  | .andDp _ => 0x25#8
  | .rolDp _ => 0x26#8
  | .andIndl _ => 0x27#8
  | .plp => 0x28#8
  | .andImmM _ => 0x29#8
  | .rolAcc => 0x2A#8
  | .pld => 0x2B#8
  | .bitAbs _ => 0x2C#8
  | .andAbs _ => 0x2D#8
  | .rolAbs _ => 0x2E#8
  | .andLong _ => 0x2F#8
  | .bmi _ => 0x30#8
  | .andIndy _ => 0x31#8
  | .andInd _ => 0x32#8
  | .andSry _ => 0x33#8
  | .bitDpx _ => 0x34#8
  | .andDpx _ => 0x35#8
  | .rolDpx _ => 0x36#8
  | .andIndly _ => 0x37#8
  | .sec => 0x38#8
  | .andAbsy _ => 0x39#8
  | .decAcc => 0x3A#8
  | .tsc => 0x3B#8
  | .bitAbsx _ => 0x3C#8
  | .andAbsx _ => 0x3D#8
  | .rolAbsx _ => 0x3E#8
  | .andLongx _ => 0x3F#8
  | .rti => 0x40#8
  | .eorIndx _ => 0x41#8
  | .wdm _ => 0x42#8
  | .eorSr _ => 0x43#8
  | .mvp _ _ => 0x44#8
  | .eorDp _ => 0x45#8
  | .lsrDp _ => 0x46#8
  | .eorIndl _ => 0x47#8
  | .pha => 0x48#8
  | .eorImmM _ => 0x49#8
  | .lsrAcc => 0x4A#8
  | .phk => 0x4B#8
  | .jmpAbs _ => 0x4C#8
  | .eorAbs _ => 0x4D#8
  | .lsrAbs _ => 0x4E#8
  | .eorLong _ => 0x4F#8
  | .bvc _ => 0x50#8
  | .eorIndy _ => 0x51#8
  | .eorInd _ => 0x52#8
  | .eorSry _ => 0x53#8
  | .mvn _ _ => 0x54#8
  | .eorDpx _ => 0x55#8
  | .lsrDpx _ => 0x56#8
  | .eorIndly _ => 0x57#8
  | .cli => 0x58#8
  | .eorAbsy _ => 0x59#8
  | .phy => 0x5A#8
  | .tcd => 0x5B#8
  | .jmlLong _ => 0x5C#8
  | .eorAbsx _ => 0x5D#8
  | .lsrAbsx _ => 0x5E#8
  | .eorLongx _ => 0x5F#8
  | .rts => 0x60#8
  | .adcIndx _ => 0x61#8
  | .per _ => 0x62#8
  | .adcSr _ => 0x63#8
  | .stzDp _ => 0x64#8
  | .adcDp _ => 0x65#8
  | .rorDp _ => 0x66#8
  | .adcIndl _ => 0x67#8
  | .pla => 0x68#8
  | .adcImmM _ => 0x69#8
  | .rorAcc => 0x6A#8
  | .rtl => 0x6B#8
  | .jmpAind _ => 0x6C#8
  | .adcAbs _ => 0x6D#8
  | .rorAbs _ => 0x6E#8
  | .adcLong _ => 0x6F#8
  | .bvs _ => 0x70#8
  | .adcIndy _ => 0x71#8
  | .adcInd _ => 0x72#8
  | .adcSry _ => 0x73#8
  | .stzDpx _ => 0x74#8
  | .adcDpx _ => 0x75#8
  | .rorDpx _ => 0x76#8
  | .adcIndly _ => 0x77#8
  | .sei => 0x78#8
  | .adcAbsy _ => 0x79#8
  | .ply => 0x7A#8
  | .tdc => 0x7B#8
  | .jmpAindx _ => 0x7C#8
  | .adcAbsx _ => 0x7D#8
  | .rorAbsx _ => 0x7E#8
  | .adcLongx _ => 0x7F#8
  | .bra _ => 0x80#8
  | .staIndx _ => 0x81#8
  | .brl _ => 0x82#8
  | .staSr _ => 0x83#8
  | .styDp _ => 0x84#8
  | .staDp _ => 0x85#8
  | .stxDp _ => 0x86#8
  | .staIndl _ => 0x87#8
  | .dey => 0x88#8
  | .bitImmM _ => 0x89#8
  | .txa => 0x8A#8
  | .phb => 0x8B#8
  | .styAbs _ => 0x8C#8
  | .staAbs _ => 0x8D#8
  | .stxAbs _ => 0x8E#8
  | .staLong _ => 0x8F#8
  | .bcc _ => 0x90#8
  | .staIndy _ => 0x91#8
  | .staInd _ => 0x92#8
  | .staSry _ => 0x93#8
  | .styDpx _ => 0x94#8
  | .staDpx _ => 0x95#8
  | .stxDpy _ => 0x96#8
  | .staIndly _ => 0x97#8
  | .tya => 0x98#8
  | .staAbsy _ => 0x99#8
  | .txs => 0x9A#8
  | .txy => 0x9B#8
  | .stzAbs _ => 0x9C#8
  | .staAbsx _ => 0x9D#8
  | .stzAbsx _ => 0x9E#8
  | .staLongx _ => 0x9F#8
  | .ldyImmX _ => 0xA0#8
  | .ldaIndx _ => 0xA1#8
  | .ldxImmX _ => 0xA2#8
  | .ldaSr _ => 0xA3#8
  | .ldyDp _ => 0xA4#8
  | .ldaDp _ => 0xA5#8
  | .ldxDp _ => 0xA6#8
  | .ldaIndl _ => 0xA7#8
  | .tay => 0xA8#8
  | .ldaImmM _ => 0xA9#8
  | .tax => 0xAA#8
  | .plb => 0xAB#8
  | .ldyAbs _ => 0xAC#8
  | .ldaAbs _ => 0xAD#8
  | .ldxAbs _ => 0xAE#8
  | .ldaLong _ => 0xAF#8
  | .bcs _ => 0xB0#8
  | .ldaIndy _ => 0xB1#8
  | .ldaInd _ => 0xB2#8
  | .ldaSry _ => 0xB3#8
  | .ldyDpx _ => 0xB4#8
  | .ldaDpx _ => 0xB5#8
  | .ldxDpy _ => 0xB6#8
  | .ldaIndly _ => 0xB7#8
  | .clv => 0xB8#8
  | .ldaAbsy _ => 0xB9#8
  | .tsx => 0xBA#8
  | .tyx => 0xBB#8
  | .ldyAbsx _ => 0xBC#8
  | .ldaAbsx _ => 0xBD#8
  | .ldxAbsy _ => 0xBE#8
  | .ldaLongx _ => 0xBF#8
  | .cpyImmX _ => 0xC0#8
  | .cmpIndx _ => 0xC1#8
  | .rep _ => 0xC2#8
  | .cmpSr _ => 0xC3#8
  | .cpyDp _ => 0xC4#8
  | .cmpDp _ => 0xC5#8
  | .decDp _ => 0xC6#8
  | .cmpIndl _ => 0xC7#8
  | .iny => 0xC8#8
  | .cmpImmM _ => 0xC9#8
  | .dex => 0xCA#8
  | .wai => 0xCB#8
  | .cpyAbs _ => 0xCC#8
  | .cmpAbs _ => 0xCD#8
  | .decAbs _ => 0xCE#8
  | .cmpLong _ => 0xCF#8
  | .bne _ => 0xD0#8
  | .cmpIndy _ => 0xD1#8
  | .cmpInd _ => 0xD2#8
  | .cmpSry _ => 0xD3#8
  | .pei _ => 0xD4#8
  | .cmpDpx _ => 0xD5#8
  | .decDpx _ => 0xD6#8
  | .cmpIndly _ => 0xD7#8
  | .cld => 0xD8#8
  | .cmpAbsy _ => 0xD9#8
  | .phx => 0xDA#8
  | .stp => 0xDB#8
  | .jmlAindl _ => 0xDC#8
  | .cmpAbsx _ => 0xDD#8
  | .decAbsx _ => 0xDE#8
  | .cmpLongx _ => 0xDF#8
  | .cpxImmX _ => 0xE0#8
  | .sbcIndx _ => 0xE1#8
  | .sep _ => 0xE2#8
  | .sbcSr _ => 0xE3#8
  | .cpxDp _ => 0xE4#8
  | .sbcDp _ => 0xE5#8
  | .incDp _ => 0xE6#8
  | .sbcIndl _ => 0xE7#8
  | .inx => 0xE8#8
  | .sbcImmM _ => 0xE9#8
  | .nop => 0xEA#8
  | .xba => 0xEB#8
  | .cpxAbs _ => 0xEC#8
  | .sbcAbs _ => 0xED#8
  | .incAbs _ => 0xEE#8
  | .sbcLong _ => 0xEF#8
  | .beq _ => 0xF0#8
  | .sbcIndy _ => 0xF1#8
  | .sbcInd _ => 0xF2#8
  | .sbcSry _ => 0xF3#8
  | .pea _ => 0xF4#8
  | .sbcDpx _ => 0xF5#8
  | .incDpx _ => 0xF6#8
  | .sbcIndly _ => 0xF7#8
  | .sed => 0xF8#8
  | .sbcAbsy _ => 0xF9#8
  | .plx => 0xFA#8
  | .xce => 0xFB#8
  | .jsrAindx _ => 0xFC#8
  | .sbcAbsx _ => 0xFD#8
  | .incAbsx _ => 0xFE#8
  | .sbcLongx _ => 0xFF#8

def Imm.bytes : Imm → List Byte
  | .imm8 v => [v]
  | .imm16 v => [loByte v, hiByte v]

def wordBytes (v : Word) : List Byte := [loByte v, hiByte v]

def addressBytes (a : Address) : List Byte := [loByte (offsetOf a), hiByte (offsetOf a), bankOf a]

def MemOperand.bytes : MemOperand → List Byte
  | .dp o => [o]
  | .dpx o => [o]
  | .dpy o => [o]
  | .ind o => [o]
  | .indx o => [o]
  | .indy o => [o]
  | .indl o => [o]
  | .indly o => [o]
  | .abs a => wordBytes a
  | .absx a => wordBytes a
  | .absy a => wordBytes a
  | .long a => addressBytes a
  | .longx a => addressBytes a
  | .sr o => [o]
  | .sry o => [o]

/-- The operand bytes in fetch order, `o1` first (R74, R81). -/
def Operand.bytes : Operand → List Byte
  | .imp => []
  | .acc => []
  | .imm8 v => [v]
  | .imm16 v => wordBytes v
  | .immM v => v.bytes
  | .immX v => v.bytes
  | .mem m => m.bytes
  | .rel8 d => [d]
  | .rel16 d => wordBytes d
  | .blk dst src => [dst, src]
  | .aind a => wordBytes a
  | .aindx a => wordBytes a
  | .aindl a => wordBytes a

/-- The bytes of an instruction: opcode, then operand bytes (R70). -/
def encode (i : Instr) : List Byte := i.opcode :: i.operand.bytes

/-- Length of an instruction in bytes (R80). -/
def Instr.length (i : Instr) : Nat := (encode i).length

/-! ### Words of the opcode table -/

/-- The longest instruction has four bytes (R70). -/
def maxLength : Nat := 4

/-- The first `n` bytes of the number `w`, least significant byte first: bit 0 is the least significant bit of the
byte at the lowest address. -/
def wordToBytes : Nat → Nat → List Byte
  | 0, _ => []
  | n + 1, w => BitVec.ofNat 8 w :: wordToBytes n (w / 256)

/-- The bytes of an instruction whose bits are `w`: the bits above `nbits` are 0, up to the longest instruction. -/
def tableWordBytes (nbits w : Nat) : List Byte := wordToBytes maxLength (w % 2 ^ nbits)

/-- The instruction the decoder reads from an opcode-table word, with the width flags as reset leaves them
(`P.M = P.X = 1`, R350). -/
def decodeTableWord (nbits w : Nat) : Option Instr := (decode true true (tableWordBytes nbits w)).map (·.1)

end Sys2Proof
end

