-- ==== Sys2Proof/Config.lean ====
section
/-! DEFINITION. Sys2Proof/Config.lean: the implementation parameters (R5), the constants the source fixes, and the
free values the spec leaves open (opaque constants with no body). -/
namespace Sys2Proof

/-- Direction of a bus access (R28). -/
inductive Direction where
  | read
  | write
  deriving DecidableEq, Repr

/-- One call of a callback region's read or write function (R42): which region, at which bus address, in which
direction, and the byte it answered or was given. -/
structure CallbackAccess where
  region : Nat
  addr   : Address
  dir    : Direction
  value  : Byte
  deriving DecidableEq, Repr

/-- Which function from instructions to cycle counts the session uses (R357): the default table of R358 and R359, or
a cost function of the session's own. -/
inductive CycleChoice where
  | wdcTable
  | session
  deriving DecidableEq, Repr

/-- The parameters of R5 whose kind is "parameter", each with the spec's default.  `counterWidth = none` is the
unbounded counter of decision D20. -/
structure Params where
  abortOpcode          : Byte := 0x42#8
  hasInterruptInputs   : Bool := false
  emuDpPageWrap        : Bool := false
  emuStackNewInsn16Bit : Bool := false
  cycleCost            : CycleChoice := .wdcTable
  counterWidth         : Option Nat := none
  deriving DecidableEq, Repr

/-- The inputs of `CycleCost` (R357), with the flags and registers as they were at the start of the step (R359).
`index` is the index register of the mode and `base` the 24-bit address it is added to, both 0 where the mode has no
index; `taken` is whether a branch was taken; `target` is where a branch goes (also one not taken), and for every other
instruction the `PC` it ends with.  DESIGN CHOICE for the instructions to which an input does not apply: log entry 6. -/
structure CycleInputs where
  opcode : Byte
  e      : Bool
  m      : Bool
  x      : Bool
  d      : Word
  index  : Word
  base   : Address
  taken  : Bool
  pc0    : Word
  target : Word
  deriving DecidableEq, Repr

namespace Config

/-- log2 of the size of a segment (R5 `SEG_SHIFT`): 16-byte segments. -/
def segShift : Nat := 4

/-- Entries of the segment table (R5 `SEG_COUNT`). -/
def segCount : Nat := 1048576

/-- Address of the two-byte reset vector (R5 `RESET_VECTOR`). -/
def resetVector : Address := 0x00FFFC#24

/-- Stack pointer after reset (R5 `RESET_S`). -/
def resetS : Word := 0x01FF#16

/-- FREE VALUE (R42, U4): the byte a callback region's read function answers, for the region, the bus address and
every callback access made before it (newest first).  Nothing constrains it: log entry 4. -/
opaque callbackByte (region : Nat) (addr : Address) (past : List CallbackAccess) : Byte

/-- FREE VALUE (R43): the byte number a session's own index map gives for a bus address in a flat region whose map is
not the reference one.  Nothing constrains it: log entry 5. -/
opaque sessionIndex (map : Nat) (addr : Address) : Nat

/-- FREE VALUE (R357): the cycle count a session's own `CycleCost` gives an instruction.  Log entry 6. -/
opaque sessionCycles (inputs : CycleInputs) : Nat

/-- FREE VALUE (R328, R357): the cycle count a session's own `CycleCost` gives an interrupt entry, by `E`.
Log entry 6. -/
opaque sessionInterruptCycles (e : Bool) : Nat

end Config

end Sys2Proof
end

