-- ==== Sys2Proof/Machine/Cycles.lean ====
section
/-! DEFINITION. Sys2Proof/Machine/Cycles.lean: the default `CycleCost` (R357 to R359): base costs with adjustment notes, and
what each note adds. -/
namespace Sys2Proof.Machine

/-- The adjustment notes of R359. -/
inductive CycleNote where
  | m | mm | x | dl | px | br | bp | e
  deriving DecidableEq, Repr

/-- A cell of the table of R358: the base cost and its notes. -/
abbrev CycleCell := Nat × List CycleNote

/-- Row 0x of R358. -/
def cycleRow0 : List CycleCell := [
  (7, [.e]), (6, [.m, .dl]), (7, [.e]), (4, [.m]),
  (5, [.dl, .mm]), (3, [.m, .dl]), (5, [.dl, .mm]), (6, [.m, .dl]),
  (3, []), (2, [.m]), (2, []), (4, []),
  (6, [.mm]), (4, [.m]), (6, [.mm]), (5, [.m])]

/-- Row 1x of R358. -/
def cycleRow1 : List CycleCell := [
  (2, [.br]), (5, [.m, .dl, .px]), (5, [.m, .dl]), (7, [.m]),
  (5, [.dl, .mm]), (4, [.m, .dl]), (6, [.dl, .mm]), (6, [.m, .dl]),
  (2, []), (4, [.m, .px]), (2, []), (2, []),
  (6, [.mm]), (4, [.m, .px]), (7, [.mm]), (5, [.m])]

/-- Row 2x of R358. -/
def cycleRow2 : List CycleCell := [
  (6, []), (6, [.m, .dl]), (8, []), (4, [.m]),
  (3, [.m, .dl]), (3, [.m, .dl]), (5, [.dl, .mm]), (6, [.m, .dl]),
  (4, []), (2, [.m]), (2, []), (5, []),
  (4, [.m]), (4, [.m]), (6, [.mm]), (5, [.m])]

/-- Row 3x of R358. -/
def cycleRow3 : List CycleCell := [
  (2, [.br]), (5, [.m, .dl, .px]), (5, [.m, .dl]), (7, [.m]),
  (4, [.m, .dl]), (4, [.m, .dl]), (6, [.dl, .mm]), (6, [.m, .dl]),
  (2, []), (4, [.m, .px]), (2, []), (2, []),
  (4, [.m, .px]), (4, [.m, .px]), (7, [.mm]), (5, [.m])]

/-- Row 4x of R358. -/
def cycleRow4 : List CycleCell := [
  (6, [.e]), (6, [.m, .dl]), (2, []), (4, [.m]),
  (7, []), (3, [.m, .dl]), (5, [.dl, .mm]), (6, [.m, .dl]),
  (3, [.m]), (2, [.m]), (2, []), (3, []),
  (3, []), (4, [.m]), (6, [.mm]), (5, [.m])]

/-- Row 5x of R358. -/
def cycleRow5 : List CycleCell := [
  (2, [.br]), (5, [.m, .dl, .px]), (5, [.m, .dl]), (7, [.m]),
  (7, []), (4, [.m, .dl]), (6, [.dl, .mm]), (6, [.m, .dl]),
  (2, []), (4, [.m, .px]), (3, [.x]), (2, []),
  (4, []), (4, [.m, .px]), (7, [.mm]), (5, [.m])]

/-- Row 6x of R358. -/
def cycleRow6 : List CycleCell := [
  (6, []), (6, [.m, .dl]), (6, []), (4, [.m]),
  (3, [.m, .dl]), (3, [.m, .dl]), (5, [.dl, .mm]), (6, [.m, .dl]),
  (4, [.m]), (2, [.m]), (2, []), (6, []),
  (5, []), (4, [.m]), (6, [.mm]), (5, [.m])]

/-- Row 7x of R358. -/
def cycleRow7 : List CycleCell := [
  (2, [.br]), (5, [.m, .dl, .px]), (5, [.m, .dl]), (7, [.m]),
  (4, [.m, .dl]), (4, [.m, .dl]), (6, [.dl, .mm]), (6, [.m, .dl]),
  (2, []), (4, [.m, .px]), (4, [.x]), (2, []),
  (6, []), (4, [.m, .px]), (7, [.mm]), (5, [.m])]

/-- Row 8x of R358. -/
def cycleRow8 : List CycleCell := [
  (3, [.bp]), (6, [.m, .dl]), (4, []), (4, [.m]),
  (3, [.x, .dl]), (3, [.m, .dl]), (3, [.x, .dl]), (6, [.m, .dl]),
  (2, []), (2, [.m]), (2, []), (3, []),
  (4, [.x]), (4, [.m]), (4, [.x]), (5, [.m])]

/-- Row 9x of R358. -/
def cycleRow9 : List CycleCell := [
  (2, [.br]), (6, [.m, .dl]), (5, [.m, .dl]), (7, [.m]),
  (4, [.x, .dl]), (4, [.m, .dl]), (4, [.x, .dl]), (6, [.m, .dl]),
  (2, []), (5, [.m]), (2, []), (2, []),
  (4, [.m]), (5, [.m]), (5, [.m]), (5, [.m])]

/-- Row Ax of R358. -/
def cycleRowA : List CycleCell := [
  (2, [.x]), (6, [.m, .dl]), (2, [.x]), (4, [.m]),
  (3, [.x, .dl]), (3, [.m, .dl]), (3, [.x, .dl]), (6, [.m, .dl]),
  (2, []), (2, [.m]), (2, []), (4, []),
  (4, [.x]), (4, [.m]), (4, [.x]), (5, [.m])]

/-- Row Bx of R358. -/
def cycleRowB : List CycleCell := [
  (2, [.br]), (5, [.m, .dl, .px]), (5, [.m, .dl]), (7, [.m]),
  (4, [.x, .dl]), (4, [.m, .dl]), (4, [.x, .dl]), (6, [.m, .dl]),
  (2, []), (4, [.m, .px]), (2, []), (2, []),
  (4, [.x, .px]), (4, [.m, .px]), (4, [.x, .px]), (5, [.m])]

/-- Row Cx of R358. -/
def cycleRowC : List CycleCell := [
  (2, [.x]), (6, [.m, .dl]), (3, []), (4, [.m]),
  (3, [.x, .dl]), (3, [.m, .dl]), (5, [.dl, .mm]), (6, [.m, .dl]),
  (2, []), (2, [.m]), (2, []), (3, []),
  (4, [.x]), (4, [.m]), (6, [.mm]), (5, [.m])]

/-- Row Dx of R358. -/
def cycleRowD : List CycleCell := [
  (2, [.br]), (5, [.m, .dl, .px]), (5, [.m, .dl]), (7, [.m]),
  (6, [.dl]), (4, [.m, .dl]), (6, [.dl, .mm]), (6, [.m, .dl]),
  (2, []), (4, [.m, .px]), (3, [.x]), (3, []),
  (6, []), (4, [.m, .px]), (7, [.mm]), (5, [.m])]

/-- Row Ex of R358. -/
def cycleRowE : List CycleCell := [
  (2, [.x]), (6, [.m, .dl]), (3, []), (4, [.m]),
  (3, [.x, .dl]), (3, [.m, .dl]), (5, [.dl, .mm]), (6, [.m, .dl]),
  (2, []), (2, [.m]), (2, []), (3, []),
  (4, [.x]), (4, [.m]), (6, [.mm]), (5, [.m])]

/-- Row Fx of R358. -/
def cycleRowF : List CycleCell := [
  (2, [.br]), (5, [.m, .dl, .px]), (5, [.m, .dl]), (7, [.m]),
  (5, []), (4, [.m, .dl]), (6, [.dl, .mm]), (6, [.m, .dl]),
  (2, []), (4, [.m, .px]), (4, [.x]), (2, []),
  (8, []), (4, [.m, .px]), (7, [.mm]), (5, [.m])]

/-- The table of R358: row = high nibble of the opcode, column = low nibble. -/
def cycleRows : List (List CycleCell) :=
  [cycleRow0, cycleRow1, cycleRow2, cycleRow3, cycleRow4, cycleRow5, cycleRow6, cycleRow7,
   cycleRow8, cycleRow9, cycleRowA, cycleRowB, cycleRowC, cycleRowD, cycleRowE, cycleRowF]

def cycleCell (opcode : Byte) : CycleCell :=
  (cycleRows.getD (opcode.toNat / 16) []).getD (opcode.toNat % 16) (0, [])

/-- `v & 0xFF00`, the page of an offset. -/
def pageOf (v : Word) : Word := v &&& 0xFF00#16

/-- The branch crossed a page: `(PCn & 0xFF00) != (target & 0xFF00)`; the branches of R359 have two bytes. -/
def branchCrosses (ci : CycleInputs) : Bool := pageOf (ci.pc0 + 2#16) != pageOf ci.target

/-- What a note adds, with the flags and registers of the start of the step (R359); `base16` is the offset of the base
address. -/
def noteCost (ci : CycleInputs) : CycleNote → Nat
  | .m => if ci.m then 0 else 1
  | .mm => if ci.m then 0 else 2
  | .x => if ci.x then 0 else 1
  | .dl => if ci.d &&& 0x00FF#16 = 0#16 then 0 else 1
  | .px => if ci.x && pageOf (offsetOf ci.base) == pageOf (offsetOf ci.base + ci.index) then 0 else 1
  | .br => if ci.taken then (if ci.e && branchCrosses ci then 2 else 1) else 0
  | .bp => if ci.e && branchCrosses ci then 1 else 0
  | .e => if ci.e then 0 else 1

/-- The default cost (R358, R359): the base cost plus every adjustment. -/
def wdcCost (ci : CycleInputs) : Nat :=
  let cell := cycleCell ci.opcode
  cell.1 + (cell.2.map (noteCost ci)).sum

/-- `CycleCost` as the session chose it (R357). -/
def cycleCost (choice : CycleChoice) (ci : CycleInputs) : Nat :=
  match choice with
  | .wdcTable => wdcCost ci
  | .session => Config.sessionCycles ci

/-- `CycleCost(interrupt)` (R328): 7 in Emulation mode and 8 in Native mode by default. -/
def interruptCost (choice : CycleChoice) (e : Bool) : Nat :=
  match choice with
  | .wdcTable => if e then 7 else 8
  | .session => Config.sessionInterruptCycles e

/-- A counter value under `COUNTER_WIDTH` (R5, U16): unbounded, or modulo `2^width`. -/
def wrapCounter (width : Option Nat) (n : Nat) : Nat :=
  match width with
  | none => n
  | some w => n % 2 ^ w

end Sys2Proof.Machine
end

