-- ==== Sys2Proof/Machine/State.lean ====
section
/-! DEFINITION. Sys2Proof/Machine/State.lean: everything the spec gives the session (10_state.md, 20_memory.md): the register
file, the flags, the bus with its segment table and regions, the latches of the step primitive, the counters and the
parameters; the reasons a step can stop; and the state after reset. -/
namespace Sys2Proof.Machine

/-! ### Registers and flags -/

/-- The eight 1-bit status flags (R18).  They pack into the byte `P` in this order, `n` at bit 7. -/
structure Status where
  n : Bool
  v : Bool
  m : Bool
  x : Bool
  d : Bool
  i : Bool
  z : Bool
  c : Bool
  deriving DecidableEq, Repr

/-- The register file of R11: `A`, `X`, `Y`, `D`, `S`, `PC` (16 bits), `DB`, `PB` (8 bits), the flags and the
emulation-mode bit `E` (R19). -/
structure Cpu where
  a  : Word
  x  : Word
  y  : Word
  d  : Word
  s  : Word
  pc : Word
  db : Byte
  pb : Byte
  p  : Status
  e  : Bool
  deriving DecidableEq, Repr

/-! ### Memory regions and the bus -/

/-- Storage of a flat region: (byte number, byte) pairs in one canonical form (`Memory.wf`).  A byte number that is not
listed reads as `Memory.unlisted`. -/
abbrev Memory := List Host.Cell

/-- What an unlisted byte of a region reads as: 0x00, what `clear()` leaves in every byte of a RAM region (R43).
DESIGN CHOICE for RAM the host has not filled: log entry 2. -/
def Memory.unlisted : Byte := 0x00#8

/-- The canonical form: byte numbers strictly rise, and no entry holds the unlisted byte. -/
abbrev Memory.wf (m : Memory) : Prop :=
  m.Pairwise (fun c c' => c.1 < c'.1) ∧ ∀ c ∈ m, c.2 ≠ Memory.unlisted

/-- The three variants of a Memory Region (R42). -/
inductive RegionKind where
  | ram
  | rom
  | callback
  deriving DecidableEq, Repr

/-- How a flat region turns a bus address into a byte number (R43): `(a - origin) mod size`, or a total function the
session supplies instead. -/
inductive IndexMap where
  | reference
  | session (map : Nat)
  deriving DecidableEq, Repr

/-- A Memory Region (R41 to R43).  `bytes` is the storage of a RAM or ROM region; a callback region has none. -/
structure Region where
  kind   : RegionKind
  size   : Nat
  origin : Address
  map    : IndexMap := .reference
  bytes  : Memory
  deriving DecidableEq, Repr

/-- One successful `attach` (R44): every segment from `first` to `last` refers to region number `region`. -/
structure Attachment where
  region : Nat
  first  : Nat
  last   : Nat
  deriving DecidableEq, Repr

/-- The address bus (R2, R27, R28).  `regions` are the attached regions, referred to by their number; `table` is the
segment table as the attachments that made it, the latest first ("last attachment wins", R44); `lastAddr`, `lastDir`
are the introspection record; `callbackLog` is the model's own record of every callback access, the latest first. -/
structure Bus where
  regions     : List Region
  table       : List Attachment
  lastAddr    : Address
  lastDir     : Direction
  callbackLog : List CallbackAccess
  deriving DecidableEq, Repr

/-! ### Latches -/

/-- Why stepping was aborted (R29, R321). -/
inductive AbortCause where
  | noAbort
  | abortInstruction
  | stopped
  | busUnmapped (addr : Address) (dir : Direction)
  | widthMismatch
  deriving DecidableEq, Repr

/-- The numbers of R321. -/
def AbortCause.code : AbortCause → Nat
  | .noAbort => 0
  | .abortInstruction => 1
  | .stopped => 2
  | .busUnmapped _ _ => 3
  | .widthMismatch => 4

/-! ### The state -/

/-- The session (R2, R10, 10_state.md): parameters, register file, bus, the latches of R29, the interrupt inputs of
R30 (without effect unless `params.hasInterruptInputs`), the counters of R25 and `prev_PC` of R26. -/
structure State where
  params      : Params
  cpu         : Cpu
  bus         : Bus
  abortCause  : AbortCause
  stopped     : Bool
  waiting     : Bool
  nmiPending  : Bool
  irqLine     : Bool
  cyclesLast  : Nat
  cyclesTotal : Nat
  prevPc      : Word
  deriving DecidableEq, Repr

/-! ### Reasons to stop -/

/-- Faults of the model. Every failure the spec describes is an abort: a next state with `abortCause` set (R321). -/
inductive Fault where
  /-- Raised by `step` alone, if the decoder refused the bytes it fetched.  It fetches exactly the bytes the decoder
  needs, so no state raises it.  Safe: the model would stop where the hardware goes on. -/
  | undecodable
  deriving DecidableEq, Repr

/-- Refusals of the model. -/
inductive Refusal where
  /-- Raised by an arm of `exec` whose instruction has no meaning yet.  No arm raises it.  Safe. -/
  | notModelled (mnemonic : String)
  deriving DecidableEq, Repr

/-! ### Reset -/

/-- The bus of the session `State.reset` describes: one RAM region over the whole 24-bit space, `size = 2^24`,
`origin = 0`, nothing listed.  DESIGN CHOICE (the regions are the session's, R5): log entry 2. -/
def Bus.reset : Bus where
  regions := [{ kind := .ram, size := 16777216, origin := 0x000000#24, bytes := [] }]
  table := [{ region := 0, first := 0, last := 1048575 }]
  lastAddr := 0x00FFFD#24
  lastDir := .read
  callbackLog := []

/-- The flags after reset (R32): `M = X = 1`, `D = 0`, `I = 1`; `N`, `V`, `Z`, `C` are not written by `reset()`
(DESIGN CHOICE 0: log entry 1). -/
def Status.reset : Status where
  n := false
  v := false
  m := true
  x := true
  d := false
  i := true
  z := false
  c := false

/-- The register file after reset (R32, R350).  `PC` is the two bytes at `0x00FFFC` of the unlisted memory of
`Bus.reset`.  `A`, `X[7:0]`, `Y[7:0]` are not written by `reset()` (DESIGN CHOICE 0: log entry 1). -/
def Cpu.reset : Cpu where
  a := 0x0000#16
  x := 0x0000#16
  y := 0x0000#16
  d := 0x0000#16
  s := Config.resetS
  pc := 0x0000#16
  db := 0x00#8
  pb := 0x00#8
  p := Status.reset
  e := true

/-- The machine right after `reset()` (R32, R350), for the session of `Bus.reset` with the default parameters. -/
def State.reset : State where
  params := {}
  cpu := Cpu.reset
  bus := Bus.reset
  abortCause := .noAbort
  stopped := false
  waiting := false
  nmiPending := false
  irqLine := false
  cyclesLast := 0
  cyclesTotal := 0
  prevPc := 0x0000#16

end Sys2Proof.Machine
end

