-- ==== Sys2Proof/Machine/Ops.lean ====
section
/-! DEFINITION. Sys2Proof/Machine/Ops.lean: the shared operations: storage, the bus, multi-byte access with the two wrap
disciplines, register views, `Normalize()`, the stack, taking a trap and returning from one, and how one instruction is
performed (with the rollback of a bus failure). -/
namespace Sys2Proof.Machine

/-! ### Storage of a region -/

/-- The byte with number `k`. -/
def Memory.read : Memory → Nat → Byte
  | [], _ => Memory.unlisted
  | (k', v) :: rest, k => if k' = k then v else Memory.read rest k

/-- Insert or overwrite the entry of byte number `k`, keeping the numbers rising. -/
def Memory.insert : Memory → Nat → Byte → Memory
  | [], k, v => [(k, v)]
  | (k', v') :: rest, k, v =>
    if k < k' then (k, v) :: (k', v') :: rest
    else if k = k' then (k, v) :: rest
    else (k', v') :: Memory.insert rest k v

/-- Drop the entry of byte number `k`. -/
def Memory.erase : Memory → Nat → Memory
  | [], _ => []
  | (k', v') :: rest, k => if k' = k then rest else (k', v') :: Memory.erase rest k

/-- Store a byte in canonical form: the unlisted byte is stored by removing the entry. -/
def Memory.write (m : Memory) (k : Nat) (v : Byte) : Memory :=
  if v = Memory.unlisted then Memory.erase m k else Memory.insert m k v

/-! ### Regions (R41 to R43) -/

/-- The byte number a bus address has in a flat region: `(a - origin) mod size`, or the session's own map (R43).  The
difference is taken modulo `size`, so an address below `origin` counts from the end.  R43 gives no region of size 0; the
model indexes one by the bus address itself, whatever the origin (DESIGN CHOICE: log entry 18). -/
def Region.index (r : Region) (a : Address) : Nat :=
  match r.map with
  | .reference => (a.toNat + (r.size - r.origin.toNat % r.size)) % r.size
  | .session k => Config.sessionIndex k a % r.size

/-- The byte a flat region holds at a bus address: what `read` of a RAM or ROM region answers (R42). -/
def Region.peek (r : Region) (a : Address) : Byte := r.bytes.read (r.index a)

/-- Store a byte in the storage, whatever the kind: what `write` of a RAM region does, and how the constructor of a ROM
region fills its image.  `write` by kind is `Bus.writeRegion`. -/
def Region.poke (r : Region) (a : Address) (v : Byte) : Region := { r with bytes := r.bytes.write (r.index a) v }

/-- The segment an address lies in: `addr >> 4` (R47). -/
def segmentOf (a : Address) : Nat := a.toNat / 2 ^ Config.segShift

/-- The segment table entry (R27, R44): the region of the latest attachment that covers the segment. -/
def lookupSegment : List Attachment → Nat → Option Nat
  | [], _ => none
  | t :: rest, seg => if t.first ≤ seg ∧ seg ≤ t.last then some t.region else lookupSegment rest seg

/-- The number of the region an address is dispatched to, if its segment is mapped. -/
def Bus.regionNumber (b : Bus) (a : Address) : Option Nat := lookupSegment b.table (segmentOf a)

/-- The region an address is dispatched to. -/
def Bus.regionAt (b : Bus) (a : Address) : Option Region := (b.regionNumber a).bind (b.regions[·]?)

/-- The segment of the address is mapped. -/
def Bus.mapped (b : Bus) (a : Address) : Bool := (b.regionAt a).isSome

/-- The byte of a RAM or ROM region at an address, without a call of a callback region's function. -/
def Region.flatByte (r : Region) (a : Address) : Option Byte :=
  match r.kind with
  | .ram => some (r.peek a)
  | .rom => some (r.peek a)
  | .callback => none

/-- What a read of the address would answer, without performing it: the byte of a mapped RAM or ROM region. -/
def Bus.peek (b : Bus) (a : Address) : Option Byte := (b.regionAt a).bind (·.flatByte a)

def State.peek (s : State) (a : Address) : Option Byte := s.bus.peek a

/-! ### Updates of the state -/

def State.withCpu (s : State) (c : Cpu) : State := { s with cpu := c }

def State.withBus (s : State) (b : Bus) : State := { s with bus := b }

/-- Record the address and direction of an access (R28). -/
def Bus.record (b : Bus) (a : Address) (d : Direction) : Bus := { b with lastAddr := a, lastDir := d }

/-- Replace the region with number `k`. -/
def Bus.setRegion (b : Bus) (k : Nat) (r : Region) : Bus := { b with regions := b.regions.set k r }

/-- Record a call of a callback region's function. -/
def Bus.logCallback (b : Bus) (c : CallbackAccess) : Bus := { b with callbackLog := c :: b.callbackLog }

/-! ### Byte access

`BusM` is the computation of one instruction: it carries the state and may end with the failing access of a
`BusUnmapped`, keeping the state reached by then. -/

/-- `read(addr)` of region number `k` (R41, R42), by its kind: the byte and the bus after it.  A callback region answers
the free value `Config.callbackByte` and the call is logged (R57).  Nothing where there is no such region. -/
def Bus.readRegion (b : Bus) (k : Nat) (a : Address) : Option (Byte × Bus) :=
  match b.regions[k]? with
  | none => none
  | some r =>
    match r.kind with
    | .ram => some (r.peek a, b)
    | .rom => some (r.peek a, b)
    | .callback =>
      let v := Config.callbackByte k a b.callbackLog
      some (v, b.logCallback ⟨k, a, .read, v⟩)

/-- `write(addr, v)` of region number `k` (R41, R42), by its kind: a RAM region stores, a ROM region ignores the write, a
callback region's write function is called (logged). -/
def Bus.writeRegion (b : Bus) (k : Nat) (a : Address) (v : Byte) : Option Bus :=
  match b.regions[k]? with
  | none => none
  | some r =>
    match r.kind with
    | .ram => some (b.setRegion k (r.poke a v))
    | .rom => some b
    | .callback => some (b.logCallback ⟨k, a, .write, v⟩)

/-- One read access of the bus (R47): record it, then the `read` of the region the address is dispatched to; nothing for an
empty segment entry. -/
def Bus.load (b : Bus) (a : Address) : Option (Byte × Bus) :=
  match b.regionNumber a with
  | none => none
  | some k => (b.record a .read).readRegion k a

/-- One write access of the bus (R48): record it, then the `write` of the region the address is dispatched to; nothing for
an empty segment entry. -/
def Bus.store (b : Bus) (a : Address) (v : Byte) : Option Bus :=
  match b.regionNumber a with
  | none => none
  | some k => (b.record a .write).writeRegion k a v

/-- The payload of `BusUnmapped` (R321): the failing address and direction. -/
structure BusFailure where
  addr : Address
  dir  : Direction
  deriving DecidableEq, Repr

abbrev BusM := EStateM BusFailure State

/-- `BusRead(addr)` (R47): record, dispatch, read; an empty segment entry raises `BusUnmapped(addr, Read)`. -/
def busRead (a : Address) : BusM Byte := fun s =>
  match s.bus.load a with
  | some (v, b) => .ok v (s.withBus b)
  | none => .error ⟨a, .read⟩ (s.withBus (s.bus.record a .read))

/-- `BusWrite(addr, v)` (R48): record, dispatch, write; an empty segment entry raises `BusUnmapped(addr, Write)`. -/
def busWrite (a : Address) (v : Byte) : BusM Unit := fun s =>
  match s.bus.store a v with
  | some b => .ok () (s.withBus b)
  | none => .error ⟨a, .write⟩ (s.withBus (s.bus.record a .write))

/-! ### Multi-byte access (R51 to R53) -/

/-- The two wrap disciplines: `bank` inside the 16-bit offset, `addr` across the 24-bit space. -/
inductive Wrap where
  | bank
  | addr
  deriving DecidableEq, Repr

/-- `Next_wrap(a)` (R51, R52). -/
def Wrap.next : Wrap → Address → Address
  | .bank, a => mkAddr (bankOf a) (offsetOf a + 1#16)
  | .addr, a => a + 1#24

/-- `MemRead(a, n, wrap)` (R53): `n` bytes in ascending address order, little-endian, as a number. -/
def memRead (wrap : Wrap) : Nat → Address → BusM Nat
  | 0, _ => pure 0
  | n + 1, a => do
    let v ← busRead a
    let rest ← memRead wrap n (wrap.next a)
    pure (v.toNat + 256 * rest)

/-- `MemWrite(a, n, wrap, v)` (R53): `n` bytes, lowest byte first. -/
def memWrite (wrap : Wrap) : Nat → Address → Nat → BusM Unit
  | 0, _, _ => pure ()
  | n + 1, a, v => do
    busWrite a (BitVec.ofNat 8 v)
    memWrite wrap n (wrap.next a) (v / 256)

/-- A 16-bit pointer or vector: `MemRead(a, 2, wrap)`. -/
def memRead16 (wrap : Wrap) (a : Address) : BusM Word := do
  let v ← memRead wrap 2 a
  pure (BitVec.ofNat 16 v)

/-- A 24-bit pointer: `MemRead(a, 3, wrap)`. -/
def memRead24 (wrap : Wrap) (a : Address) : BusM Address := do
  let v ← memRead wrap 3 a
  pure (BitVec.ofNat 24 v)

/-! ### Operand widths (R23) -/

/-- An operand width: 8 or 16 bits. -/
inductive Width where
  | byte
  | word
  deriving DecidableEq, Repr

def Width.bits : Width → Nat
  | .byte => 8
  | .word => 16

def Width.bytes : Width → Nat
  | .byte => 1
  | .word => 2

/-- `v[w-1:0]`, as a 16-bit value. -/
def Width.trunc : Width → Word → Word
  | .byte, v => mkWord 0x00#8 (loByte v)
  | .word, v => v

/-- `v[w-1]`. -/
def Width.msb : Width → Word → Bool
  | .byte, v => v.getLsbD 7
  | .word, v => v.getLsbD 15

/-- `wA`: 8 if `P.M = 1`, else 16. -/
def Cpu.widthA (c : Cpu) : Width := if c.p.m then .byte else .word

/-- `wXY`: 8 if `P.X = 1`, else 16. -/
def Cpu.widthXY (c : Cpu) : Width := if c.p.x then .byte else .word

/-- Data of width `w` at `ea`: `MemRead(ea, w/8, wrap)`. -/
def readData (w : Width) (wrap : Wrap) (ea : Address) : BusM Word := do
  let v ← memRead wrap w.bytes ea
  pure (BitVec.ofNat 16 v)

/-- `MemWrite(ea, w/8, wrap, v)`: low byte first. -/
def writeData (w : Width) (wrap : Wrap) (ea : Address) (v : Word) : BusM Unit := memWrite wrap w.bytes ea v.toNat

/-- `MemWriteHiFirst(ea, w/8, wrap, v)` (R53, R152): the same bytes at the same addresses, the higher address first. -/
def writeDataHiFirst (w : Width) (wrap : Wrap) (ea : Address) (v : Word) : BusM Unit :=
  match w with
  | .byte => busWrite ea (loByte v)
  | .word => do
    busWrite (wrap.next ea) (hiByte v)
    busWrite ea (loByte v)

/-! ### Register views (R12, R13, R18, R22, R23) -/

/-- `AccRead()`: `A[wA-1:0]`. -/
def Cpu.accRead (c : Cpu) : Word := c.widthA.trunc c.a

/-- `AccWrite(v)`: with `wA = 8` the hidden byte `A[15:8]` is kept. -/
def Cpu.accWrite (c : Cpu) (v : Word) : Cpu :=
  { c with a := match c.widthA with
                | .byte => mkWord (hiByte c.a) (loByte v)
                | .word => v }

/-- `IdxWrite(X, v)`. -/
def Cpu.xWrite (c : Cpu) (v : Word) : Cpu := { c with x := c.widthXY.trunc v }

/-- `IdxWrite(Y, v)`. -/
def Cpu.yWrite (c : Cpu) (v : Word) : Cpu := { c with y := c.widthXY.trunc v }

/-- `PackP()` (R18): N is bit 7, C is bit 0. -/
def Status.pack (p : Status) : Byte :=
  BitVec.ofBool p.n ++ BitVec.ofBool p.v ++ BitVec.ofBool p.m ++ BitVec.ofBool p.x ++
    BitVec.ofBool p.d ++ BitVec.ofBool p.i ++ BitVec.ofBool p.z ++ BitVec.ofBool p.c

/-- The flags a byte assigns (R18), before `Normalize()`. -/
def Status.unpack (b : Byte) : Status where
  n := b.getLsbD 7
  v := b.getLsbD 6
  m := b.getLsbD 5
  x := b.getLsbD 4
  d := b.getLsbD 3
  i := b.getLsbD 2
  z := b.getLsbD 1
  c := b.getLsbD 0

/-- `0x0100 | S[7:0]` of R22: the page-1 form of a stack pointer. -/
def page1 (v : Word) : Word := mkWord 0x01#8 (loByte v)

/-- First line of `Normalize()`: `E = 1` forces `M = X = 1` and the high byte of `S` to 0x01 (R20). -/
def Cpu.forceEmulation (c : Cpu) : Cpu :=
  if c.e then { c with p := { c.p with m := true, x := true }, s := page1 c.s } else c

/-- Second line of `Normalize()`: `P.X = 1` clears the high bytes of `X` and `Y` (R13). -/
def Cpu.clearIndexHigh (c : Cpu) : Cpu :=
  if c.p.x then { c with x := mkWord 0x00#8 (loByte c.x), y := mkWord 0x00#8 (loByte c.y) } else c

/-- `Normalize()` (R22). -/
def Cpu.normalize (c : Cpu) : Cpu := c.forceEmulation.clearIndexHigh

/-- `UnpackP(b)` (R18): assign every flag, then `Normalize()`. -/
def Cpu.unpackP (c : Cpu) (b : Byte) : Cpu := { c with p := Status.unpack b }.normalize

/-- Change the register file. -/
def modifyCpu (f : Cpu → Cpu) : BusM Unit := fun s => .ok () (s.withCpu (f s.cpu))

/-- Read the register file. -/
def getCpu : BusM Cpu := fun s => .ok s.cpu s

/-! ### The stack (R240 to R242) -/

/-- A stack address is always in bank 0 (R15). -/
def stackAddr (s : Word) : Address := mkAddr 0x00#8 s

/-- `S` after a push: inside page 1 when `wrap1`, else inside bank 0. -/
def stackDown (wrap1 : Bool) (s : Word) : Word :=
  if wrap1 then mkWord 0x01#8 (loByte s - 1#8) else s - 1#16

/-- `S` before a pull. -/
def stackUp (wrap1 : Bool) (s : Word) : Word :=
  if wrap1 then mkWord 0x01#8 (loByte s + 1#8) else s + 1#16

/-- `Push8` with the arm of R240 given: `wrap1` is the `E = 1` arm. -/
def pushByte (wrap1 : Bool) (v : Byte) : BusM Unit := do
  let c ← getCpu
  busWrite (stackAddr c.s) v
  modifyCpu fun c => { c with s := stackDown wrap1 c.s }

/-- `Pull8` with the arm of R241 given. -/
def pullByte (wrap1 : Bool) : BusM Byte := do
  modifyCpu fun c => { c with s := stackUp wrap1 c.s }
  let c ← getCpu
  busRead (stackAddr c.s)

/-- `Push16` (R242): high byte first. -/
def pushWord (wrap1 : Bool) (v : Word) : BusM Unit := do
  pushByte wrap1 (hiByte v)
  pushByte wrap1 (loByte v)

/-- `Pull16` (R242): low byte first. -/
def pullWord (wrap1 : Bool) : BusM Word := do
  let lo ← pullByte wrap1
  let hi ← pullByte wrap1
  pure (mkWord hi lo)

/-- A push of width `w`. -/
def pushData (w : Width) (wrap1 : Bool) (v : Word) : BusM Unit :=
  match w with
  | .byte => pushByte wrap1 (loByte v)
  | .word => pushWord wrap1 v

/-- A pull of width `w`. -/
def pullData (w : Width) (wrap1 : Bool) : BusM Word :=
  match w with
  | .byte => do
    let v ← pullByte wrap1
    pure (mkWord 0x00#8 v)
  | .word => pullWord wrap1

/-- The arm of R240 and R241 an instruction uses: the page-1 arm when `E = 1`. -/
def State.stackWraps (s : State) : Bool := s.cpu.e

/-- The arm the eight 65816-only stack instructions of R242 use: the `E = 0` arm when `EMU_STACK_NEW_INSN_16BIT`. -/
def State.stackWrapsNew (s : State) : Bool := s.cpu.e && !s.params.emuStackNewInsn16Bit

/-- Run a stack instruction with the arm of R240 and R241. -/
def withStack {α : Type} (body : Bool → BusM α) : BusM α := fun s => body s.stackWraps s

/-- Run one of the eight instructions of R242: with `EMU_STACK_NEW_INSN_16BIT` and `E = 1` it ends with
`S <- 0x01 : S[7:0]`. -/
def withStackNew (body : Bool → BusM Unit) : BusM Unit := fun s =>
  (do body s.stackWrapsNew
      if s.cpu.e && s.params.emuStackNewInsn16Bit then
        modifyCpu fun c => { c with s := page1 c.s }) s

/-! ### Traps (R325, R326, R330) -/

/-- What enters a handler (R326). -/
inductive TrapKind where
  | brk
  | cop
  | irq
  | nmi
  deriving DecidableEq, Repr

/-- The vector of a trap in the mode `e` (R325). -/
def TrapKind.vector (k : TrapKind) (e : Bool) : Address :=
  match k, e with
  | .cop, false => 0x00FFE4#24
  | .cop, true => 0x00FFF4#24
  | .brk, false => 0x00FFE6#24
  | .brk, true => 0x00FFFE#24
  | .nmi, false => 0x00FFEA#24
  | .nmi, true => 0x00FFFA#24
  | .irq, false => 0x00FFEE#24
  | .irq, true => 0x00FFFE#24

/-- IRQ and NMI are hardware interrupts; BRK and COP are software traps (R326). -/
def TrapKind.isHardware : TrapKind → Bool
  | .brk => false
  | .cop => false
  | .irq => true
  | .nmi => true

/-- The status byte a trap pushes: `PackP()`, with bit 4 clear for a hardware interrupt in Emulation mode (R326). -/
def TrapKind.pushedP (k : TrapKind) (c : Cpu) : Byte :=
  if c.e && k.isHardware then c.p.pack &&& 0xEF#8 else c.p.pack

/-- The program bank, which a trap pushes in Native mode only (R326). -/
def pushBank (c : Cpu) : BusM Unit := if c.e then pure () else pushByte c.e c.pb

/-- `TrapEntry(kind)` (R326): push `PB` (Native mode only), the return offset and the status; set `I`, clear `D`; enter
bank 0 at the offset the vector holds. -/
def trapEntry (k : TrapKind) (ret : Word) : BusM Unit := do
  let c ← getCpu
  pushBank c
  pushWord c.e ret
  pushByte c.e (k.pushedP c)
  modifyCpu fun c => { c with p := { c.p with i := true, d := false }, pb := 0x00#8 }
  let target ← memRead16 .bank (k.vector c.e)
  modifyCpu fun c => { c with pc := target }

/-- `TrapReturn()` (R330): pull the status, the program counter as it is, and in Native mode the program bank. -/
def trapReturn : BusM Unit := do
  let e := (← getCpu).e
  let p ← pullByte e
  modifyCpu fun c => c.unpackP p
  let pc ← pullWord e
  modifyCpu fun c => { c with pc := pc }
  if e then pure () else do
    let pb ← pullByte e
    modifyCpu fun c => { c with pb := pb }

/-! ### Performing one instruction (R84 lines 9 to 12, R322, R323) -/

/-- What an execution tells `CycleCost` beside the start state (R357): the index and the base of an indexed address, and
whether and where a branch goes; without a `target`, it is the `PC` the instruction ends with (log entry 6). -/
structure CostFacts where
  index  : Word := 0#16
  base   : Address := 0#24
  taken  : Bool := false
  target : Option Word := none
  deriving DecidableEq, Repr

/-- The inputs of `CycleCost` for an instruction that started in `s` and ends with `PC = pc` (R357, R359). -/
def costInputs (i : Instr) (s : State) (f : CostFacts) (pc : Word) : CycleInputs where
  opcode := i.opcode
  e := s.cpu.e
  m := s.cpu.p.m
  x := s.cpu.p.x
  d := s.cpu.d
  index := f.index
  base := f.base
  taken := f.taken
  pc0 := s.cpu.pc
  target := f.target.getD pc

/-- The cycle cost of an instruction that started in `s` and ends with `PC = pc`. -/
def instrCost (i : Instr) (s : State) (f : CostFacts) (pc : Word) : Nat :=
  cycleCost s.params.cycleCost (costInputs i s f pc)

/-- Record a cost (R84 line 11, R25). -/
def State.charge (s : State) (cost : Nat) : State :=
  { s with cyclesLast := wrapCounter s.params.counterWidth cost
           cyclesTotal := wrapCounter s.params.counterWidth (s.cyclesTotal + cost) }

/-- The state after a step that failed in state `t`, for the step that started in `s` (R322): the registers, `waiting`,
`stopped`, `nmiPending` and `cycles_total` are those of `s`; `cycles_last` is 0; memory, the access record, the callback
log and `prev_PC` are those of `t`; the cause is latched. -/
def State.rollback (t s : State) (cause : AbortCause) : State :=
  { t with cpu := s.cpu
           waiting := s.waiting
           stopped := s.stopped
           nmiPending := s.nmiPending
           cyclesTotal := s.cyclesTotal
           cyclesLast := 0
           abortCause := cause }

/-- The abort cause of a failed access (R321). -/
def BusFailure.cause (f : BusFailure) : AbortCause := .busUnmapped f.addr f.dir

/-- `PCn`: the address of the next sequential instruction (R84 line 9). -/
def nextPc (i : Instr) (pc : Word) : Word := pc + BitVec.ofNat 16 i.length

/-- The state in which the instruction's own rule executes: `PC <- PCn` (R84 line 9). -/
def advance (i : Instr) (s : State) : State := s.withCpu { s.cpu with pc := nextPc i s.cpu.pc }

/-- What an instruction's meaning answers. -/
abbrev Result := Host.Outcome State Fault Refusal

/-- One instruction, started in the state whose `PC` is still `PC0` and whose bytes have been fetched (R84 lines 9 to
12): advance `PC`, execute `body`, record the cost; a bus failure rolls back (R322), and an operand width that
contradicts the flags aborts (R323). -/
def perform (i : Instr) (body : BusM CostFacts) (s : State) : Result :=
  if i.wellFormed s.cpu.p.m s.cpu.p.x then
    match body (advance i s) with
    | .ok f t => .next (t.charge (instrCost i s f t.cpu.pc))
    | .error f t => .next (t.rollback s f.cause)
  else .next (s.rollback s .widthMismatch)

/-- No facts for the cycle cost. -/
def noFacts : CostFacts := {}

/-- A body that computes nothing for the cycle cost. -/
def plainly (body : BusM Unit) : BusM CostFacts := do
  body
  pure noFacts

/-- A body that only changes the register file. -/
def registers (f : Cpu → Cpu) : BusM CostFacts := plainly (modifyCpu f)

end Sys2Proof.Machine
end

