-- ==== Sys2Proof/Machine/Flags.lean ====
section
/-! DEFINITION. Sys2Proof/Machine/Flags.lean: the results and flag computations of the arithmetic and logic rules (R130 to
R153), as functions of a width, the flags before, and operand values of that width. -/
namespace Sys2Proof.Machine

/-- `SetNZ(v, w)` (R7, R130): `P.N <- v[w-1]`, `P.Z <- (v[w-1:0] = 0)`. -/
def Status.setNZ (p : Status) (w : Width) (v : Word) : Status :=
  { p with n := w.msb v, z := w.trunc v == 0#16 }

/-- A flag as a number. -/
def bitNat (b : Bool) : Nat := if b then 1 else 0

/-- Signed overflow of a sum (R131): the operands have one sign and the result the other. -/
def overflow (w : Width) (a m r : Word) : Bool := w.msb a == w.msb m && w.msb a != w.msb r

/-- Binary `a + m + c` (R131): the result, with `N`, `V`, `Z`, `C`. -/
def addBinary (w : Width) (p : Status) (a m : Word) : Word × Status :=
  let r := a.toNat + m.toNat + bitNat p.c
  let res := w.trunc (BitVec.ofNat 16 r)
  (res, { p.setNZ w res with v := overflow w a m res, c := decide (2 ^ w.bits ≤ r) })

/-- What a digit-wise sum answers: the result digits, the carry out, and the top digit's sum before adjustment. -/
structure DigitSum where
  value : Nat
  carry : Nat
  top   : Nat
  deriving DecidableEq, Repr

/-- The digit loop of decimal ADC (R131), from the lowest digit up, over `n` digits. -/
def addDigits : Nat → Nat → Nat → Nat → DigitSum
  | 0, _, _, c => ⟨0, c, 0⟩
  | n + 1, a, m, c =>
    let t := a % 16 + m % 16 + c
    let t' := if 9 < t then t + 6 else t
    let r := addDigits n (a / 16) (m / 16) (if 15 < t' then 1 else 0)
    ⟨t' % 16 + 16 * r.value, r.carry, if n = 0 then t else r.top⟩

/-- The digit loop of decimal SBC (R132); `m` is the one's complement of the operand. -/
def subDigits : Nat → Nat → Nat → Nat → DigitSum
  | 0, _, _, c => ⟨0, c, 0⟩
  | n + 1, a, m, c =>
    let t := a % 16 + m % 16 + c
    let t' := if t ≤ 15 then t + 10 else t
    let r := subDigits n (a / 16) (m / 16) (if 15 < t then 1 else 0)
    ⟨t' % 16 + 16 * r.value, r.carry, if n = 0 then t else r.top⟩

/-- The flags of a decimal sum (R131, R132): `N`, `Z` from the result, `V` from the top digit before adjustment, `C` the
last carry. -/
def decimalFlags (w : Width) (p : Status) (a m : Word) (r : DigitSum) : Word × Status :=
  let res := BitVec.ofNat 16 r.value
  (res, { p.setNZ w res with
            v := w.msb a == w.msb m && w.msb a != r.top.testBit 3
            c := r.carry == 1 })

/-- ADC (R131). -/
def adcResult (w : Width) (p : Status) (a m : Word) : Word × Status :=
  if p.d then decimalFlags w p a m (addDigits (w.bits / 4) a.toNat m.toNat (bitNat p.c))
  else addBinary w p a m

/-- SBC (R132): the operand enters as its one's complement. -/
def sbcResult (w : Width) (p : Status) (a operand : Word) : Word × Status :=
  let m := w.trunc (~~~operand)
  if p.d then decimalFlags w p a m (subDigits (w.bits / 4) a.toNat m.toNat (bitNat p.c))
  else addBinary w p a m

/-- AND, ORA, EOR (R133 to R135): the result with `N`, `Z`. -/
def logicResult (f : Word → Word → Word) (w : Width) (p : Status) (a m : Word) : Word × Status :=
  (f a m, p.setNZ w (f a m))

/-- CMP, CPX, CPY (R136 to R138): `C` is `a >= m` unsigned; `N`, `Z` are those of the wrapped difference. -/
def compareFlags (w : Width) (p : Status) (a m : Word) : Status :=
  { p.setNZ w (w.trunc (a - m)) with c := decide (m.toNat ≤ a.toNat) }

/-- BIT with an immediate (R139): only `Z`. -/
def bitImmFlags (p : Status) (a m : Word) : Status := { p with z := (a &&& m) == 0#16 }

/-- BIT with a memory operand (R139): `N` is bit `w-1` and `V` bit `w-2` of the operand. -/
def bitMemFlags (w : Width) (p : Status) (a m : Word) : Status :=
  { bitImmFlags p a m with n := w.msb m, v := m.getLsbD (w.bits - 2) }

/-- A read-modify-write computation: from the width, the registers and the operand to the result and the new flags. -/
abbrev RmwFn := Width → Cpu → Word → Word × Status

/-- INC (R140). -/
def incResult : RmwFn := fun w c m =>
  let res := w.trunc (m + 1#16)
  (res, c.p.setNZ w res)

/-- DEC (R141). -/
def decResult : RmwFn := fun w c m =>
  let res := w.trunc (m - 1#16)
  (res, c.p.setNZ w res)

/-- ASL (R146): the top bit goes to `C`. -/
def aslResult : RmwFn := fun w c m =>
  let res := w.trunc (m <<< 1)
  (res, { c.p.setNZ w res with c := w.msb m })

/-- LSR (R147): bit 0 goes to `C`. -/
def lsrResult : RmwFn := fun w c m =>
  let res := m >>> 1
  (res, { c.p.setNZ w res with c := m.getLsbD 0 })

/-- ROL (R148): `C` enters at bit 0, the top bit goes to `C`. -/
def rolResult : RmwFn := fun w c m =>
  let res := w.trunc ((m <<< 1) ||| BitVec.ofNat 16 (bitNat c.p.c))
  (res, { c.p.setNZ w res with c := w.msb m })

/-- ROR (R149): `C` enters at bit `w-1`, bit 0 goes to `C`. -/
def rorResult : RmwFn := fun w c m =>
  let res := (m >>> 1) ||| BitVec.ofNat 16 (bitNat c.p.c * 2 ^ (w.bits - 1))
  (res, { c.p.setNZ w res with c := m.getLsbD 0 })

/-- TSB (R150): `Z` from the operand before the write. -/
def tsbResult : RmwFn := fun _ c m => (m ||| c.accRead, { c.p with z := (c.accRead &&& m) == 0#16 })

/-- TRB (R151). -/
def trbResult : RmwFn := fun w c m =>
  (m &&& w.trunc (~~~c.accRead), { c.p with z := (c.accRead &&& m) == 0#16 })

end Sys2Proof.Machine
end

