-- ==== Sys2Proof/Machine/Operands.lean ====
section
/-! DEFINITION. Sys2Proof/Machine/Operands.lean: the addressing-mode resolver (R90 to R121) and the operand access of the
instruction families: read, store, read-modify-write, and jump targets. -/
namespace Sys2Proof.Machine

/-! ### Address arithmetic -/

/-- `zext_16` of a byte (R6). -/
def zext16 (b : Byte) : Word := mkWord 0x00#8 b

/-- `sext_16` of a byte (R6, R75). -/
def sext16 (b : Byte) : Word := b.signExtend 16

/-- `zext_24` of a word, the index of a 24-bit address addition (R90: "The index is always unsigned"). -/
def zext24 (v : Word) : Address := mkAddr 0x00#8 v

/-- An address in bank 0. -/
def bank0 (off : Word) : Address := mkAddr 0x00#8 off

/-! ### Direct page (R96 to R103, R121) -/

/-- The condition of R121: `EMU_DP_PAGE_WRAP`, `E = 1` and `D[7:0] = 0`. -/
def State.dpPageWraps (s : State) : Bool :=
  s.params.emuDpPageWrap && s.cpu.e && loByte s.cpu.d == 0x00#8

/-- `(D + op8) mod 2^16` (R96). -/
def directOffset (s : State) (o : Byte) : Word := s.cpu.d + zext16 o

/-- `(D + op8 + index) mod 2^16` (R97, R98, R100), or `D[15:8] : ((op8 + index) mod 2^8)` under R121. -/
def directIndexed (s : State) (o : Byte) (index : Word) : Word :=
  if s.dpPageWraps then mkWord (hiByte s.cpu.d) (o + loByte index)
  else s.cpu.d + zext16 o + index

/-- The offset of a 16-bit direct-page pointer's high byte: the next offset of bank 0, or of the page under R121. -/
def pointerHighOffset (s : State) (low : Word) : Word :=
  if s.dpPageWraps then mkWord (hiByte s.cpu.d) (loByte low + 1#8) else low + 1#16

/-- The 16-bit pointer of `ind`, `indx`, `indy` and PEI at an offset of bank 0, low byte first (R99 to R101, R257). -/
def directPointer (low : Word) : BusM Word := fun s =>
  (do let lo ← busRead (bank0 low)
      let hi ← busRead (bank0 (pointerHighOffset s low))
      pure (mkWord hi lo)) s

/-! ### The resolver -/

/-- What the resolver answers for a memory operand (R90): the address of the lowest byte and the wrap discipline; and for
the cycle cost the index of the mode and the address it is added to (R357; 0 where the mode has no index). -/
structure Resolved where
  ea    : Address
  wrap  : Wrap
  facts : CostFacts := {}
  deriving DecidableEq, Repr

/-- `(DB : off)`, a data address (R104). -/
def dataAddr (s : State) (off : Word) : Address := mkAddr s.cpu.db off

/-- An address whose further bytes are found under `ADDR`, of a mode without index. -/
def plainAddr (ea : Address) : Resolved where
  ea := ea
  wrap := .addr

/-- An address of bank 0 whose further bytes are found under `BANK`, of a mode without index. -/
def bank0Addr (off : Word) : Resolved where
  ea := bank0 off
  wrap := .bank

/-- What a direct-page mode that adds its index to the offset tells the cycle cost. -/
def directFacts (s : State) (o : Byte) (index : Word) : CostFacts where
  base := bank0 (directOffset s o)
  index := index

/-- An indexed direct-page address (R97, R98). -/
def indexedDirect (s : State) (o : Byte) (index : Word) : Resolved where
  ea := bank0 (directIndexed s o index)
  wrap := .bank
  facts := directFacts s o index

/-- An indexed address `(base + index) mod 2^24` (R101, R103, R105, R106, R108, R110). -/
def indexedAddr (base : Address) (index : Word) : Resolved where
  ea := base + zext24 index
  wrap := .addr
  facts := { base := base, index := index }

/-- The resolver (R90, R96 to R110, R117).  It reads registers and pointers and writes no register and no memory. -/
def resolve (m : MemOperand) : BusM Resolved := fun s =>
  match m with
  | .dp o => .ok (bank0Addr (directOffset s o)) s
  | .dpx o => .ok (indexedDirect s o s.cpu.x) s
  | .dpy o => .ok (indexedDirect s o s.cpu.y) s
  | .ind o => (do
      let ptr ← directPointer (directOffset s o)
      pure (plainAddr (dataAddr s ptr))) s
  | .indx o => (do
      let ptr ← directPointer (directIndexed s o s.cpu.x)
      pure { plainAddr (dataAddr s ptr) with facts := directFacts s o s.cpu.x }) s
  | .indy o => (do
      let ptr ← directPointer (directOffset s o)
      pure (indexedAddr (dataAddr s ptr) s.cpu.y)) s
  | .indl o => (do
      let ptr ← memRead24 .bank (bank0 (directOffset s o))
      pure (plainAddr ptr)) s
  | .indly o => (do
      let ptr ← memRead24 .bank (bank0 (directOffset s o))
      pure (indexedAddr ptr s.cpu.y)) s
  | .abs a => .ok (plainAddr (dataAddr s a)) s
  | .absx a => .ok (indexedAddr (dataAddr s a) s.cpu.x) s
  | .absy a => .ok (indexedAddr (dataAddr s a) s.cpu.y) s
  | .long a => .ok (plainAddr a) s
  | .longx a => .ok (indexedAddr a s.cpu.x) s
  | .sr o => .ok (bank0Addr (s.cpu.s + zext16 o)) s
  | .sry o => (do
      let ptr ← memRead16 .bank (bank0 (s.cpu.s + zext16 o))
      pure (indexedAddr (dataAddr s ptr) s.cpu.y)) s

/-! ### Operand access -/

/-- A data operand: a flag-dependent immediate or a memory operand. -/
inductive DataOperand where
  | imm (v : Imm)
  | mem (m : MemOperand)
  deriving DecidableEq, Repr

/-- An immediate at its own width, as a 16-bit value (R74, R94, R95). -/
def immValue : Imm → Word
  | .imm8 v => zext16 v
  | .imm16 v => v

/-- `Operand(w)` (R130): the value and the cost facts of the mode. -/
def readOperand (w : Width) : DataOperand → BusM (Word × CostFacts)
  | .imm v => pure (immValue v, noFacts)
  | .mem m => do
    let r ← resolve m
    let v ← readData w r.wrap r.ea
    pure (v, r.facts)

/-- Read an operand of width `w` and change the register file from its value. -/
def withOperand (width : Cpu → Width) (o : DataOperand) (f : Cpu → Word → Cpu) : BusM CostFacts := do
  let c ← getCpu
  let (v, facts) ← readOperand (width c) o
  modifyCpu (f · v)
  pure facts

/-- Store a register's value at a memory operand: `MemWrite(ea, w/8, wrap, v)` (R173 to R176). -/
def storeOperand (width : Cpu → Width) (m : MemOperand) (value : Cpu → Word) : BusM CostFacts := do
  let c ← getCpu
  let r ← resolve m
  writeData (width c) r.wrap r.ea (value c)
  pure r.facts

/-- The operand of a read-modify-write instruction: the accumulator (R92) or memory. -/
inductive RmwOperand where
  | acc
  | mem (m : MemOperand)
  deriving DecidableEq, Repr

/-- Read, compute, write back at width `wA`: to the accumulator, or to memory with the high byte first (R152); then the
flags. -/
def modifyOperand (o : RmwOperand) (f : RmwFn) : BusM CostFacts :=
  match o with
  | .acc => registers fun c =>
    { c.accWrite (f c.widthA c c.accRead).1 with p := (f c.widthA c c.accRead).2 }
  | .mem m => do
    let c ← getCpu
    let r ← resolve m
    let v ← readData c.widthA r.wrap r.ea
    writeDataHiFirst c.widthA r.wrap r.ea (f c.widthA c v).1
    modifyCpu fun c => { c with p := (f c.widthA c v).2 }
    pure r.facts

/-! ### Program addresses (R111, R112, R114 to R116, R120) -/

/-- `(PCn + sext_16(o1)) mod 2^16` (R111); `pcn` is the `PC` the instruction executes with. -/
def rel8Target (pcn : Word) (d : Byte) : Word := pcn + sext16 d

/-- `(PCn + op16) mod 2^16` (R112). -/
def rel16Target (pcn : Word) (d : Word) : Word := pcn + d

/-- The pointer of `aind`: in bank 0 (R114). -/
def aindPointer (a : Word) : BusM Word := memRead16 .bank (bank0 a)

/-- What `aindx` tells the cycle cost (R357): its index and the address in the program bank it is added to. -/
def aindxFacts (c : Cpu) (a : Word) : CostFacts where
  base := mkAddr c.pb a
  index := c.x

/-- The pointer of `aindx`: in the program bank, the index wrapping inside it (R115). -/
def aindxPointer (a : Word) : BusM Word := do
  let c ← getCpu
  memRead16 .bank (mkAddr c.pb (a + c.x))

/-- The 24-bit pointer of `aindl`: in bank 0 (R116). -/
def aindlPointer (a : Word) : BusM Address := memRead24 .bank (bank0 a)

/-- `PC <- target`. -/
def jumpTo (target : Word) : BusM Unit := modifyCpu fun c => { c with pc := target }

/-- `PB <- bank; PC <- offset`. -/
def jumpLong (target : Address) : BusM Unit :=
  modifyCpu fun c => { c with pb := bankOf target, pc := offsetOf target }

end Sys2Proof.Machine
end

