-- ==== Sys2Proof/Machine/Arith.lean ====
section
/-! DEFINITION. Sys2Proof/Machine/Arith.lean: arithmetic and logic (41_arith_logic.md, R130 to R153): first the body of each
mnemonic, then the meaning of each of its opcodes. -/
namespace Sys2Proof.Machine

/-! ### Bodies -/

/-- ADC (R131). -/
def adc (o : DataOperand) : BusM CostFacts := withOperand Cpu.widthA o fun c v =>
  let (res, p) := adcResult c.widthA c.p c.accRead v
  { c.accWrite res with p := p }

/-- SBC (R132). -/
def sbc (o : DataOperand) : BusM CostFacts := withOperand Cpu.widthA o fun c v =>
  let (res, p) := sbcResult c.widthA c.p c.accRead v
  { c.accWrite res with p := p }

/-- A logic operation on the accumulator (R133 to R135). -/
def logic (f : Word → Word → Word) (o : DataOperand) : BusM CostFacts := withOperand Cpu.widthA o fun c v =>
  let (res, p) := logicResult f c.widthA c.p c.accRead v
  { c.accWrite res with p := p }

/-- AND (R133). -/
def land (o : DataOperand) : BusM CostFacts := logic (fun a m => a &&& m) o

/-- ORA (R134). -/
def lora (o : DataOperand) : BusM CostFacts := logic (fun a m => a ||| m) o

/-- EOR (R135). -/
def leor (o : DataOperand) : BusM CostFacts := logic (fun a m => a ^^^ m) o

/-- CMP (R136). -/
def cmp (o : DataOperand) : BusM CostFacts := withOperand Cpu.widthA o fun c v =>
  { c with p := compareFlags c.widthA c.p c.accRead v }

/-- CPX (R137). -/
def cpx (o : DataOperand) : BusM CostFacts := withOperand Cpu.widthXY o fun c v =>
  { c with p := compareFlags c.widthXY c.p (c.widthXY.trunc c.x) v }

/-- CPY (R138). -/
def cpy (o : DataOperand) : BusM CostFacts := withOperand Cpu.widthXY o fun c v =>
  { c with p := compareFlags c.widthXY c.p (c.widthXY.trunc c.y) v }

/-- The flags after BIT (R139): an immediate changes only `Z`. -/
def bitFlags : DataOperand → Cpu → Word → Status
  | .imm _, c, v => bitImmFlags c.p c.accRead v
  | .mem _, c, v => bitMemFlags c.widthA c.p c.accRead v

/-- BIT (R139). -/
def bitTest (o : DataOperand) : BusM CostFacts := withOperand Cpu.widthA o fun c v => { c with p := bitFlags o c v }

/-- `IdxWrite(X, v); SetNZ(X, w)` with `w = wXY`. -/
def Cpu.loadX (c : Cpu) (v : Word) : Cpu := { c.xWrite v with p := c.p.setNZ c.widthXY v }

/-- `IdxWrite(Y, v); SetNZ(Y, w)` with `w = wXY`. -/
def Cpu.loadY (c : Cpu) (v : Word) : Cpu := { c.yWrite v with p := c.p.setNZ c.widthXY v }

/-- `AccWrite(v); SetNZ(v, w)` with `w = wA`. -/
def Cpu.loadA (c : Cpu) (v : Word) : Cpu := { c.accWrite v with p := c.p.setNZ c.widthA v }

/-- INX (R142). -/
def inx : BusM CostFacts := registers fun c => c.loadX (c.x + 1#16)

/-- INY (R143). -/
def iny : BusM CostFacts := registers fun c => c.loadY (c.y + 1#16)

/-- DEX (R144). -/
def dex : BusM CostFacts := registers fun c => c.loadX (c.x - 1#16)

/-- DEY (R145). -/
def dey : BusM CostFacts := registers fun c => c.loadY (c.y - 1#16)

/-! ### Meanings -/

/-- ADC, opcode 61, `indx` (R131, R100). -/
def execAdcIndx (o : Byte) (s : State) : Result := perform (.adcIndx o) (adc (.mem (.indx o))) s

/-- ADC, opcode 63, `sr` (R131, R109). -/
def execAdcSr (o : Byte) (s : State) : Result := perform (.adcSr o) (adc (.mem (.sr o))) s

/-- ADC, opcode 65, `dp` (R131, R96). -/
def execAdcDp (o : Byte) (s : State) : Result := perform (.adcDp o) (adc (.mem (.dp o))) s

/-- ADC, opcode 67, `indl` (R131, R102). -/
def execAdcIndl (o : Byte) (s : State) : Result := perform (.adcIndl o) (adc (.mem (.indl o))) s

/-- ADC, opcode 69, `imm_m` (R131, R94). -/
def execAdcImmM (v : Imm) (s : State) : Result := perform (.adcImmM v) (adc (.imm v)) s

/-- ADC, opcode 6D, `abs` (R131, R104). -/
def execAdcAbs (a : Word) (s : State) : Result := perform (.adcAbs a) (adc (.mem (.abs a))) s

/-- ADC, opcode 6F, `long` (R131, R107). -/
def execAdcLong (a : Address) (s : State) : Result := perform (.adcLong a) (adc (.mem (.long a))) s

/-- ADC, opcode 71, `indy` (R131, R101). -/
def execAdcIndy (o : Byte) (s : State) : Result := perform (.adcIndy o) (adc (.mem (.indy o))) s

/-- ADC, opcode 72, `ind` (R131, R99). -/
def execAdcInd (o : Byte) (s : State) : Result := perform (.adcInd o) (adc (.mem (.ind o))) s

/-- ADC, opcode 73, `sry` (R131, R110). -/
def execAdcSry (o : Byte) (s : State) : Result := perform (.adcSry o) (adc (.mem (.sry o))) s

/-- ADC, opcode 75, `dpx` (R131, R97). -/
def execAdcDpx (o : Byte) (s : State) : Result := perform (.adcDpx o) (adc (.mem (.dpx o))) s

/-- ADC, opcode 77, `indly` (R131, R103). -/
def execAdcIndly (o : Byte) (s : State) : Result := perform (.adcIndly o) (adc (.mem (.indly o))) s

/-- ADC, opcode 79, `absy` (R131, R106). -/
def execAdcAbsy (a : Word) (s : State) : Result := perform (.adcAbsy a) (adc (.mem (.absy a))) s

/-- ADC, opcode 7D, `absx` (R131, R105). -/
def execAdcAbsx (a : Word) (s : State) : Result := perform (.adcAbsx a) (adc (.mem (.absx a))) s

/-- ADC, opcode 7F, `longx` (R131, R108). -/
def execAdcLongx (a : Address) (s : State) : Result := perform (.adcLongx a) (adc (.mem (.longx a))) s

/-- SBC, opcode E1, `indx` (R132, R100). -/
def execSbcIndx (o : Byte) (s : State) : Result := perform (.sbcIndx o) (sbc (.mem (.indx o))) s

/-- SBC, opcode E3, `sr` (R132, R109). -/
def execSbcSr (o : Byte) (s : State) : Result := perform (.sbcSr o) (sbc (.mem (.sr o))) s

/-- SBC, opcode E5, `dp` (R132, R96). -/
def execSbcDp (o : Byte) (s : State) : Result := perform (.sbcDp o) (sbc (.mem (.dp o))) s

/-- SBC, opcode E7, `indl` (R132, R102). -/
def execSbcIndl (o : Byte) (s : State) : Result := perform (.sbcIndl o) (sbc (.mem (.indl o))) s

/-- SBC, opcode E9, `imm_m` (R132, R94). -/
def execSbcImmM (v : Imm) (s : State) : Result := perform (.sbcImmM v) (sbc (.imm v)) s

/-- SBC, opcode ED, `abs` (R132, R104). -/
def execSbcAbs (a : Word) (s : State) : Result := perform (.sbcAbs a) (sbc (.mem (.abs a))) s

/-- SBC, opcode EF, `long` (R132, R107). -/
def execSbcLong (a : Address) (s : State) : Result := perform (.sbcLong a) (sbc (.mem (.long a))) s

/-- SBC, opcode F1, `indy` (R132, R101). -/
def execSbcIndy (o : Byte) (s : State) : Result := perform (.sbcIndy o) (sbc (.mem (.indy o))) s

/-- SBC, opcode F2, `ind` (R132, R99). -/
def execSbcInd (o : Byte) (s : State) : Result := perform (.sbcInd o) (sbc (.mem (.ind o))) s

/-- SBC, opcode F3, `sry` (R132, R110). -/
def execSbcSry (o : Byte) (s : State) : Result := perform (.sbcSry o) (sbc (.mem (.sry o))) s

/-- SBC, opcode F5, `dpx` (R132, R97). -/
def execSbcDpx (o : Byte) (s : State) : Result := perform (.sbcDpx o) (sbc (.mem (.dpx o))) s

/-- SBC, opcode F7, `indly` (R132, R103). -/
def execSbcIndly (o : Byte) (s : State) : Result := perform (.sbcIndly o) (sbc (.mem (.indly o))) s

/-- SBC, opcode F9, `absy` (R132, R106). -/
def execSbcAbsy (a : Word) (s : State) : Result := perform (.sbcAbsy a) (sbc (.mem (.absy a))) s

/-- SBC, opcode FD, `absx` (R132, R105). -/
def execSbcAbsx (a : Word) (s : State) : Result := perform (.sbcAbsx a) (sbc (.mem (.absx a))) s

/-- SBC, opcode FF, `longx` (R132, R108). -/
def execSbcLongx (a : Address) (s : State) : Result := perform (.sbcLongx a) (sbc (.mem (.longx a))) s

/-- AND, opcode 21, `indx` (R133, R100). -/
def execAndIndx (o : Byte) (s : State) : Result := perform (.andIndx o) (land (.mem (.indx o))) s

/-- AND, opcode 23, `sr` (R133, R109). -/
def execAndSr (o : Byte) (s : State) : Result := perform (.andSr o) (land (.mem (.sr o))) s

/-- AND, opcode 25, `dp` (R133, R96). -/
def execAndDp (o : Byte) (s : State) : Result := perform (.andDp o) (land (.mem (.dp o))) s

/-- AND, opcode 27, `indl` (R133, R102). -/
def execAndIndl (o : Byte) (s : State) : Result := perform (.andIndl o) (land (.mem (.indl o))) s

/-- AND, opcode 29, `imm_m` (R133, R94). -/
def execAndImmM (v : Imm) (s : State) : Result := perform (.andImmM v) (land (.imm v)) s

/-- AND, opcode 2D, `abs` (R133, R104). -/
def execAndAbs (a : Word) (s : State) : Result := perform (.andAbs a) (land (.mem (.abs a))) s

/-- AND, opcode 2F, `long` (R133, R107). -/
def execAndLong (a : Address) (s : State) : Result := perform (.andLong a) (land (.mem (.long a))) s

/-- AND, opcode 31, `indy` (R133, R101). -/
def execAndIndy (o : Byte) (s : State) : Result := perform (.andIndy o) (land (.mem (.indy o))) s

/-- AND, opcode 32, `ind` (R133, R99). -/
def execAndInd (o : Byte) (s : State) : Result := perform (.andInd o) (land (.mem (.ind o))) s

/-- AND, opcode 33, `sry` (R133, R110). -/
def execAndSry (o : Byte) (s : State) : Result := perform (.andSry o) (land (.mem (.sry o))) s

/-- AND, opcode 35, `dpx` (R133, R97). -/
def execAndDpx (o : Byte) (s : State) : Result := perform (.andDpx o) (land (.mem (.dpx o))) s

/-- AND, opcode 37, `indly` (R133, R103). -/
def execAndIndly (o : Byte) (s : State) : Result := perform (.andIndly o) (land (.mem (.indly o))) s

/-- AND, opcode 39, `absy` (R133, R106). -/
def execAndAbsy (a : Word) (s : State) : Result := perform (.andAbsy a) (land (.mem (.absy a))) s

/-- AND, opcode 3D, `absx` (R133, R105). -/
def execAndAbsx (a : Word) (s : State) : Result := perform (.andAbsx a) (land (.mem (.absx a))) s

/-- AND, opcode 3F, `longx` (R133, R108). -/
def execAndLongx (a : Address) (s : State) : Result := perform (.andLongx a) (land (.mem (.longx a))) s

/-- ORA, opcode 01, `indx` (R134, R100). -/
def execOraIndx (o : Byte) (s : State) : Result := perform (.oraIndx o) (lora (.mem (.indx o))) s

/-- ORA, opcode 03, `sr` (R134, R109). -/
def execOraSr (o : Byte) (s : State) : Result := perform (.oraSr o) (lora (.mem (.sr o))) s

/-- ORA, opcode 05, `dp` (R134, R96). -/
def execOraDp (o : Byte) (s : State) : Result := perform (.oraDp o) (lora (.mem (.dp o))) s

/-- ORA, opcode 07, `indl` (R134, R102). -/
def execOraIndl (o : Byte) (s : State) : Result := perform (.oraIndl o) (lora (.mem (.indl o))) s

/-- ORA, opcode 09, `imm_m` (R134, R94). -/
def execOraImmM (v : Imm) (s : State) : Result := perform (.oraImmM v) (lora (.imm v)) s

/-- ORA, opcode 0D, `abs` (R134, R104). -/
def execOraAbs (a : Word) (s : State) : Result := perform (.oraAbs a) (lora (.mem (.abs a))) s

/-- ORA, opcode 0F, `long` (R134, R107). -/
def execOraLong (a : Address) (s : State) : Result := perform (.oraLong a) (lora (.mem (.long a))) s

/-- ORA, opcode 11, `indy` (R134, R101). -/
def execOraIndy (o : Byte) (s : State) : Result := perform (.oraIndy o) (lora (.mem (.indy o))) s

/-- ORA, opcode 12, `ind` (R134, R99). -/
def execOraInd (o : Byte) (s : State) : Result := perform (.oraInd o) (lora (.mem (.ind o))) s

/-- ORA, opcode 13, `sry` (R134, R110). -/
def execOraSry (o : Byte) (s : State) : Result := perform (.oraSry o) (lora (.mem (.sry o))) s

/-- ORA, opcode 15, `dpx` (R134, R97). -/
def execOraDpx (o : Byte) (s : State) : Result := perform (.oraDpx o) (lora (.mem (.dpx o))) s

/-- ORA, opcode 17, `indly` (R134, R103). -/
def execOraIndly (o : Byte) (s : State) : Result := perform (.oraIndly o) (lora (.mem (.indly o))) s

/-- ORA, opcode 19, `absy` (R134, R106). -/
def execOraAbsy (a : Word) (s : State) : Result := perform (.oraAbsy a) (lora (.mem (.absy a))) s

/-- ORA, opcode 1D, `absx` (R134, R105). -/
def execOraAbsx (a : Word) (s : State) : Result := perform (.oraAbsx a) (lora (.mem (.absx a))) s

/-- ORA, opcode 1F, `longx` (R134, R108). -/
def execOraLongx (a : Address) (s : State) : Result := perform (.oraLongx a) (lora (.mem (.longx a))) s

/-- EOR, opcode 41, `indx` (R135, R100). -/
def execEorIndx (o : Byte) (s : State) : Result := perform (.eorIndx o) (leor (.mem (.indx o))) s

/-- EOR, opcode 43, `sr` (R135, R109). -/
def execEorSr (o : Byte) (s : State) : Result := perform (.eorSr o) (leor (.mem (.sr o))) s

/-- EOR, opcode 45, `dp` (R135, R96). -/
def execEorDp (o : Byte) (s : State) : Result := perform (.eorDp o) (leor (.mem (.dp o))) s

/-- EOR, opcode 47, `indl` (R135, R102). -/
def execEorIndl (o : Byte) (s : State) : Result := perform (.eorIndl o) (leor (.mem (.indl o))) s

/-- EOR, opcode 49, `imm_m` (R135, R94). -/
def execEorImmM (v : Imm) (s : State) : Result := perform (.eorImmM v) (leor (.imm v)) s

/-- EOR, opcode 4D, `abs` (R135, R104). -/
def execEorAbs (a : Word) (s : State) : Result := perform (.eorAbs a) (leor (.mem (.abs a))) s

/-- EOR, opcode 4F, `long` (R135, R107). -/
def execEorLong (a : Address) (s : State) : Result := perform (.eorLong a) (leor (.mem (.long a))) s

/-- EOR, opcode 51, `indy` (R135, R101). -/
def execEorIndy (o : Byte) (s : State) : Result := perform (.eorIndy o) (leor (.mem (.indy o))) s

/-- EOR, opcode 52, `ind` (R135, R99). -/
def execEorInd (o : Byte) (s : State) : Result := perform (.eorInd o) (leor (.mem (.ind o))) s

/-- EOR, opcode 53, `sry` (R135, R110). -/
def execEorSry (o : Byte) (s : State) : Result := perform (.eorSry o) (leor (.mem (.sry o))) s

/-- EOR, opcode 55, `dpx` (R135, R97). -/
def execEorDpx (o : Byte) (s : State) : Result := perform (.eorDpx o) (leor (.mem (.dpx o))) s

/-- EOR, opcode 57, `indly` (R135, R103). -/
def execEorIndly (o : Byte) (s : State) : Result := perform (.eorIndly o) (leor (.mem (.indly o))) s

/-- EOR, opcode 59, `absy` (R135, R106). -/
def execEorAbsy (a : Word) (s : State) : Result := perform (.eorAbsy a) (leor (.mem (.absy a))) s

/-- EOR, opcode 5D, `absx` (R135, R105). -/
def execEorAbsx (a : Word) (s : State) : Result := perform (.eorAbsx a) (leor (.mem (.absx a))) s

/-- EOR, opcode 5F, `longx` (R135, R108). -/
def execEorLongx (a : Address) (s : State) : Result := perform (.eorLongx a) (leor (.mem (.longx a))) s

/-- CMP, opcode C1, `indx` (R136, R100). -/
def execCmpIndx (o : Byte) (s : State) : Result := perform (.cmpIndx o) (cmp (.mem (.indx o))) s

/-- CMP, opcode C3, `sr` (R136, R109). -/
def execCmpSr (o : Byte) (s : State) : Result := perform (.cmpSr o) (cmp (.mem (.sr o))) s

/-- CMP, opcode C5, `dp` (R136, R96). -/
def execCmpDp (o : Byte) (s : State) : Result := perform (.cmpDp o) (cmp (.mem (.dp o))) s

/-- CMP, opcode C7, `indl` (R136, R102). -/
def execCmpIndl (o : Byte) (s : State) : Result := perform (.cmpIndl o) (cmp (.mem (.indl o))) s

/-- CMP, opcode C9, `imm_m` (R136, R94). -/
def execCmpImmM (v : Imm) (s : State) : Result := perform (.cmpImmM v) (cmp (.imm v)) s

/-- CMP, opcode CD, `abs` (R136, R104). -/
def execCmpAbs (a : Word) (s : State) : Result := perform (.cmpAbs a) (cmp (.mem (.abs a))) s

/-- CMP, opcode CF, `long` (R136, R107). -/
def execCmpLong (a : Address) (s : State) : Result := perform (.cmpLong a) (cmp (.mem (.long a))) s

/-- CMP, opcode D1, `indy` (R136, R101). -/
def execCmpIndy (o : Byte) (s : State) : Result := perform (.cmpIndy o) (cmp (.mem (.indy o))) s

/-- CMP, opcode D2, `ind` (R136, R99). -/
def execCmpInd (o : Byte) (s : State) : Result := perform (.cmpInd o) (cmp (.mem (.ind o))) s

/-- CMP, opcode D3, `sry` (R136, R110). -/
def execCmpSry (o : Byte) (s : State) : Result := perform (.cmpSry o) (cmp (.mem (.sry o))) s

/-- CMP, opcode D5, `dpx` (R136, R97). -/
def execCmpDpx (o : Byte) (s : State) : Result := perform (.cmpDpx o) (cmp (.mem (.dpx o))) s

/-- CMP, opcode D7, `indly` (R136, R103). -/
def execCmpIndly (o : Byte) (s : State) : Result := perform (.cmpIndly o) (cmp (.mem (.indly o))) s

/-- CMP, opcode D9, `absy` (R136, R106). -/
def execCmpAbsy (a : Word) (s : State) : Result := perform (.cmpAbsy a) (cmp (.mem (.absy a))) s

/-- CMP, opcode DD, `absx` (R136, R105). -/
def execCmpAbsx (a : Word) (s : State) : Result := perform (.cmpAbsx a) (cmp (.mem (.absx a))) s

/-- CMP, opcode DF, `longx` (R136, R108). -/
def execCmpLongx (a : Address) (s : State) : Result := perform (.cmpLongx a) (cmp (.mem (.longx a))) s

/-- CPX, opcode E0, `imm_x` (R137, R95). -/
def execCpxImmX (v : Imm) (s : State) : Result := perform (.cpxImmX v) (cpx (.imm v)) s

/-- CPX, opcode E4, `dp` (R137, R96). -/
def execCpxDp (o : Byte) (s : State) : Result := perform (.cpxDp o) (cpx (.mem (.dp o))) s

/-- CPX, opcode EC, `abs` (R137, R104). -/
def execCpxAbs (a : Word) (s : State) : Result := perform (.cpxAbs a) (cpx (.mem (.abs a))) s

/-- CPY, opcode C0, `imm_x` (R138, R95). -/
def execCpyImmX (v : Imm) (s : State) : Result := perform (.cpyImmX v) (cpy (.imm v)) s

/-- CPY, opcode C4, `dp` (R138, R96). -/
def execCpyDp (o : Byte) (s : State) : Result := perform (.cpyDp o) (cpy (.mem (.dp o))) s

/-- CPY, opcode CC, `abs` (R138, R104). -/
def execCpyAbs (a : Word) (s : State) : Result := perform (.cpyAbs a) (cpy (.mem (.abs a))) s

/-- BIT, opcode 24, `dp` (R139, R96). -/
def execBitDp (o : Byte) (s : State) : Result := perform (.bitDp o) (bitTest (.mem (.dp o))) s

/-- BIT, opcode 2C, `abs` (R139, R104). -/
def execBitAbs (a : Word) (s : State) : Result := perform (.bitAbs a) (bitTest (.mem (.abs a))) s

/-- BIT, opcode 34, `dpx` (R139, R97). -/
def execBitDpx (o : Byte) (s : State) : Result := perform (.bitDpx o) (bitTest (.mem (.dpx o))) s

/-- BIT, opcode 3C, `absx` (R139, R105). -/
def execBitAbsx (a : Word) (s : State) : Result := perform (.bitAbsx a) (bitTest (.mem (.absx a))) s

/-- BIT, opcode 89, `imm_m` (R139, R94). -/
def execBitImmM (v : Imm) (s : State) : Result := perform (.bitImmM v) (bitTest (.imm v)) s

/-- INC, opcode 1A, `acc` (R140, R92). -/
def execIncAcc (s : State) : Result := perform .incAcc (modifyOperand .acc incResult) s

/-- INC, opcode E6, `dp` (R140, R96). -/
def execIncDp (o : Byte) (s : State) : Result := perform (.incDp o) (modifyOperand (.mem (.dp o)) incResult) s

/-- INC, opcode EE, `abs` (R140, R104). -/
def execIncAbs (a : Word) (s : State) : Result := perform (.incAbs a) (modifyOperand (.mem (.abs a)) incResult) s

/-- INC, opcode F6, `dpx` (R140, R97). -/
def execIncDpx (o : Byte) (s : State) : Result := perform (.incDpx o) (modifyOperand (.mem (.dpx o)) incResult) s

/-- INC, opcode FE, `absx` (R140, R105). -/
def execIncAbsx (a : Word) (s : State) : Result := perform (.incAbsx a) (modifyOperand (.mem (.absx a)) incResult) s

/-- DEC, opcode 3A, `acc` (R141, R92). -/
def execDecAcc (s : State) : Result := perform .decAcc (modifyOperand .acc decResult) s

/-- DEC, opcode C6, `dp` (R141, R96). -/
def execDecDp (o : Byte) (s : State) : Result := perform (.decDp o) (modifyOperand (.mem (.dp o)) decResult) s

/-- DEC, opcode CE, `abs` (R141, R104). -/
def execDecAbs (a : Word) (s : State) : Result := perform (.decAbs a) (modifyOperand (.mem (.abs a)) decResult) s

/-- DEC, opcode D6, `dpx` (R141, R97). -/
def execDecDpx (o : Byte) (s : State) : Result := perform (.decDpx o) (modifyOperand (.mem (.dpx o)) decResult) s

/-- DEC, opcode DE, `absx` (R141, R105). -/
def execDecAbsx (a : Word) (s : State) : Result := perform (.decAbsx a) (modifyOperand (.mem (.absx a)) decResult) s

/-- INX, opcode E8, `imp` (R142, R91). -/
def execInx (s : State) : Result := perform .inx inx s

/-- INY, opcode C8, `imp` (R143, R91). -/
def execIny (s : State) : Result := perform .iny iny s

/-- DEX, opcode CA, `imp` (R144, R91). -/
def execDex (s : State) : Result := perform .dex dex s

/-- DEY, opcode 88, `imp` (R145, R91). -/
def execDey (s : State) : Result := perform .dey dey s

/-- ASL, opcode 06, `dp` (R146, R96). -/
def execAslDp (o : Byte) (s : State) : Result := perform (.aslDp o) (modifyOperand (.mem (.dp o)) aslResult) s

/-- ASL, opcode 0A, `acc` (R146, R92). -/
def execAslAcc (s : State) : Result := perform .aslAcc (modifyOperand .acc aslResult) s

/-- ASL, opcode 0E, `abs` (R146, R104). -/
def execAslAbs (a : Word) (s : State) : Result := perform (.aslAbs a) (modifyOperand (.mem (.abs a)) aslResult) s

/-- ASL, opcode 16, `dpx` (R146, R97). -/
def execAslDpx (o : Byte) (s : State) : Result := perform (.aslDpx o) (modifyOperand (.mem (.dpx o)) aslResult) s

/-- ASL, opcode 1E, `absx` (R146, R105). -/
def execAslAbsx (a : Word) (s : State) : Result := perform (.aslAbsx a) (modifyOperand (.mem (.absx a)) aslResult) s

/-- LSR, opcode 46, `dp` (R147, R96). -/
def execLsrDp (o : Byte) (s : State) : Result := perform (.lsrDp o) (modifyOperand (.mem (.dp o)) lsrResult) s

/-- LSR, opcode 4A, `acc` (R147, R92). -/
def execLsrAcc (s : State) : Result := perform .lsrAcc (modifyOperand .acc lsrResult) s

/-- LSR, opcode 4E, `abs` (R147, R104). -/
def execLsrAbs (a : Word) (s : State) : Result := perform (.lsrAbs a) (modifyOperand (.mem (.abs a)) lsrResult) s

/-- LSR, opcode 56, `dpx` (R147, R97). -/
def execLsrDpx (o : Byte) (s : State) : Result := perform (.lsrDpx o) (modifyOperand (.mem (.dpx o)) lsrResult) s

/-- LSR, opcode 5E, `absx` (R147, R105). -/
def execLsrAbsx (a : Word) (s : State) : Result := perform (.lsrAbsx a) (modifyOperand (.mem (.absx a)) lsrResult) s

/-- ROL, opcode 26, `dp` (R148, R96). -/
def execRolDp (o : Byte) (s : State) : Result := perform (.rolDp o) (modifyOperand (.mem (.dp o)) rolResult) s

/-- ROL, opcode 2A, `acc` (R148, R92). -/
def execRolAcc (s : State) : Result := perform .rolAcc (modifyOperand .acc rolResult) s

/-- ROL, opcode 2E, `abs` (R148, R104). -/
def execRolAbs (a : Word) (s : State) : Result := perform (.rolAbs a) (modifyOperand (.mem (.abs a)) rolResult) s

/-- ROL, opcode 36, `dpx` (R148, R97). -/
def execRolDpx (o : Byte) (s : State) : Result := perform (.rolDpx o) (modifyOperand (.mem (.dpx o)) rolResult) s

/-- ROL, opcode 3E, `absx` (R148, R105). -/
def execRolAbsx (a : Word) (s : State) : Result := perform (.rolAbsx a) (modifyOperand (.mem (.absx a)) rolResult) s

/-- ROR, opcode 66, `dp` (R149, R96). -/
def execRorDp (o : Byte) (s : State) : Result := perform (.rorDp o) (modifyOperand (.mem (.dp o)) rorResult) s

/-- ROR, opcode 6A, `acc` (R149, R92). -/
def execRorAcc (s : State) : Result := perform .rorAcc (modifyOperand .acc rorResult) s

/-- ROR, opcode 6E, `abs` (R149, R104). -/
def execRorAbs (a : Word) (s : State) : Result := perform (.rorAbs a) (modifyOperand (.mem (.abs a)) rorResult) s

/-- ROR, opcode 76, `dpx` (R149, R97). -/
def execRorDpx (o : Byte) (s : State) : Result := perform (.rorDpx o) (modifyOperand (.mem (.dpx o)) rorResult) s

/-- ROR, opcode 7E, `absx` (R149, R105). -/
def execRorAbsx (a : Word) (s : State) : Result := perform (.rorAbsx a) (modifyOperand (.mem (.absx a)) rorResult) s

/-- TSB, opcode 04, `dp` (R150, R96). -/
def execTsbDp (o : Byte) (s : State) : Result := perform (.tsbDp o) (modifyOperand (.mem (.dp o)) tsbResult) s

/-- TSB, opcode 0C, `abs` (R150, R104). -/
def execTsbAbs (a : Word) (s : State) : Result := perform (.tsbAbs a) (modifyOperand (.mem (.abs a)) tsbResult) s

/-- TRB, opcode 14, `dp` (R151, R96). -/
def execTrbDp (o : Byte) (s : State) : Result := perform (.trbDp o) (modifyOperand (.mem (.dp o)) trbResult) s

/-- TRB, opcode 1C, `abs` (R151, R104). -/
def execTrbAbs (a : Word) (s : State) : Result := perform (.trbAbs a) (modifyOperand (.mem (.abs a)) trbResult) s

end Sys2Proof.Machine
end

