-- ==== Sys2Proof/Machine/BlockMove.lean ====
section
/-! DEFINITION. Sys2Proof/Machine/BlockMove.lean: MVN and MVP (45_block_move.md, R270 to R272): one byte per execution. -/
namespace Sys2Proof.Machine

/-! ### Bodies -/

/-- The registers after one byte (R270): the count is the full 16-bit `A`, tested after the decrement; while bytes remain
`PC` goes back to the instruction, `PCn - 3`. -/
def Cpu.blockStep (c : Cpu) (dir : Word) : Cpu :=
  let c' := (c.xWrite (c.x + dir)).yWrite (c.y + dir)
  let a := c.a - 1#16
  { c' with a := a, pc := if a = 0xFFFF#16 then c.pc else c.pc - 3#16 }

/-- `BlockMove(dir)` (R270): `DB` becomes the destination bank, one byte is copied, and the registers step. -/
def blockMove (dir : Word) (dst src : Byte) : BusM CostFacts := plainly do
  modifyCpu fun c => { c with db := dst }
  let c ← getCpu
  let v ← busRead (mkAddr src c.x)
  busWrite (mkAddr dst c.y) v
  modifyCpu fun c => c.blockStep dir

/-- MVN (R271): ascending. -/
def mvn (dst src : Byte) : BusM CostFacts := blockMove 1#16 dst src

/-- MVP (R272): descending. -/
def mvp (dst src : Byte) : BusM CostFacts := blockMove 0xFFFF#16 dst src

/-! ### Meanings -/

/-- MVN, opcode 54, `blk` (R271, R113). -/
def execMvn (dst : Byte) (src : Byte) (s : State) : Result := perform (.mvn dst src) (mvn dst src) s

/-- MVP, opcode 44, `blk` (R272, R113). -/
def execMvp (dst : Byte) (src : Byte) (s : State) : Result := perform (.mvp dst src) (mvp dst src) s

end Sys2Proof.Machine
end

