-- ==== Sys2Proof/Machine/Branch.lean ====
section
/-! DEFINITION. Sys2Proof/Machine/Branch.lean: branches, jumps, calls and returns (43_branch_jump.md, R210 to R227).  The bodies
run with `PC = PCn` (R210). -/
namespace Sys2Proof.Machine

/-! ### Bodies -/

/-- A conditional branch (R211): `if cond: PC <- (PCn + sext_16(o1)) mod 2^16`. -/
def branchIf (cond : Status → Bool) (d : Byte) : BusM CostFacts := do
  let c ← getCpu
  let target := rel8Target c.pc d
  if cond c.p then do
    jumpTo target
    pure { taken := true, target := some target }
  else pure { taken := false, target := some target }

/-- BCC (R212). -/
def bcc (d : Byte) : BusM CostFacts := branchIf (fun p => !p.c) d

/-- BCS (R213). -/
def bcs (d : Byte) : BusM CostFacts := branchIf (fun p => p.c) d

/-- BEQ (R214). -/
def beq (d : Byte) : BusM CostFacts := branchIf (fun p => p.z) d

/-- BNE (R215). -/
def bne (d : Byte) : BusM CostFacts := branchIf (fun p => !p.z) d

/-- BMI (R216). -/
def bmi (d : Byte) : BusM CostFacts := branchIf (fun p => p.n) d

/-- BPL (R217). -/
def bpl (d : Byte) : BusM CostFacts := branchIf (fun p => !p.n) d

/-- BVC (R218). -/
def bvc (d : Byte) : BusM CostFacts := branchIf (fun p => !p.v) d

/-- BVS (R219). -/
def bvs (d : Byte) : BusM CostFacts := branchIf (fun p => p.v) d

/-- BRA (R220): always taken. -/
def bra (d : Byte) : BusM CostFacts := branchIf (fun _ => true) d

/-- BRL (R221): always taken. -/
def brl (d : Word) : BusM CostFacts := do
  let c ← getCpu
  jumpTo (rel16Target c.pc d)
  pure { taken := true }

/-- JMP absolute (R222). -/
def jmp (a : Word) : BusM CostFacts := plainly (jumpTo a)

/-- JMP through a pointer in bank 0 (R222, R114). -/
def jmpIndirect (a : Word) : BusM CostFacts := plainly do
  let t ← aindPointer a
  jumpTo t

/-- JMP through an indexed pointer in the program bank (R222, R115). -/
def jmpIndexed (a : Word) : BusM CostFacts := do
  let c ← getCpu
  let t ← aindxPointer a
  jumpTo t
  pure (aindxFacts c a)

/-- JML long (R223). -/
def jml (a : Address) : BusM CostFacts := plainly (jumpLong a)

/-- JML through a 24-bit pointer in bank 0 (R223, R116). -/
def jmlIndirect (a : Word) : BusM CostFacts := plainly do
  let t ← aindlPointer a
  jumpLong t

/-- Push the return address of a call: the address of its last byte, `(PCn - 1) mod 2^16`. -/
def pushReturn (wrap1 : Bool) : BusM Unit := do
  let c ← getCpu
  pushWord wrap1 (c.pc - 1#16)

/-- JSR absolute (R224). -/
def jsr (a : Word) : BusM CostFacts := plainly (withStack fun wrap1 => do
  pushReturn wrap1
  jumpTo a)

/-- JSR through an indexed pointer (R224): the push comes before the pointer read. -/
def jsrIndexed (a : Word) : BusM CostFacts := do
  let c ← getCpu
  withStackNew fun wrap1 => do
    pushReturn wrap1
    let t ← aindxPointer a
    jumpTo t
  pure (aindxFacts c a)

/-- JSL (R225): the program bank is pushed first. -/
def jsl (a : Address) : BusM CostFacts := plainly (withStackNew fun wrap1 => do
  let c ← getCpu
  pushByte wrap1 c.pb
  pushReturn wrap1
  jumpLong a)

/-- RTS (R226). -/
def rts : BusM CostFacts := plainly (withStack fun wrap1 => do
  let t ← pullWord wrap1
  jumpTo (t + 1#16))

/-- RTL (R227). -/
def rtl : BusM CostFacts := plainly (withStackNew fun wrap1 => do
  let t ← pullWord wrap1
  let b ← pullByte wrap1
  jumpLong (mkAddr b (t + 1#16)))

/-! ### Meanings -/

/-- BCC, opcode 90, `rel8` (R212, R111). -/
def execBcc (d : Byte) (s : State) : Result := perform (.bcc d) (bcc d) s

/-- BCS, opcode B0, `rel8` (R213, R111). -/
def execBcs (d : Byte) (s : State) : Result := perform (.bcs d) (bcs d) s

/-- BEQ, opcode F0, `rel8` (R214, R111). -/
def execBeq (d : Byte) (s : State) : Result := perform (.beq d) (beq d) s

/-- BNE, opcode D0, `rel8` (R215, R111). -/
def execBne (d : Byte) (s : State) : Result := perform (.bne d) (bne d) s

/-- BMI, opcode 30, `rel8` (R216, R111). -/
def execBmi (d : Byte) (s : State) : Result := perform (.bmi d) (bmi d) s

/-- BPL, opcode 10, `rel8` (R217, R111). -/
def execBpl (d : Byte) (s : State) : Result := perform (.bpl d) (bpl d) s

/-- BVC, opcode 50, `rel8` (R218, R111). -/
def execBvc (d : Byte) (s : State) : Result := perform (.bvc d) (bvc d) s

/-- BVS, opcode 70, `rel8` (R219, R111). -/
def execBvs (d : Byte) (s : State) : Result := perform (.bvs d) (bvs d) s

/-- BRA, opcode 80, `rel8` (R220, R111). -/
def execBra (d : Byte) (s : State) : Result := perform (.bra d) (bra d) s

/-- BRL, opcode 82, `rel16` (R221, R112). -/
def execBrl (d : Word) (s : State) : Result := perform (.brl d) (brl d) s

/-- JMP, opcode 4C, `abs` (R222, R104). -/
def execJmpAbs (a : Word) (s : State) : Result := perform (.jmpAbs a) (jmp a) s

/-- JMP, opcode 6C, `aind` (R222, R114). -/
def execJmpAind (a : Word) (s : State) : Result := perform (.jmpAind a) (jmpIndirect a) s

/-- JMP, opcode 7C, `aindx` (R222, R115). -/
def execJmpAindx (a : Word) (s : State) : Result := perform (.jmpAindx a) (jmpIndexed a) s

/-- JML, opcode 5C, `long` (R223, R107). -/
def execJmlLong (a : Address) (s : State) : Result := perform (.jmlLong a) (jml a) s

/-- JML, opcode DC, `aindl` (R223, R116). -/
def execJmlAindl (a : Word) (s : State) : Result := perform (.jmlAindl a) (jmlIndirect a) s

/-- JSR, opcode 20, `abs` (R224, R104). -/
def execJsrAbs (a : Word) (s : State) : Result := perform (.jsrAbs a) (jsr a) s

/-- JSR, opcode FC, `aindx` (R224, R115). -/
def execJsrAindx (a : Word) (s : State) : Result := perform (.jsrAindx a) (jsrIndexed a) s

/-- JSL, opcode 22, `long` (R225, R107). -/
def execJsl (a : Address) (s : State) : Result := perform (.jsl a) (jsl a) s

/-- RTS, opcode 60, `imp` (R226, R91). -/
def execRts (s : State) : Result := perform .rts rts s

/-- RTL, opcode 6B, `imp` (R227, R91). -/
def execRtl (s : State) : Result := perform .rtl rtl s

end Sys2Proof.Machine
end

