-- ==== Sys2Proof/Machine/FlagMode.lean ====
section
/-! DEFINITION. Sys2Proof/Machine/FlagMode.lean: flag instructions and the mode state machine (46_flags_mode.md, R280 to
R290). -/
namespace Sys2Proof.Machine

/-! ### Bodies -/

/-- An instruction that changes flags and nothing else. -/
def flags (f : Status → Status) : BusM CostFacts := registers fun c => { c with p := f c.p }

/-- CLC (R280). -/
def clc : BusM CostFacts := flags fun p => { p with c := false }

/-- SEC (R281). -/
def sec : BusM CostFacts := flags fun p => { p with c := true }

/-- CLI (R282). -/
def cli : BusM CostFacts := flags fun p => { p with i := false }

/-- SEI (R283). -/
def sei : BusM CostFacts := flags fun p => { p with i := true }

/-- CLD (R284). -/
def cld : BusM CostFacts := flags fun p => { p with d := false }

/-- SED (R285). -/
def sed : BusM CostFacts := flags fun p => { p with d := true }

/-- CLV (R286). -/
def clv : BusM CostFacts := flags fun p => { p with v := false }

/-- REP (R287): `UnpackP(PackP() & ~o1)`. -/
def rep (mask : Byte) : BusM CostFacts := registers fun c => c.unpackP (c.p.pack &&& ~~~mask)

/-- SEP (R288): `UnpackP(PackP() | o1)`. -/
def sep (mask : Byte) : BusM CostFacts := registers fun c => c.unpackP (c.p.pack ||| mask)

/-- XCE (R289): exchange `E` and `C`, then `Normalize()`. -/
def xce : BusM CostFacts := registers fun c => { c with p := { c.p with c := c.e }, e := c.p.c }.normalize

/-! ### Meanings -/

/-- CLC, opcode 18, `imp` (R280, R91). -/
def execClc (s : State) : Result := perform .clc clc s

/-- SEC, opcode 38, `imp` (R281, R91). -/
def execSec (s : State) : Result := perform .sec sec s

/-- CLI, opcode 58, `imp` (R282, R91). -/
def execCli (s : State) : Result := perform .cli cli s

/-- SEI, opcode 78, `imp` (R283, R91). -/
def execSei (s : State) : Result := perform .sei sei s

/-- CLD, opcode D8, `imp` (R284, R91). -/
def execCld (s : State) : Result := perform .cld cld s

/-- SED, opcode F8, `imp` (R285, R91). -/
def execSed (s : State) : Result := perform .sed sed s

/-- CLV, opcode B8, `imp` (R286, R91). -/
def execClv (s : State) : Result := perform .clv clv s

/-- REP, opcode C2, `imm8` (R287, R93). -/
def execRep (v : Byte) (s : State) : Result := perform (.rep v) (rep v) s

/-- SEP, opcode E2, `imm8` (R288, R93). -/
def execSep (v : Byte) (s : State) : Result := perform (.sep v) (sep v) s

/-- XCE, opcode FB, `imp` (R289, R91). -/
def execXce (s : State) : Result := perform .xce xce s

end Sys2Proof.Machine
end

