-- ==== Sys2Proof/Machine/LoadStore.lean ====
section
/-! DEFINITION. Sys2Proof/Machine/LoadStore.lean: loads and stores (42_load_store_transfer.md, R170 to R176). -/
namespace Sys2Proof.Machine

/-! ### Bodies -/

/-- LDA (R170). -/
def lda (o : DataOperand) : BusM CostFacts := withOperand Cpu.widthA o Cpu.loadA

/-- LDX (R171). -/
def ldx (o : DataOperand) : BusM CostFacts := withOperand Cpu.widthXY o Cpu.loadX

/-- LDY (R172). -/
def ldy (o : DataOperand) : BusM CostFacts := withOperand Cpu.widthXY o Cpu.loadY

/-- STA (R173). -/
def sta (m : MemOperand) : BusM CostFacts := storeOperand Cpu.widthA m Cpu.accRead

/-- STX (R174). -/
def stx (m : MemOperand) : BusM CostFacts := storeOperand Cpu.widthXY m fun c => c.widthXY.trunc c.x

/-- STY (R175). -/
def sty (m : MemOperand) : BusM CostFacts := storeOperand Cpu.widthXY m fun c => c.widthXY.trunc c.y

/-- STZ (R176). -/
def stz (m : MemOperand) : BusM CostFacts := storeOperand Cpu.widthA m fun _ => 0#16

/-! ### Meanings -/

/-- LDA, opcode A1, `indx` (R170, R100). -/
def execLdaIndx (o : Byte) (s : State) : Result := perform (.ldaIndx o) (lda (.mem (.indx o))) s

/-- LDA, opcode A3, `sr` (R170, R109). -/
def execLdaSr (o : Byte) (s : State) : Result := perform (.ldaSr o) (lda (.mem (.sr o))) s

/-- LDA, opcode A5, `dp` (R170, R96). -/
def execLdaDp (o : Byte) (s : State) : Result := perform (.ldaDp o) (lda (.mem (.dp o))) s

/-- LDA, opcode A7, `indl` (R170, R102). -/
def execLdaIndl (o : Byte) (s : State) : Result := perform (.ldaIndl o) (lda (.mem (.indl o))) s

/-- LDA, opcode A9, `imm_m` (R170, R94). -/
def execLdaImmM (v : Imm) (s : State) : Result := perform (.ldaImmM v) (lda (.imm v)) s

/-- LDA, opcode AD, `abs` (R170, R104). -/
def execLdaAbs (a : Word) (s : State) : Result := perform (.ldaAbs a) (lda (.mem (.abs a))) s

/-- LDA, opcode AF, `long` (R170, R107). -/
def execLdaLong (a : Address) (s : State) : Result := perform (.ldaLong a) (lda (.mem (.long a))) s

/-- LDA, opcode B1, `indy` (R170, R101). -/
def execLdaIndy (o : Byte) (s : State) : Result := perform (.ldaIndy o) (lda (.mem (.indy o))) s

/-- LDA, opcode B2, `ind` (R170, R99). -/
def execLdaInd (o : Byte) (s : State) : Result := perform (.ldaInd o) (lda (.mem (.ind o))) s

/-- LDA, opcode B3, `sry` (R170, R110). -/
def execLdaSry (o : Byte) (s : State) : Result := perform (.ldaSry o) (lda (.mem (.sry o))) s

/-- LDA, opcode B5, `dpx` (R170, R97). -/
def execLdaDpx (o : Byte) (s : State) : Result := perform (.ldaDpx o) (lda (.mem (.dpx o))) s

/-- LDA, opcode B7, `indly` (R170, R103). -/
def execLdaIndly (o : Byte) (s : State) : Result := perform (.ldaIndly o) (lda (.mem (.indly o))) s

/-- LDA, opcode B9, `absy` (R170, R106). -/
def execLdaAbsy (a : Word) (s : State) : Result := perform (.ldaAbsy a) (lda (.mem (.absy a))) s

/-- LDA, opcode BD, `absx` (R170, R105). -/
def execLdaAbsx (a : Word) (s : State) : Result := perform (.ldaAbsx a) (lda (.mem (.absx a))) s

/-- LDA, opcode BF, `longx` (R170, R108). -/
def execLdaLongx (a : Address) (s : State) : Result := perform (.ldaLongx a) (lda (.mem (.longx a))) s

/-- LDX, opcode A2, `imm_x` (R171, R95). -/
def execLdxImmX (v : Imm) (s : State) : Result := perform (.ldxImmX v) (ldx (.imm v)) s

/-- LDX, opcode A6, `dp` (R171, R96). -/
def execLdxDp (o : Byte) (s : State) : Result := perform (.ldxDp o) (ldx (.mem (.dp o))) s

/-- LDX, opcode AE, `abs` (R171, R104). -/
def execLdxAbs (a : Word) (s : State) : Result := perform (.ldxAbs a) (ldx (.mem (.abs a))) s

/-- LDX, opcode B6, `dpy` (R171, R98). -/
def execLdxDpy (o : Byte) (s : State) : Result := perform (.ldxDpy o) (ldx (.mem (.dpy o))) s

/-- LDX, opcode BE, `absy` (R171, R106). -/
def execLdxAbsy (a : Word) (s : State) : Result := perform (.ldxAbsy a) (ldx (.mem (.absy a))) s

/-- LDY, opcode A0, `imm_x` (R172, R95). -/
def execLdyImmX (v : Imm) (s : State) : Result := perform (.ldyImmX v) (ldy (.imm v)) s

/-- LDY, opcode A4, `dp` (R172, R96). -/
def execLdyDp (o : Byte) (s : State) : Result := perform (.ldyDp o) (ldy (.mem (.dp o))) s

/-- LDY, opcode AC, `abs` (R172, R104). -/
def execLdyAbs (a : Word) (s : State) : Result := perform (.ldyAbs a) (ldy (.mem (.abs a))) s

/-- LDY, opcode B4, `dpx` (R172, R97). -/
def execLdyDpx (o : Byte) (s : State) : Result := perform (.ldyDpx o) (ldy (.mem (.dpx o))) s

/-- LDY, opcode BC, `absx` (R172, R105). -/
def execLdyAbsx (a : Word) (s : State) : Result := perform (.ldyAbsx a) (ldy (.mem (.absx a))) s

/-- STA, opcode 81, `indx` (R173, R100). -/
def execStaIndx (o : Byte) (s : State) : Result := perform (.staIndx o) (sta (.indx o)) s

/-- STA, opcode 83, `sr` (R173, R109). -/
def execStaSr (o : Byte) (s : State) : Result := perform (.staSr o) (sta (.sr o)) s

/-- STA, opcode 85, `dp` (R173, R96). -/
def execStaDp (o : Byte) (s : State) : Result := perform (.staDp o) (sta (.dp o)) s

/-- STA, opcode 87, `indl` (R173, R102). -/
def execStaIndl (o : Byte) (s : State) : Result := perform (.staIndl o) (sta (.indl o)) s

/-- STA, opcode 8D, `abs` (R173, R104). -/
def execStaAbs (a : Word) (s : State) : Result := perform (.staAbs a) (sta (.abs a)) s

/-- STA, opcode 8F, `long` (R173, R107). -/
def execStaLong (a : Address) (s : State) : Result := perform (.staLong a) (sta (.long a)) s

/-- STA, opcode 91, `indy` (R173, R101). -/
def execStaIndy (o : Byte) (s : State) : Result := perform (.staIndy o) (sta (.indy o)) s

/-- STA, opcode 92, `ind` (R173, R99). -/
def execStaInd (o : Byte) (s : State) : Result := perform (.staInd o) (sta (.ind o)) s

/-- STA, opcode 93, `sry` (R173, R110). -/
def execStaSry (o : Byte) (s : State) : Result := perform (.staSry o) (sta (.sry o)) s

/-- STA, opcode 95, `dpx` (R173, R97). -/
def execStaDpx (o : Byte) (s : State) : Result := perform (.staDpx o) (sta (.dpx o)) s

/-- STA, opcode 97, `indly` (R173, R103). -/
def execStaIndly (o : Byte) (s : State) : Result := perform (.staIndly o) (sta (.indly o)) s

/-- STA, opcode 99, `absy` (R173, R106). -/
def execStaAbsy (a : Word) (s : State) : Result := perform (.staAbsy a) (sta (.absy a)) s

/-- STA, opcode 9D, `absx` (R173, R105). -/
def execStaAbsx (a : Word) (s : State) : Result := perform (.staAbsx a) (sta (.absx a)) s

/-- STA, opcode 9F, `longx` (R173, R108). -/
def execStaLongx (a : Address) (s : State) : Result := perform (.staLongx a) (sta (.longx a)) s

/-- STX, opcode 86, `dp` (R174, R96). -/
def execStxDp (o : Byte) (s : State) : Result := perform (.stxDp o) (stx (.dp o)) s

/-- STX, opcode 8E, `abs` (R174, R104). -/
def execStxAbs (a : Word) (s : State) : Result := perform (.stxAbs a) (stx (.abs a)) s

/-- STX, opcode 96, `dpy` (R174, R98). -/
def execStxDpy (o : Byte) (s : State) : Result := perform (.stxDpy o) (stx (.dpy o)) s

/-- STY, opcode 84, `dp` (R175, R96). -/
def execStyDp (o : Byte) (s : State) : Result := perform (.styDp o) (sty (.dp o)) s

/-- STY, opcode 8C, `abs` (R175, R104). -/
def execStyAbs (a : Word) (s : State) : Result := perform (.styAbs a) (sty (.abs a)) s

/-- STY, opcode 94, `dpx` (R175, R97). -/
def execStyDpx (o : Byte) (s : State) : Result := perform (.styDpx o) (sty (.dpx o)) s

/-- STZ, opcode 64, `dp` (R176, R96). -/
def execStzDp (o : Byte) (s : State) : Result := perform (.stzDp o) (stz (.dp o)) s

/-- STZ, opcode 74, `dpx` (R176, R97). -/
def execStzDpx (o : Byte) (s : State) : Result := perform (.stzDpx o) (stz (.dpx o)) s

/-- STZ, opcode 9C, `abs` (R176, R104). -/
def execStzAbs (a : Word) (s : State) : Result := perform (.stzAbs a) (stz (.abs a)) s

/-- STZ, opcode 9E, `absx` (R176, R105). -/
def execStzAbsx (a : Word) (s : State) : Result := perform (.stzAbsx a) (stz (.absx a)) s

end Sys2Proof.Machine
end

