-- ==== Sys2Proof/Machine/Stack.lean ====
section
/-! DEFINITION. Sys2Proof/Machine/Stack.lean: pushes, pulls and push-effective-address (44_stack.md, R243 to R258).  PEA, PEI,
PER, PHD and PLD are among the eight instructions of `EMU_STACK_NEW_INSN_16BIT` (R242). -/
namespace Sys2Proof.Machine

/-! ### Bodies -/

/-- Push a value computed from the register file, with the width of a register. -/
def pushReg (width : Cpu → Width) (value : Cpu → Word) : BusM CostFacts := plainly (withStack fun wrap1 => do
  let c ← getCpu
  pushData (width c) wrap1 (value c))

/-- Push one byte computed from the register file. -/
def pushByteOf (value : Cpu → Byte) : BusM CostFacts := plainly (withStack fun wrap1 => do
  let c ← getCpu
  pushByte wrap1 (value c))

/-- Pull a value of a register's width into the register file. -/
def pullReg (width : Cpu → Width) (load : Cpu → Word → Cpu) : BusM CostFacts := plainly (withStack fun wrap1 => do
  let c ← getCpu
  let v ← pullData (width c) wrap1
  modifyCpu (load · v))

/-- Pull one byte into the register file. -/
def pullByteInto (load : Cpu → Byte → Cpu) : BusM CostFacts := plainly (withStack fun wrap1 => do
  let v ← pullByte wrap1
  modifyCpu (load · v))

/-- PHA (R243). -/
def pha : BusM CostFacts := pushReg Cpu.widthA (·.a)

/-- PHX (R244). -/
def phx : BusM CostFacts := pushReg Cpu.widthXY (·.x)

/-- PHY (R245). -/
def phy : BusM CostFacts := pushReg Cpu.widthXY (·.y)

/-- PHP (R246). -/
def php : BusM CostFacts := pushByteOf (·.p.pack)

/-- PHB (R247). -/
def phb : BusM CostFacts := pushByteOf (·.db)

/-- PHK (R249). -/
def phk : BusM CostFacts := pushByteOf (·.pb)

/-- PHD (R248): always 16 bits. -/
def phd : BusM CostFacts := plainly (withStackNew fun wrap1 => do
  let c ← getCpu
  pushWord wrap1 c.d)

/-- PLA (R250). -/
def pla : BusM CostFacts := pullReg Cpu.widthA Cpu.loadA

/-- PLX (R251). -/
def plx : BusM CostFacts := pullReg Cpu.widthXY Cpu.loadX

/-- PLY (R252). -/
def ply : BusM CostFacts := pullReg Cpu.widthXY Cpu.loadY

/-- PLP (R253). -/
def plp : BusM CostFacts := pullByteInto Cpu.unpackP

/-- PLB (R254): the flags are those of the byte, at 8 bits. -/
def plb : BusM CostFacts := pullByteInto fun c v => { c with db := v, p := c.p.setNZ .byte (zext16 v) }

/-- PLD (R255): always 16 bits. -/
def pld : BusM CostFacts := plainly (withStackNew fun wrap1 => do
  let v ← pullWord wrap1
  modifyCpu fun c => { c with d := v, p := c.p.setNZ .word v })

/-- PEA (R256): the operand itself is pushed. -/
def pea (v : Word) : BusM CostFacts := plainly (withStackNew fun wrap1 => pushWord wrap1 v)

/-- PEI (R257): the direct-page pointer is pushed, not followed. -/
def pei (o : Byte) : BusM CostFacts := plainly (withStackNew fun wrap1 => fun s =>
  (do let v ← directPointer (directOffset s o)
      pushWord wrap1 v) s)

/-- PER (R258): a PC-relative address is pushed. -/
def per (d : Word) : BusM CostFacts := plainly (withStackNew fun wrap1 => do
  let c ← getCpu
  pushWord wrap1 (rel16Target c.pc d))

/-! ### Meanings -/

/-- PHA, opcode 48, `imp` (R243, R91). -/
def execPha (s : State) : Result := perform .pha pha s

/-- PHX, opcode DA, `imp` (R244, R91). -/
def execPhx (s : State) : Result := perform .phx phx s

/-- PHY, opcode 5A, `imp` (R245, R91). -/
def execPhy (s : State) : Result := perform .phy phy s

/-- PHP, opcode 08, `imp` (R246, R91). -/
def execPhp (s : State) : Result := perform .php php s

/-- PHB, opcode 8B, `imp` (R247, R91). -/
def execPhb (s : State) : Result := perform .phb phb s

/-- PHD, opcode 0B, `imp` (R248, R91). -/
def execPhd (s : State) : Result := perform .phd phd s

/-- PHK, opcode 4B, `imp` (R249, R91). -/
def execPhk (s : State) : Result := perform .phk phk s

/-- PLA, opcode 68, `imp` (R250, R91). -/
def execPla (s : State) : Result := perform .pla pla s

/-- PLX, opcode FA, `imp` (R251, R91). -/
def execPlx (s : State) : Result := perform .plx plx s

/-- PLY, opcode 7A, `imp` (R252, R91). -/
def execPly (s : State) : Result := perform .ply ply s

/-- PLP, opcode 28, `imp` (R253, R91). -/
def execPlp (s : State) : Result := perform .plp plp s

/-- PLB, opcode AB, `imp` (R254, R91). -/
def execPlb (s : State) : Result := perform .plb plb s

/-- PLD, opcode 2B, `imp` (R255, R91). -/
def execPld (s : State) : Result := perform .pld pld s

/-- PEA, opcode F4, `imm16` (R256, R93). -/
def execPea (v : Word) (s : State) : Result := perform (.pea v) (pea v) s

/-- PEI, opcode D4, `ind` (R257, R99). -/
def execPei (o : Byte) (s : State) : Result := perform (.pei o) (pei o) s

/-- PER, opcode 62, `rel16` (R258, R112). -/
def execPer (d : Word) (s : State) : Result := perform (.per d) (per d) s

end Sys2Proof.Machine
end

