-- ==== Sys2Proof/Machine/System.lean ====
section
/-! DEFINITION. Sys2Proof/Machine/System.lean: BRK, COP, RTI, WAI, STP, WDM, NOP (47_system.md, R300 to R306). -/
namespace Sys2Proof.Machine

/-! ### Bodies -/

/-- BRK or COP (R300, R301): `TrapEntry` with the return offset `PCn`; the signature byte has been fetched and is ignored. -/
def softwareTrap (k : TrapKind) : BusM CostFacts := plainly do
  let c ← getCpu
  trapEntry k c.pc

/-- RTI (R302). -/
def rti : BusM CostFacts := plainly trapReturn

/-- WAI (R303): `waiting <- 1`. -/
def wai : BusM CostFacts := fun s => .ok noFacts { s with waiting := true }

/-- STP (R304): `stopped <- 1; abort_cause <- Stopped`. -/
def stp : BusM CostFacts := fun s => .ok noFacts { s with stopped := true, abortCause := .stopped }

/-- NOP (R306): nothing but `PC = PCn`. -/
def nop : BusM CostFacts := pure noFacts

/-- The abort-triggering pseudo-instruction (R305): `abort_cause <- AbortInstruction`.  It is no branch and resolves no
operand, whatever its opcode: the cycle cost sees no index, no branch taken and the target `PCn`, so that no page crossing
is counted.  DEDUCED, the spec gives no cost of this step when `ABORT_OPCODE` is not 0x42: log entry 11. -/
def abortBody : BusM CostFacts := fun s => .ok noFacts { s with abortCause := .abortInstruction }

/-- WDM (R305): the abort instruction when `ABORT_OPCODE` is 0x42, else a 2-byte no-operation (R79). -/
def wdm : BusM CostFacts := fun s => if s.params.abortOpcode = 0x42#8 then abortBody s else nop s

/-- The instruction whose opcode is `ABORT_OPCODE` takes the semantics of R305 with its own operand size (R79); its cost
is the table's for that opcode, without any page crossing (log entry 11). -/
def execAbort (i : Instr) (s : State) : Result := perform i abortBody s

/-! ### Meanings -/

/-- BRK, opcode 00, `imm8` (R300, R93). -/
def execBrk (v : Byte) (s : State) : Result := perform (.brk v) (softwareTrap .brk) s

/-- COP, opcode 02, `imm8` (R301, R93). -/
def execCop (v : Byte) (s : State) : Result := perform (.cop v) (softwareTrap .cop) s

/-- RTI, opcode 40, `imp` (R302, R91). -/
def execRti (s : State) : Result := perform .rti rti s

/-- WAI, opcode CB, `imp` (R303, R91). -/
def execWai (s : State) : Result := perform .wai wai s

/-- STP, opcode DB, `imp` (R304, R91). -/
def execStp (s : State) : Result := perform .stp stp s

/-- WDM, opcode 42, `imm8` (R305, R93). -/
def execWdm (v : Byte) (s : State) : Result := perform (.wdm v) wdm s

/-- NOP, opcode EA, `imp` (R306, R91). -/
def execNop (s : State) : Result := perform .nop nop s

end Sys2Proof.Machine
end

