-- ==== Sys2Proof/Machine/Transfer.lean ====
section
/-! DEFINITION. Sys2Proof/Machine/Transfer.lean: register transfers (42_load_store_transfer.md, R177 to R189).  A transfer's
width is that of its destination. -/
namespace Sys2Proof.Machine

/-! ### Bodies -/

/-- TAX (R177): all 16 bits of `A` when `P.X = 0`. -/
def tax : BusM CostFacts := registers fun c => c.loadX c.a

/-- TAY (R178). -/
def tay : BusM CostFacts := registers fun c => c.loadY c.a

/-- TXA (R179). -/
def txa : BusM CostFacts := registers fun c => c.loadA c.x

/-- TYA (R180). -/
def tya : BusM CostFacts := registers fun c => c.loadA c.y

/-- TXY (R181). -/
def txy : BusM CostFacts := registers fun c => c.loadY c.x

/-- TYX (R182). -/
def tyx : BusM CostFacts := registers fun c => c.loadX c.y

/-- TSX (R183). -/
def tsx : BusM CostFacts := registers fun c => c.loadX c.s

/-- A write of `S` by TXS or TCS: all 16 bits, with the high byte forced to 0x01 when `E = 1` (R184, R187). -/
def Cpu.writeS (c : Cpu) (v : Word) : Cpu := { c with s := if c.e then page1 v else v }

/-- TXS (R184): no flag. -/
def txs : BusM CostFacts := registers fun c => c.writeS c.x

/-- TCD (R185): always 16 bits. -/
def tcd : BusM CostFacts := registers fun c => { c with d := c.a, p := c.p.setNZ .word c.a }

/-- TDC (R186): always 16 bits. -/
def tdc : BusM CostFacts := registers fun c => { c with a := c.d, p := c.p.setNZ .word c.d }

/-- TCS (R187): no flag. -/
def tcs : BusM CostFacts := registers fun c => c.writeS c.a

/-- TSC (R188): always 16 bits. -/
def tsc : BusM CostFacts := registers fun c => { c with a := c.s, p := c.p.setNZ .word c.s }

/-- XBA (R189): the flags are those of the new low byte, at 8 bits. -/
def xba : BusM CostFacts := registers fun c =>
  let v := mkWord (loByte c.a) (hiByte c.a)
  { c with a := v, p := c.p.setNZ .byte v }

/-! ### Meanings -/

/-- TAX, opcode AA, `imp` (R177, R91). -/
def execTax (s : State) : Result := perform .tax tax s

/-- TAY, opcode A8, `imp` (R178, R91). -/
def execTay (s : State) : Result := perform .tay tay s

/-- TXA, opcode 8A, `imp` (R179, R91). -/
def execTxa (s : State) : Result := perform .txa txa s

/-- TYA, opcode 98, `imp` (R180, R91). -/
def execTya (s : State) : Result := perform .tya tya s

/-- TXY, opcode 9B, `imp` (R181, R91). -/
def execTxy (s : State) : Result := perform .txy txy s

/-- TYX, opcode BB, `imp` (R182, R91). -/
def execTyx (s : State) : Result := perform .tyx tyx s

/-- TSX, opcode BA, `imp` (R183, R91). -/
def execTsx (s : State) : Result := perform .tsx tsx s

/-- TXS, opcode 9A, `imp` (R184, R91). -/
def execTxs (s : State) : Result := perform .txs txs s

/-- TCD, opcode 5B, `imp` (R185, R91). -/
def execTcd (s : State) : Result := perform .tcd tcd s

/-- TDC, opcode 7B, `imp` (R186, R91). -/
def execTdc (s : State) : Result := perform .tdc tdc s

/-- TCS, opcode 1B, `imp` (R187, R91). -/
def execTcs (s : State) : Result := perform .tcs tcs s

/-- TSC, opcode 3B, `imp` (R188, R91). -/
def execTsc (s : State) : Result := perform .tsc tsc s

/-- XBA, opcode EB, `imp` (R189, R91). -/
def execXba (s : State) : Result := perform .xba xba s

end Sys2Proof.Machine
end

