-- ==== Sys2Proof/Machine/Dispatch.lean ====
section
/-! DEFINITION. Sys2Proof/Machine/Dispatch.lean: one arm per instruction, each a direct call of its meaning. -/
namespace Sys2Proof.Machine

def exec (i : Instr) (s : State) : Host.Outcome State Fault Refusal :=
  match i with
  | .brk v => Sys2Proof.Machine.execBrk v s
  | .oraIndx o => Sys2Proof.Machine.execOraIndx o s
  | .cop v => Sys2Proof.Machine.execCop v s
  | .oraSr o => Sys2Proof.Machine.execOraSr o s
  | .tsbDp o => Sys2Proof.Machine.execTsbDp o s
  | .oraDp o => Sys2Proof.Machine.execOraDp o s
  | .aslDp o => Sys2Proof.Machine.execAslDp o s
  | .oraIndl o => Sys2Proof.Machine.execOraIndl o s
  | .php => Sys2Proof.Machine.execPhp s
  | .oraImmM v => Sys2Proof.Machine.execOraImmM v s
  | .aslAcc => Sys2Proof.Machine.execAslAcc s
  | .phd => Sys2Proof.Machine.execPhd s
  | .tsbAbs a => Sys2Proof.Machine.execTsbAbs a s
  | .oraAbs a => Sys2Proof.Machine.execOraAbs a s
  | .aslAbs a => Sys2Proof.Machine.execAslAbs a s
  | .oraLong a => Sys2Proof.Machine.execOraLong a s
  | .bpl d => Sys2Proof.Machine.execBpl d s
  | .oraIndy o => Sys2Proof.Machine.execOraIndy o s
  | .oraInd o => Sys2Proof.Machine.execOraInd o s
  | .oraSry o => Sys2Proof.Machine.execOraSry o s
  | .trbDp o => Sys2Proof.Machine.execTrbDp o s
  | .oraDpx o => Sys2Proof.Machine.execOraDpx o s
  | .aslDpx o => Sys2Proof.Machine.execAslDpx o s
  | .oraIndly o => Sys2Proof.Machine.execOraIndly o s
  | .clc => Sys2Proof.Machine.execClc s
  | .oraAbsy a => Sys2Proof.Machine.execOraAbsy a s
  | .incAcc => Sys2Proof.Machine.execIncAcc s
  | .tcs => Sys2Proof.Machine.execTcs s
  | .trbAbs a => Sys2Proof.Machine.execTrbAbs a s
  | .oraAbsx a => Sys2Proof.Machine.execOraAbsx a s
  | .aslAbsx a => Sys2Proof.Machine.execAslAbsx a s
  | .oraLongx a => Sys2Proof.Machine.execOraLongx a s
  | .jsrAbs a => Sys2Proof.Machine.execJsrAbs a s
  | .andIndx o => Sys2Proof.Machine.execAndIndx o s
  | .jsl a => Sys2Proof.Machine.execJsl a s
  | .andSr o => Sys2Proof.Machine.execAndSr o s
  | .bitDp o => Sys2Proof.Machine.execBitDp o s
  | .andDp o => Sys2Proof.Machine.execAndDp o s
  | .rolDp o => Sys2Proof.Machine.execRolDp o s
  | .andIndl o => Sys2Proof.Machine.execAndIndl o s
  | .plp => Sys2Proof.Machine.execPlp s
  | .andImmM v => Sys2Proof.Machine.execAndImmM v s
  | .rolAcc => Sys2Proof.Machine.execRolAcc s
  | .pld => Sys2Proof.Machine.execPld s
  | .bitAbs a => Sys2Proof.Machine.execBitAbs a s
  | .andAbs a => Sys2Proof.Machine.execAndAbs a s
  | .rolAbs a => Sys2Proof.Machine.execRolAbs a s
  | .andLong a => Sys2Proof.Machine.execAndLong a s
  | .bmi d => Sys2Proof.Machine.execBmi d s
  | .andIndy o => Sys2Proof.Machine.execAndIndy o s
  | .andInd o => Sys2Proof.Machine.execAndInd o s
  | .andSry o => Sys2Proof.Machine.execAndSry o s
  | .bitDpx o => Sys2Proof.Machine.execBitDpx o s
  | .andDpx o => Sys2Proof.Machine.execAndDpx o s
  | .rolDpx o => Sys2Proof.Machine.execRolDpx o s
  | .andIndly o => Sys2Proof.Machine.execAndIndly o s
  | .sec => Sys2Proof.Machine.execSec s
  | .andAbsy a => Sys2Proof.Machine.execAndAbsy a s
  | .decAcc => Sys2Proof.Machine.execDecAcc s
  | .tsc => Sys2Proof.Machine.execTsc s
  | .bitAbsx a => Sys2Proof.Machine.execBitAbsx a s
  | .andAbsx a => Sys2Proof.Machine.execAndAbsx a s
  | .rolAbsx a => Sys2Proof.Machine.execRolAbsx a s
  | .andLongx a => Sys2Proof.Machine.execAndLongx a s
  | .rti => Sys2Proof.Machine.execRti s
  | .eorIndx o => Sys2Proof.Machine.execEorIndx o s
  | .wdm v => Sys2Proof.Machine.execWdm v s
  | .eorSr o => Sys2Proof.Machine.execEorSr o s
  | .mvp dst src => Sys2Proof.Machine.execMvp dst src s
  | .eorDp o => Sys2Proof.Machine.execEorDp o s
  | .lsrDp o => Sys2Proof.Machine.execLsrDp o s
  | .eorIndl o => Sys2Proof.Machine.execEorIndl o s
  | .pha => Sys2Proof.Machine.execPha s
  | .eorImmM v => Sys2Proof.Machine.execEorImmM v s
  | .lsrAcc => Sys2Proof.Machine.execLsrAcc s
  | .phk => Sys2Proof.Machine.execPhk s
  | .jmpAbs a => Sys2Proof.Machine.execJmpAbs a s
  | .eorAbs a => Sys2Proof.Machine.execEorAbs a s
  | .lsrAbs a => Sys2Proof.Machine.execLsrAbs a s
  | .eorLong a => Sys2Proof.Machine.execEorLong a s
  | .bvc d => Sys2Proof.Machine.execBvc d s
  | .eorIndy o => Sys2Proof.Machine.execEorIndy o s
  | .eorInd o => Sys2Proof.Machine.execEorInd o s
  | .eorSry o => Sys2Proof.Machine.execEorSry o s
  | .mvn dst src => Sys2Proof.Machine.execMvn dst src s
  | .eorDpx o => Sys2Proof.Machine.execEorDpx o s
  | .lsrDpx o => Sys2Proof.Machine.execLsrDpx o s
  | .eorIndly o => Sys2Proof.Machine.execEorIndly o s
  | .cli => Sys2Proof.Machine.execCli s
  | .eorAbsy a => Sys2Proof.Machine.execEorAbsy a s
  | .phy => Sys2Proof.Machine.execPhy s
  | .tcd => Sys2Proof.Machine.execTcd s
  | .jmlLong a => Sys2Proof.Machine.execJmlLong a s
  | .eorAbsx a => Sys2Proof.Machine.execEorAbsx a s
  | .lsrAbsx a => Sys2Proof.Machine.execLsrAbsx a s
  | .eorLongx a => Sys2Proof.Machine.execEorLongx a s
  | .rts => Sys2Proof.Machine.execRts s
  | .adcIndx o => Sys2Proof.Machine.execAdcIndx o s
  | .per d => Sys2Proof.Machine.execPer d s
  | .adcSr o => Sys2Proof.Machine.execAdcSr o s
  | .stzDp o => Sys2Proof.Machine.execStzDp o s
  | .adcDp o => Sys2Proof.Machine.execAdcDp o s
  | .rorDp o => Sys2Proof.Machine.execRorDp o s
  | .adcIndl o => Sys2Proof.Machine.execAdcIndl o s
  | .pla => Sys2Proof.Machine.execPla s
  | .adcImmM v => Sys2Proof.Machine.execAdcImmM v s
  | .rorAcc => Sys2Proof.Machine.execRorAcc s
  | .rtl => Sys2Proof.Machine.execRtl s
  | .jmpAind a => Sys2Proof.Machine.execJmpAind a s
  | .adcAbs a => Sys2Proof.Machine.execAdcAbs a s
  | .rorAbs a => Sys2Proof.Machine.execRorAbs a s
  | .adcLong a => Sys2Proof.Machine.execAdcLong a s
  | .bvs d => Sys2Proof.Machine.execBvs d s
  | .adcIndy o => Sys2Proof.Machine.execAdcIndy o s
  | .adcInd o => Sys2Proof.Machine.execAdcInd o s
  | .adcSry o => Sys2Proof.Machine.execAdcSry o s
  | .stzDpx o => Sys2Proof.Machine.execStzDpx o s
  | .adcDpx o => Sys2Proof.Machine.execAdcDpx o s
  | .rorDpx o => Sys2Proof.Machine.execRorDpx o s
  | .adcIndly o => Sys2Proof.Machine.execAdcIndly o s
  | .sei => Sys2Proof.Machine.execSei s
  | .adcAbsy a => Sys2Proof.Machine.execAdcAbsy a s
  | .ply => Sys2Proof.Machine.execPly s
  | .tdc => Sys2Proof.Machine.execTdc s
  | .jmpAindx a => Sys2Proof.Machine.execJmpAindx a s
  | .adcAbsx a => Sys2Proof.Machine.execAdcAbsx a s
  | .rorAbsx a => Sys2Proof.Machine.execRorAbsx a s
  | .adcLongx a => Sys2Proof.Machine.execAdcLongx a s
  | .bra d => Sys2Proof.Machine.execBra d s
  | .staIndx o => Sys2Proof.Machine.execStaIndx o s
  | .brl d => Sys2Proof.Machine.execBrl d s
  | .staSr o => Sys2Proof.Machine.execStaSr o s
  | .styDp o => Sys2Proof.Machine.execStyDp o s
  | .staDp o => Sys2Proof.Machine.execStaDp o s
  | .stxDp o => Sys2Proof.Machine.execStxDp o s
  | .staIndl o => Sys2Proof.Machine.execStaIndl o s
  | .dey => Sys2Proof.Machine.execDey s
  | .bitImmM v => Sys2Proof.Machine.execBitImmM v s
  | .txa => Sys2Proof.Machine.execTxa s
  | .phb => Sys2Proof.Machine.execPhb s
  | .styAbs a => Sys2Proof.Machine.execStyAbs a s
  | .staAbs a => Sys2Proof.Machine.execStaAbs a s
  | .stxAbs a => Sys2Proof.Machine.execStxAbs a s
  | .staLong a => Sys2Proof.Machine.execStaLong a s
  | .bcc d => Sys2Proof.Machine.execBcc d s
  | .staIndy o => Sys2Proof.Machine.execStaIndy o s
  | .staInd o => Sys2Proof.Machine.execStaInd o s
  | .staSry o => Sys2Proof.Machine.execStaSry o s
  | .styDpx o => Sys2Proof.Machine.execStyDpx o s
  | .staDpx o => Sys2Proof.Machine.execStaDpx o s
  | .stxDpy o => Sys2Proof.Machine.execStxDpy o s
  | .staIndly o => Sys2Proof.Machine.execStaIndly o s
  | .tya => Sys2Proof.Machine.execTya s
  | .staAbsy a => Sys2Proof.Machine.execStaAbsy a s
  | .txs => Sys2Proof.Machine.execTxs s
  | .txy => Sys2Proof.Machine.execTxy s
  | .stzAbs a => Sys2Proof.Machine.execStzAbs a s
  | .staAbsx a => Sys2Proof.Machine.execStaAbsx a s
  | .stzAbsx a => Sys2Proof.Machine.execStzAbsx a s
  | .staLongx a => Sys2Proof.Machine.execStaLongx a s
  | .ldyImmX v => Sys2Proof.Machine.execLdyImmX v s
  | .ldaIndx o => Sys2Proof.Machine.execLdaIndx o s
  | .ldxImmX v => Sys2Proof.Machine.execLdxImmX v s
  | .ldaSr o => Sys2Proof.Machine.execLdaSr o s
  | .ldyDp o => Sys2Proof.Machine.execLdyDp o s
  | .ldaDp o => Sys2Proof.Machine.execLdaDp o s
  | .ldxDp o => Sys2Proof.Machine.execLdxDp o s
  | .ldaIndl o => Sys2Proof.Machine.execLdaIndl o s
  | .tay => Sys2Proof.Machine.execTay s
  | .ldaImmM v => Sys2Proof.Machine.execLdaImmM v s
  | .tax => Sys2Proof.Machine.execTax s
  | .plb => Sys2Proof.Machine.execPlb s
  | .ldyAbs a => Sys2Proof.Machine.execLdyAbs a s
  | .ldaAbs a => Sys2Proof.Machine.execLdaAbs a s
  | .ldxAbs a => Sys2Proof.Machine.execLdxAbs a s
  | .ldaLong a => Sys2Proof.Machine.execLdaLong a s
  | .bcs d => Sys2Proof.Machine.execBcs d s
  | .ldaIndy o => Sys2Proof.Machine.execLdaIndy o s
  | .ldaInd o => Sys2Proof.Machine.execLdaInd o s
  | .ldaSry o => Sys2Proof.Machine.execLdaSry o s
  | .ldyDpx o => Sys2Proof.Machine.execLdyDpx o s
  | .ldaDpx o => Sys2Proof.Machine.execLdaDpx o s
  | .ldxDpy o => Sys2Proof.Machine.execLdxDpy o s
  | .ldaIndly o => Sys2Proof.Machine.execLdaIndly o s
  | .clv => Sys2Proof.Machine.execClv s
  | .ldaAbsy a => Sys2Proof.Machine.execLdaAbsy a s
  | .tsx => Sys2Proof.Machine.execTsx s
  | .tyx => Sys2Proof.Machine.execTyx s
  | .ldyAbsx a => Sys2Proof.Machine.execLdyAbsx a s
  | .ldaAbsx a => Sys2Proof.Machine.execLdaAbsx a s
  | .ldxAbsy a => Sys2Proof.Machine.execLdxAbsy a s
  | .ldaLongx a => Sys2Proof.Machine.execLdaLongx a s
  | .cpyImmX v => Sys2Proof.Machine.execCpyImmX v s
  | .cmpIndx o => Sys2Proof.Machine.execCmpIndx o s
  | .rep v => Sys2Proof.Machine.execRep v s
  | .cmpSr o => Sys2Proof.Machine.execCmpSr o s
  | .cpyDp o => Sys2Proof.Machine.execCpyDp o s
  | .cmpDp o => Sys2Proof.Machine.execCmpDp o s
  | .decDp o => Sys2Proof.Machine.execDecDp o s
  | .cmpIndl o => Sys2Proof.Machine.execCmpIndl o s
  | .iny => Sys2Proof.Machine.execIny s
  | .cmpImmM v => Sys2Proof.Machine.execCmpImmM v s
  | .dex => Sys2Proof.Machine.execDex s
  | .wai => Sys2Proof.Machine.execWai s
  | .cpyAbs a => Sys2Proof.Machine.execCpyAbs a s
  | .cmpAbs a => Sys2Proof.Machine.execCmpAbs a s
  | .decAbs a => Sys2Proof.Machine.execDecAbs a s
  | .cmpLong a => Sys2Proof.Machine.execCmpLong a s
  | .bne d => Sys2Proof.Machine.execBne d s
  | .cmpIndy o => Sys2Proof.Machine.execCmpIndy o s
  | .cmpInd o => Sys2Proof.Machine.execCmpInd o s
  | .cmpSry o => Sys2Proof.Machine.execCmpSry o s
  | .pei o => Sys2Proof.Machine.execPei o s
  | .cmpDpx o => Sys2Proof.Machine.execCmpDpx o s
  | .decDpx o => Sys2Proof.Machine.execDecDpx o s
  | .cmpIndly o => Sys2Proof.Machine.execCmpIndly o s
  | .cld => Sys2Proof.Machine.execCld s
  | .cmpAbsy a => Sys2Proof.Machine.execCmpAbsy a s
  | .phx => Sys2Proof.Machine.execPhx s
  | .stp => Sys2Proof.Machine.execStp s
  | .jmlAindl a => Sys2Proof.Machine.execJmlAindl a s
  | .cmpAbsx a => Sys2Proof.Machine.execCmpAbsx a s
  | .decAbsx a => Sys2Proof.Machine.execDecAbsx a s
  | .cmpLongx a => Sys2Proof.Machine.execCmpLongx a s
  | .cpxImmX v => Sys2Proof.Machine.execCpxImmX v s
  | .sbcIndx o => Sys2Proof.Machine.execSbcIndx o s
  | .sep v => Sys2Proof.Machine.execSep v s
  | .sbcSr o => Sys2Proof.Machine.execSbcSr o s
  | .cpxDp o => Sys2Proof.Machine.execCpxDp o s
  | .sbcDp o => Sys2Proof.Machine.execSbcDp o s
  | .incDp o => Sys2Proof.Machine.execIncDp o s
  | .sbcIndl o => Sys2Proof.Machine.execSbcIndl o s
  | .inx => Sys2Proof.Machine.execInx s
  | .sbcImmM v => Sys2Proof.Machine.execSbcImmM v s
  | .nop => Sys2Proof.Machine.execNop s
  | .xba => Sys2Proof.Machine.execXba s
  | .cpxAbs a => Sys2Proof.Machine.execCpxAbs a s
  | .sbcAbs a => Sys2Proof.Machine.execSbcAbs a s
  | .incAbs a => Sys2Proof.Machine.execIncAbs a s
  | .sbcLong a => Sys2Proof.Machine.execSbcLong a s
  | .beq d => Sys2Proof.Machine.execBeq d s
  | .sbcIndy o => Sys2Proof.Machine.execSbcIndy o s
  | .sbcInd o => Sys2Proof.Machine.execSbcInd o s
  | .sbcSry o => Sys2Proof.Machine.execSbcSry o s
  | .pea v => Sys2Proof.Machine.execPea v s
  | .sbcDpx o => Sys2Proof.Machine.execSbcDpx o s
  | .incDpx o => Sys2Proof.Machine.execIncDpx o s
  | .sbcIndly o => Sys2Proof.Machine.execSbcIndly o s
  | .sed => Sys2Proof.Machine.execSed s
  | .sbcAbsy a => Sys2Proof.Machine.execSbcAbsy a s
  | .plx => Sys2Proof.Machine.execPlx s
  | .xce => Sys2Proof.Machine.execXce s
  | .jsrAindx a => Sys2Proof.Machine.execJsrAindx a s
  | .sbcAbsx a => Sys2Proof.Machine.execSbcAbsx a s
  | .incAbsx a => Sys2Proof.Machine.execIncAbsx a s
  | .sbcLongx a => Sys2Proof.Machine.execSbcLongx a s

end Sys2Proof.Machine
end

