-- ==== Sys2Proof/Machine/Sequence.lean ====
section
/-! DEFINITION. Sys2Proof/Machine/Sequence.lean: the parts of the step primitive around `exec` (R84): interrupt sampling,
fetch and decode, and the rollback to the start of the step; and placing an instruction where the next step fetches. -/
namespace Sys2Proof.Machine

/-! ### Fetch and decode (R84 lines 5 to 8, R76) -/

/-- The address of byte `k` of the instruction at `PB0:PC0`: bank-wrap inside the program bank (R76). -/
def fetchAddr (pb : Byte) (pc : Word) (k : Nat) : Address := mkAddr pb (pc + BitVec.ofNat 16 k)

/-- `n` operand bytes in ascending order, from byte `k` of the instruction on. -/
def fetchOperands (pb : Byte) (pc : Word) : Nat → Nat → BusM (List Byte)
  | 0, _ => pure []
  | n + 1, k => do
    let v ← busRead (fetchAddr pb pc k)
    let rest ← fetchOperands pb pc n (k + 1)
    pure (v :: rest)

/-- The opcode byte, then every operand byte its mode declares under the flags as they stand (R73, R76). -/
def fetchBytes : BusM (List Byte) := do
  let c ← getCpu
  let opcode ← busRead (fetchAddr c.pb c.pc 0)
  let rest ← fetchOperands c.pb c.pc (operandCount c.p.m c.p.x opcode) 1
  pure (opcode :: rest)

/-! ### Execution of what was fetched -/

/-- `prev_PC <- PC` (R84 line 4). -/
def State.notePc (s : State) : State := { s with prevPc := s.cpu.pc }

/-- The decoded instruction: `ABORT_OPCODE` takes R305's semantics (R79), every other opcode its own. -/
def execDecoded (i : Instr) (s : State) : Result :=
  if i.opcode = s.params.abortOpcode then execAbort i s else exec i s

/-- A failed step restores the state of the start of the step (R322), also what interrupt sampling changed. -/
def settle (start : State) (r : Result) : Result :=
  match r with
  | .next t =>
    match t.abortCause with
    | .busUnmapped a d => .next (t.rollback start (.busUnmapped a d))
    | .noAbort => .next t
    | .abortInstruction => .next t
    | .stopped => .next t
    | .widthMismatch => .next t
  | .fault f => .fault f
  | .refused r => .refused r

/-- Fetch, decode and execute one instruction in state `s` (R84 lines 4 to 12), for a step that started in `start`. -/
def runInstruction (start s : State) : Result :=
  match fetchBytes s.notePc with
  | .error f t => .next (t.rollback start f.cause)
  | .ok bytes t =>
    match decode t.cpu.p.m t.cpu.p.x bytes with
    | none => .fault .undecodable
    | some (i, _) => settle start (execDecoded i t)

/-! ### Interrupts (R328) -/

/-- Enter the handler of an interrupt: no instruction executes, and the entry is recorded like an instruction's cost.  A
bus failure during entry rolls back to `start` (R326, R322). -/
def takeInterrupt (k : TrapKind) (start s : State) : Result :=
  let s := s.notePc
  match trapEntry k s.cpu.pc s with
  | .ok _ t => .next (t.charge (interruptCost s.params.cycleCost s.cpu.e))
  | .error f t => .next (t.rollback start f.cause)

/-- What `CheckInterrupts()` decides: an interrupt was taken and ends the step, or the step goes on in a state. -/
inductive Sampled where
  | taken (r : Result)
  | goOn (s : State)

/-- `CheckInterrupts()` (R328): NMI first; then the IRQ line, which ends a wait without vectoring while `P.I = 1`. -/
def checkInterrupts (s : State) : Sampled :=
  if !s.params.hasInterruptInputs then .goOn s
  else if s.nmiPending then
    .taken (takeInterrupt .nmi s { s with nmiPending := false, waiting := false })
  else if s.irqLine then
    if s.cpu.p.i then .goOn { s with waiting := false }
    else .taken (takeInterrupt .irq s { s with waiting := false })
  else .goOn s

/-- The idle step of a waiting core (R84 line 3): only `prev_PC` and `cycles_last` are written. -/
def idleStep (s : State) : State := { s.notePc with cyclesLast := 0 }

/-- `step()` (R84): a latched abort changes nothing; then interrupts; then the wait; then one instruction. -/
def stepSession (s : State) : Result :=
  if s.abortCause = .noAbort then
    match checkInterrupts s with
    | .taken r => r
    | .goOn s' => if s'.waiting then .next (idleStep s') else runInstruction s s'
  else .next s

/-! ### Placing an instruction -/

/-- A fresh RAM region over the whole space, for an address no flat region answers. -/
def scratchRegion : Region := { kind := .ram, size := 16777216, origin := 0x000000#24, bytes := [] }

/-- Put a byte where a bus read of the address finds it: in the storage of the RAM or ROM region mapped there, else in
a RAM region attached over the address's segment for the purpose. -/
def Bus.place (b : Bus) (a : Address) (v : Byte) : Bus :=
  let fresh : Bus :=
    { b with regions := b.regions ++ [scratchRegion.poke a v]
             table := ⟨b.regions.length, segmentOf a, segmentOf a⟩ :: b.table }
  match b.regionNumber a with
  | none => fresh
  | some k =>
    match b.regions[k]? with
    | none => fresh
    | some r =>
      match r.kind with
      | .ram => b.setRegion k (r.poke a v)
      | .rom => b.setRegion k (r.poke a v)
      | .callback => fresh

/-- Put bytes where the fetch reads them, from byte `k` of the instruction at `PB:PC` on. -/
def placeBytes (pb : Byte) (pc : Word) : List Byte → Nat → Bus → Bus
  | [], _, b => b
  | v :: rest, k, b => placeBytes pb pc rest (k + 1) (b.place (fetchAddr pb pc k) v)

/-- The state whose very next step fetches and runs the instruction with these bytes: they are placed at `PB:PC`, no
abort is latched, the core is not waiting and no interrupt is requested. -/
def State.withInstruction (s : State) (bytes : List Byte) : State :=
  { s with bus := placeBytes s.cpu.pb s.cpu.pc bytes 0 s.bus
           abortCause := .noAbort
           stopped := false
           waiting := false
           nmiPending := false
           irqLine := false }

end Sys2Proof.Machine
end

