-- ==== Sys2Proof/Machine/Step.lean ====
section
/-! DEFINITION. Sys2Proof/Machine/Step.lean: the step primitive, and the state that is about to run a given opcode-table word. -/
namespace Sys2Proof.Machine

/-- One `step()` (R84).  Its result pair is `stepResult` of Machine/Session.lean. -/
def step (s : State) : Host.Outcome State Fault Refusal := stepSession s

/-- `s` with the instruction of an opcode-table word stored where `step` fetches its next instruction. -/
def State.withFetchWord (s : State) (nbits w : Nat) : State := s.withInstruction (tableWordBytes nbits w)

end Sys2Proof.Machine
end

