-- ==== Sys2Proof/Machine/Session.lean ====
section
/-! DEFINITION. Sys2Proof/Machine/Session.lean: what the host does between steps (R360): attach regions, reset, read step's
result pair, inspect and fill memory, drive the interrupt inputs, preset registers, and the stepping-loop convention. -/
namespace Sys2Proof.Machine

/-! ### Construction (R352, R360) -/

/-- What construction leaves unspecified (R352, R28): every register, flag, counter and latch, and the access record.  An
argument of `State.construct`, so that a claim about constructed sessions holds for every value. -/
structure Unspecified where
  cpu         : Cpu
  lastAddr    : Address
  lastDir     : Direction
  abortCause  : AbortCause
  stopped     : Bool
  waiting     : Bool
  nmiPending  : Bool
  irqLine     : Bool
  cyclesLast  : Nat
  cyclesTotal : Nat
  prevPc      : Word
  deriving DecidableEq, Repr

/-- A newly constructed session (R352): no region, every entry of the segment table empty, no callback called yet, and the
rest as unspecified.  The host attaches regions and calls `reset()` before the first `step()` (R353). -/
def State.construct (params : Params) (u : Unspecified) : State where
  params := params
  cpu := u.cpu
  bus := { regions := [], table := [], lastAddr := u.lastAddr, lastDir := u.lastDir, callbackLog := [] }
  abortCause := u.abortCause
  stopped := u.stopped
  waiting := u.waiting
  nmiPending := u.nmiPending
  irqLine := u.irqLine
  cyclesLast := u.cyclesLast
  cyclesTotal := u.cyclesTotal
  prevPc := u.prevPc

/-! ### attach (R44, R45) -/

/-- Why `attach` failed (R45, decision D25): a bound is not 16-byte aligned, or the bounds are no range of the space. -/
inductive AttachError where
  | misaligned
  | badRange
  deriving DecidableEq, Repr

/-- The bounds check of R45. -/
def attachError (start stop : Nat) : Option AttachError :=
  if start % 16 ≠ 0 ∨ (stop + 1) % 16 ≠ 0 then some .misaligned
  else if stop < start ∨ 0xFFFFFF < stop then some .badRange
  else none

/-- Add a region to the session, not yet reachable from any address. -/
def Bus.addRegion (b : Bus) (r : Region) : Bus := { b with regions := b.regions ++ [r] }

/-- Every segment from `start >> 4` to `stop >> 4` refers to region number `k`; the last attachment wins (R44). -/
def Bus.attachNumber (b : Bus) (k start stop : Nat) : Except AttachError Bus :=
  match attachError start stop with
  | some e => .error e
  | none => .ok { b with table := ⟨k, start / 16, stop / 16⟩ :: b.table }

/-- `attach(region, name, start, end)` of a region not attached before (R44).  `name` is a label with no effect, and a
failed attach returns the error and changes nothing (R45).  Attaching an attached region again, as a mirror, is
`Bus.attachNumber` with its number. -/
def State.attach (s : State) (r : Region) (_name : String) (start stop : Nat) : Except AttachError State :=
  match (s.bus.addRegion r).attachNumber s.bus.regions.length start stop with
  | .error e => .error e
  | .ok b => .ok (s.withBus b)

/-! ### reset (R350 to R353) -/

/-- Lines 1 to 6 of `reset()` (R350). -/
def State.resetRegisters (s : State) : State :=
  { s with
      abortCause := .noAbort
      stopped := false
      waiting := false
      nmiPending := false
      cpu := { s.cpu with
                e := true
                p := { s.cpu.p with m := true, x := true, d := false, i := true }
                d := 0x0000#16
                db := 0x00#8
                s := Config.resetS }.clearIndexHigh
      cyclesLast := 0
      cyclesTotal := 0 }

/-- `reset()` (R350): registers, then the vector through the bus; if the vector read fails the abort is latched and `PC`,
`PB`, `prev_PC` stay unchanged (R324). -/
def State.hostReset (s : State) : State :=
  match memRead16 .bank Config.resetVector s.resetRegisters with
  | .ok pc t => { t.withCpu { t.cpu with pc := pc, pb := 0x00#8 } with prevPc := pc }
  | .error f t => { t with abortCause := f.cause }

/-! ### What step returns (R84) -/

/-- `step()`'s pair (cycles consumed, abort flag): `(0, true)` when an abort was already latched, else the recorded cost
of the step and whether a cause is latched now. -/
def stepResult (s : State) : Option (Nat × Bool) :=
  if s.abortCause = .noAbort then
    match step s with
    | .next t => some (t.cyclesLast, t.abortCause != .noAbort)
    | .fault _ => none
    | .refused _ => none
  else some (0, true)

/-! ### Regions and dump (R41 to R43, R60) -/

/-- `size()` (R43). -/
def Region.sizeOf (r : Region) : Nat := r.size

/-- `clear()` (R43): every byte of a RAM region becomes 0x00; nothing for ROM and callback regions. -/
def Region.clear (r : Region) : Region :=
  match r.kind with
  | .ram => { r with bytes := [] }
  | .rom => r
  | .callback => r

/-- `shutdown()` (R43): no architectural effect. -/
def Region.shutdown (r : Region) : Region := r

/-- Every address of `[start, end]`, in order; none when `end < start`. -/
def addressRange (start stop : Address) : List Address :=
  (List.range' start.toNat (stop.toNat + 1 - start.toNat)).map (BitVec.ofNat 24)

/-- `dump(range)` of a region (R41): its byte at every bus address of `[start, end]`, in order.  Nothing for a callback
region, over which R60 says not to offer it (log entry 12).  The bounds are 24-bit addresses (log entry 12). -/
def Region.dump (r : Region) (start stop : Address) : Option (List Byte) := (addressRange start stop).mapM r.flatByte

/-- The host's `read` of a region directly (R360): the byte and the session after it.  It is no bus access: `last_addr`
and `last_dir` stay (R28). -/
def State.readRegion (s : State) (k : Nat) (a : Address) : Option (Byte × State) :=
  match s.bus.readRegion k a with
  | none => none
  | some (v, b) => some (v, s.withBus b)

/-- The host's `write` of a region directly (R360): a ROM region ignores it (R42), and it is no bus access. -/
def State.writeRegion (s : State) (k : Nat) (a : Address) (v : Byte) : Option State :=
  (s.bus.writeRegion k a v).map s.withBus

/-- The host's `clear()` of a region (R360). -/
def State.clearRegion (s : State) (k : Nat) : State :=
  match s.bus.regions[k]? with
  | none => s
  | some r => s.withBus (s.bus.setRegion k r.clear)

/-- The host's `shutdown()` of a region. -/
def State.shutdownRegion (s : State) (k : Nat) : State :=
  match s.bus.regions[k]? with
  | none => s
  | some r => s.withBus (s.bus.setRegion k r.shutdown)

/-- The host's `dump(range)` of a region (R360). -/
def State.dumpRegion (s : State) (k : Nat) (start stop : Address) : Option (List Byte) :=
  (s.bus.regions[k]?).bind (·.dump start stop)

/-- `dump(start, end, destination)` (R60): `destination` holds one byte for every address from `start` on, and the answer
is what it holds afterwards: up to `end`, the bytes of mapped RAM and ROM regions are replaced; those of unmapped segments
and of callback regions stay (U17: log entry 12).  It performs no bus access.  The spec checks no bounds of a dump: here
they are 24-bit addresses, so that no dump runs past `0xFFFFFF`, and one with `end < start` copies nothing (DESIGN CHOICE:
log entry 12). -/
def Bus.dump (b : Bus) (start stop : Address) (destination : List Byte) : List Byte :=
  destination.mapIdx fun j v =>
    if start.toNat + j ≤ stop.toNat then (b.peek (BitVec.ofNat 24 (start.toNat + j))).getD v else v

/-! ### Interrupt inputs and presets (R328, R360) -/

/-- The host requests a non-maskable interrupt. -/
def State.requestNmi (s : State) : State := { s with nmiPending := true }

/-- The host drives the IRQ line. -/
def State.setIrqLine (s : State) (level : Bool) : State := { s with irqLine := level }

/-- A test harness presets registers and flags, re-establishing the invariants by `Normalize()` (R360). -/
def State.preset (s : State) (f : Cpu → Cpu) : State := s.withCpu (f s.cpu).normalize

/-! ### The stepping-loop convention (R360) -/

/-- How the caller's loop ends. -/
inductive RunEnd where
  | aborted (cause : AbortCause)
  | waiting
  | halted
  | budgetExhausted
  deriving DecidableEq, Repr

/-- The caller's test after a step from `s` to `t`: abort, then the wait, then an instruction that left the program
counter where it was, unless it is MVN or MVP, which repeat by design. -/
def loopEnd (s t : State) : Option RunEnd :=
  if t.abortCause ≠ .noAbort then some (.aborted t.abortCause)
  else if t.waiting then some .waiting
  else
    let opcode := t.peek (mkAddr t.cpu.pb t.prevPc)
    if t.cpu.pc = t.prevPc ∧ t.cpu.pb = s.cpu.pb ∧ opcode ≠ some 0x54#8 ∧ opcode ≠ some 0x44#8 then some .halted
    else none

/-- One turn of the loop: the cycles `step()` returned, how the loop ends if it does, and the state after the step. -/
def loopTurn (s : State) : Option (Nat × Option RunEnd × State) :=
  match step s, stepResult s with
  | .next t, some (c, _) => some (c, loopEnd s t, t)
  | _, _ => none

/-- `run(budget)` (R360), counting steps. -/
def runBudget : Nat → State → Option (RunEnd × State)
  | 0, s => some (.budgetExhausted, s)
  | n + 1, s =>
    match loopTurn s with
    | none => none
    | some (_, some e, t) => some (e, t)
    | some (_, none, t) => runBudget n t

/-- `run(budget)` (R360) with a cycle budget: `budget <- budget - c`.  A session's own `CycleCost` may cost nothing, and
then the loop need not end ("an emulated infinite loop spins forever"), so the model also bounds the steps by `fuel` and
answers nothing when it is used up (DESIGN CHOICE: log entry 25). -/
def runCycleBudget : Nat → Nat → State → Option (RunEnd × State)
  | _, 0, s => some (.budgetExhausted, s)
  | 0, _ + 1, _ => none
  | fuel + 1, budget + 1, s =>
    match loopTurn s with
    | none => none
    | some (_, some e, t) => some (e, t)
    | some (c, none, t) => runCycleBudget fuel (budget + 1 - c) t

end Sys2Proof.Machine
end

