-- ==== Sys2Proof/Safety.lean ====
section
/-! DEFINITION. Sys2Proof/Safety.lean: the invariants of the machine and the run states, in the terms claims use. -/
namespace Sys2Proof

open Machine

/-- The emulation invariant (R20): with `E = 1`, `P.M = P.X = 1` and the high byte of `S` is 0x01. -/
def EmulationInv (c : Cpu) : Prop := c.e = true → c.p.m = true ∧ c.p.x = true ∧ hiByte c.s = 0x01#8

/-- The index invariant (R13): with `P.X = 1` the high bytes of `X` and `Y` are zero. -/
def IndexInv (c : Cpu) : Prop := c.p.x = true → hiByte c.x = 0x00#8 ∧ hiByte c.y = 0x00#8

/-- Both mode invariants of the register file. -/
def ModeInv (c : Cpu) : Prop := EmulationInv c ∧ IndexInv c

/-- A region's storage is in canonical form. -/
def RegionsWf (b : Bus) : Prop := ∀ r ∈ b.regions, Memory.wf r.bytes

/-- The session is in one of the four run states of R336: `stopped` exactly with the cause `Stopped`; and the cause
`WidthMismatch`, which R323 calls unreachable, is not latched. -/
def LatchInv (s : State) : Prop :=
  (s.stopped = true ↔ s.abortCause = .stopped) ∧ s.abortCause ≠ .widthMismatch

/-- The invariant every step keeps. -/
def StateInv (s : State) : Prop := ModeInv s.cpu ∧ RegionsWf s.bus ∧ LatchInv s

/-- The four run states (R336). -/
inductive RunState where
  | running
  | waiting
  | stopped
  | aborted
  deriving DecidableEq, Repr

def runState (s : State) : RunState :=
  match s.abortCause with
  | .noAbort => if s.waiting then .waiting else .running
  | .stopped => .stopped
  | .abortInstruction => .aborted
  | .busUnmapped _ _ => .aborted
  | .widthMismatch => .aborted

/-- The operand of a reading instruction: its flag-dependent immediate or memory operand. -/
def dataOperand : Operand → Option DataOperand
  | .immM v => some (.imm v)
  | .immX v => some (.imm v)
  | .mem m => some (.mem m)
  | .imp => none
  | .acc => none
  | .imm8 _ => none
  | .imm16 _ => none
  | .rel8 _ => none
  | .rel16 _ => none
  | .blk _ _ => none
  | .aind _ => none
  | .aindx _ => none
  | .aindl _ => none

/-- The memory operand of an instruction that has one. -/
def memOperand : Operand → Option MemOperand
  | .mem m => some m
  | .imp => none
  | .acc => none
  | .imm8 _ => none
  | .imm16 _ => none
  | .immM _ => none
  | .immX _ => none
  | .rel8 _ => none
  | .rel16 _ => none
  | .blk _ _ => none
  | .aind _ => none
  | .aindx _ => none
  | .aindl _ => none

/-! ### Accesses one after another -/

/-- Reads of the listed addresses, in order: the bytes and the bus after them; nothing if one is unmapped. -/
def Machine.Bus.loadAll : List Address → Bus → Option (List Byte × Bus)
  | [], b => some ([], b)
  | a :: rest, b =>
    match b.load a with
    | none => none
    | some (v, b') =>
      match loadAll rest b' with
      | none => none
      | some (vs, b'') => some (v :: vs, b'')

/-- Writes of the listed bytes, in order: the bus after them; nothing if one address is unmapped. -/
def Machine.Bus.storeAll : List (Address × Byte) → Bus → Option Bus
  | [], b => some b
  | (a, v) :: rest, b =>
    match b.store a v with
    | none => none
    | some b' => storeAll rest b'

/-- The addresses of `n` bytes from `a` up under a wrap discipline (R51 to R53). -/
def byteAddresses (wrap : Wrap) : Nat → Address → List Address
  | 0, _ => []
  | n + 1, a => a :: byteAddresses wrap n (wrap.next a)

/-- The number whose bytes these are, the first the least significant (R54). -/
def numberOfBytes : List Byte → Nat
  | [] => 0
  | v :: rest => v.toNat + 256 * numberOfBytes rest

/-- The `n` low bytes of a number, the least significant first. -/
def bytesOfNumber : Nat → Nat → List Byte
  | 0, _ => []
  | n + 1, v => BitVec.ofNat 8 v :: bytesOfNumber n (v / 256)

/-- The addresses of an operand's bytes: one, or two under the mode's discipline (R90). -/
def dataAddresses (narrow : Bool) (r : Resolved) : List Address :=
  if narrow then [r.ea] else [r.ea, r.wrap.next r.ea]

/-- The bytes of a value, the less significant first (R54). -/
def dataBytes (narrow : Bool) (v : Word) : List Byte := if narrow then [loByte v] else [loByte v, hiByte v]

/-- The value of one or two bytes, the less significant first. -/
def wordOfBytes : List Byte → Word
  | [] => 0x0000#16
  | [lo] => mkWord 0x00#8 lo
  | lo :: hi :: _ => mkWord hi lo

/-- The offsets pushes use (R240): push number `k` of an instruction that starts with stack pointer `sp`, and the stack
pointer after `k` pushes. -/
def pushOffset (wrap1 : Bool) (sp : Word) (k : Nat) : Word :=
  if wrap1 && k != 0 then mkWord 0x01#8 (loByte sp - BitVec.ofNat 8 k) else sp - BitVec.ofNat 16 k

/-- The offsets pulls use (R241): pull number `k`, counted from 1, and the stack pointer after it. -/
def pullOffset (wrap1 : Bool) (sp : Word) (k : Nat) : Word :=
  if wrap1 then mkWord 0x01#8 (loByte sp + BitVec.ofNat 8 k) else sp + BitVec.ofNat 16 k

/-- The writes of pushing these bytes, the first one first, from push number `k` on. -/
def pushWrites (wrap1 : Bool) (sp : Word) : Nat → List Byte → List (Address × Byte)
  | _, [] => []
  | k, v :: rest => (mkAddr 0x00#8 (pushOffset wrap1 sp k), v) :: pushWrites wrap1 sp (k + 1) rest

/-- The addresses of `n` pulls. -/
def pullReads (wrap1 : Bool) (sp : Word) (n : Nat) : List Address :=
  (List.range n).map fun k => mkAddr 0x00#8 (pullOffset wrap1 sp (k + 1))

/-- The stack pointer an instruction leaves: in Emulation mode its high byte is 0x01 (R20, R242). -/
def stackEnd (c : Cpu) (sp : Word) : Word := if c.e then mkWord 0x01#8 (loByte sp) else sp

/-! ### Register views, as R7, R12, R13 and R23 put them -/

/-- `SetNZ(v, w)` with `w = 8` when `narrow`, else 16. -/
def withNZ (p : Status) (narrow : Bool) (v : Word) : Status :=
  { p with n := if narrow then v.getLsbD 7 else v.getLsbD 15
           z := if narrow then decide (loByte v = 0x00#8) else decide (v = 0x0000#16) }

/-- `AccRead()`. -/
def accumulator (c : Cpu) : Word := if c.p.m then mkWord 0x00#8 (loByte c.a) else c.a

/-- `A` after `AccWrite(v)`. -/
def accumulatorWith (c : Cpu) (v : Word) : Word := if c.p.m then mkWord (hiByte c.a) (loByte v) else v

/-- A value at the index width: what `IdxWrite` leaves in `X` or `Y`, and what STX, STY, CPX, CPY use of them. -/
def indexValue (c : Cpu) (v : Word) : Word := if c.p.x then mkWord 0x00#8 (loByte v) else v

/-- `v mod 2^wA`. -/
def atWidthA (c : Cpu) (v : Word) : Word := if c.p.m then mkWord 0x00#8 (loByte v) else v

/-- The register file after `UnpackP(b)` (R18, R22): every flag from its bit, then the mode invariants. -/
def withStatusByte (c : Cpu) (b : Byte) : Cpu :=
  let x := c.e || b.getLsbD 4
  { c with
      p := { n := b.getLsbD 7, v := b.getLsbD 6, m := c.e || b.getLsbD 5, x := x
             d := b.getLsbD 3, i := b.getLsbD 2, z := b.getLsbD 1, c := b.getLsbD 0 }
      x := if x then mkWord 0x00#8 (loByte c.x) else c.x
      y := if x then mkWord 0x00#8 (loByte c.y) else c.y
      s := if c.e then mkWord 0x01#8 (loByte c.s) else c.s }

/-! ### Numbers -/

/-- A value of `w` bits read as a signed number. -/
def signedValue (narrow : Bool) (v : Word) : Int := if narrow then (loByte v).toInt else v.toInt

/-- `2^w`. -/
def modulus (narrow : Bool) : Nat := if narrow then 256 else 65536

/-- The signed number does not fit `w` bits. -/
def signedOverflow (narrow : Bool) (n : Int) : Bool :=
  decide (n < -(modulus narrow / 2 : Nat) ∨ (modulus narrow / 2 : Nat) ≤ n)

/-- A number below 10^n in binary-coded decimal. -/
def toBcd : Nat → Nat → Nat
  | 0, _ => 0
  | n + 1, x => x % 10 + 16 * toBcd n (x / 10)

/-! ### Cycle costs, by mnemonic and mode (R358, R359) -/

/-- The mnemonics that read an operand. -/
def readers : List Mnemonic := [.adc, .sbc, .and, .ora, .eor, .cmp, .bit, .lda, .ldx, .ldy, .cpx, .cpy]

/-- The mnemonics that store a register. -/
def storers : List Mnemonic := [.sta, .stx, .sty, .stz]

/-- The read-modify-write mnemonics. -/
def modifiers : List Mnemonic := [.inc, .dec, .asl, .lsr, .rol, .ror, .tsb, .trb]

/-- The conditional branches. -/
def conditionalBranches : List Mnemonic := [.bcc, .bcs, .beq, .bne, .bmi, .bpl, .bvc, .bvs]

/-- The modes with an indexed 16-bit address, whose page crossing costs. -/
def pageCrossingModes : List Mode := [.absx, .absy, .indy]

/-- The modes that start at the direct-page register. -/
def directModes : List Mode := [.dp, .dpx, .dpy, .ind, .indx, .indy, .indl, .indly]

/-- The base cost of reading one operand byte by a mode. -/
def readCycles (mode : Mode) : Nat :=
  if mode ∈ [.dp] then 3
  else if mode ∈ [.dpx, .dpy, .abs, .absx, .absy, .sr] then 4
  else if mode ∈ [.ind, .indy, .long, .longx] then 5
  else if mode ∈ [.indx, .indl, .indly] then 6
  else if mode = .sry then 7
  else 2

/-- The base costs of R358: a store indexed by 16 bits always takes the page-crossing cycle, a read-modify-write of memory
two or (indexed, absolute) three more than a read. -/
def baseCycles (mn : Mnemonic) (mode : Mode) : Nat :=
  if mn ∈ readers then readCycles mode
  else if mn ∈ storers then readCycles mode + (if mode ∈ pageCrossingModes then 1 else 0)
  else if mn ∈ modifiers then
    readCycles mode + (if mode = .acc then 0 else if mode = .absx then 3 else 2)
  else if mn = .jsl ∨ mn = .jsr ∧ mode = .aindx then 8
  else if mn ∈ [.brk, .cop, .mvn, .mvp] then 7
  else if mn ∈ [.rts, .rtl, .rti, .pei, .per, .jsr] ∨ mode ∈ [.aindx, .aindl] then 6
  else if mn ∈ [.pea, .pld] ∨ mode = .aind then 5
  else if mn ∈ [.brl, .phd, .pla, .plx, .ply, .plp, .plb, .jml] then 4
  else if mn ∈ [.bra, .jmp, .pha, .phx, .phy, .php, .phb, .phk, .rep, .sep, .xba, .wai, .stp] then 3
  else 2

/-- Two offsets lie in different pages. -/
def crossesPage (v w : Word) : Bool := v &&& 0xFF00#16 != w &&& 0xFF00#16

/-- The default cost of R358 and R359: the base cost, and one addend for each note, with the registers `c` of the start of
the step, the base and index of the operand's address and whether and where a branch went from `f`, and the `PC` at the
end. -/
def defaultCycles (i : Instr) (c : Cpu) (f : CostFacts) (pc : Word) : Nat :=
  let mn := i.mnemonic
  let mode := i.operand.mode
  let branchPage := if c.e && crossesPage (c.pc + 2#16) (f.target.getD pc) then 1 else 0
  baseCycles mn mode
    + (if !c.p.m ∧ mn ∈ [.adc, .sbc, .and, .ora, .eor, .cmp, .bit, .lda, .sta, .stz, .pha, .pla] then 1 else 0)
    + (if !c.p.m ∧ mn ∈ modifiers ∧ mode ≠ .acc then 2 else 0)
    + (if !c.p.x ∧ mn ∈ [.ldx, .ldy, .cpx, .cpy, .stx, .sty, .phx, .phy, .plx, .ply] then 1 else 0)
    + (if loByte c.d ≠ 0x00#8 ∧ mode ∈ directModes then 1 else 0)
    + (if mn ∈ readers ∧ mode ∈ pageCrossingModes ∧ (!c.p.x || crossesPage (offsetOf f.base) (offsetOf f.base + f.index))
        then 1 else 0)
    + (if mn ∈ conditionalBranches ∧ f.taken then 1 + branchPage else 0)
    + (if mn = .bra then branchPage else 0)
    + (if !c.e ∧ mn ∈ [.brk, .cop, .rti] then 1 else 0)

/-! ### Where an instruction ends -/

/-- The state an instruction that started in `s` ends in: what its bus operations left, `t`, with the register file `c`
and the cost recorded (R84 lines 11, 12). -/
def ended (i : Instr) (s t : State) (f : CostFacts) (c : Cpu) : State := (t.withCpu c).charge (instrCost i s f c.pc)

/-- The storage cell a bus address names: the number of its region and the byte number inside it (R43).  Two addresses
with one cell are mirrors. -/
def cellOf (b : Bus) (a : Address) : Option (Nat × Nat) :=
  match b.regionNumber a with
  | none => none
  | some k => (b.regions[k]?).map fun r => (k, r.index a)

/-- The address is mapped to a region of RAM. -/
def IsRam (b : Bus) (a : Address) : Prop := ∃ r, b.regionAt a = some r ∧ r.kind = .ram

/-- Every address is mapped. -/
def FullyMapped (b : Bus) : Prop := ∀ a, b.mapped a = true

/-- Memory is the same on both buses: every byte reads as before, and so does every region. -/
def KeepsMemory (b b' : Bus) : Prop :=
  b'.regions = b.regions ∧ b'.table = b.table ∧ ∀ a, b'.peek a = b.peek a

/-- No interrupt request is taken by the next step (R328): there are no inputs, or no request, or only a masked one. -/
def NoInterruptTaken (s : State) : Prop :=
  s.params.hasInterruptInputs = false ∨ s.nmiPending = false ∧ (s.irqLine = false ∨ s.cpu.p.i = true)

/-- A step that failed on the bus. -/
def BusFailed (s : State) : Prop := ∃ a d, s.abortCause = .busUnmapped a d

/-! ### Where an instruction fails on the bus (R322) -/

/-- `exec i s` ends in the abort of a failed access of `a`, with memory as on bus `b`, on which the completed accesses
stand; every register is that of `s`. -/
def FailsOn (i : Instr) (s : State) (b : Bus) (a : Address) (d : Direction) : Prop :=
  exec i s = .next ((s.withBus (b.record a d)).rollback s (.busUnmapped a d))

/-- If number `k` of these writes, which start on bus `b`, is the first unmapped one, the `k` before it stand. -/
def WritesStand (i : Instr) (s : State) (b : Bus) (writes : List (Address × Byte)) : Prop :=
  ∀ (k : Nat) (a : Address) (v : Byte) (b' : Bus),
    writes[k]? = some (a, v) → b.storeAll (writes.take k) = some b' → b'.regionAt a = none → FailsOn i s b' a .write

/-- If number `k` of these reads, which start on bus `b`, is the first unmapped one, what `b` holds stands. -/
def ReadsFail (i : Instr) (s : State) (b : Bus) (reads : List Address) : Prop :=
  ∀ (k : Nat) (a : Address) (bytes : List Byte) (b' : Bus),
    reads[k]? = some a → b.loadAll (reads.take k) = some (bytes, b') → b'.regionAt a = none → FailsOn i s b' a .read

/-- A store that fails. -/
def StoringFailure (mn : Mnemonic) (narrow : Cpu → Bool) (value : Cpu → Word) : Prop :=
  ∀ (i : Instr) (m : MemOperand) (s : State) (r : Resolved) (b : Bus),
    i.mnemonic = mn → memOperand i.operand = some m → resolve m (advance i s) = .ok r ((advance i s).withBus b) →
    WritesStand i s b ((dataAddresses (narrow s.cpu) r).zip (dataBytes (narrow s.cpu) (value s.cpu)))

/-- A read-modify-write that fails while it reads; its writes go to the addresses it has read, and cannot fail. -/
def ModifyingFailure : Prop :=
  ∀ (i : Instr) (m : MemOperand) (s : State) (r : Resolved) (b : Bus),
    i.mnemonic ∈ modifiers → memOperand i.operand = some m →
    resolve m (advance i s) = .ok r ((advance i s).withBus b) → ReadsFail i s b (dataAddresses s.cpu.p.m r)

/-- A push that fails. -/
def PushingFailure (i : Instr) (wrap1 : State → Bool) (bytes : Cpu → List Byte) : Prop :=
  ∀ s : State, WritesStand i s s.bus (pushWrites (wrap1 s) s.cpu.s 0 (bytes s.cpu))

/-- A software trap that fails in its pushes, or in its vector after them. -/
def SoftwareTrapFailure (mk : Byte → Instr) (native emulation : Address) : Prop :=
  ∀ (s : State) (sig : Byte),
    let frame := pushWrites s.cpu.e s.cpu.s 0
      (if s.cpu.e then [hiByte (s.cpu.pc + 2#16), loByte (s.cpu.pc + 2#16), s.cpu.p.pack]
        else [s.cpu.pb, hiByte (s.cpu.pc + 2#16), loByte (s.cpu.pc + 2#16), s.cpu.p.pack])
    WritesStand (mk sig) s s.bus frame ∧
    ∀ b : Bus, s.bus.storeAll frame = some b →
      ReadsFail (mk sig) s b (byteAddresses .bank 2 (if s.cpu.e then emulation else native))

/-- An interrupt request is taken by the next step (R328): the NMI, or without one an unmasked IRQ. -/
def InterruptTaken (s : State) (nmi : Bool) : Prop :=
  s.abortCause = .noAbort ∧ s.params.hasInterruptInputs = true ∧
    (nmi = true ∧ s.nmiPending = true ∨ nmi = false ∧ s.nmiPending = false ∧ s.irqLine = true ∧ s.cpu.p.i = false)

/-- The step of an interrupt whose entry fails: bus `b` with the failed access recorded, and the abort latched. -/
def EntryFailsOn (s : State) (b : Bus) (a : Address) (d : Direction) : Prop :=
  step s = .next { s with bus := b.record a d, prevPc := s.cpu.pc, cyclesLast := 0, abortCause := .busUnmapped a d }

/-! ### Shapes of effects

Each says of an instruction that it completes, for every state and operand whose accesses are mapped, in exactly the
state described. -/

/-- An instruction of mnemonic `mn` whose operand reads as `v` at its width ends with the registers `eff c v`; memory is
as the reads left it. -/
def ReadingEffect (mn : Mnemonic) (narrow : Cpu → Bool) (eff : Instr → Cpu → Word → Cpu) : Prop :=
  ∀ (i : Instr) (o : DataOperand) (s : State) (v : Word) (f : CostFacts) (b : Bus),
    i.mnemonic = mn → dataOperand i.operand = some o → i.wellFormed s.cpu.p.m s.cpu.p.x = true →
    readOperand (if narrow s.cpu then .byte else .word) o (advance i s) = .ok (v, f) ((advance i s).withBus b) →
    exec i s = .next (ended i s (s.withBus b) f { eff i s.cpu v with pc := nextPc i s.cpu.pc })

/-- A store: the address, then the bytes of `value`, the less significant first; no register changes. -/
def StoringEffect (mn : Mnemonic) (narrow : Cpu → Bool) (value : Cpu → Word) : Prop :=
  ∀ (i : Instr) (m : MemOperand) (s : State) (r : Resolved) (b b' : Bus),
    i.mnemonic = mn → memOperand i.operand = some m →
    resolve m (advance i s) = .ok r ((advance i s).withBus b) →
    b.storeAll ((dataAddresses (narrow s.cpu) r).zip (dataBytes (narrow s.cpu) (value s.cpu))) = some b' →
    exec i s = .next (ended i s (s.withBus b') r.facts { s.cpu with pc := nextPc i s.cpu.pc })

/-- A read-modify-write of memory: the address, the operand's bytes, then the result's bytes, the more significant
first; the flags are `fl`. -/
def ModifyingEffect (mn : Mnemonic) (res : Cpu → Word → Word) (fl : Cpu → Word → Status) : Prop :=
  ∀ (i : Instr) (m : MemOperand) (s : State) (r : Resolved) (bytes : List Byte) (b b' b'' : Bus),
    i.mnemonic = mn → memOperand i.operand = some m →
    resolve m (advance i s) = .ok r ((advance i s).withBus b) →
    b.loadAll (dataAddresses s.cpu.p.m r) = some (bytes, b') →
    b'.storeAll ((dataAddresses s.cpu.p.m r).zip (dataBytes s.cpu.p.m (res s.cpu (wordOfBytes bytes)))).reverse =
      some b'' →
    exec i s = .next (ended i s (s.withBus b'') r.facts
      { s.cpu with p := fl s.cpu (wordOfBytes bytes), pc := nextPc i s.cpu.pc })

/-- An instruction that touches no memory: it ends with the registers `eff c` in every state. -/
def RegisterEffect (i : Instr) (eff : Cpu → Cpu) : Prop :=
  ∀ s : State, exec i s = .next (ended i s s {} { eff s.cpu with pc := nextPc i s.cpu.pc })

/-- A push of bytes computed from the start state, the first one first. -/
def PushingEffect (i : Instr) (wrap1 : State → Bool) (bytes : Cpu → List Byte) : Prop :=
  ∀ (s : State) (b : Bus),
    s.bus.storeAll (pushWrites (wrap1 s) s.cpu.s 0 (bytes s.cpu)) = some b →
    exec i s = .next (ended i s (s.withBus b) {}
      { s.cpu with s := stackEnd s.cpu (pushOffset (wrap1 s) s.cpu.s (bytes s.cpu).length), pc := nextPc i s.cpu.pc })

/-- A pull of `n` bytes, the less significant first, into the registers `eff`. -/
def PullingEffect (i : Instr) (wrap1 : State → Bool) (n : Cpu → Nat) (eff : Cpu → Word → Cpu) : Prop :=
  ∀ (s : State) (bytes : List Byte) (b : Bus),
    s.bus.loadAll (pullReads (wrap1 s) s.cpu.s (n s.cpu)) = some (bytes, b) →
    exec i s = .next (ended i s (s.withBus b) {}
      { eff s.cpu (wordOfBytes bytes) with
          s := stackEnd s.cpu (pullOffset (wrap1 s) s.cpu.s (n s.cpu)), pc := nextPc i s.cpu.pc })

/-- The stack bytes of a trap entry, in the order pushed (R326). -/
def trapFrame (c : Cpu) (ret : Word) (p : Byte) : List Byte :=
  if c.e then [hiByte ret, loByte ret, p] else [c.pb, hiByte ret, loByte ret, p]

/-- The registers after a trap entry (R326): only `S`, `P.I`, `P.D`, `PB` and `PC` change. -/
def trapCpu (c : Cpu) (target : Word) : Cpu :=
  { c with
      p := { c.p with i := true, d := false }, pb := 0x00#8, pc := target
      s := stackEnd c (pushOffset c.e c.s (if c.e then 3 else 4)) }

/-- A branch whose condition is `cond`: taken, `PC` is the next instruction's address plus the sign-extended
displacement, modulo 2^16; else it is the next instruction's.  Nothing else changes. -/
def BranchEffect (mk : Byte → Instr) (cond : Status → Bool) : Prop :=
  ∀ (d : Byte) (s : State),
    exec (mk d) s = .next (ended (mk d) s s
      { taken := cond s.cpu.p, target := some (s.cpu.pc + 2#16 + d.signExtend 16) }
      { s.cpu with pc := if cond s.cpu.p then s.cpu.pc + 2#16 + d.signExtend 16 else s.cpu.pc + 2#16 })

/-- The first `n` stack slots are distinct bytes of RAM. -/
def StackReady (s : State) (n : Nat) : Prop :=
  RegionsWf s.bus ∧ (∀ k < n, IsRam s.bus (mkAddr 0x00#8 (pushOffset s.cpu.e s.cpu.s k))) ∧
  ∀ j < n, ∀ k < n, j ≠ k → cellOf s.bus (mkAddr 0x00#8 (pushOffset s.cpu.e s.cpu.s j)) ≠
    cellOf s.bus (mkAddr 0x00#8 (pushOffset s.cpu.e s.cpu.s k))

/-- One step of MVN (`dir` 1) or MVP (`dir` 0xFFFF): one byte from `src:X` to `dst:Y`, `DB` becomes `dst`, the offsets
step at the index width, the 16-bit count in `A` decrements, and `PC` stays on the instruction until it was 0.  Every
byte of memory but the one at `dst:Y` reads as before. -/
def BlockMoveEffect (mk : Byte → Byte → Instr) (dir : Word) : Prop :=
  ∀ (s : State) (dst src v : Byte) (b b' : Bus),
    s.bus.load (mkAddr src s.cpu.x) = some (v, b) → b.store (mkAddr dst s.cpu.y) v = some b' →
    exec (mk dst src) s = .next (ended (mk dst src) s (s.withBus b') {}
      { s.cpu with
          db := dst, x := indexValue s.cpu (s.cpu.x + dir), y := indexValue s.cpu (s.cpu.y + dir)
          a := s.cpu.a - 1#16, pc := if s.cpu.a = 0x0000#16 then s.cpu.pc + 3#16 else s.cpu.pc }) ∧
    (RegionsWf s.bus → ∀ a, cellOf s.bus a ≠ cellOf s.bus (mkAddr dst s.cpu.y) → b'.peek a = s.bus.peek a)

/-- A software trap: the frame is pushed with the return offset after the signature byte, then the vector of the mode is
read; only `S`, `P.I`, `P.D`, `PB` and `PC` change. -/
def SoftwareTrapEffect (mk : Byte → Instr) (native emulation : Address) : Prop :=
  ∀ (s : State) (sig lo hi : Byte) (b b' : Bus),
    s.bus.storeAll (pushWrites s.cpu.e s.cpu.s 0 (trapFrame s.cpu (s.cpu.pc + 2#16) s.cpu.p.pack)) = some b →
    b.loadAll (byteAddresses .bank 2 (if s.cpu.e then emulation else native)) = some ([lo, hi], b') →
    exec (mk sig) s = .next (ended (mk sig) s (s.withBus b') {} (trapCpu s.cpu (mkWord hi lo)))

end Sys2Proof
end

