-- ==== Sys2Proof/Certificates/Slice0/Obligations.lean ====
section
/-! DEFINITION. Sys2Proof/Certificates/Slice0/Obligations.lean: the statements about the machine, each from the numbered rules
of the spec its entry in OBLIGATIONS.json cites. -/

open Sys2Proof Sys2Proof.Machine

/-! ### Encoding and decoding -/

/-- Decoding what a well-formed instruction encodes to gives it back, with every operand, whatever follows it. -/
def Obligations.EncodeThenDecode : Prop :=
  ∀ (m x : Bool) (i : Instr) (rest : List Byte),
    i.wellFormed m x = true → decode m x (encode i ++ rest) = some (i, rest)

/-- What the decoder reads is well-formed under its flags, and the bytes read are exactly its encoding. -/
def Obligations.DecodeThenEncode : Prop :=
  ∀ (m x : Bool) (bytes rest : List Byte) (i : Instr),
    decode m x bytes = some (i, rest) → bytes = encode i ++ rest ∧ i.wellFormed m x = true

/-- Every byte value is an opcode and no operand is illegal: with enough operand bytes the decoder answers an instruction
of that opcode, with the descriptor of the table, and leaves the bytes after its operands; with fewer it answers none. -/
def Obligations.EveryOpcodeDecodes : Prop :=
  ∀ (m x : Bool) (opcode : Byte) (operands : List Byte),
    (operandCount m x opcode ≤ operands.length →
      ∃ i, decode m x (opcode :: operands) = some (i, operands.drop (operandCount m x opcode)) ∧
        i.opcode = opcode ∧ instructionTable opcode = ⟨i.mnemonic, i.operand.mode⟩) ∧
    (operands.length < operandCount m x opcode → decode m x (opcode :: operands) = none)

/-- The length of an instruction is one byte more than its mode's operand bytes, 1 to 4; it depends on `P.M` for exactly
the eight `imm_m` opcodes and on `P.X` for exactly the four `imm_x` opcodes, where it is one byte longer at 16 bits. -/
def Obligations.LengthFollowsWidthFlags : Prop :=
  (∀ (m x : Bool) (i : Instr), i.wellFormed m x = true → i.length = 1 + operandCount m x i.opcode ∧ i.length ≤ 4) ∧
  (∀ (x : Bool) (opcode : Byte), operandCount false x opcode = operandCount true x opcode +
    (if opcode ∈ [0x09#8, 0x29#8, 0x49#8, 0x69#8, 0x89#8, 0xA9#8, 0xC9#8, 0xE9#8] then 1 else 0)) ∧
  (∀ (m : Bool) (opcode : Byte), operandCount m false opcode = operandCount m true opcode +
    (if opcode ∈ [0xA0#8, 0xA2#8, 0xC0#8, 0xE0#8] then 1 else 0))

/-- Words written out from the encodings of the spec decode to the instructions they stand for. -/
def Obligations.SampleWordsDecode : Prop :=
  decode true true [0xA9#8, 0x01#8] = some (.ldaImmM (.imm8 0x01#8), []) ∧
  decode false true [0xA9#8, 0x34#8, 0x12#8] = some (.ldaImmM (.imm16 0x1234#16), []) ∧
  decode true true [0xA9#8, 0x34#8, 0x12#8] = some (.ldaImmM (.imm8 0x34#8), [0x12#8]) ∧
  decode true true [0xD0#8, 0x02#8] = some (.bne 0x02#8, []) ∧
  decode true true [0x8D#8, 0x00#8, 0x20#8] = some (.staAbs 0x2000#16, []) ∧
  decode true true [0x5C#8, 0x00#8, 0x80#8, 0x7E#8] = some (.jmlLong 0x7E8000#24, []) ∧
  decode true true [0x54#8, 0x7F#8, 0x7E#8] = some (.mvn 0x7F#8 0x7E#8, []) ∧
  decode true true [0x82#8, 0xFD#8, 0x7F#8] = some (.brl 0x7FFD#16, []) ∧
  decode true false [0xE0#8, 0x00#8, 0x20#8] = some (.cpxImmX (.imm16 0x2000#16), []) ∧
  decode true true [0xFB#8] = some (.xce, [])

/-! ### The step primitive -/

/-- A running step with no interrupt taken runs the instruction whose bytes stand at `PB:PC`, in the state in which
`prev_PC` is noted and the bytes have been fetched. -/
def Obligations.StepRunsDecodedInstruction : Prop :=
  ∀ (s : State) (i : Instr) (bytes : List Byte) (b : Bus),
    s.abortCause = .noAbort → s.waiting = false → NoInterruptTaken s →
    s.bus.loadAll ((List.range i.length).map (fetchAddr s.cpu.pb s.cpu.pc)) = some (bytes, b) →
    decode s.cpu.p.m s.cpu.p.x bytes = some (i, []) → i.opcode ≠ s.params.abortOpcode →
    step s = exec i (s.notePc.withBus b)

/-- The instruction whose opcode is `ABORT_OPCODE` latches `AbortInstruction`, advances `PC` past its own operand bytes
and changes no register, flag or memory byte; and WDM, when another opcode aborts, is a no-operation of two bytes.  What
the step costs is the model's reading (log entry 11). -/
def Obligations.AbortOpcodeStep : Prop :=
  (∀ (s : State) (i : Instr) (bytes : List Byte) (b : Bus),
    s.abortCause = .noAbort → s.waiting = false → NoInterruptTaken s →
    s.bus.loadAll ((List.range i.length).map (fetchAddr s.cpu.pb s.cpu.pc)) = some (bytes, b) →
    decode s.cpu.p.m s.cpu.p.x bytes = some (i, []) → i.opcode = s.params.abortOpcode →
    step s = .next ({ (s.notePc.withBus b).withCpu { s.cpu with pc := nextPc i s.cpu.pc } with
      abortCause := .abortInstruction }.charge (instrCost i s {} (nextPc i s.cpu.pc))) ∧ KeepsMemory s.bus b) ∧
  (∀ (s : State) (v : Byte), s.params.abortOpcode ≠ 0x42#8 →
    exec (.wdm v) s = .next (ended (.wdm v) s s {} { s.cpu with pc := s.cpu.pc + 2#16 }))

/-- A latched abort makes every step answer the same state with the abort flag; a waiting core without an interrupt
request only notes `prev_PC` and costs nothing. -/
def Obligations.LatchedAndIdleSteps : Prop :=
  (∀ s : State, s.abortCause ≠ .noAbort → step s = .next s ∧ stepResult s = some (0, true)) ∧
  (∀ s : State, s.abortCause = .noAbort → s.waiting = true →
    s.params.hasInterruptInputs = false ∨ s.nmiPending = false ∧ s.irqLine = false →
    step s = .next { s with prevPc := s.cpu.pc, cyclesLast := 0 } ∧ stepResult s = some (0, false))

/-- `step()` is total and answers a next state; it never touches the parameters, the segment table or a region's
configuration, and it never changes a byte of a ROM region. -/
def Obligations.StepIsTotal : Prop :=
  ∀ s : State, ∃ t, step s = .next t ∧
    t.params = s.params ∧ t.bus.table = s.bus.table ∧ t.bus.regions.length = s.bus.regions.length ∧
    (∀ (k : Nat) (r : Region), s.bus.regions[k]? = some r → ∃ r', t.bus.regions[k]? = some r' ∧
      r'.kind = r.kind ∧ r'.size = r.size ∧ r'.origin = r.origin ∧ r'.map = r.map ∧
      (r.kind = .rom → r'.bytes = r.bytes)) ∧
    s.bus.callbackLog <:+ t.bus.callbackLog

/-- Every step keeps the invariant: the Emulation and index invariants of the registers, canonical memory, and the
latches in one of the four run states; and `reset()` establishes it from every state with canonical memory. -/
def Obligations.StepKeepsInvariant : Prop :=
  (∀ s t : State, StateInv s → step s = .next t → StateInv t) ∧
  (∀ s : State, RegionsWf s.bus → StateInv s.hostReset)

/-- The state after reset, for the model's own session (log entries 1 and 2), meets the invariant. -/
def Obligations.ResetMeetsInvariant : Prop := StateInv State.reset

/-- `reset()`: what it writes and what it keeps; when the vector is unmapped, the abort with `PC`, `PB`, `prev_PC` as
before; and `reset()` leaves the model's own session `State.reset` (log entries 1 and 2) as it is.  That `irq_line` is
kept is the model's choice (log entry 19): the table of R32 has no row for it. -/
def Obligations.HostReset : Prop :=
  (∀ (s : State) (lo hi : Byte) (b : Bus),
    s.bus.loadAll [0x00FFFC#24, 0x00FFFD#24] = some ([lo, hi], b) →
    s.hostReset =
      { params := s.params, bus := b, abortCause := .noAbort, stopped := false, waiting := false
        nmiPending := false, irqLine := s.irqLine, cyclesLast := 0, cyclesTotal := 0, prevPc := mkWord hi lo
        cpu := { a := s.cpu.a, x := mkWord 0x00#8 (loByte s.cpu.x), y := mkWord 0x00#8 (loByte s.cpu.y)
                 d := 0x0000#16, s := 0x01FF#16, pc := mkWord hi lo, db := 0x00#8, pb := 0x00#8
                 p := { s.cpu.p with m := true, x := true, d := false, i := true }, e := true } } ∧
    KeepsMemory s.bus b ∧ b.lastAddr = 0x00FFFD#24 ∧ b.lastDir = .read) ∧
  (∀ s : State, s.bus.regionAt 0x00FFFC#24 = none →
    s.hostReset.abortCause = .busUnmapped 0x00FFFC#24 .read ∧ s.hostReset.cpu.pc = s.cpu.pc ∧
    s.hostReset.cpu.pb = s.cpu.pb ∧ s.hostReset.prevPc = s.prevPc ∧ s.hostReset.cpu.e = true ∧
    s.hostReset.cpu.s = 0x01FF#16 ∧ s.hostReset.stopped = false ∧ s.hostReset.waiting = false) ∧
  State.reset.hostReset = State.reset

/-- A step that fails on the bus: the failing segment has no region; every register, flag and latch and `cycles_total`
are those of the start of the step; `prev_PC` is the offset of the failing instruction; the failing access is recorded
and is the payload; the result is (0, true).  Memory is that of the accesses completed before the failing one: for every
store, push, call, block move and trap entry (of an interrupt too), whichever of its writes or reads fails.  A
read-modify-write fails only before it writes; every other instruction writes nothing, and one that fails on a read has
written nothing, but for JSR, BRK and COP, whose frame is pushed before their pointer or vector is read. -/
def Obligations.BusFailureIsPrecise : Prop :=
  (∀ (s t : State) (a : Address) (d : Direction),
    s.abortCause = .noAbort → step s = .next t → t.abortCause = .busUnmapped a d →
    s.bus.regionAt a = none ∧ t.bus.lastAddr = a ∧ t.bus.lastDir = d ∧
    t.cpu = s.cpu ∧ t.waiting = s.waiting ∧ t.stopped = s.stopped ∧ t.nmiPending = s.nmiPending ∧
    t.irqLine = s.irqLine ∧ t.cyclesTotal = s.cyclesTotal ∧ t.cyclesLast = 0 ∧ t.prevPc = s.cpu.pc ∧
    s.bus.callbackLog <:+ t.bus.callbackLog ∧ stepResult s = some (0, true)) ∧
  (StoringFailure .sta (·.p.m) (·.a) ∧ StoringFailure .stx (·.p.x) (·.x) ∧ StoringFailure .sty (·.p.x) (·.y) ∧
    StoringFailure .stz (·.p.m) (fun _ => 0x0000#16)) ∧
  ModifyingFailure ∧
  (PushingFailure .pha (·.cpu.e) (fun c => if c.p.m then [loByte c.a] else [hiByte c.a, loByte c.a]) ∧
    PushingFailure .phx (·.cpu.e) (fun c => if c.p.x then [loByte c.x] else [hiByte c.x, loByte c.x]) ∧
    PushingFailure .phy (·.cpu.e) (fun c => if c.p.x then [loByte c.y] else [hiByte c.y, loByte c.y]) ∧
    PushingFailure .php (·.cpu.e) (fun c => [c.p.pack]) ∧ PushingFailure .phb (·.cpu.e) (fun c => [c.db]) ∧
    PushingFailure .phd State.stackWrapsNew (fun c => [hiByte c.d, loByte c.d]) ∧
    PushingFailure .phk (·.cpu.e) (fun c => [c.pb]) ∧
    (∀ v : Word, PushingFailure (.pea v) State.stackWrapsNew (fun _ => [hiByte v, loByte v])) ∧
    (∀ d : Word, PushingFailure (.per d) State.stackWrapsNew
      (fun c => [hiByte (c.pc + 3#16 + d), loByte (c.pc + 3#16 + d)])) ∧
    (∀ (s : State) (o : Byte) (v : Word) (b : Bus),
      directPointer (directOffset s o) (advance (.pei o) s) = .ok v ((advance (.pei o) s).withBus b) →
      WritesStand (.pei o) s b (pushWrites s.stackWrapsNew s.cpu.s 0 [hiByte v, loByte v]))) ∧
  ((∀ a : Word, PushingFailure (.jsrAbs a) (·.cpu.e) (fun c => [hiByte (c.pc + 2#16), loByte (c.pc + 2#16)])) ∧
    (∀ l : Address, PushingFailure (.jsl l) State.stackWrapsNew
      (fun c => [c.pb, hiByte (c.pc + 3#16), loByte (c.pc + 3#16)])) ∧
    (∀ a : Word, PushingFailure (.jsrAindx a) State.stackWrapsNew
      (fun c => [hiByte (c.pc + 2#16), loByte (c.pc + 2#16)])) ∧
    (∀ (s : State) (a : Word) (b : Bus),
      s.bus.storeAll (pushWrites s.stackWrapsNew s.cpu.s 0 [hiByte (s.cpu.pc + 2#16), loByte (s.cpu.pc + 2#16)]) =
        some b →
      ReadsFail (.jsrAindx a) s b (byteAddresses .bank 2 (mkAddr s.cpu.pb (a + s.cpu.x))))) ∧
  (∀ (s : State) (dst src v : Byte) (b : Bus) (i : Instr), i = .mvn dst src ∨ i = .mvp dst src →
    s.bus.load (mkAddr src s.cpu.x) = some (v, b) → b.regionAt (mkAddr dst s.cpu.y) = none →
    FailsOn i s b (mkAddr dst s.cpu.y) .write) ∧
  (SoftwareTrapFailure .brk 0x00FFE6#24 0x00FFFE#24 ∧ SoftwareTrapFailure .cop 0x00FFE4#24 0x00FFF4#24) ∧
  (∀ (s : State) (nmi : Bool), InterruptTaken s nmi →
    let frame := pushWrites s.cpu.e s.cpu.s 0 (trapFrame s.cpu s.cpu.pc
      (if s.cpu.e then s.cpu.p.pack &&& 0xEF#8 else s.cpu.p.pack))
    let vector := byteAddresses .bank 2 (if nmi then (if s.cpu.e then 0x00FFFA#24 else 0x00FFEA#24)
      else (if s.cpu.e then 0x00FFFE#24 else 0x00FFEE#24))
    (∀ (k : Nat) (a : Address) (v : Byte) (b : Bus), frame[k]? = some (a, v) → s.bus.storeAll (frame.take k) = some b →
      b.regionAt a = none → EntryFailsOn s b a .write) ∧
    (∀ (k : Nat) (a : Address) (bytes : List Byte) (b b' : Bus), s.bus.storeAll frame = some b →
      vector[k]? = some a → b.loadAll (vector.take k) = some (bytes, b') → b'.regionAt a = none →
      EntryFailsOn s b' a .read)) ∧
  (∀ (i : Instr) (s t : State) (a : Address), exec i s = .next t → s.abortCause = .noAbort →
    t.abortCause = .busUnmapped a .read → i.mnemonic ∉ [.jsr, .brk, .cop] → KeepsMemory s.bus t.bus) ∧
  (∀ (i : Instr) (s t : State) (a : Address) (d : Direction), exec i s = .next t → s.abortCause = .noAbort →
    t.abortCause = .busUnmapped a d →
    i.mnemonic ∉ [.sta, .stx, .sty, .stz, .mvn, .mvp, .pha, .phx, .phy, .php, .phb, .phd, .phk, .pea, .pei, .per, .jsr,
      .jsl, .brk, .cop] → KeepsMemory s.bus t.bus)

/-- No step latches `WidthMismatch`.  Executing a term whose operand width contradicts the flags does, and leaves every
register and all of memory as they were: that clause, about a term no byte stream decodes to, is the model's reading of
R321 and R323 (log entry 16). -/
def Obligations.WidthMismatch : Prop :=
  (∀ s t : State, step s = .next t → t.abortCause = .widthMismatch → s.abortCause = .widthMismatch) ∧
  (∀ (s : State) (i : Instr), i.wellFormed s.cpu.p.m s.cpu.p.x = false →
    exec i s = .next { s with abortCause := .widthMismatch, cyclesLast := 0 })

/-- The counters: a step that is not refused notes `PC` in `prev_PC`; what it adds to `cycles_total` is what it leaves in
`cycles_last` (unbounded counters).  The default cost of every instruction is the base cost of R358 and the adjustments of
R359, in the form `defaultCycles` gives them by mnemonic and mode. -/
def Obligations.CountersAddUp : Prop :=
  (∀ s t : State, s.abortCause = .noAbort → step s = .next t →
    t.prevPc = s.cpu.pc ∧
    (s.params.counterWidth = none → t.cyclesTotal = s.cyclesTotal + t.cyclesLast)) ∧
  (∀ (i : Instr) (s : State) (f : CostFacts) (pc : Word), s.params.cycleCost = .wdcTable →
    instrCost i s f pc = defaultCycles i s.cpu f pc)

/-- Interrupt inputs: a pending NMI is taken, whatever `P.I` and the IRQ line; an unmasked IRQ is taken when no NMI is
pending; both push the frame of R326 with bit 4 clear in Emulation mode and return offset `PC`, and cost 7 or 8 cycles.
A masked IRQ only ends a wait: the step goes on as if the core had not waited. -/
def Obligations.InterruptsAreTaken : Prop :=
  (∀ (s : State) (nmi : Bool) (b b' : Bus) (lo hi : Byte),
    s.abortCause = .noAbort → s.params.hasInterruptInputs = true → s.params.cycleCost = .wdcTable →
    s.params.counterWidth = none →
    (nmi = true ∧ s.nmiPending = true ∨
      nmi = false ∧ s.nmiPending = false ∧ s.irqLine = true ∧ s.cpu.p.i = false) →
    s.bus.storeAll (pushWrites s.cpu.e s.cpu.s 0 (trapFrame s.cpu s.cpu.pc
      (if s.cpu.e then s.cpu.p.pack &&& 0xEF#8 else s.cpu.p.pack))) = some b →
    b.loadAll (byteAddresses .bank 2 (if nmi then (if s.cpu.e then 0x00FFFA#24 else 0x00FFEA#24)
      else (if s.cpu.e then 0x00FFFE#24 else 0x00FFEE#24))) = some ([lo, hi], b') →
    step s = .next { s with
      cpu := trapCpu s.cpu (mkWord hi lo), bus := b', waiting := false, nmiPending := false, prevPc := s.cpu.pc
      cyclesLast := if s.cpu.e then 7 else 8, cyclesTotal := s.cyclesTotal + (if s.cpu.e then 7 else 8) }) ∧
  (∀ s t : State, s.abortCause = .noAbort → s.nmiPending = false → s.irqLine = true → s.cpu.p.i = true →
    s.params.hasInterruptInputs = true → step { s with waiting := false } = .next t → ¬ BusFailed t → step s = .next t)

/-! ### The bus -/

/-- A byte access of an unmapped address fails with the access recorded and nothing else changed, and is never answered
with a value; every access of a mapped address succeeds; a write to ROM is ignored. -/
def Obligations.BusAccess : Prop :=
  (∀ (s : State) (a : Address), s.bus.regionAt a = none →
    busRead a s = .error ⟨a, .read⟩ (s.withBus { s.bus with lastAddr := a, lastDir := .read }) ∧
    ∀ v, busWrite a v s = .error ⟨a, .write⟩ (s.withBus { s.bus with lastAddr := a, lastDir := .write })) ∧
  (∀ (s : State) (a : Address) (v : Byte), s.bus.mapped a = true →
    (∃ w b, busRead a s = .ok w (s.withBus b) ∧ b.lastAddr = a ∧ b.lastDir = .read) ∧
    (∃ b, busWrite a v s = .ok () (s.withBus b) ∧ b.lastAddr = a ∧ b.lastDir = .write)) ∧
  (∀ (s : State) (a : Address) (v : Byte) (r : Region), s.bus.regionAt a = some r → r.kind = .rom →
    busRead a s = .ok (r.peek a) (s.withBus { s.bus with lastAddr := a, lastDir := .read }) ∧
    busWrite a v s = .ok () (s.withBus { s.bus with lastAddr := a, lastDir := .write }))

/-- A store to RAM is seen by a read of the same byte, through every mirror of it, and by no other; a store to ROM or to
a callback region changes no byte; a load changes no byte and answers the byte stored there. -/
def Obligations.LoadAfterStore : Prop :=
  (∀ (b b' : Bus) (a a' : Address) (v : Byte), RegionsWf b → IsRam b a → b.store a v = some b' →
    b'.peek a' = if cellOf b a' = cellOf b a then some v else b.peek a') ∧
  (∀ (b b' : Bus) (a : Address) (v : Byte), ¬ IsRam b a → b.store a v = some b' → KeepsMemory b b') ∧
  (∀ (b b' : Bus) (a : Address) (v w : Byte), b.load a = some (v, b') →
    KeepsMemory b b' ∧ (b.peek a = some w → v = w))

/-- A constructed session maps no address.  `attach` of a new region: it fails exactly on misaligned or impossible bounds;
else every address of the range is dispatched to that region, and every other as before (the last attachment wins). -/
def Obligations.Attach : Prop :=
  (∀ (p : Params) (u : Unspecified) (a : Address), (State.construct p u).bus.mapped a = false ∧
    (State.construct p u).bus.regions = [] ∧ (State.construct p u).params = p) ∧
  ∀ (s : State) (r : Region) (name : String) (start stop : Nat),
    (s.attach r name start stop = .error .misaligned ↔ start % 16 ≠ 0 ∨ (stop + 1) % 16 ≠ 0) ∧
    (s.attach r name start stop = .error .badRange ↔
      start % 16 = 0 ∧ (stop + 1) % 16 = 0 ∧ (stop < start ∨ 0xFFFFFF < stop)) ∧
    (∀ t, s.attach r name start stop = .ok t →
      t.cpu = s.cpu ∧ t.abortCause = s.abortCause ∧
      (∀ a : Address, start ≤ a.toNat → a.toNat ≤ stop → t.bus.regionAt a = some r) ∧
      (∀ a : Address, a.toNat < start ∨ stop < a.toNat →
        t.bus.regionNumber a = s.bus.regionNumber a ∧
        (s.bus.mapped a = true → t.bus.regionAt a = s.bus.regionAt a)))

/-- The multi-byte helpers are their byte accesses in the order of R53, little-endian, at the addresses the wrap
discipline gives: `BANK` inside the bank, `ADDR` across the 24-bit space. -/
def Obligations.MultiByteAccess : Prop :=
  (∀ (wrap : Wrap) (n : Nat) (a : Address) (s : State) (bytes : List Byte) (b : Bus),
    s.bus.loadAll (byteAddresses wrap n a) = some (bytes, b) →
    memRead wrap n a s = .ok (numberOfBytes bytes) (s.withBus b)) ∧
  (∀ (wrap : Wrap) (n v : Nat) (a : Address) (s : State) (b : Bus),
    s.bus.storeAll ((byteAddresses wrap n a).zip (bytesOfNumber n v)) = some b →
    memWrite wrap n a v s = .ok () (s.withBus b)) ∧
  (∀ (wrap : Wrap) (a : Address) (v : Word) (s : State) (b : Bus),
    s.bus.storeAll [(wrap.next a, hiByte v), (a, loByte v)] = some b →
    writeDataHiFirst .word wrap a v s = .ok () (s.withBus b)) ∧
  (∀ a : Address, bankOf (Wrap.bank.next a) = bankOf a ∧
    (offsetOf (Wrap.bank.next a)).toNat = ((offsetOf a).toNat + 1) % 65536 ∧
    (Wrap.addr.next a).toNat = (a.toNat + 1) % 16777216)

/-- A multi-byte access has no alignment requirement; it fails only at an unmapped byte, the first in its order, and the
bytes before it have been read or written. -/
def Obligations.PartialAccess : Prop :=
  (∀ (wrap : Wrap) (n : Nat) (a : Address) (s t : State) (e : BusFailure), memRead wrap n a s = .error e t →
    ∃ k bytes b, k < n ∧ s.bus.loadAll ((byteAddresses wrap n a).take k) = some (bytes, b) ∧
      (byteAddresses wrap n a)[k]? = some e.addr ∧ e.dir = .read ∧ b.regionAt e.addr = none ∧
      t = s.withBus (b.record e.addr .read)) ∧
  (∀ (wrap : Wrap) (n v : Nat) (a : Address) (s t : State) (e : BusFailure), memWrite wrap n a v s = .error e t →
    ∃ k b, k < n ∧ s.bus.storeAll (((byteAddresses wrap n a).zip (bytesOfNumber n v)).take k) = some b ∧
      (byteAddresses wrap n a)[k]? = some e.addr ∧ e.dir = .write ∧ b.regionAt e.addr = none ∧
      t = s.withBus (b.record e.addr .write))

/-! ### Registers -/

/-- `PackP` puts the flags N V M X D I Z C at bits 7 to 0; `UnpackP` assigns each flag from its bit and normalizes; the
two are inverse on the flags. -/
def Obligations.StatusByte : Prop :=
  (∀ p : Status, p.pack.toNat = 128 * bitNat p.n + 64 * bitNat p.v + 32 * bitNat p.m + 16 * bitNat p.x +
    8 * bitNat p.d + 4 * bitNat p.i + 2 * bitNat p.z + bitNat p.c) ∧
  (∀ p : Status, Status.unpack p.pack = p) ∧ (∀ b : Byte, (Status.unpack b).pack = b) ∧
  (∀ (c : Cpu) (b : Byte), c.unpackP b = withStatusByte c b)

/-- `Normalize()` establishes the Emulation and index invariants, changes nothing where they hold, and never touches `A`,
`D`, `DB`, `PB`, `PC`, `E` or the flags N, V, D, I, Z, C. -/
def Obligations.Normalize : Prop :=
  ∀ c : Cpu, ModeInv c.normalize ∧ (ModeInv c → c.normalize = c) ∧
    c.normalize = { c with
      p := { c.p with m := c.e || c.p.m, x := c.e || c.p.x }
      s := if c.e then mkWord 0x01#8 (loByte c.s) else c.s
      x := if c.e || c.p.x then mkWord 0x00#8 (loByte c.x) else c.x
      y := if c.e || c.p.x then mkWord 0x00#8 (loByte c.y) else c.y }

/-! ### The addressing-mode resolver -/

/-- `dp`, `dpx`, `dpy`: an offset of bank 0, modulo 2^16, or inside the page under the parameter of R121. The base and
index of an indexed mode, which only the cycle cost sees, are the model's choice for the modes R359 does not price
(log entry 6). -/
def Obligations.DirectPageModes : Prop :=
  ∀ (s : State) (o : Byte),
    resolve (.dp o) s = .ok { ea := mkAddr 0x00#8 (s.cpu.d + zext16 o), wrap := .bank } s ∧
    (s.dpPageWraps = false →
      resolve (.dpx o) s = .ok { ea := mkAddr 0x00#8 (s.cpu.d + zext16 o + s.cpu.x), wrap := .bank
                                 facts := { base := mkAddr 0x00#8 (s.cpu.d + zext16 o), index := s.cpu.x } } s ∧
      resolve (.dpy o) s = .ok { ea := mkAddr 0x00#8 (s.cpu.d + zext16 o + s.cpu.y), wrap := .bank
                                 facts := { base := mkAddr 0x00#8 (s.cpu.d + zext16 o), index := s.cpu.y } } s) ∧
    (s.params.emuDpPageWrap = true → s.cpu.e = true → loByte s.cpu.d = 0x00#8 →
      resolve (.dpx o) s = .ok { ea := mkAddr 0x00#8 (mkWord (hiByte s.cpu.d) (o + loByte s.cpu.x)), wrap := .bank
                                 facts := { base := mkAddr 0x00#8 (s.cpu.d + zext16 o), index := s.cpu.x } } s ∧
      resolve (.dpy o) s = .ok { ea := mkAddr 0x00#8 (mkWord (hiByte s.cpu.d) (o + loByte s.cpu.y)), wrap := .bank
                                 facts := { base := mkAddr 0x00#8 (s.cpu.d + zext16 o), index := s.cpu.y } } s)

/-- `ind`, `indx`, `indy` without the page wrap: a 16-bit pointer in bank 0, low byte first, in the data bank; the
index of `indy` is added to the 24-bit address. The base and index of an indexed mode, which only the cycle cost sees,
are the model's choice for the modes R359 does not price (log entry 6). -/
def Obligations.DirectIndirectModes : Prop :=
  ∀ (s : State) (o lo hi : Byte) (b : Bus), s.dpPageWraps = false →
    (s.bus.loadAll [mkAddr 0x00#8 (s.cpu.d + zext16 o), mkAddr 0x00#8 (s.cpu.d + zext16 o + 1#16)] =
        some ([lo, hi], b) →
      resolve (.ind o) s = .ok { ea := mkAddr s.cpu.db (mkWord hi lo), wrap := .addr } (s.withBus b) ∧
      resolve (.indy o) s = .ok { ea := mkAddr s.cpu.db (mkWord hi lo) + mkAddr 0x00#8 s.cpu.y, wrap := .addr
                                  facts := { base := mkAddr s.cpu.db (mkWord hi lo), index := s.cpu.y } } (s.withBus b)) ∧
    (s.bus.loadAll [mkAddr 0x00#8 (s.cpu.d + zext16 o + s.cpu.x), mkAddr 0x00#8 (s.cpu.d + zext16 o + s.cpu.x + 1#16)] =
        some ([lo, hi], b) →
      resolve (.indx o) s = .ok { ea := mkAddr s.cpu.db (mkWord hi lo), wrap := .addr
                                  facts := { base := mkAddr 0x00#8 (s.cpu.d + zext16 o), index := s.cpu.x } }
        (s.withBus b))

/-- The pointers of `ind`, `indx`, `indy` under `EMU_DP_PAGE_WRAP` in Emulation mode with `D[7:0] = 0`: the indexed
offset and the pointer's high byte stay inside the direct page. The base and index of an indexed mode, which only the
cycle cost sees, are the model's choice for the modes R359 does not price (log entry 6). -/
def Obligations.PageWrappedPointers : Prop :=
  ∀ (s : State) (o lo hi : Byte) (b : Bus),
    s.params.emuDpPageWrap = true → s.cpu.e = true → loByte s.cpu.d = 0x00#8 →
    (s.bus.loadAll [mkAddr 0x00#8 (mkWord (hiByte s.cpu.d) o), mkAddr 0x00#8 (mkWord (hiByte s.cpu.d) (o + 1#8))] =
        some ([lo, hi], b) →
      resolve (.ind o) s = .ok { ea := mkAddr s.cpu.db (mkWord hi lo), wrap := .addr } (s.withBus b) ∧
      resolve (.indy o) s = .ok { ea := mkAddr s.cpu.db (mkWord hi lo) + mkAddr 0x00#8 s.cpu.y, wrap := .addr
                                  facts := { base := mkAddr s.cpu.db (mkWord hi lo), index := s.cpu.y } } (s.withBus b)) ∧
    (s.bus.loadAll [mkAddr 0x00#8 (mkWord (hiByte s.cpu.d) (o + loByte s.cpu.x)),
                    mkAddr 0x00#8 (mkWord (hiByte s.cpu.d) (o + loByte s.cpu.x + 1#8))] = some ([lo, hi], b) →
      resolve (.indx o) s = .ok { ea := mkAddr s.cpu.db (mkWord hi lo), wrap := .addr
                                  facts := { base := mkAddr 0x00#8 (s.cpu.d + zext16 o), index := s.cpu.x } }
        (s.withBus b))

/-- `indl`, `indly`: a 24-bit pointer in bank 0; `DB` is not used; the index of `indly` is added modulo 2^24. The base
and index of an indexed mode, which only the cycle cost sees, are the model's choice for the modes R359 does not price
(log entry 6). -/
def Obligations.DirectLongModes : Prop :=
  ∀ (s : State) (o lo mid hi : Byte) (b : Bus),
    s.bus.loadAll [mkAddr 0x00#8 (s.cpu.d + zext16 o), mkAddr 0x00#8 (s.cpu.d + zext16 o + 1#16),
                   mkAddr 0x00#8 (s.cpu.d + zext16 o + 2#16)] = some ([lo, mid, hi], b) →
    resolve (.indl o) s = .ok { ea := mkAddr hi (mkWord mid lo), wrap := .addr } (s.withBus b) ∧
    resolve (.indly o) s = .ok { ea := mkAddr hi (mkWord mid lo) + mkAddr 0x00#8 s.cpu.y, wrap := .addr
                                 facts := { base := mkAddr hi (mkWord mid lo), index := s.cpu.y } } (s.withBus b)

/-- `abs`, `absx`, `absy`, `long`, `longx`: 24-bit addresses whose index may carry into the bank. The base and index
of an indexed mode, which only the cycle cost sees, are the model's choice for the modes R359 does not price (log
entry 6). -/
def Obligations.AbsoluteModes : Prop :=
  ∀ (s : State) (a : Word) (l : Address),
    resolve (.abs a) s = .ok { ea := mkAddr s.cpu.db a, wrap := .addr } s ∧
    resolve (.absx a) s = .ok { ea := mkAddr s.cpu.db a + mkAddr 0x00#8 s.cpu.x, wrap := .addr
                                facts := { base := mkAddr s.cpu.db a, index := s.cpu.x } } s ∧
    resolve (.absy a) s = .ok { ea := mkAddr s.cpu.db a + mkAddr 0x00#8 s.cpu.y, wrap := .addr
                                facts := { base := mkAddr s.cpu.db a, index := s.cpu.y } } s ∧
    resolve (.long l) s = .ok { ea := l, wrap := .addr } s ∧
    resolve (.longx l) s = .ok { ea := l + mkAddr 0x00#8 s.cpu.x, wrap := .addr
                                 facts := { base := l, index := s.cpu.x } } s

/-- `sr`, `sry`: offsets from the full 16-bit `S` in bank 0. The base and index of an indexed mode, which only the
cycle cost sees, are the model's choice for the modes R359 does not price (log entry 6). -/
def Obligations.StackRelativeModes : Prop :=
  ∀ (s : State) (o lo hi : Byte) (b : Bus),
    resolve (.sr o) s = .ok { ea := mkAddr 0x00#8 (s.cpu.s + zext16 o), wrap := .bank } s ∧
    (s.bus.loadAll [mkAddr 0x00#8 (s.cpu.s + zext16 o), mkAddr 0x00#8 (s.cpu.s + zext16 o + 1#16)] =
        some ([lo, hi], b) →
      resolve (.sry o) s = .ok { ea := mkAddr s.cpu.db (mkWord hi lo) + mkAddr 0x00#8 s.cpu.y, wrap := .addr
                                 facts := { base := mkAddr s.cpu.db (mkWord hi lo), index := s.cpu.y } } (s.withBus b))

/-- `Operand(w)`: the resolver and an operand read write no register and no memory; the value of a memory operand is its
bytes, little-endian; they end well on a fully mapped bus and fail only on an unmapped address. -/
def Obligations.OperandReads : Prop :=
  (∀ (m : MemOperand) (s t : State) (r : Resolved) (w : Width) (bytes : List Byte) (b : Bus),
    resolve m s = .ok r t →
    (∃ b₁, t = s.withBus b₁ ∧ KeepsMemory s.bus b₁) ∧
    (t.bus.loadAll (dataAddresses (w == .byte) r) = some (bytes, b) →
      readOperand w (.mem m) s = .ok (wordOfBytes bytes, r.facts) (s.withBus b) ∧ KeepsMemory s.bus b)) ∧
  (∀ (m : MemOperand) (s : State) (w : Width),
    (∃ v f b, readOperand w (.mem m) s = .ok (v, f) (s.withBus b) ∧ KeepsMemory s.bus b) ∨
    (∃ a b, readOperand w (.mem m) s = .error ⟨a, .read⟩ (s.withBus b) ∧ KeepsMemory s.bus b ∧
      s.bus.regionAt a = none)) ∧
  (∀ (v : Imm) (s : State) (w : Width), readOperand w (.imm v) s =
    .ok (match v with | .imm8 v => mkWord 0x00#8 v | .imm16 v => v, {}) s)

/-! ### Loads, stores, arithmetic and logic -/

/-- LDA, LDX, LDY: the register takes the operand at its width, N and Z follow it, nothing else changes but `PC`. -/
def Obligations.Loads : Prop :=
  ReadingEffect .lda (·.p.m) (fun _ c v => { c with a := accumulatorWith c v, p := withNZ c.p c.p.m v }) ∧
  ReadingEffect .ldx (·.p.x) (fun _ c v => { c with x := indexValue c v, p := withNZ c.p c.p.x v }) ∧
  ReadingEffect .ldy (·.p.x) (fun _ c v => { c with y := indexValue c v, p := withNZ c.p c.p.x v })

/-- STA, STX, STY, STZ: the register's bytes at its width, low byte first; no register or flag changes but `PC`. -/
def Obligations.Stores : Prop :=
  StoringEffect .sta (·.p.m) (·.a) ∧ StoringEffect .stx (·.p.x) (·.x) ∧ StoringEffect .sty (·.p.x) (·.y) ∧
  StoringEffect .stz (·.p.m) (fun _ => 0x0000#16)

/-- AND, ORA, EOR. -/
def Obligations.Logic : Prop :=
  ReadingEffect .and (·.p.m) (fun _ c v =>
    { c with a := accumulatorWith c (c.a &&& v), p := withNZ c.p c.p.m (c.a &&& v) }) ∧
  ReadingEffect .ora (·.p.m) (fun _ c v =>
    { c with a := accumulatorWith c (c.a ||| v), p := withNZ c.p c.p.m (c.a ||| v) }) ∧
  ReadingEffect .eor (·.p.m) (fun _ c v =>
    { c with a := accumulatorWith c (c.a ^^^ v), p := withNZ c.p c.p.m (c.a ^^^ v) })

/-- ADC and SBC in binary: the sum or difference with carry modulo 2^w; C is the carry out or not-borrow; V says that the
signed sum or difference does not fit w bits; N, Z from the result.  In decimal mode they complete with some result. -/
def Obligations.AddSubtract : Prop :=
  ReadingEffect .adc (·.p.m) (fun _ c v =>
    if c.p.d then
      { c with a := accumulatorWith c (adcResult c.widthA c.p (accumulator c) v).1
               p := (adcResult c.widthA c.p (accumulator c) v).2 }
    else
      let sum := (accumulator c).toNat + v.toNat + bitNat c.p.c
      let res := BitVec.ofNat 16 (sum % modulus c.p.m)
      { c with
          a := accumulatorWith c res
          p := { withNZ c.p c.p.m res with
                  c := decide (modulus c.p.m ≤ sum)
                  v := signedOverflow c.p.m (signedValue c.p.m c.a + signedValue c.p.m v + bitNat c.p.c) } }) ∧
  ReadingEffect .sbc (·.p.m) (fun _ c v =>
    if c.p.d then
      { c with a := accumulatorWith c (sbcResult c.widthA c.p (accumulator c) v).1
               p := (sbcResult c.widthA c.p (accumulator c) v).2 }
    else
      let res := BitVec.ofNat 16 (((accumulator c).toNat + modulus c.p.m - v.toNat - (1 - bitNat c.p.c)) % modulus c.p.m)
      { c with
          a := accumulatorWith c res
          p := { withNZ c.p c.p.m res with
                  c := decide (v.toNat + (1 - bitNat c.p.c) ≤ (accumulator c).toNat)
                  v := signedOverflow c.p.m (signedValue c.p.m c.a - signedValue c.p.m v - (1 - bitNat c.p.c : Nat)) } })

/-- ADC and SBC in decimal mode on operands whose digits are decimal: decimal addition and subtraction of 2 or 4 digits,
with C the decimal carry or not-borrow and N, Z from the result.  The value of V is not stated (U7). -/
def Obligations.DecimalArithmetic : Prop :=
  ∀ (i : Instr) (o : DataOperand) (s : State) (f : CostFacts) (b : Bus) (x y n : Nat),
    dataOperand i.operand = some o → i.wellFormed s.cpu.p.m s.cpu.p.x = true → s.cpu.p.d = true →
    n = (if s.cpu.p.m then 2 else 4) → x < 10 ^ n → y < 10 ^ n →
    accumulator s.cpu = BitVec.ofNat 16 (toBcd n x) →
    readOperand (if s.cpu.p.m then .byte else .word) o (advance i s) =
      .ok (BitVec.ofNat 16 (toBcd n y), f) ((advance i s).withBus b) →
    (i.mnemonic = .adc → ∃ v,
      exec i s = .next (ended i s (s.withBus b) f
        { s.cpu with
            pc := nextPc i s.cpu.pc
            a := accumulatorWith s.cpu (BitVec.ofNat 16 (toBcd n ((x + y + bitNat s.cpu.p.c) % 10 ^ n)))
            p := { withNZ s.cpu.p s.cpu.p.m (BitVec.ofNat 16 (toBcd n ((x + y + bitNat s.cpu.p.c) % 10 ^ n))) with
                    v := v, c := decide (10 ^ n ≤ x + y + bitNat s.cpu.p.c) } })) ∧
    (i.mnemonic = .sbc → ∃ v,
      exec i s = .next (ended i s (s.withBus b) f
        { s.cpu with
            pc := nextPc i s.cpu.pc
            a := accumulatorWith s.cpu
              (BitVec.ofNat 16 (toBcd n ((x + 10 ^ n - y - (1 - bitNat s.cpu.p.c)) % 10 ^ n)))
            p := { withNZ s.cpu.p s.cpu.p.m
                    (BitVec.ofNat 16 (toBcd n ((x + 10 ^ n - y - (1 - bitNat s.cpu.p.c)) % 10 ^ n))) with
                    v := v, c := decide (y + (1 - bitNat s.cpu.p.c) ≤ x) } }))

/-- CMP, CPX, CPY: C is the unsigned comparison, N and Z those of the wrapped difference; no register is written. -/
def Obligations.Compares : Prop :=
  ReadingEffect .cmp (·.p.m) (fun _ c v =>
    { c with p := { withNZ c.p c.p.m (accumulator c - v) with c := decide (v.toNat ≤ (accumulator c).toNat) } }) ∧
  ReadingEffect .cpx (·.p.x) (fun _ c v =>
    { c with p := { withNZ c.p c.p.x (indexValue c c.x - v) with c := decide (v.toNat ≤ (indexValue c c.x).toNat) } }) ∧
  ReadingEffect .cpy (·.p.x) (fun _ c v =>
    { c with p := { withNZ c.p c.p.x (indexValue c c.y - v) with c := decide (v.toNat ≤ (indexValue c c.y).toNat) } })

/-- BIT: Z from `A & m`; with a memory operand N and V are its top two bits, with an immediate they stay. -/
def Obligations.BitTest : Prop :=
  ReadingEffect .bit (·.p.m) (fun i c v =>
    { c with p := { c.p with
        z := decide (accumulator c &&& v = 0x0000#16)
        n := if i.opcode = 0x89#8 then c.p.n else if c.p.m then v.getLsbD 7 else v.getLsbD 15
        v := if i.opcode = 0x89#8 then c.p.v else if c.p.m then v.getLsbD 6 else v.getLsbD 14 } })

/-- INC, DEC, ASL, LSR, ROL, ROR, TSB, TRB on memory. -/
def Obligations.ReadModifyWrite : Prop :=
  ModifyingEffect .inc (fun c m => atWidthA c (m + 1#16)) (fun c m => withNZ c.p c.p.m (m + 1#16)) ∧
  ModifyingEffect .dec (fun c m => atWidthA c (m - 1#16)) (fun c m => withNZ c.p c.p.m (m - 1#16)) ∧
  ModifyingEffect .asl (fun c m => atWidthA c (m <<< 1))
    (fun c m => { withNZ c.p c.p.m (m <<< 1) with c := if c.p.m then m.getLsbD 7 else m.getLsbD 15 }) ∧
  ModifyingEffect .lsr (fun _ m => m >>> 1) (fun c m => { withNZ c.p c.p.m (m >>> 1) with c := m.getLsbD 0 }) ∧
  ModifyingEffect .rol (fun c m => atWidthA c ((m <<< 1) ||| BitVec.ofNat 16 (bitNat c.p.c)))
    (fun c m => { withNZ c.p c.p.m ((m <<< 1) ||| BitVec.ofNat 16 (bitNat c.p.c)) with
      c := if c.p.m then m.getLsbD 7 else m.getLsbD 15 }) ∧
  ModifyingEffect .ror (fun c m => (m >>> 1) ||| (if c.p.c then (if c.p.m then 0x0080#16 else 0x8000#16) else 0x0000#16))
    (fun c m => { withNZ c.p c.p.m
        ((m >>> 1) ||| (if c.p.c then (if c.p.m then 0x0080#16 else 0x8000#16) else 0x0000#16)) with c := m.getLsbD 0 }) ∧
  ModifyingEffect .tsb (fun c m => m ||| accumulator c)
    (fun c m => { c.p with z := decide (accumulator c &&& m = 0x0000#16) }) ∧
  ModifyingEffect .trb (fun c m => m &&& ~~~(accumulator c))
    (fun c m => { c.p with z := decide (accumulator c &&& m = 0x0000#16) })

/-- INC, DEC, ASL, LSR, ROL, ROR on the accumulator: at 8 bits the hidden byte of `A` stays. -/
def Obligations.ModifyAccumulator : Prop :=
  RegisterEffect .incAcc (fun c =>
    { c with a := accumulatorWith c (accumulator c + 1#16), p := withNZ c.p c.p.m (accumulator c + 1#16) }) ∧
  RegisterEffect .decAcc (fun c =>
    { c with a := accumulatorWith c (accumulator c - 1#16), p := withNZ c.p c.p.m (accumulator c - 1#16) }) ∧
  RegisterEffect .aslAcc (fun c =>
    { c with a := accumulatorWith c (accumulator c <<< 1)
             p := { withNZ c.p c.p.m (accumulator c <<< 1) with c := if c.p.m then c.a.getLsbD 7 else c.a.getLsbD 15 } }) ∧
  RegisterEffect .lsrAcc (fun c =>
    { c with a := accumulatorWith c (accumulator c >>> 1)
             p := { withNZ c.p c.p.m (accumulator c >>> 1) with c := c.a.getLsbD 0 } }) ∧
  RegisterEffect .rolAcc (fun c =>
    let res := (accumulator c <<< 1) ||| BitVec.ofNat 16 (bitNat c.p.c)
    { c with a := accumulatorWith c res
             p := { withNZ c.p c.p.m res with c := if c.p.m then c.a.getLsbD 7 else c.a.getLsbD 15 } }) ∧
  RegisterEffect .rorAcc (fun c =>
    let res := (accumulator c >>> 1) ||| (if c.p.c then (if c.p.m then 0x0080#16 else 0x8000#16) else 0x0000#16)
    { c with a := accumulatorWith c res, p := { withNZ c.p c.p.m res with c := c.a.getLsbD 0 } })

/-- INX, INY, DEX, DEY: wrap at the index width. -/
def Obligations.IndexSteps : Prop :=
  RegisterEffect .inx (fun c => { c with x := indexValue c (c.x + 1#16), p := withNZ c.p c.p.x (c.x + 1#16) }) ∧
  RegisterEffect .iny (fun c => { c with y := indexValue c (c.y + 1#16), p := withNZ c.p c.p.x (c.y + 1#16) }) ∧
  RegisterEffect .dex (fun c => { c with x := indexValue c (c.x - 1#16), p := withNZ c.p c.p.x (c.x - 1#16) }) ∧
  RegisterEffect .dey (fun c => { c with y := indexValue c (c.y - 1#16), p := withNZ c.p c.p.x (c.y - 1#16) })

/-- The thirteen transfers, with the width of the destination. -/
def Obligations.Transfers : Prop :=
  RegisterEffect .tax (fun c => { c with x := indexValue c c.a, p := withNZ c.p c.p.x c.a }) ∧
  RegisterEffect .tay (fun c => { c with y := indexValue c c.a, p := withNZ c.p c.p.x c.a }) ∧
  RegisterEffect .txa (fun c => { c with a := accumulatorWith c c.x, p := withNZ c.p c.p.m c.x }) ∧
  RegisterEffect .tya (fun c => { c with a := accumulatorWith c c.y, p := withNZ c.p c.p.m c.y }) ∧
  RegisterEffect .txy (fun c => { c with y := indexValue c c.x, p := withNZ c.p c.p.x c.x }) ∧
  RegisterEffect .tyx (fun c => { c with x := indexValue c c.y, p := withNZ c.p c.p.x c.y }) ∧
  RegisterEffect .tsx (fun c => { c with x := indexValue c c.s, p := withNZ c.p c.p.x c.s }) ∧
  RegisterEffect .txs (fun c => { c with s := if c.e then mkWord 0x01#8 (loByte c.x) else c.x }) ∧
  RegisterEffect .tcd (fun c => { c with d := c.a, p := withNZ c.p false c.a }) ∧
  RegisterEffect .tdc (fun c => { c with a := c.d, p := withNZ c.p false c.d }) ∧
  RegisterEffect .tcs (fun c => { c with s := if c.e then mkWord 0x01#8 (loByte c.a) else c.a }) ∧
  RegisterEffect .tsc (fun c => { c with a := c.s, p := withNZ c.p false c.s }) ∧
  RegisterEffect .xba (fun c =>
    { c with a := mkWord (loByte c.a) (hiByte c.a), p := withNZ c.p true (mkWord 0x00#8 (hiByte c.a)) })

/-! ### Branches, jumps, calls and returns -/

/-- The eight conditional branches and BRA. -/
def Obligations.Branches : Prop :=
  BranchEffect .bcc (fun p => !p.c) ∧ BranchEffect .bcs (fun p => p.c) ∧ BranchEffect .beq (fun p => p.z) ∧
  BranchEffect .bne (fun p => !p.z) ∧ BranchEffect .bmi (fun p => p.n) ∧ BranchEffect .bpl (fun p => !p.n) ∧
  BranchEffect .bvc (fun p => !p.v) ∧ BranchEffect .bvs (fun p => p.v) ∧ BranchEffect .bra (fun _ => true)

/-- BRL, JMP and JML: the target, in the program bank unless the form is long; nothing else changes. That BRL counts
as a taken branch and an indexed pointer as an indexed address, which only the cycle cost sees, is the model's choice
(log entry 6). -/
def Obligations.Jumps : Prop :=
  (∀ (s : State) (d : Word),
    exec (.brl d) s = .next (ended (.brl d) s s { taken := true } { s.cpu with pc := s.cpu.pc + 3#16 + d })) ∧
  (∀ (s : State) (a : Word), exec (.jmpAbs a) s = .next (ended (.jmpAbs a) s s {} { s.cpu with pc := a })) ∧
  (∀ (s : State) (a : Word) (lo hi : Byte) (b : Bus),
    s.bus.loadAll [mkAddr 0x00#8 a, mkAddr 0x00#8 (a + 1#16)] = some ([lo, hi], b) →
    exec (.jmpAind a) s = .next (ended (.jmpAind a) s (s.withBus b) {} { s.cpu with pc := mkWord hi lo })) ∧
  (∀ (s : State) (a : Word) (lo hi : Byte) (b : Bus),
    s.bus.loadAll [mkAddr s.cpu.pb (a + s.cpu.x), mkAddr s.cpu.pb (a + s.cpu.x + 1#16)] = some ([lo, hi], b) →
    exec (.jmpAindx a) s = .next (ended (.jmpAindx a) s (s.withBus b)
      { base := mkAddr s.cpu.pb a, index := s.cpu.x } { s.cpu with pc := mkWord hi lo })) ∧
  (∀ (s : State) (l : Address), exec (.jmlLong l) s =
    .next (ended (.jmlLong l) s s {} { s.cpu with pb := bankOf l, pc := offsetOf l })) ∧
  (∀ (s : State) (a : Word) (lo mid hi : Byte) (b : Bus),
    s.bus.loadAll [mkAddr 0x00#8 a, mkAddr 0x00#8 (a + 1#16), mkAddr 0x00#8 (a + 2#16)] = some ([lo, mid, hi], b) →
    exec (.jmlAindl a) s = .next (ended (.jmlAindl a) s (s.withBus b) {} { s.cpu with pb := hi, pc := mkWord mid lo }))

/-- JSR and JSL push the address of their last byte (JSL the program bank before it), high byte first, and jump; JSR
indexed reads its pointer after the push. That an indexed pointer counts as an indexed address, which only the cycle
cost sees, is the model's choice (log entry 6). -/
def Obligations.Calls : Prop :=
  (∀ (s : State) (a : Word) (b : Bus),
    s.bus.storeAll (pushWrites s.cpu.e s.cpu.s 0 [hiByte (s.cpu.pc + 2#16), loByte (s.cpu.pc + 2#16)]) = some b →
    exec (.jsrAbs a) s = .next (ended (.jsrAbs a) s (s.withBus b) {}
      { s.cpu with s := stackEnd s.cpu (pushOffset s.cpu.e s.cpu.s 2), pc := a })) ∧
  (∀ (s : State) (a : Word) (lo hi : Byte) (b b' : Bus),
    s.bus.storeAll (pushWrites s.stackWrapsNew s.cpu.s 0 [hiByte (s.cpu.pc + 2#16), loByte (s.cpu.pc + 2#16)]) =
      some b →
    b.loadAll [mkAddr s.cpu.pb (a + s.cpu.x), mkAddr s.cpu.pb (a + s.cpu.x + 1#16)] = some ([lo, hi], b') →
    exec (.jsrAindx a) s = .next (ended (.jsrAindx a) s (s.withBus b') { base := mkAddr s.cpu.pb a, index := s.cpu.x }
      { s.cpu with s := stackEnd s.cpu (pushOffset s.stackWrapsNew s.cpu.s 2), pc := mkWord hi lo })) ∧
  (∀ (s : State) (l : Address) (b : Bus),
    s.bus.storeAll (pushWrites s.stackWrapsNew s.cpu.s 0
      [s.cpu.pb, hiByte (s.cpu.pc + 3#16), loByte (s.cpu.pc + 3#16)]) = some b →
    exec (.jsl l) s = .next (ended (.jsl l) s (s.withBus b) {}
      { s.cpu with s := stackEnd s.cpu (pushOffset s.stackWrapsNew s.cpu.s 3), pb := bankOf l, pc := offsetOf l }))

/-- RTS and RTL pull the address of the call's last byte and add one; RTL pulls the program bank after it. -/
def Obligations.Returns : Prop :=
  (∀ (s : State) (lo hi : Byte) (b : Bus), s.bus.loadAll (pullReads s.cpu.e s.cpu.s 2) = some ([lo, hi], b) →
    exec .rts s = .next (ended .rts s (s.withBus b) {}
      { s.cpu with s := stackEnd s.cpu (pullOffset s.cpu.e s.cpu.s 2), pc := mkWord hi lo + 1#16 })) ∧
  (∀ (s : State) (lo hi bank : Byte) (b : Bus),
    s.bus.loadAll (pullReads s.stackWrapsNew s.cpu.s 3) = some ([lo, hi, bank], b) →
    exec .rtl s = .next (ended .rtl s (s.withBus b) {}
      { s.cpu with s := stackEnd s.cpu (pullOffset s.stackWrapsNew s.cpu.s 3), pb := bank, pc := mkWord hi lo + 1#16 }))

/-- RTS undoes JSR and RTL undoes JSL: executing the return in the state the call left restores every register, with
`PC` at the instruction after the call. -/
def Obligations.ReturnUndoesCall : Prop :=
  (∀ (s : State) (a : Word), ModeInv s.cpu → StackReady s 2 →
    ∃ t u, exec (.jsrAbs a) s = .next t ∧ t.cpu.pc = a ∧ exec .rts t = .next u ∧ u.abortCause = s.abortCause ∧
      u.cpu = { s.cpu with pc := s.cpu.pc + 3#16 }) ∧
  (∀ (s : State) (l : Address), ModeInv s.cpu → StackReady s 3 → s.params.emuStackNewInsn16Bit = false →
    ∃ t u, exec (.jsl l) s = .next t ∧ mkAddr t.cpu.pb t.cpu.pc = l ∧ exec .rtl t = .next u ∧
      u.abortCause = s.abortCause ∧ u.cpu = { s.cpu with pc := s.cpu.pc + 4#16 })

/-! ### The stack -/

/-- PHA, PHX, PHY, PHP, PHB, PHD, PHK: the bytes pushed, high byte first, and the stack pointer. -/
def Obligations.Pushes : Prop :=
  PushingEffect .pha (·.cpu.e) (fun c => if c.p.m then [loByte c.a] else [hiByte c.a, loByte c.a]) ∧
  PushingEffect .phx (·.cpu.e) (fun c => if c.p.x then [loByte c.x] else [hiByte c.x, loByte c.x]) ∧
  PushingEffect .phy (·.cpu.e) (fun c => if c.p.x then [loByte c.y] else [hiByte c.y, loByte c.y]) ∧
  PushingEffect .php (·.cpu.e) (fun c => [c.p.pack]) ∧
  PushingEffect .phb (·.cpu.e) (fun c => [c.db]) ∧
  PushingEffect .phd State.stackWrapsNew (fun c => [hiByte c.d, loByte c.d]) ∧
  PushingEffect .phk (·.cpu.e) (fun c => [c.pb])

/-- PLA, PLX, PLY, PLP, PLB, PLD: what is pulled, low byte first, the flags, and the stack pointer. -/
def Obligations.Pulls : Prop :=
  PullingEffect .pla (·.cpu.e) (fun c => if c.p.m then 1 else 2)
    (fun c v => { c with a := accumulatorWith c v, p := withNZ c.p c.p.m v }) ∧
  PullingEffect .plx (·.cpu.e) (fun c => if c.p.x then 1 else 2)
    (fun c v => { c with x := indexValue c v, p := withNZ c.p c.p.x v }) ∧
  PullingEffect .ply (·.cpu.e) (fun c => if c.p.x then 1 else 2)
    (fun c v => { c with y := indexValue c v, p := withNZ c.p c.p.x v }) ∧
  PullingEffect .plp (·.cpu.e) (fun _ => 1) (fun c v => withStatusByte c (loByte v)) ∧
  PullingEffect .plb (·.cpu.e) (fun _ => 1) (fun c v => { c with db := loByte v, p := withNZ c.p true v }) ∧
  PullingEffect .pld State.stackWrapsNew (fun _ => 2) (fun c v => { c with d := v, p := withNZ c.p false v })

/-- PEA, PEI, PER push their operand, the direct-page pointer, and the PC-relative address.  That the page wrap of R121
covers the pointer of PEI is the model's inference (log entry 9). -/
def Obligations.PushEffectiveAddress : Prop :=
  (∀ v : Word, PushingEffect (.pea v) State.stackWrapsNew (fun _ => [hiByte v, loByte v])) ∧
  (∀ d : Word, PushingEffect (.per d) State.stackWrapsNew
    (fun c => [hiByte (c.pc + 3#16 + d), loByte (c.pc + 3#16 + d)])) ∧
  (∀ (s : State) (o lo hi : Byte) (b b' : Bus),
    s.bus.loadAll [mkAddr 0x00#8 (s.cpu.d + zext16 o), mkAddr 0x00#8
      (if s.params.emuDpPageWrap = true ∧ s.cpu.e = true ∧ loByte s.cpu.d = 0x00#8 then mkWord (hiByte s.cpu.d) (o + 1#8)
        else s.cpu.d + zext16 o + 1#16)] = some ([lo, hi], b) →
    b.storeAll (pushWrites s.stackWrapsNew s.cpu.s 0 [hi, lo]) = some b' →
    exec (.pei o) s = .next (ended (.pei o) s (s.withBus b') {}
      { s.cpu with s := stackEnd s.cpu (pushOffset s.stackWrapsNew s.cpu.s 2), pc := nextPc (.pei o) s.cpu.pc }))

/-! ### Block moves, flags and modes -/

/-- MVN ascends, MVP descends. -/
def Obligations.BlockMoves : Prop := BlockMoveEffect .mvn 0x0001#16 ∧ BlockMoveEffect .mvp 0xFFFF#16

/-- CLC, SEC, CLI, SEI, CLD, SED, CLV write one flag and nothing else; REP clears and SEP sets the flags of the mask, then
`Normalize()`: in Emulation mode M and X stay 1, and X becoming 1 clears the high bytes of the index registers. -/
def Obligations.FlagInstructions : Prop :=
  RegisterEffect .clc (fun c => { c with p := { c.p with c := false } }) ∧
  RegisterEffect .sec (fun c => { c with p := { c.p with c := true } }) ∧
  RegisterEffect .cli (fun c => { c with p := { c.p with i := false } }) ∧
  RegisterEffect .sei (fun c => { c with p := { c.p with i := true } }) ∧
  RegisterEffect .cld (fun c => { c with p := { c.p with d := false } }) ∧
  RegisterEffect .sed (fun c => { c with p := { c.p with d := true } }) ∧
  RegisterEffect .clv (fun c => { c with p := { c.p with v := false } }) ∧
  (∀ v : Byte, RegisterEffect (.rep v) (fun c => withStatusByte c (c.p.pack &&& ~~~v))) ∧
  (∀ v : Byte, RegisterEffect (.sep v) (fun c => withStatusByte c (c.p.pack ||| v)))

/-- XCE exchanges C and E; entering Emulation mode forces M, X and the high bytes of S, X and Y. -/
def Obligations.ExchangeCarryEmulation : Prop :=
  RegisterEffect .xce (fun c =>
    { c with
        e := c.p.c
        p := { c.p with c := c.e, m := c.p.c || c.p.m, x := c.p.c || c.p.x }
        s := if c.p.c then mkWord 0x01#8 (loByte c.s) else c.s
        x := if c.p.c || c.p.x then mkWord 0x00#8 (loByte c.x) else c.x
        y := if c.p.c || c.p.x then mkWord 0x00#8 (loByte c.y) else c.y })

/-! ### System instructions -/

/-- BRK and COP take their trap. -/
def Obligations.SoftwareTraps : Prop :=
  SoftwareTrapEffect .brk 0x00FFE6#24 0x00FFFE#24 ∧ SoftwareTrapEffect .cop 0x00FFE4#24 0x00FFF4#24

/-- RTI pulls the status, the program counter as it is, and in Native mode the program bank; `E` never changes. -/
def Obligations.ReturnFromInterrupt : Prop :=
  (∀ (s : State) (p lo hi bank : Byte) (b : Bus), s.cpu.e = false →
    s.bus.loadAll (pullReads false s.cpu.s 4) = some ([p, lo, hi, bank], b) →
    exec .rti s = .next (ended .rti s (s.withBus b) {}
      { withStatusByte s.cpu p with s := pullOffset false s.cpu.s 4, pc := mkWord hi lo, pb := bank })) ∧
  (∀ (s : State) (p lo hi : Byte) (b : Bus), s.cpu.e = true →
    s.bus.loadAll (pullReads true s.cpu.s 3) = some ([p, lo, hi], b) →
    exec .rti s = .next (ended .rti s (s.withBus b) {}
      { withStatusByte s.cpu p with s := pullOffset true s.cpu.s 3, pc := mkWord hi lo }))

/-- RTI in the state a BRK or COP left restores every register and flag, with `PC` after the signature byte; in Emulation
mode, where the frame holds no program bank, `PB` stays the 0 that the entry wrote. -/
def Obligations.ReturnUndoesTrap : Prop :=
  ∀ (s : State) (i : Instr) (sig : Byte), i = .brk sig ∨ i = .cop sig →
    ModeInv s.cpu → FullyMapped s.bus → StackReady s (if s.cpu.e then 3 else 4) →
    ∃ t u, exec i s = .next t ∧ t.cpu.pb = 0x00#8 ∧ t.cpu.p.i = true ∧ t.cpu.p.d = false ∧
      exec .rti t = .next u ∧ u.abortCause = s.abortCause ∧
      u.cpu = { s.cpu with pc := s.cpu.pc + 2#16, pb := if s.cpu.e then 0x00#8 else s.cpu.pb }

/-- WAI sets `waiting`; STP latches `Stopped`; WDM latches `AbortInstruction` (as `ABORT_OPCODE`); NOP does nothing: all
advance `PC` and change no register and no memory. -/
def Obligations.HaltsAndNop : Prop :=
  (∀ s : State, exec .wai s = .next { ended .wai s s {} { s.cpu with pc := s.cpu.pc + 1#16 } with waiting := true }) ∧
  (∀ s : State, exec .stp s = .next { ended .stp s s {} { s.cpu with pc := s.cpu.pc + 1#16 } with
    stopped := true, abortCause := .stopped }) ∧
  (∀ (s : State) (v : Byte), s.params.abortOpcode = 0x42#8 →
    exec (.wdm v) s = .next { ended (.wdm v) s s {} { s.cpu with pc := s.cpu.pc + 2#16 } with
      abortCause := .abortInstruction }) ∧
  RegisterEffect .nop id

/-! ### Frames over all instructions -/

/-- R24: the instructions that can change each flag.  (M and X: in Emulation mode only XCE, and from states with the
mode invariants.) -/
def Obligations.FlagWriters : Prop :=
  ∀ (i : Instr) (s t : State), exec i s = .next t → ModeInv s.cpu →
    (t.cpu.p.n ≠ s.cpu.p.n → i.opcode ≠ 0x89#8 ∧ i.mnemonic ∈ [.adc, .sbc, .and, .ora, .eor, .cmp, .cpx, .cpy, .inc,
      .dec, .inx, .iny, .dex, .dey, .asl, .lsr, .rol, .ror, .lda, .ldx, .ldy, .pla, .plx, .ply, .plb, .pld, .tax, .tay,
      .txa, .tya, .txy, .tyx, .tsx, .tcd, .tdc, .tsc, .xba, .bit, .plp, .rti, .rep, .sep]) ∧
    (t.cpu.p.v ≠ s.cpu.p.v → i.opcode ≠ 0x89#8 ∧ i.mnemonic ∈ [.adc, .sbc, .bit, .clv, .plp, .rti, .rep, .sep]) ∧
    (t.cpu.p.m ≠ s.cpu.p.m → (i.mnemonic ∈ [.rep, .sep, .plp, .rti] ∧ s.cpu.e = false) ∨ i = .xce) ∧
    (t.cpu.p.x ≠ s.cpu.p.x → (i.mnemonic ∈ [.rep, .sep, .plp, .rti] ∧ s.cpu.e = false) ∨ i = .xce) ∧
    (t.cpu.p.d ≠ s.cpu.p.d → i.mnemonic ∈ [.sed, .cld, .rep, .sep, .plp, .rti, .brk, .cop]) ∧
    (t.cpu.p.i ≠ s.cpu.p.i → i.mnemonic ∈ [.sei, .cli, .rep, .sep, .plp, .rti, .brk, .cop]) ∧
    (t.cpu.p.z ≠ s.cpu.p.z → i.mnemonic ∈ [.adc, .sbc, .and, .ora, .eor, .cmp, .cpx, .cpy, .inc, .dec, .inx, .iny,
      .dex, .dey, .asl, .lsr, .rol, .ror, .lda, .ldx, .ldy, .pla, .plx, .ply, .plb, .pld, .tax, .tay, .txa, .tya, .txy,
      .tyx, .tsx, .tcd, .tdc, .tsc, .xba, .bit, .tsb, .trb, .plp, .rti, .rep, .sep]) ∧
    (t.cpu.p.c ≠ s.cpu.p.c → i.mnemonic ∈ [.adc, .sbc, .cmp, .cpx, .cpy, .asl, .lsr, .rol, .ror, .clc, .sec, .xce,
      .plp, .rti, .rep, .sep])

/-- The instructions that can change each register, `PC` otherwise than by its length, `E`, and each latch, the abort cause
included (from states with the mode invariants). -/
def Obligations.RegisterWriters : Prop :=
  ∀ (i : Instr) (s t : State), exec i s = .next t → ModeInv s.cpu →
    (t.cpu.a ≠ s.cpu.a → i.mnemonic ∈ [.adc, .sbc, .and, .ora, .eor, .lda, .pla, .txa, .tya, .tdc, .tsc, .xba, .mvn,
      .mvp] ∨ i.operand = .acc) ∧
    (t.cpu.x ≠ s.cpu.x → i.mnemonic ∈ [.ldx, .plx, .tax, .tyx, .tsx, .inx, .dex, .mvn, .mvp, .sep, .rep, .plp, .rti,
      .xce]) ∧
    (t.cpu.y ≠ s.cpu.y → i.mnemonic ∈ [.ldy, .ply, .tay, .txy, .iny, .dey, .mvn, .mvp, .sep, .rep, .plp, .rti, .xce]) ∧
    (t.cpu.d ≠ s.cpu.d → i.mnemonic ∈ [.tcd, .pld]) ∧
    (t.cpu.s ≠ s.cpu.s → i.mnemonic ∈ [.txs, .tcs, .pha, .phx, .phy, .php, .phb, .phd, .phk, .pla, .plx, .ply, .plp,
      .plb, .pld, .pea, .pei, .per, .jsr, .jsl, .rts, .rtl, .brk, .cop, .rti, .xce]) ∧
    (t.cpu.db ≠ s.cpu.db → i.mnemonic ∈ [.plb, .mvn, .mvp]) ∧
    (t.cpu.pb ≠ s.cpu.pb → i.mnemonic ∈ [.jml, .jsl, .rtl, .brk, .cop] ∨ i = .rti ∧ s.cpu.e = false) ∧
    (t.cpu.e ≠ s.cpu.e → i = .xce) ∧
    (t.cpu.pc ≠ nextPc i s.cpu.pc → i.mnemonic ∈ [.bcc, .bcs, .beq, .bne, .bmi, .bpl, .bvc, .bvs, .bra, .brl, .jmp, .jml,
        .jsr, .jsl, .rts, .rtl, .brk, .cop, .rti, .mvn, .mvp] ∨
      t.cpu.pc = s.cpu.pc ∧ (BusFailed t ∨ i.wellFormed s.cpu.p.m s.cpu.p.x = false)) ∧
    (t.abortCause ≠ s.abortCause →
      i = .stp ∧ t.abortCause = .stopped ∨
      i.mnemonic = .wdm ∧ s.params.abortOpcode = 0x42#8 ∧ t.abortCause = .abortInstruction ∨
      BusFailed t ∧ t.cpu = s.cpu ∨
      i.wellFormed s.cpu.p.m s.cpu.p.x = false ∧ t.abortCause = .widthMismatch ∧ t.cpu = s.cpu) ∧
    (t.waiting ≠ s.waiting → i = .wai) ∧ (t.stopped ≠ s.stopped → i = .stp) ∧
    t.nmiPending = s.nmiPending ∧ t.irqLine = s.irqLine ∧ t.params = s.params

/-- Memory: an instruction that stores nothing leaves every byte as it was; a store or read-modify-write changes at most
the bytes at the address the resolver gives, at the instruction's width; a push, call or trap at most its stack bytes. -/
def Obligations.MemoryWriters : Prop :=
  ∀ (i : Instr) (s t : State), exec i s = .next t → RegionsWf s.bus →
    (i.mnemonic ∉ [.sta, .stx, .sty, .stz, .inc, .dec, .asl, .lsr, .rol, .ror, .tsb, .trb, .mvn, .mvp, .pha, .phx, .phy,
        .php, .phb, .phd, .phk, .pea, .pei, .per, .jsr, .jsl, .brk, .cop] → KeepsMemory s.bus t.bus) ∧
    (i.mnemonic ∈ [.sta, .stx, .sty, .stz, .inc, .dec, .asl, .lsr, .rol, .ror, .tsb, .trb] →
      (i.operand = .acc → KeepsMemory s.bus t.bus) ∧
      (∀ (m : MemOperand) (r : Resolved) (u : State), memOperand i.operand = some m →
        resolve m (advance i s) = .ok r u → ∀ a,
        (∀ a' ∈ dataAddresses (if i.mnemonic = .stx ∨ i.mnemonic = .sty then s.cpu.p.x else s.cpu.p.m) r,
          cellOf s.bus a ≠ cellOf s.bus a') → t.bus.peek a = s.bus.peek a) ∧
      (∀ (m : MemOperand) (e : BusFailure) (u : State), memOperand i.operand = some m →
        resolve m (advance i s) = .error e u → KeepsMemory s.bus t.bus)) ∧
    (∀ n wrap1, (i.mnemonic ∈ [.pha, .phx, .phy, .php, .phb, .phk, .brk, .cop] ∨ i.opcode = 0x20#8) ∧
          wrap1 = s.cpu.e ∨
        (i.mnemonic ∈ [.phd, .pea, .pei, .per, .jsl] ∨ i.opcode = 0xFC#8) ∧ wrap1 = s.stackWrapsNew →
      (i.mnemonic ∈ [.php, .phb, .phk] ∨ i.mnemonic = .pha ∧ s.cpu.p.m = true ∨
          i.mnemonic ∈ [.phx, .phy] ∧ s.cpu.p.x = true) ∧ n = 1 ∨
        (i.mnemonic ∈ [.phd, .pea, .pei, .per, .jsr] ∨ i.mnemonic = .pha ∧ s.cpu.p.m = false ∨
          i.mnemonic ∈ [.phx, .phy] ∧ s.cpu.p.x = false) ∧ n = 2 ∨
        (i.mnemonic = .jsl ∨ i.mnemonic ∈ [.brk, .cop] ∧ s.cpu.e = true) ∧ n = 3 ∨
        (i.mnemonic ∈ [.brk, .cop] ∧ s.cpu.e = false) ∧ n = 4 →
      ∀ a, (∀ k < n, cellOf s.bus a ≠ cellOf s.bus (mkAddr 0x00#8 (pushOffset wrap1 s.cpu.s k))) →
        t.bus.peek a = s.bus.peek a)

/-- On a fully mapped bus every well-formed instruction completes: no bus failure, only STP and WDM latch an abort, only
WAI starts a wait, and the cost is recorded. -/
def Obligations.MappedInstructionsComplete : Prop :=
  ∀ (i : Instr) (s : State), FullyMapped s.bus → i.wellFormed s.cpu.p.m s.cpu.p.x = true →
    ∃ t f, exec i s = .next t ∧
      t.abortCause = (if i = .stp then .stopped
        else if i.mnemonic = .wdm ∧ s.params.abortOpcode = 0x42#8 then .abortInstruction else s.abortCause) ∧
      t.waiting = (decide (i = .wai) || s.waiting) ∧
      t.cyclesLast = wrapCounter s.params.counterWidth (instrCost i s f t.cpu.pc) ∧
      t.cyclesTotal = wrapCounter s.params.counterWidth (s.cyclesTotal + instrCost i s f t.cpu.pc) ∧
      (i.mnemonic ∉ [.bcc, .bcs, .beq, .bne, .bmi, .bpl, .bvc, .bvs, .bra, .brl, .jmp, .jml, .jsr, .jsl, .rts, .rtl,
        .brk, .cop, .rti, .mvn, .mvp] → t.cpu.pc = s.cpu.pc + BitVec.ofNat 16 i.length)
end

