-- ==== Sys2Proof/Laws/State.lean ====
section
/-! SUPPORT. Sys2Proof/Laws/State.lean: one lemma per field per update of the state, so that later proofs unfold no record
update; and running the basic computations of `BusM`. -/
namespace Sys2Proof.Machine

variable (s t : State) (c : Cpu) (b : Bus) (n : Nat) (k : AbortCause)

/-! ### withCpu -/

@[simp] theorem withCpu_cpu : (s.withCpu c).cpu = c := rfl
@[simp] theorem withCpu_params : (s.withCpu c).params = s.params := rfl
@[simp] theorem withCpu_bus : (s.withCpu c).bus = s.bus := rfl
@[simp] theorem withCpu_abortCause : (s.withCpu c).abortCause = s.abortCause := rfl
@[simp] theorem withCpu_stopped : (s.withCpu c).stopped = s.stopped := rfl
@[simp] theorem withCpu_waiting : (s.withCpu c).waiting = s.waiting := rfl
@[simp] theorem withCpu_nmiPending : (s.withCpu c).nmiPending = s.nmiPending := rfl
@[simp] theorem withCpu_irqLine : (s.withCpu c).irqLine = s.irqLine := rfl
@[simp] theorem withCpu_cyclesLast : (s.withCpu c).cyclesLast = s.cyclesLast := rfl
@[simp] theorem withCpu_cyclesTotal : (s.withCpu c).cyclesTotal = s.cyclesTotal := rfl
@[simp] theorem withCpu_prevPc : (s.withCpu c).prevPc = s.prevPc := rfl
@[simp] theorem withCpu_peek (a : Address) : (s.withCpu c).peek a = s.peek a := rfl
@[simp] theorem withCpu_withCpu (c' : Cpu) : (s.withCpu c).withCpu c' = s.withCpu c' := rfl
@[simp] theorem withCpu_self : s.withCpu s.cpu = s := rfl

/-! ### withBus -/

@[simp] theorem withBus_bus : (s.withBus b).bus = b := rfl
@[simp] theorem withBus_params : (s.withBus b).params = s.params := rfl
@[simp] theorem withBus_cpu : (s.withBus b).cpu = s.cpu := rfl
@[simp] theorem withBus_abortCause : (s.withBus b).abortCause = s.abortCause := rfl
@[simp] theorem withBus_stopped : (s.withBus b).stopped = s.stopped := rfl
@[simp] theorem withBus_waiting : (s.withBus b).waiting = s.waiting := rfl
@[simp] theorem withBus_nmiPending : (s.withBus b).nmiPending = s.nmiPending := rfl
@[simp] theorem withBus_irqLine : (s.withBus b).irqLine = s.irqLine := rfl
@[simp] theorem withBus_cyclesLast : (s.withBus b).cyclesLast = s.cyclesLast := rfl
@[simp] theorem withBus_cyclesTotal : (s.withBus b).cyclesTotal = s.cyclesTotal := rfl
@[simp] theorem withBus_prevPc : (s.withBus b).prevPc = s.prevPc := rfl
@[simp] theorem withBus_withBus (b' : Bus) : (s.withBus b).withBus b' = s.withBus b' := rfl
@[simp] theorem withBus_self : s.withBus s.bus = s := rfl
theorem withBus_withCpu : (s.withBus b).withCpu c = (s.withCpu c).withBus b := rfl

/-! ### charge -/

@[simp] theorem charge_params : (s.charge n).params = s.params := rfl
@[simp] theorem charge_cpu : (s.charge n).cpu = s.cpu := rfl
@[simp] theorem charge_bus : (s.charge n).bus = s.bus := rfl
@[simp] theorem charge_abortCause : (s.charge n).abortCause = s.abortCause := rfl
@[simp] theorem charge_stopped : (s.charge n).stopped = s.stopped := rfl
@[simp] theorem charge_waiting : (s.charge n).waiting = s.waiting := rfl
@[simp] theorem charge_nmiPending : (s.charge n).nmiPending = s.nmiPending := rfl
@[simp] theorem charge_irqLine : (s.charge n).irqLine = s.irqLine := rfl
@[simp] theorem charge_prevPc : (s.charge n).prevPc = s.prevPc := rfl
@[simp] theorem charge_peek (a : Address) : (s.charge n).peek a = s.peek a := rfl
@[simp] theorem charge_cyclesLast : (s.charge n).cyclesLast = wrapCounter s.params.counterWidth n := rfl
@[simp] theorem charge_cyclesTotal :
    (s.charge n).cyclesTotal = wrapCounter s.params.counterWidth (s.cyclesTotal + n) := rfl

/-! ### rollback -/

@[simp] theorem rollback_params : (t.rollback s k).params = t.params := rfl
@[simp] theorem rollback_cpu : (t.rollback s k).cpu = s.cpu := rfl
@[simp] theorem rollback_bus : (t.rollback s k).bus = t.bus := rfl
@[simp] theorem rollback_abortCause : (t.rollback s k).abortCause = k := rfl
@[simp] theorem rollback_stopped : (t.rollback s k).stopped = s.stopped := rfl
@[simp] theorem rollback_waiting : (t.rollback s k).waiting = s.waiting := rfl
@[simp] theorem rollback_nmiPending : (t.rollback s k).nmiPending = s.nmiPending := rfl
@[simp] theorem rollback_irqLine : (t.rollback s k).irqLine = t.irqLine := rfl
@[simp] theorem rollback_cyclesLast : (t.rollback s k).cyclesLast = 0 := rfl
@[simp] theorem rollback_cyclesTotal : (t.rollback s k).cyclesTotal = s.cyclesTotal := rfl
@[simp] theorem rollback_prevPc : (t.rollback s k).prevPc = t.prevPc := rfl
@[simp] theorem rollback_peek (a : Address) : (t.rollback s k).peek a = t.peek a := rfl
theorem rollback_rollback (k' : AbortCause) (u : State) :
    (t.rollback u k').rollback s k = t.rollback s k := rfl

/-! ### The bus record -/

variable (a a' : Address) (d d' : Direction)

@[simp] theorem record_regions : (b.record a d).regions = b.regions := rfl
@[simp] theorem record_table : (b.record a d).table = b.table := rfl
@[simp] theorem record_callbackLog : (b.record a d).callbackLog = b.callbackLog := rfl
@[simp] theorem record_lastAddr : (b.record a d).lastAddr = a := rfl
@[simp] theorem record_lastDir : (b.record a d).lastDir = d := rfl
@[simp] theorem record_record : (b.record a d).record a' d' = b.record a' d' := rfl
@[simp] theorem record_regionNumber : (b.record a d).regionNumber a' = b.regionNumber a' := rfl
@[simp] theorem record_regionAt : (b.record a d).regionAt a' = b.regionAt a' := rfl
@[simp] theorem record_peek : (b.record a d).peek a' = b.peek a' := rfl
@[simp] theorem record_mapped : (b.record a d).mapped a' = b.mapped a' := rfl
@[simp] theorem withBus_record_peek : (s.withBus (b.record a d)).peek a' = b.peek a' := rfl
@[simp] theorem setRegion_table (i : Nat) (r : Region) : (b.setRegion i r).table = b.table := rfl
@[simp] theorem setRegion_regionNumber (i : Nat) (r : Region) :
    (b.setRegion i r).regionNumber a = b.regionNumber a := rfl
@[simp] theorem logCallback_table (e : CallbackAccess) : (b.logCallback e).table = b.table := rfl
@[simp] theorem logCallback_regions (e : CallbackAccess) : (b.logCallback e).regions = b.regions := rfl
@[simp] theorem logCallback_lastAddr (e : CallbackAccess) : (b.logCallback e).lastAddr = b.lastAddr := rfl
@[simp] theorem logCallback_lastDir (e : CallbackAccess) : (b.logCallback e).lastDir = b.lastDir := rfl

/-! ### advance -/

variable (i : Instr)

@[simp] theorem advance_cpu : (advance i s).cpu = { s.cpu with pc := nextPc i s.cpu.pc } := rfl
@[simp] theorem advance_bus : (advance i s).bus = s.bus := rfl
@[simp] theorem advance_params : (advance i s).params = s.params := rfl
@[simp] theorem advance_peek : (advance i s).peek a = s.peek a := rfl
@[simp] theorem advance_abortCause : (advance i s).abortCause = s.abortCause := rfl
@[simp] theorem advance_waiting : (advance i s).waiting = s.waiting := rfl
@[simp] theorem advance_stopped : (advance i s).stopped = s.stopped := rfl

/-! ### Running `BusM`

Each lemma runs one combinator on a state; a proof that runs a body rewrites with these and never unfolds the monad. -/

variable {α β : Type}

@[simp] theorem run_pure (v : α) : (pure v : BusM α) s = .ok v s := rfl

theorem run_bind (m : BusM α) (f : α → BusM β) :
    (m >>= f) s = match m s with
      | .ok v t => f v t
      | .error e t => .error e t := by
  show EStateM.bind m f s = _
  rw [EStateM.bind]
  cases m s <;> rfl

theorem run_bind_ok {m : BusM α} {f : α → BusM β} {v : α} (h : m s = .ok v t) : (m >>= f) s = f v t := by
  simp only [run_bind, h]

theorem run_bind_error {m : BusM α} {f : α → BusM β} {e : BusFailure} (h : m s = .error e t) :
    (m >>= f) s = .error e t := by
  simp only [run_bind, h]

/-- A sequence that ended well ended well at its first part, and at its second from there. -/
theorem of_bind_ok {m : BusM α} {f : α → BusM β} {v : β} {u : State} (h : (m >>= f) s = .ok v u) :
    ∃ w t, m s = .ok w t ∧ f w t = .ok v u := by
  rw [run_bind] at h
  cases hm : m s with
  | ok w t => exact ⟨w, t, rfl, by simpa only [hm] using h⟩
  | error e t => simp [hm] at h

/-- A sequence that failed did so in its first part, or in its second after the first ended well. -/
theorem of_bind_error {m : BusM α} {f : α → BusM β} {e : BusFailure} {u : State} (h : (m >>= f) s = .error e u) :
    m s = .error e u ∨ ∃ w t, m s = .ok w t ∧ f w t = .error e u := by
  rw [run_bind] at h
  cases hm : m s with
  | ok w t => exact .inr ⟨w, t, rfl, by simpa only [hm] using h⟩
  | error e' t =>
    rw [hm] at h
    cases h
    exact .inl rfl

@[simp] theorem run_getCpu : getCpu s = .ok s.cpu s := rfl

@[simp] theorem run_modifyCpu (f : Cpu → Cpu) : modifyCpu f s = .ok () (s.withCpu (f s.cpu)) := rfl

@[simp] theorem run_registers (f : Cpu → Cpu) : registers f s = .ok noFacts (s.withCpu (f s.cpu)) := rfl

theorem run_withStack (body : Bool → BusM α) : withStack body s = body s.stackWraps s := rfl

end Sys2Proof.Machine
end

