-- ==== Sys2Proof/Laws/Memory.lean ====
section
/-! SUPPORT. Sys2Proof/Laws/Memory.lean: a region's storage: every operation keeps the canonical form, a read after a write
to the same byte gives the value written, and a write leaves every other byte alone. -/
namespace Sys2Proof.Machine

/-- Every entry of a storage lies above the byte number `k`. -/
def Memory.above (m : Memory) (k : Nat) : Prop := ∀ c ∈ m, k < c.1

theorem wf_cons {k : Nat} {v : Byte} {m : Memory} :
    Memory.wf ((k, v) :: m) ↔ Memory.above m k ∧ v ≠ Memory.unlisted ∧ Memory.wf m := by
  simp only [Memory.wf, Memory.above, List.pairwise_cons, List.mem_cons, forall_eq_or_imp]
  constructor
  · rintro ⟨⟨h1, h2⟩, h3, h4⟩
    exact ⟨h1, h3, h2, h4⟩
  · rintro ⟨h1, h3, h2, h4⟩
    exact ⟨⟨h1, h2⟩, h3, h4⟩

theorem wf_nil : Memory.wf [] := by simp [Memory.wf]

/-- A byte number below every entry reads as the unlisted byte. -/
theorem read_of_above {m : Memory} {k : Nat} (h : Memory.above m k) : m.read k = Memory.unlisted := by
  induction m with
  | nil => rfl
  | cons c m ih =>
    have h1 : k < c.1 := h c (by simp)
    rw [Memory.read, if_neg (by omega)]
    exact ih fun d hd => h d (by simp [hd])

theorem insert_above {m : Memory} {k k' : Nat} {v : Byte} (h : Memory.above m k') (hk : k' < k) :
    Memory.above (m.insert k v) k' := by
  induction m with
  | nil => intro c hc; simp only [Memory.insert, List.mem_singleton] at hc; subst hc; exact hk
  | cons d m ih =>
    obtain ⟨kd, vd⟩ := d
    have hd : k' < kd := h (kd, vd) (by simp)
    have hm : Memory.above m k' := fun c hc => h c (by simp [hc])
    intro c hc
    rw [Memory.insert] at hc
    split at hc
    · simp only [List.mem_cons] at hc
      rcases hc with rfl | rfl | hc
      · exact hk
      · exact hd
      · exact hm c hc
    · split at hc
      · simp only [List.mem_cons] at hc
        rcases hc with rfl | hc
        · exact hk
        · exact hm c hc
      · simp only [List.mem_cons] at hc
        rcases hc with rfl | hc
        · exact hd
        · exact ih hm c hc

theorem erase_above {m : Memory} {k k' : Nat} (h : Memory.above m k') : Memory.above (m.erase k) k' := by
  induction m with
  | nil => exact h
  | cons d m ih =>
    obtain ⟨kd, vd⟩ := d
    have hm : Memory.above m k' := fun c hc => h c (by simp [hc])
    intro c hc
    rw [Memory.erase] at hc
    split at hc
    · exact hm c hc
    · simp only [List.mem_cons] at hc
      rcases hc with rfl | hc
      · exact h _ (by simp)
      · exact ih hm c hc

theorem insert_wf {m : Memory} (h : m.wf) (k : Nat) {v : Byte} (hv : v ≠ Memory.unlisted) : (m.insert k v).wf := by
  induction m with
  | nil => exact wf_cons.2 ⟨by simp [Memory.above], hv, wf_nil⟩
  | cons d m ih =>
    obtain ⟨kd, vd⟩ := d
    obtain ⟨ha, hvd, hm⟩ := wf_cons.1 h
    rw [Memory.insert]
    split
    · refine wf_cons.2 ⟨?_, hv, h⟩
      intro c hc
      simp only [List.mem_cons] at hc
      rcases hc with rfl | hc
      · assumption
      · have := ha c hc; omega
    · split
      · rename_i hk; subst hk; exact wf_cons.2 ⟨ha, hv, hm⟩
      · exact wf_cons.2 ⟨insert_above ha (by omega), hvd, ih hm⟩

theorem erase_wf {m : Memory} (h : m.wf) (k : Nat) : (m.erase k).wf := by
  induction m with
  | nil => exact h
  | cons d m ih =>
    obtain ⟨kd, vd⟩ := d
    obtain ⟨ha, hvd, hm⟩ := wf_cons.1 h
    rw [Memory.erase]
    split
    · exact hm
    · exact wf_cons.2 ⟨erase_above ha, hvd, ih hm⟩

/-- Every write keeps the canonical form. -/
theorem write_wf {m : Memory} (h : m.wf) (k : Nat) (v : Byte) : (m.write k v).wf := by
  rw [Memory.write]
  split
  · exact erase_wf h k
  · exact insert_wf h k ‹_›

theorem insert_read (m : Memory) (k k' : Nat) (v : Byte) :
    (m.insert k v).read k' = if k = k' then v else m.read k' := by
  induction m with
  | nil => simp [Memory.insert, Memory.read]
  | cons d m ih =>
    obtain ⟨kd, vd⟩ := d
    rw [Memory.insert]
    split
    · by_cases hk : k = k' <;> simp [Memory.read, hk]
    · split
      · by_cases hk : k = k' <;> simp_all [Memory.read]
      · by_cases hk : k = k'
        · subst hk
          rw [Memory.read, if_neg (by omega), ih, if_pos rfl, if_pos rfl]
        · simp only [Memory.read, ih, if_neg hk]

theorem erase_read {m : Memory} (h : m.wf) (k k' : Nat) :
    (m.erase k).read k' = if k = k' then Memory.unlisted else m.read k' := by
  induction m with
  | nil => simp [Memory.erase, Memory.read]
  | cons d m ih =>
    obtain ⟨kd, vd⟩ := d
    obtain ⟨ha, hvd, hm⟩ := wf_cons.1 h
    rw [Memory.erase]
    split
    · rename_i hk; subst hk
      by_cases hk' : kd = k'
      · subst hk'; simp [read_of_above ha]
      · simp [Memory.read, hk']
    · rename_i hne
      by_cases hk' : k = k'
      · subst hk'; rw [Memory.read, if_neg hne, ih hm, if_pos rfl, if_pos rfl]
      · simp only [Memory.read, ih hm, if_neg hk']

/-- A read after a write: the value at the byte written, the old value at every other. -/
theorem write_read {m : Memory} (h : m.wf) (k k' : Nat) (v : Byte) :
    (m.write k v).read k' = if k = k' then v else m.read k' := by
  rw [Memory.write]
  split
  · rename_i hv; subst hv; exact erase_read h k k'
  · exact insert_read m k k' v

end Sys2Proof.Machine
end

