-- ==== Sys2Proof/Laws/Bus.lean ====
section
/-! SUPPORT. Sys2Proof/Laws/Bus.lean: one lemma that says everything a bus read or write can do, and the transport of a
relation between states through a computation. -/
namespace Sys2Proof.Machine

theorem regionAt_of_number {b : Bus} {a : Address} {k : Nat} {r : Region} (hk : b.regionNumber a = some k)
    (hr : b.regions[k]? = some r) : b.regionAt a = some r := by
  simp [Bus.regionAt, hk, hr]

theorem regionAt_eq_some {b : Bus} {a : Address} {r : Region} :
    b.regionAt a = some r ↔ ∃ k, b.regionNumber a = some k ∧ b.regions[k]? = some r := by
  simp [Bus.regionAt, Option.bind_eq_some_iff]

theorem regionAt_eq_none {b : Bus} {a : Address} :
    b.regionAt a = none ↔ b.regionNumber a = none ∨ ∃ k, b.regionNumber a = some k ∧ b.regions[k]? = none := by
  unfold Bus.regionAt
  cases b.regionNumber a <;> simp

/-- The byte of a flat region is the one in its storage. -/
theorem flatByte_of_flat {r : Region} {a : Address} (h : r.kind ≠ .callback) : r.flatByte a = some (r.peek a) := by
  unfold Region.flatByte
  cases hk : r.kind with
  | ram => rfl
  | rom => rfl
  | callback => exact absurd hk h

/-- Everything a read access does: nothing on an unmapped address; the stored byte of a flat region, and the access
record; the free byte of a callback region, and the call is logged. -/
theorem load_cases (a : Address) (b : Bus) :
    (b.regionAt a = none ∧ b.load a = none) ∨
    (∃ r, b.regionAt a = some r ∧ r.kind ≠ .callback ∧ b.load a = some (r.peek a, b.record a .read)) ∨
    (∃ k r, b.regionNumber a = some k ∧ b.regionAt a = some r ∧ r.kind = .callback ∧
      b.load a = some (Config.callbackByte k a b.callbackLog,
        (b.record a .read).logCallback ⟨k, a, .read, Config.callbackByte k a b.callbackLog⟩)) := by
  unfold Bus.load
  cases hk : b.regionNumber a with
  | none => exact .inl ⟨regionAt_eq_none.2 (.inl hk), rfl⟩
  | some k =>
    cases hr : b.regions[k]? with
    | none => exact .inl ⟨regionAt_eq_none.2 (.inr ⟨k, hk, hr⟩), by simp only [Bus.readRegion, record_regions, hr]⟩
    | some r =>
      have hat := regionAt_of_number hk hr
      cases hkind : r.kind with
      | ram => exact .inr (.inl ⟨r, hat, by simp [hkind], by simp only [Bus.readRegion, record_regions, hr, hkind]⟩)
      | rom => exact .inr (.inl ⟨r, hat, by simp [hkind], by simp only [Bus.readRegion, record_regions, hr, hkind]⟩)
      | callback => exact .inr (.inr ⟨k, r, rfl, hat, hkind, by simp only [Bus.readRegion, record_regions, record_callbackLog, hr, hkind]⟩)

/-- Everything a write access does: nothing on an unmapped address; it stores in a RAM region; a ROM region ignores it; a
callback region is called and the call is logged. -/
theorem store_cases (a : Address) (v : Byte) (b : Bus) :
    (b.regionAt a = none ∧ b.store a v = none) ∨
    (∃ k r, b.regionNumber a = some k ∧ b.regions[k]? = some r ∧ r.kind = .ram ∧
      b.store a v = some ((b.record a .write).setRegion k (r.poke a v))) ∨
    (∃ r, b.regionAt a = some r ∧ r.kind = .rom ∧ b.store a v = some (b.record a .write)) ∨
    (∃ k r, b.regionNumber a = some k ∧ b.regionAt a = some r ∧ r.kind = .callback ∧
      b.store a v = some ((b.record a .write).logCallback ⟨k, a, .write, v⟩)) := by
  unfold Bus.store
  cases hk : b.regionNumber a with
  | none => exact .inl ⟨regionAt_eq_none.2 (.inl hk), rfl⟩
  | some k =>
    cases hr : b.regions[k]? with
    | none => exact .inl ⟨regionAt_eq_none.2 (.inr ⟨k, hk, hr⟩), by simp only [Bus.writeRegion, record_regions, hr]⟩
    | some r =>
      have hat := regionAt_of_number hk hr
      cases hkind : r.kind with
      | ram => exact .inr (.inl ⟨k, r, rfl, hr, hkind, by simp only [Bus.writeRegion, record_regions, hr, hkind]⟩)
      | rom => exact .inr (.inr (.inl ⟨r, hat, hkind, by simp only [Bus.writeRegion, record_regions, hr, hkind]⟩))
      | callback => exact .inr (.inr (.inr ⟨k, r, rfl, hat, hkind, by simp only [Bus.writeRegion, record_regions, hr, hkind]⟩))

theorem busRead_ok {a : Address} {s : State} {v : Byte} {b : Bus} (h : s.bus.load a = some (v, b)) :
    busRead a s = .ok v (s.withBus b) := by simp only [busRead, h]

theorem busRead_none {a : Address} {s : State} (h : s.bus.load a = none) :
    busRead a s = .error ⟨a, .read⟩ (s.withBus (s.bus.record a .read)) := by simp only [busRead, h]

theorem busWrite_ok {a : Address} {s : State} {v : Byte} {b : Bus} (h : s.bus.store a v = some b) :
    busWrite a v s = .ok () (s.withBus b) := by simp only [busWrite, h]

theorem busWrite_none {a : Address} {s : State} {v : Byte} (h : s.bus.store a v = none) :
    busWrite a v s = .error ⟨a, .write⟩ (s.withBus (s.bus.record a .write)) := by simp only [busWrite, h]

/-- `busRead` by the kind of the region. -/
theorem busRead_cases (a : Address) (s : State) :
    (s.bus.regionAt a = none ∧ busRead a s = .error ⟨a, .read⟩ (s.withBus (s.bus.record a .read))) ∨
    (∃ r, s.bus.regionAt a = some r ∧ r.kind ≠ .callback ∧
      busRead a s = .ok (r.peek a) (s.withBus (s.bus.record a .read))) ∨
    (∃ k r, s.bus.regionNumber a = some k ∧ s.bus.regionAt a = some r ∧ r.kind = .callback ∧
      busRead a s = .ok (Config.callbackByte k a s.bus.callbackLog)
        (s.withBus ((s.bus.record a .read).logCallback
          ⟨k, a, .read, Config.callbackByte k a s.bus.callbackLog⟩))) := by
  rcases load_cases a s.bus with ⟨h, hl⟩ | ⟨r, h, hk, hl⟩ | ⟨k, r, hn, h, hk, hl⟩
  · exact .inl ⟨h, busRead_none hl⟩
  · exact .inr (.inl ⟨r, h, hk, busRead_ok hl⟩)
  · exact .inr (.inr ⟨k, r, hn, h, hk, busRead_ok hl⟩)

/-- `busWrite` by the kind of the region. -/
theorem busWrite_cases (a : Address) (v : Byte) (s : State) :
    (s.bus.regionAt a = none ∧ busWrite a v s = .error ⟨a, .write⟩ (s.withBus (s.bus.record a .write))) ∨
    (∃ k r, s.bus.regionNumber a = some k ∧ s.bus.regions[k]? = some r ∧ r.kind = .ram ∧
      busWrite a v s = .ok () (s.withBus ((s.bus.record a .write).setRegion k (r.poke a v)))) ∨
    (∃ r, s.bus.regionAt a = some r ∧ r.kind = .rom ∧
      busWrite a v s = .ok () (s.withBus (s.bus.record a .write))) ∨
    (∃ k r, s.bus.regionNumber a = some k ∧ s.bus.regionAt a = some r ∧ r.kind = .callback ∧
      busWrite a v s = .ok () (s.withBus ((s.bus.record a .write).logCallback ⟨k, a, .write, v⟩))) := by
  rcases store_cases a v s.bus with ⟨h, hl⟩ | ⟨k, r, hn, h, hk, hl⟩ | ⟨r, h, hk, hl⟩ | ⟨k, r, hn, h, hk, hl⟩
  · exact .inl ⟨h, busWrite_none hl⟩
  · exact .inr (.inl ⟨k, r, hn, h, hk, busWrite_ok hl⟩)
  · exact .inr (.inr (.inl ⟨r, h, hk, busWrite_ok hl⟩))
  · exact .inr (.inr (.inr ⟨k, r, hn, h, hk, busWrite_ok hl⟩))

/-- A read of a mapped flat byte. -/
theorem busRead_of_peek {a : Address} {s : State} {v : Byte} (h : s.peek a = some v) :
    busRead a s = .ok v (s.withBus (s.bus.record a .read)) := by
  unfold State.peek Bus.peek at h
  rcases busRead_cases a s with ⟨hr, _⟩ | ⟨r, hr, hk, he⟩ | ⟨k, r, _, hr, hk, _⟩
  · simp [hr] at h
  · rw [he]
    rw [hr, Option.bind_some, flatByte_of_flat hk] at h
    rw [Option.some.inj h]
  · simp [hr, Region.flatByte, hk] at h

/-! ### Relations carried through a computation -/

/-- `R` holds between the start of a computation and its end, however it ends. -/
def Carries {α : Type} (R : State → State → Prop) (m : BusM α) : Prop :=
  ∀ s, (∀ v t, m s = .ok v t → R s t) ∧ (∀ e t, m s = .error e t → R s t)

theorem Carries.ok {α : Type} {R : State → State → Prop} {m : BusM α} (h : Carries R m) {s t : State} {v : α}
    (he : m s = .ok v t) : R s t := (h s).1 v t he

theorem Carries.error {α : Type} {R : State → State → Prop} {m : BusM α} (h : Carries R m) {s t : State}
    {e : BusFailure} (he : m s = .error e t) : R s t := (h s).2 e t he

theorem carries_pure {α : Type} {R : State → State → Prop} (hrefl : ∀ s, R s s) (v : α) :
    Carries R (pure v : BusM α) := by
  intro s
  refine ⟨fun w t h => ?_, fun e t h => ?_⟩
  · rw [run_pure] at h; cases h; exact hrefl s
  · rw [run_pure] at h; cases h

theorem carries_bind {α β : Type} {R : State → State → Prop} (htrans : ∀ s t u, R s t → R t u → R s u)
    {m : BusM α} {f : α → BusM β} (hm : Carries R m) (hf : ∀ v, Carries R (f v)) : Carries R (m >>= f) := by
  intro s
  refine ⟨fun v u h => ?_, fun e u h => ?_⟩
  · obtain ⟨w, t, h1, h2⟩ := of_bind_ok s h
    exact htrans s t u (hm.ok h1) ((hf w).ok h2)
  · rcases of_bind_error s h with h1 | ⟨w, t, h1, h2⟩
    · exact hm.error h1
    · exact htrans s t u (hm.ok h1) ((hf w).error h2)

theorem carries_getCpu {R : State → State → Prop} (hrefl : ∀ s, R s s) : Carries R getCpu := by
  intro s
  refine ⟨fun w t h => ?_, fun e t h => ?_⟩
  · rw [run_getCpu] at h; cases h; exact hrefl s
  · rw [run_getCpu] at h; cases h

theorem carries_modifyCpu {R : State → State → Prop} {f : Cpu → Cpu} (h : ∀ s, R s (s.withCpu (f s.cpu))) :
    Carries R (modifyCpu f) := by
  intro s
  refine ⟨fun w t he => ?_, fun e t he => ?_⟩
  · rw [run_modifyCpu] at he; cases he; exact h s
  · rw [run_modifyCpu] at he; cases he

/-- A relation that every change of the bus by a read satisfies is carried by a bus read. -/
theorem carries_busRead {R : State → State → Prop} (a : Address)
    (h : ∀ s b, b.regions = s.bus.regions → b.table = s.bus.table → s.bus.callbackLog <:+ b.callbackLog →
      R s (s.withBus b)) : Carries R (busRead a) := by
  intro s
  rcases busRead_cases a s with ⟨_, he⟩ | ⟨r, _, _, he⟩ | ⟨k, r, _, _, _, he⟩
  · refine ⟨fun v t ht => ?_, fun e t ht => ?_⟩
    · rw [he] at ht; cases ht
    · rw [he] at ht; cases ht; exact h s _ rfl rfl (List.suffix_refl _)
  · refine ⟨fun v t ht => ?_, fun e t ht => ?_⟩
    · rw [he] at ht; cases ht; exact h s _ rfl rfl (List.suffix_refl _)
    · rw [he] at ht; cases ht
  · refine ⟨fun v t ht => ?_, fun e t ht => ?_⟩
    · rw [he] at ht; cases ht; exact h s _ rfl rfl (List.suffix_cons _ _)
    · rw [he] at ht; cases ht

/-- A relation that every change of the bus by a write satisfies is carried by a bus write. -/
theorem carries_busWrite {R : State → State → Prop} (a : Address) (v : Byte)
    (hrec : ∀ s b, b.regions = s.bus.regions → b.table = s.bus.table → s.bus.callbackLog <:+ b.callbackLog →
      R s (s.withBus b))
    (hram : ∀ s k r, s.bus.regionNumber a = some k → s.bus.regions[k]? = some r → r.kind = .ram →
      R s (s.withBus ((s.bus.record a .write).setRegion k (r.poke a v)))) : Carries R (busWrite a v) := by
  intro s
  rcases busWrite_cases a v s with ⟨_, he⟩ | ⟨k, r, hk, hr, hkind, he⟩ | ⟨r, _, _, he⟩ | ⟨k, r, _, _, _, he⟩
  · refine ⟨fun v t ht => ?_, fun e t ht => ?_⟩
    · rw [he] at ht; cases ht
    · rw [he] at ht; cases ht; exact hrec s _ rfl rfl (List.suffix_refl _)
  · refine ⟨fun v t ht => ?_, fun e t ht => ?_⟩
    · rw [he] at ht; cases ht; exact hram s k r hk hr hkind
    · rw [he] at ht; cases ht
  · refine ⟨fun v t ht => ?_, fun e t ht => ?_⟩
    · rw [he] at ht; cases ht; exact hrec s _ rfl rfl (List.suffix_refl _)
    · rw [he] at ht; cases ht
  · refine ⟨fun v t ht => ?_, fun e t ht => ?_⟩
    · rw [he] at ht; cases ht; exact hrec s _ rfl rfl (List.suffix_cons _ _)
    · rw [he] at ht; cases ht

end Sys2Proof.Machine
end

