-- ==== Sys2Proof/Laws/Exec.lean ====
section
/-! SUPPORT. Sys2Proof/Laws/Exec.lean: `exec` as one function of the descriptor: what every arm performs, so that a proof about
all instructions splits on the mnemonic and not on the constructor. -/
namespace Sys2Proof.Machine

/-- The body of a reading instruction for an operand. -/
def onData (f : DataOperand → BusM CostFacts) (o : Operand) : BusM CostFacts :=
  match dataOperand o with
  | some d => f d
  | none => pure noFacts

/-- The body of a storing instruction for an operand. -/
def onMem (f : MemOperand → BusM CostFacts) (o : Operand) : BusM CostFacts :=
  match memOperand o with
  | some m => f m
  | none => pure noFacts

/-- The body of a read-modify-write instruction: the accumulator, or a memory operand. -/
def onRmw (f : RmwFn) (o : Operand) : BusM CostFacts :=
  match memOperand o with
  | some m => modifyOperand (.mem m) f
  | none => modifyOperand .acc f

/-- The body of a branch. -/
def onRel8 (f : Byte → BusM CostFacts) : Operand → BusM CostFacts
  | .rel8 d => f d
  | _ => pure noFacts

/-- The body of BRL and PER. -/
def onRel16 (f : Word → BusM CostFacts) : Operand → BusM CostFacts
  | .rel16 d => f d
  | _ => pure noFacts

/-- The body of REP and SEP. -/
def onImm8 (f : Byte → BusM CostFacts) : Operand → BusM CostFacts
  | .imm8 v => f v
  | _ => pure noFacts

/-- The body of PEA. -/
def onImm16 (f : Word → BusM CostFacts) : Operand → BusM CostFacts
  | .imm16 v => f v
  | _ => pure noFacts

/-- The body of a block move. -/
def onBlk (f : Byte → Byte → BusM CostFacts) : Operand → BusM CostFacts
  | .blk dst src => f dst src
  | _ => pure noFacts

/-- The body of a jump or call, by its target mode. -/
def onJump (abs : Word → BusM CostFacts) (ind : Word → BusM CostFacts) (indexed : Word → BusM CostFacts) :
    Operand → BusM CostFacts
  | .mem (.abs a) => abs a
  | .aind a => ind a
  | .aindx a => indexed a
  | _ => pure noFacts

/-- The body of a long jump or call, by its target mode. -/
def onJumpLong (long : Address → BusM CostFacts) (ind : Word → BusM CostFacts) : Operand → BusM CostFacts
  | .mem (.long a) => long a
  | .aindl a => ind a
  | _ => pure noFacts

/-- The body of PEI. -/
def onInd (f : Byte → BusM CostFacts) : Operand → BusM CostFacts
  | .mem (.ind o) => f o
  | _ => pure noFacts

/-- What the instruction with a descriptor's mnemonic and operand executes. -/
def bodyOf (m : Mnemonic) (o : Operand) : BusM CostFacts :=
  match m with
  | .adc => onData adc o
  | .and => onData land o
  | .asl => onRmw aslResult o
  | .bcc => onRel8 bcc o
  | .bcs => onRel8 bcs o
  | .beq => onRel8 beq o
  | .bit => onData bitTest o
  | .bmi => onRel8 bmi o
  | .bne => onRel8 bne o
  | .bpl => onRel8 bpl o
  | .bra => onRel8 bra o
  | .brk => softwareTrap .brk
  | .brl => onRel16 brl o
  | .bvc => onRel8 bvc o
  | .bvs => onRel8 bvs o
  | .clc => clc
  | .cld => cld
  | .cli => cli
  | .clv => clv
  | .cmp => onData cmp o
  | .cop => softwareTrap .cop
  | .cpx => onData cpx o
  | .cpy => onData cpy o
  | .dec => onRmw decResult o
  | .dex => dex
  | .dey => dey
  | .eor => onData leor o
  | .inc => onRmw incResult o
  | .inx => inx
  | .iny => iny
  | .jml => onJumpLong jml jmlIndirect o
  | .jmp => onJump jmp jmpIndirect jmpIndexed o
  | .jsl => onJumpLong jsl (fun _ => pure noFacts) o
  | .jsr => onJump jsr (fun _ => pure noFacts) jsrIndexed o
  | .lda => onData lda o
  | .ldx => onData ldx o
  | .ldy => onData ldy o
  | .lsr => onRmw lsrResult o
  | .mvn => onBlk mvn o
  | .mvp => onBlk mvp o
  | .nop => nop
  | .ora => onData lora o
  | .pea => onImm16 pea o
  | .pei => onInd pei o
  | .per => onRel16 per o
  | .pha => pha
  | .phb => phb
  | .phd => phd
  | .phk => phk
  | .php => php
  | .phx => phx
  | .phy => phy
  | .pla => pla
  | .plb => plb
  | .pld => pld
  | .plp => plp
  | .plx => plx
  | .ply => ply
  | .rep => onImm8 rep o
  | .rol => onRmw rolResult o
  | .ror => onRmw rorResult o
  | .rti => rti
  | .rtl => rtl
  | .rts => rts
  | .sbc => onData sbc o
  | .sec => sec
  | .sed => sed
  | .sei => sei
  | .sep => onImm8 sep o
  | .sta => onMem sta o
  | .stp => stp
  | .stx => onMem stx o
  | .sty => onMem sty o
  | .stz => onMem stz o
  | .tax => tax
  | .tay => tay
  | .tcd => tcd
  | .tcs => tcs
  | .tdc => tdc
  | .trb => onRmw trbResult o
  | .tsb => onRmw tsbResult o
  | .tsc => tsc
  | .tsx => tsx
  | .txa => txa
  | .txs => txs
  | .txy => txy
  | .tya => tya
  | .tyx => tyx
  | .wai => wai
  | .wdm => wdm
  | .xba => xba
  | .xce => xce

/-- Every arm of `exec` performs the body of its descriptor. -/
theorem exec_eq_perform (i : Instr) (s : State) : exec i s = perform i (bodyOf i.mnemonic i.operand) s := by
  cases i <;> rfl

/-- What performing an instruction answers: always a next state, which is the body's end with the cost recorded, the
rollback of a bus failure, or the abort of a width mismatch. -/
theorem perform_cases (i : Instr) (body : BusM CostFacts) (s : State) :
    (∃ f t, i.wellFormed s.cpu.p.m s.cpu.p.x = true ∧ body (advance i s) = .ok f t ∧
      perform i body s = .next (t.charge (instrCost i s f t.cpu.pc))) ∨
    (∃ e t, i.wellFormed s.cpu.p.m s.cpu.p.x = true ∧ body (advance i s) = .error e t ∧
      perform i body s = .next (t.rollback s e.cause)) ∨
    (i.wellFormed s.cpu.p.m s.cpu.p.x = false ∧ perform i body s = .next (s.rollback s .widthMismatch)) := by
  unfold perform
  cases hw : i.wellFormed s.cpu.p.m s.cpu.p.x with
  | false => exact .inr (.inr ⟨rfl, by simp⟩)
  | true =>
    cases hb : body (advance i s) with
    | ok f t => exact .inl ⟨f, t, rfl, rfl, by simp⟩
    | error e t => exact .inr (.inl ⟨e, t, rfl, rfl, by simp⟩)

/-- A well-formed instruction whose body ends well. -/
theorem perform_ok {i : Instr} {body : BusM CostFacts} {s t : State} {f : CostFacts}
    (hw : i.wellFormed s.cpu.p.m s.cpu.p.x = true) (hb : body (advance i s) = .ok f t) :
    perform i body s = .next (t.charge (instrCost i s f t.cpu.pc)) := by
  simp only [perform, hw, if_true, hb]

/-- A well-formed instruction whose body fails on the bus. -/
theorem perform_error {i : Instr} {body : BusM CostFacts} {s t : State} {e : BusFailure}
    (hw : i.wellFormed s.cpu.p.m s.cpu.p.x = true) (hb : body (advance i s) = .error e t) :
    perform i body s = .next (t.rollback s e.cause) := by
  simp only [perform, hw, if_true, hb]

end Sys2Proof.Machine
end

