-- ==== Sys2Proof/Laws/Words.lean ====
section
/-! SUPPORT. Sys2Proof/Laws/Words.lean: taking words and addresses apart into bytes and putting them together. -/
namespace Sys2Proof

theorem toNat_mkWord (hi lo : Byte) : (mkWord hi lo).toNat = hi.toNat * 256 + lo.toNat := by
  rw [mkWord, BitVec.toNat_append, ← Nat.shiftLeft_add_eq_or_of_lt lo.isLt, Nat.shiftLeft_eq]

theorem toNat_mkAddr (bank : Byte) (off : Word) : (mkAddr bank off).toNat = bank.toNat * 65536 + off.toNat := by
  rw [mkAddr, BitVec.toNat_append, ← Nat.shiftLeft_add_eq_or_of_lt off.isLt, Nat.shiftLeft_eq]

theorem toNat_loByte (v : Word) : (loByte v).toNat = v.toNat % 256 := by
  simp [loByte]

theorem toNat_hiByte (v : Word) : (hiByte v).toNat = v.toNat / 256 := by
  have := v.isLt
  simp [hiByte, Nat.shiftRight_eq_div_pow]
  omega

theorem toNat_bankOf (a : Address) : (bankOf a).toNat = a.toNat / 65536 := by
  have := a.isLt
  simp [bankOf, Nat.shiftRight_eq_div_pow]
  omega

theorem toNat_offsetOf (a : Address) : (offsetOf a).toNat = a.toNat % 65536 := by
  simp [offsetOf]

@[simp] theorem loByte_mkWord (hi lo : Byte) : loByte (mkWord hi lo) = lo := by
  apply BitVec.eq_of_toNat_eq
  rw [toNat_loByte, toNat_mkWord]
  have := lo.isLt
  omega

@[simp] theorem hiByte_mkWord (hi lo : Byte) : hiByte (mkWord hi lo) = hi := by
  apply BitVec.eq_of_toNat_eq
  rw [toNat_hiByte, toNat_mkWord]
  have := lo.isLt
  omega

@[simp] theorem mkWord_hiByte_loByte (v : Word) : mkWord (hiByte v) (loByte v) = v := by
  apply BitVec.eq_of_toNat_eq
  rw [toNat_mkWord, toNat_loByte, toNat_hiByte]
  omega

@[simp] theorem bankOf_mkAddr (bank : Byte) (off : Word) : bankOf (mkAddr bank off) = bank := by
  apply BitVec.eq_of_toNat_eq
  rw [toNat_bankOf, toNat_mkAddr]
  have := off.isLt
  omega

@[simp] theorem offsetOf_mkAddr (bank : Byte) (off : Word) : offsetOf (mkAddr bank off) = off := by
  apply BitVec.eq_of_toNat_eq
  rw [toNat_offsetOf, toNat_mkAddr]
  have := off.isLt
  omega

@[simp] theorem mkAddr_bankOf_offsetOf (a : Address) : mkAddr (bankOf a) (offsetOf a) = a := by
  apply BitVec.eq_of_toNat_eq
  rw [toNat_mkAddr, toNat_bankOf, toNat_offsetOf]
  omega

theorem mkWord_inj {hi lo hi' lo' : Byte} (h : mkWord hi lo = mkWord hi' lo') : hi = hi' ∧ lo = lo' :=
  ⟨by simpa using congrArg hiByte h, by simpa using congrArg loByte h⟩

end Sys2Proof
end

