-- ==== Sys2Proof/Laws/Access.lean ====
section
/-! SUPPORT. Sys2Proof/Laws/Access.lean: what the multi-byte, stack and trap operations do, as lists of byte accesses
(`Bus.loadAll`, `Bus.storeAll`): one lemma per operation that says how it ends well. -/
namespace Sys2Proof.Machine

variable {s : State} {b b' b'' : Bus} {a : Address} {v lo hi : Byte}

/-! ### Lists of accesses -/

theorem loadAll_cons_ok (h : b.load a = some (v, b')) {rest : List Address} {vs : List Byte}
    (hr : b'.loadAll rest = some (vs, b'')) : b.loadAll (a :: rest) = some (v :: vs, b'') := by
  simp only [Bus.loadAll, h, hr]

theorem of_loadAll_cons {rest : List Address} {vs : List Byte} (h : b.loadAll (a :: rest) = some (vs, b'')) :
    ∃ v b' ws, b.load a = some (v, b') ∧ b'.loadAll rest = some (ws, b'') ∧ vs = v :: ws := by
  rw [Bus.loadAll] at h
  cases hl : b.load a with
  | none => simp [hl] at h
  | some p =>
    obtain ⟨v, b'⟩ := p
    cases hr : b'.loadAll rest with
    | none => simp [hl, hr] at h
    | some q =>
      obtain ⟨ws, b₂⟩ := q
      simp only [hl, hr, Option.some.injEq, Prod.mk.injEq] at h
      obtain ⟨rfl, rfl⟩ := h
      exact ⟨v, b', ws, rfl, hr, rfl⟩

theorem of_loadAll_nil {vs : List Byte} (h : b.loadAll [] = some (vs, b')) : vs = [] ∧ b' = b := by
  simp only [Bus.loadAll, Option.some.injEq, Prod.mk.injEq] at h
  exact ⟨h.1.symm, h.2.symm⟩

theorem of_storeAll_cons {rest : List (Address × Byte)} (h : b.storeAll ((a, v) :: rest) = some b'') :
    ∃ b', b.store a v = some b' ∧ b'.storeAll rest = some b'' := by
  rw [Bus.storeAll] at h
  cases hl : b.store a v with
  | none => simp [hl] at h
  | some b' => exact ⟨b', rfl, by simpa only [hl] using h⟩

theorem of_storeAll_nil (h : b.storeAll [] = some b') : b' = b := by
  simpa [Bus.storeAll] using h.symm

theorem loadAll_length {as : List Address} {vs : List Byte} (h : b.loadAll as = some (vs, b')) :
    vs.length = as.length := by
  induction as generalizing b vs with
  | nil => simp [(of_loadAll_nil h).1]
  | cons a as ih =>
    obtain ⟨v, b₁, ws, _, h2, rfl⟩ := of_loadAll_cons h
    simp [ih h2]

/-! ### What accesses change -/

theorem load_record (h : b.load a = some (v, b')) :
    b'.regions = b.regions ∧ b'.table = b.table ∧ b'.lastAddr = a ∧ b'.lastDir = .read ∧
      b.callbackLog <:+ b'.callbackLog := by
  rcases load_cases a b with ⟨_, hl⟩ | ⟨r, _, _, hl⟩ | ⟨k, r, _, _, _, hl⟩
  · simp [hl] at h
  · rw [hl] at h; cases h; exact ⟨rfl, rfl, rfl, rfl, List.suffix_refl _⟩
  · rw [hl] at h; cases h; exact ⟨rfl, rfl, rfl, rfl, List.suffix_cons _ _⟩

theorem regionAt_congr (hr : b'.regions = b.regions) (ht : b'.table = b.table) : b'.regionAt a = b.regionAt a := by
  simp only [Bus.regionAt, Bus.regionNumber, hr, ht]

theorem keepsMemory_of (hr : b'.regions = b.regions) (ht : b'.table = b.table) : KeepsMemory b b' := by
  refine ⟨hr, ht, fun a => ?_⟩
  rw [Bus.peek, Bus.peek, regionAt_congr hr ht]

theorem keepsMemory_refl (b : Bus) : KeepsMemory b b := ⟨rfl, rfl, fun _ => rfl⟩

theorem keepsMemory_trans (h : KeepsMemory b b') (h' : KeepsMemory b' b'') : KeepsMemory b b'' :=
  keepsMemory_of (h'.1.trans h.1) (h'.2.1.trans h.2.1)

theorem load_keeps (h : b.load a = some (v, b')) : KeepsMemory b b' :=
  keepsMemory_of (load_record h).1 (load_record h).2.1

theorem loadAll_keeps {as : List Address} {vs : List Byte} (h : b.loadAll as = some (vs, b')) : KeepsMemory b b' := by
  induction as generalizing b vs with
  | nil => rw [(of_loadAll_nil h).2]; exact keepsMemory_refl b
  | cons a as ih =>
    obtain ⟨v, b₁, ws, h1, h2, rfl⟩ := of_loadAll_cons h
    exact keepsMemory_trans (load_keeps h1) (ih h2)

theorem load_isSome : (b.load a).isSome = b.mapped a := by
  unfold Bus.mapped
  rcases load_cases a b with ⟨h, hl⟩ | ⟨r, h, _, hl⟩ | ⟨k, r, _, h, _, hl⟩ <;> simp [h, hl]

theorem store_isSome : (b.store a v).isSome = b.mapped a := by
  unfold Bus.mapped
  rcases store_cases a v b with ⟨h, hl⟩ | ⟨k, r, hk, hr, _, hl⟩ | ⟨r, h, _, hl⟩ | ⟨k, r, _, h, _, hl⟩
  · simp [h, hl]
  · simp [regionAt_of_number hk hr, hl]
  · simp [h, hl]
  · simp [h, hl]

theorem store_record (h : b.store a v = some b') :
    b'.table = b.table ∧ b'.regions.length = b.regions.length ∧ b'.lastAddr = a ∧ b'.lastDir = .write := by
  rcases store_cases a v b with ⟨_, hl⟩ | ⟨k, r, _, _, _, hl⟩ | ⟨r, _, _, hl⟩ | ⟨k, r, _, _, _, hl⟩
  · simp [hl] at h
  · rw [hl] at h; cases h; exact ⟨rfl, by simp [Bus.setRegion], rfl, rfl⟩
  · rw [hl] at h; cases h; exact ⟨rfl, rfl, rfl, rfl⟩
  · rw [hl] at h; cases h; exact ⟨rfl, rfl, rfl, rfl⟩

/-! ### Multi-byte access -/

theorem memRead_ok (wrap : Wrap) (n : Nat) {bytes : List Byte}
    (h : s.bus.loadAll (byteAddresses wrap n a) = some (bytes, b)) :
    memRead wrap n a s = .ok (numberOfBytes bytes) (s.withBus b) := by
  induction n generalizing a s bytes with
  | zero =>
    obtain ⟨rfl, rfl⟩ := of_loadAll_nil h
    rfl
  | succ n ih =>
    obtain ⟨v, b₁, ws, h1, h2, rfl⟩ := of_loadAll_cons h
    rw [memRead, run_bind_ok s _ (busRead_ok h1), run_bind_ok _ _ (ih (s := s.withBus b₁) h2)]
    rfl

theorem memWrite_ok (wrap : Wrap) (n w : Nat)
    (h : s.bus.storeAll ((byteAddresses wrap n a).zip (bytesOfNumber n w)) = some b) :
    memWrite wrap n a w s = .ok () (s.withBus b) := by
  induction n generalizing a s w with
  | zero => rw [of_storeAll_nil h]; rfl
  | succ n ih =>
    obtain ⟨b₁, h1, h2⟩ := of_storeAll_cons h
    rw [memWrite, run_bind_ok s _ (busWrite_ok h1), ih (s := s.withBus b₁) _ h2]
    rfl

theorem ofNat_two (lo hi : Byte) : BitVec.ofNat 16 (lo.toNat + 256 * (hi.toNat + 256 * 0)) = mkWord hi lo := by
  apply BitVec.eq_of_toNat_eq
  rw [toNat_mkWord, BitVec.toNat_ofNat]
  have := lo.isLt; have := hi.isLt
  omega

theorem ofNat_three (lo mid hi : Byte) :
    BitVec.ofNat 24 (lo.toNat + 256 * (mid.toNat + 256 * (hi.toNat + 256 * 0))) = mkAddr hi (mkWord mid lo) := by
  apply BitVec.eq_of_toNat_eq
  rw [toNat_mkAddr, toNat_mkWord, BitVec.toNat_ofNat]
  have := lo.isLt; have := mid.isLt; have := hi.isLt
  omega

theorem memRead16_ok (wrap : Wrap) (h : s.bus.loadAll [a, wrap.next a] = some ([lo, hi], b)) :
    memRead16 wrap a s = .ok (mkWord hi lo) (s.withBus b) := by
  rw [memRead16, run_bind_ok s _ (memRead_ok wrap 2 h), run_pure]
  simp only [numberOfBytes, ofNat_two]

theorem memRead24_ok (wrap : Wrap) {mid : Byte}
    (h : s.bus.loadAll [a, wrap.next a, wrap.next (wrap.next a)] = some ([lo, mid, hi], b)) :
    memRead24 wrap a s = .ok (mkAddr hi (mkWord mid lo)) (s.withBus b) := by
  rw [memRead24, run_bind_ok s _ (memRead_ok wrap 3 h), run_pure]
  simp only [numberOfBytes, ofNat_three]

theorem ofNat_one (lo : Byte) : BitVec.ofNat 16 (lo.toNat + 256 * 0) = mkWord 0x00#8 lo := by
  have := ofNat_two lo 0x00#8
  simpa using this

/-- Reading data of a width: the bytes at `ea`, little-endian. -/
theorem readData_ok {w : Width} {r : Resolved} {bytes : List Byte}
    (h : s.bus.loadAll (dataAddresses (w == .byte) r) = some (bytes, b)) :
    readData w r.wrap r.ea s = .ok (wordOfBytes bytes) (s.withBus b) := by
  cases w with
  | byte =>
    have hb : s.bus.loadAll (byteAddresses r.wrap 1 r.ea) = some (bytes, b) := h
    rw [readData, Width.bytes, run_bind_ok s _ (memRead_ok r.wrap 1 hb), run_pure]
    obtain ⟨v, b₁, ws, _, h2, rfl⟩ := of_loadAll_cons hb
    obtain ⟨rfl, rfl⟩ := of_loadAll_nil h2
    simp only [numberOfBytes, ofNat_one, wordOfBytes]
  | word =>
    have hb : s.bus.loadAll (byteAddresses r.wrap 2 r.ea) = some (bytes, b) := h
    rw [readData, Width.bytes, run_bind_ok s _ (memRead_ok r.wrap 2 hb), run_pure]
    obtain ⟨v, b₁, ws, _, h2, rfl⟩ := of_loadAll_cons hb
    obtain ⟨v', b₂, ws', _, h3, rfl⟩ := of_loadAll_cons h2
    obtain ⟨rfl, rfl⟩ := of_loadAll_nil h3
    simp only [numberOfBytes, ofNat_two, wordOfBytes]

theorem ofNat_low (v : Word) : BitVec.ofNat 8 v.toNat = loByte v := by
  apply BitVec.eq_of_toNat_eq
  simp [loByte]

theorem ofNat_high (v : Word) : BitVec.ofNat 8 (v.toNat / 256) = hiByte v := by
  apply BitVec.eq_of_toNat_eq
  simp [hiByte, Nat.shiftRight_eq_div_pow]

theorem writeData_ok {w : Width} {r : Resolved} {v : Word}
    (h : s.bus.storeAll ((dataAddresses (w == .byte) r).zip (dataBytes (w == .byte) v)) = some b) :
    writeData w r.wrap r.ea v s = .ok () (s.withBus b) := by
  cases w with
  | byte =>
    refine memWrite_ok r.wrap 1 v.toNat ?_
    rw [bytesOfNumber, ofNat_low]
    exact h
  | word =>
    refine memWrite_ok r.wrap 2 v.toNat ?_
    rw [bytesOfNumber, bytesOfNumber, ofNat_low, ofNat_high]
    exact h

theorem writeDataHiFirst_ok {w : Width} {r : Resolved} {v : Word}
    (h : s.bus.storeAll ((dataAddresses (w == .byte) r).zip (dataBytes (w == .byte) v)).reverse = some b) :
    writeDataHiFirst w r.wrap r.ea v s = .ok () (s.withBus b) := by
  cases w with
  | byte =>
    obtain ⟨b₁, h1, h2⟩ := of_storeAll_cons (show s.bus.storeAll [(r.ea, loByte v)] = some b from h)
    rw [of_storeAll_nil h2]
    exact busWrite_ok h1
  | word =>
    obtain ⟨b₁, h1, h2⟩ := of_storeAll_cons
      (show s.bus.storeAll [(r.wrap.next r.ea, hiByte v), (r.ea, loByte v)] = some b from h)
    obtain ⟨b₂, h3, h4⟩ := of_storeAll_cons h2
    rw [of_storeAll_nil h4, writeDataHiFirst, run_bind_ok s _ (busWrite_ok h1),
      busWrite_ok (s := s.withBus b₁) h3]
    rfl

/-! ### The stack -/

variable (wrap1 : Bool)

theorem pushByte_ok (h : s.bus.store (stackAddr s.cpu.s) v = some b) :
    pushByte wrap1 v s = .ok () ((s.withBus b).withCpu { s.cpu with s := stackDown wrap1 s.cpu.s }) := by
  rw [pushByte, run_bind_ok s _ (run_getCpu s), run_bind_ok s _ (busWrite_ok h)]
  rfl

theorem pullByte_ok (h : s.bus.load (stackAddr (stackUp wrap1 s.cpu.s)) = some (v, b)) :
    pullByte wrap1 s = .ok v ((s.withBus b).withCpu { s.cpu with s := stackUp wrap1 s.cpu.s }) := by
  rw [pullByte, run_bind_ok s _ (run_modifyCpu s _), run_bind_ok _ _ (run_getCpu _)]
  exact busRead_ok (s := s.withCpu { s.cpu with s := stackUp wrap1 s.cpu.s }) h

/-- Pushing bytes one after another, the first one first. -/
def pushList : List Byte → BusM Unit
  | [] => pure ()
  | v :: rest => do
    pushByte wrap1 v
    pushList rest

theorem pushOffset_zero (sp : Word) : pushOffset wrap1 sp 0 = sp := by
  simp [pushOffset]

theorem pushOffset_succ (sp : Word) (k : Nat) : pushOffset wrap1 sp (k + 1) = pushOffset wrap1 (stackDown wrap1 sp) k := by
  unfold pushOffset stackDown
  cases wrap1 with
  | false =>
    simp only [Bool.false_and, Bool.false_eq_true, if_false]
    apply BitVec.eq_of_toNat_eq; simp; omega
  | true =>
    by_cases hk : k = 0
    · subst hk; simp
    · have hk' : (k != 0) = true := by simp [hk]
      simp only [hk', Bool.true_and, if_true, loByte_mkWord]
      rw [if_pos (by simp)]
      congr 1
      apply BitVec.eq_of_toNat_eq; simp; omega

theorem pushWrites_succ (sp : Word) (k : Nat) (bytes : List Byte) :
    pushWrites wrap1 sp (k + 1) bytes = pushWrites wrap1 (stackDown wrap1 sp) k bytes := by
  induction bytes generalizing k with
  | nil => rfl
  | cons v rest ih => rw [pushWrites, pushWrites, ih, pushOffset_succ]

theorem pushList_ok {bytes : List Byte}
    (h : s.bus.storeAll (pushWrites wrap1 s.cpu.s 0 bytes) = some b) :
    pushList wrap1 bytes s =
      .ok () ((s.withBus b).withCpu { s.cpu with s := pushOffset wrap1 s.cpu.s bytes.length }) := by
  induction bytes generalizing s with
  | nil => rw [of_storeAll_nil h, List.length_nil, pushOffset_zero]; rfl
  | cons v rest ih =>
    rw [pushWrites, pushWrites_succ, pushOffset_zero] at h
    obtain ⟨b₁, h1, h2⟩ := of_storeAll_cons h
    rw [pushList, run_bind_ok s _ (pushByte_ok wrap1 h1),
      ih (s := (s.withBus b₁).withCpu { s.cpu with s := stackDown wrap1 s.cpu.s }) h2, List.length_cons,
      pushOffset_succ]
    rfl

theorem pushByte_eq (v : Byte) : pushByte wrap1 v s = pushList wrap1 [v] s := by
  rw [pushList, run_bind]
  cases pushByte wrap1 v s <;> rfl

theorem pushWord_eq (v : Word) : pushWord wrap1 v s = pushList wrap1 [hiByte v, loByte v] s := by
  rw [pushWord, pushList, run_bind, run_bind]
  cases pushByte wrap1 (hiByte v) s with
  | ok u t => exact pushByte_eq (s := t) wrap1 _
  | error e t => rfl

theorem pushData_eq (w : Width) (v : Word) :
    pushData w wrap1 v s = pushList wrap1 (if w == .byte then [loByte v] else [hiByte v, loByte v]) s := by
  cases w with
  | byte => exact pushByte_eq wrap1 _
  | word => exact pushWord_eq wrap1 _

/-- Pulling `n` bytes one after another. -/
def pullList : Nat → BusM (List Byte)
  | 0 => pure []
  | n + 1 => do
    let v ← pullByte wrap1
    let rest ← pullList n
    pure (v :: rest)

theorem pullOffset_succ (sp : Word) (k : Nat) :
    pullOffset wrap1 sp (k + 2) = pullOffset wrap1 (stackUp wrap1 sp) (k + 1) := by
  unfold pullOffset stackUp
  cases wrap1 with
  | false => simp only [Bool.false_eq_true, if_false]; apply BitVec.eq_of_toNat_eq; simp; omega
  | true =>
    simp only [if_true, loByte_mkWord]
    congr 1
    apply BitVec.eq_of_toNat_eq; simp; omega

theorem pullOffset_one (sp : Word) : pullOffset wrap1 sp 1 = stackUp wrap1 sp := by
  unfold pullOffset stackUp
  cases wrap1 <;> rfl

theorem pullReads_succ (sp : Word) (n : Nat) :
    pullReads wrap1 sp (n + 1) = stackAddr (stackUp wrap1 sp) :: pullReads wrap1 (stackUp wrap1 sp) n := by
  rw [pullReads, pullReads, List.range_succ_eq_map, List.map_cons, List.map_map, pullOffset_one]
  congr 1
  apply List.map_congr_left
  intro k _
  simp only [Function.comp, Nat.succ_eq_add_one, pullOffset_succ]

theorem pullList_ok {n : Nat} {bytes : List Byte}
    (h : s.bus.loadAll (pullReads wrap1 s.cpu.s (n + 1)) = some (bytes, b)) :
    pullList wrap1 (n + 1) s =
      .ok bytes ((s.withBus b).withCpu { s.cpu with s := pullOffset wrap1 s.cpu.s (n + 1) }) := by
  induction n generalizing s bytes with
  | zero =>
    rw [pullReads_succ] at h
    obtain ⟨v, b₁, ws, h1, h2, rfl⟩ := of_loadAll_cons h
    obtain ⟨rfl, rfl⟩ := of_loadAll_nil h2
    rw [pullList, run_bind_ok s _ (pullByte_ok wrap1 h1), pullOffset_one]
    rfl
  | succ n ih =>
    rw [pullReads_succ] at h
    obtain ⟨v, b₁, ws, h1, h2, rfl⟩ := of_loadAll_cons h
    rw [pullList, run_bind_ok s _ (pullByte_ok wrap1 h1),
      run_bind_ok _ _ (ih (s := (s.withBus b₁).withCpu { s.cpu with s := stackUp wrap1 s.cpu.s }) h2),
      pullOffset_succ]
    rfl

theorem pullWord_eq :
    pullWord wrap1 s = match pullList wrap1 2 s with
      | .ok bytes t => .ok (wordOfBytes bytes) t
      | .error e t => .error e t := by
  rw [pullWord, pullList, run_bind, run_bind]
  cases pullByte wrap1 s with
  | error e t => rfl
  | ok lo t =>
    simp only [pullList, run_bind]
    cases pullByte wrap1 t <;> rfl

theorem pullData_eq (w : Width) :
    pullData w wrap1 s = match pullList wrap1 w.bytes s with
      | .ok bytes t => .ok (wordOfBytes bytes) t
      | .error e t => .error e t := by
  cases w with
  | word => exact pullWord_eq wrap1
  | byte =>
    rw [pullData, Width.bytes, pullList, run_bind, run_bind]
    cases pullByte wrap1 s <;> rfl

end Sys2Proof.Machine
end

