-- ==== Sys2Proof/Laws/Bodies.lean ====
section
/-! SUPPORT. Sys2Proof/Laws/Bodies.lean: a property of computations that the basic operations have, and that sequences keep, holds
of every instruction's body: proved once here, so that a proof about all instructions names only the basic operations. -/
namespace Sys2Proof.Machine

/-- A property of computations that holds of those that read: the value alone, sequences, the register file, a bus read,
and a computation that looks at the state it starts in. -/
structure ReadClosed (P : (α : Type) → BusM α → Prop) : Prop where
  pure    : ∀ (α : Type) (v : α), P α (Pure.pure v)
  bind    : ∀ (α β : Type) (m : BusM α) (f : α → BusM β), P α m → (∀ v, P β (f v)) → P β (m >>= f)
  state   : ∀ (α : Type) (body : State → BusM α), (∀ s, P α (body s)) → P α (fun s => body s s)
  getCpu  : P Cpu getCpu
  busRead : ∀ a, P Byte (busRead a)

/-- It holds besides of a bus write. -/
structure WriteClosed (P : (α : Type) → BusM α → Prop) : Prop extends ReadClosed P where
  busWrite : ∀ a v, P Unit (busWrite a v)

/-- It holds besides of every change of the register file. -/
structure BodyClosed (P : (α : Type) → BusM α → Prop) : Prop extends WriteClosed P where
  modifyCpu : ∀ f, P Unit (modifyCpu f)

variable {P : (α : Type) → BusM α → Prop}

namespace ReadClosed

variable (h : ReadClosed P)
include h

theorem seq {α β : Type} {m : BusM α} {f : α → BusM β} (hm : P α m) (hf : ∀ v, P β (f v)) : P β (m >>= f) :=
  h.bind α β m f hm hf

theorem memRead (w : Wrap) (n : Nat) (a : Address) : P Nat (memRead w n a) := by
  induction n generalizing a with
  | zero => exact h.pure _ _
  | succ n ih => exact h.seq (h.busRead _) fun _ => h.seq (ih _) fun _ => h.pure _ _

theorem memRead16 (w : Wrap) (a : Address) : P Word (memRead16 w a) := h.seq (h.memRead _ _ _) fun _ => h.pure _ _

theorem memRead24 (w : Wrap) (a : Address) : P Address (memRead24 w a) := h.seq (h.memRead _ _ _) fun _ => h.pure _ _

theorem readData (w : Width) (wr : Wrap) (a : Address) : P Word (readData w wr a) :=
  h.seq (h.memRead _ _ _) fun _ => h.pure _ _

theorem directPointer (o : Word) : P Word (directPointer o) :=
  h.state _ (fun s => Machine.busRead (bank0 o) >>= fun lo =>
    Machine.busRead (bank0 (pointerHighOffset s o)) >>= fun hi => Pure.pure (mkWord hi lo))
    fun _ => h.seq (h.busRead _) fun _ => h.seq (h.busRead _) fun _ => h.pure _ _

theorem resolve (m : MemOperand) : P Resolved (resolve m) := by
  have value : ∀ f : State → Resolved, P Resolved (fun s => .ok (f s) s) := fun f =>
    h.state _ (fun s => Pure.pure (f s)) fun s => h.pure _ (f s)
  have pointer : ∀ (α : Type) (ptr : State → BusM α) (f : State → α → Resolved), (∀ s, P α (ptr s)) →
      P Resolved (fun s => (ptr s >>= fun v => Pure.pure (f s v)) s) := fun α ptr f hp =>
    h.state _ (fun s => ptr s >>= fun v => Pure.pure (f s v)) fun s => h.seq (hp s) fun v => h.pure _ (f s v)
  cases m with
  | dp o => exact value fun s => bank0Addr (directOffset s o)
  | dpx o => exact value fun s => indexedDirect s o s.cpu.x
  | dpy o => exact value fun s => indexedDirect s o s.cpu.y
  | ind o => exact pointer _ _ (fun s ptr => plainAddr (dataAddr s ptr)) fun s => h.directPointer (directOffset s o)
  | indx o =>
    exact pointer _ _ (fun s ptr => { plainAddr (dataAddr s ptr) with facts := directFacts s o s.cpu.x }) fun s =>
      h.directPointer (directIndexed s o s.cpu.x)
  | indy o => exact pointer _ _ (fun s ptr => indexedAddr (dataAddr s ptr) s.cpu.y) fun s => h.directPointer (directOffset s o)
  | indl o => exact pointer _ _ (fun _ ptr => plainAddr ptr) fun s => h.memRead24 .bank (bank0 (directOffset s o))
  | indly o =>
    exact pointer _ _ (fun s ptr => indexedAddr ptr s.cpu.y) fun s =>
      h.memRead24 .bank (bank0 (directOffset s o))
  | abs a => exact value fun s => plainAddr (dataAddr s a)
  | absx a => exact value fun s => indexedAddr (dataAddr s a) s.cpu.x
  | absy a => exact value fun s => indexedAddr (dataAddr s a) s.cpu.y
  | long a => exact value fun _ => plainAddr a
  | longx a => exact value fun s => indexedAddr a s.cpu.x
  | sr o => exact value fun s => bank0Addr (s.cpu.s + zext16 o)
  | sry o =>
    exact pointer _ _ (fun s ptr => indexedAddr (dataAddr s ptr) s.cpu.y) fun s =>
      h.memRead16 .bank (bank0 (s.cpu.s + zext16 o))

theorem readOperand (w : Width) (o : DataOperand) : P (Word × CostFacts) (readOperand w o) := by
  cases o with
  | imm v => exact h.pure _ _
  | mem m => exact h.seq (h.resolve _) fun _ => h.seq (h.readData _ _ _) fun _ => h.pure _ _

theorem aindxPointer (a : Word) : P Word (aindxPointer a) := h.seq h.getCpu fun _ => h.memRead16 _ _

theorem plainly {body : BusM Unit} (hb : P Unit body) : P CostFacts (plainly body) := h.seq hb fun _ => h.pure _ _

theorem withStack {α : Type} {body : Bool → BusM α} (hb : ∀ w, P α (body w)) : P α (withStack body) :=
  h.state _ (fun s => body s.stackWraps) fun _ => hb _

theorem withOperand {w : Cpu → Width} {o : DataOperand} {f : Cpu → Word → Cpu} (hf : ∀ v, P Unit (modifyCpu (f · v))) :
    P CostFacts (withOperand w o f) :=
  h.seq h.getCpu fun _ => h.seq (h.readOperand _ _) fun p => by
    obtain ⟨v, facts⟩ := p
    exact h.seq (hf v) fun _ => h.pure _ _

theorem branchIf (hj : ∀ t, P Unit (jumpTo t)) (cond : Status → Bool) (d : Byte) : P CostFacts (branchIf cond d) :=
  h.seq h.getCpu fun c => by
    dsimp only
    split
    · exact h.seq (hj _) fun _ => h.pure _ _
    · exact h.pure _ _

theorem pullByte {w : Bool} (hs : P Unit (modifyCpu fun c => { c with s := stackUp w c.s })) : P Byte (pullByte w) :=
  h.seq hs fun _ => h.seq h.getCpu fun _ => h.busRead _

theorem pullWord {w : Bool} (hs : P Unit (modifyCpu fun c => { c with s := stackUp w c.s })) : P Word (pullWord w) :=
  h.seq (h.pullByte hs) fun _ => h.seq (h.pullByte hs) fun _ => h.pure _ _

theorem pullData {w : Bool} (hs : P Unit (modifyCpu fun c => { c with s := stackUp w c.s })) (wd : Width) :
    P Word (pullData wd w) := by
  cases wd with
  | byte => exact h.seq (h.pullByte hs) fun _ => h.pure _ _
  | word => exact h.pullWord hs

theorem trapReturn (hs : ∀ w, P Unit (modifyCpu fun c => { c with s := stackUp w c.s }))
    (hp : ∀ v, P Unit (modifyCpu (Cpu.unpackP · v))) (hj : ∀ pc, P Unit (modifyCpu fun c => { c with pc := pc }))
    (hb : ∀ pb, P Unit (modifyCpu fun c => { c with pb := pb })) : P Unit trapReturn := by
  refine h.seq h.getCpu fun c => h.seq (h.pullByte (hs _)) fun v => h.seq (hp v) fun _ =>
    h.seq (h.pullWord (hs _)) fun pc => h.seq (hj pc) fun _ => ?_
  split
  · exact h.pure _ _
  · exact h.seq (h.pullByte (hs _)) fun pb => hb pb

end ReadClosed

namespace WriteClosed

variable (h : WriteClosed P)
include h

theorem memWrite (w : Wrap) (n : Nat) (a : Address) (v : Nat) : P Unit (memWrite w n a v) := by
  induction n generalizing a v with
  | zero => exact h.pure _ _
  | succ n ih => exact h.seq (h.busWrite _ _) fun _ => ih _ _

theorem writeData (w : Width) (wr : Wrap) (a : Address) (v : Word) : P Unit (writeData w wr a v) := h.memWrite _ _ _ _

theorem writeDataHiFirst (w : Width) (wr : Wrap) (a : Address) (v : Word) : P Unit (writeDataHiFirst w wr a v) := by
  cases w with
  | byte => exact h.busWrite _ _
  | word => exact h.seq (h.busWrite _ _) fun _ => h.busWrite _ _

theorem storeOperand {w : Cpu → Width} {m : MemOperand} {f : Cpu → Word} : P CostFacts (storeOperand w m f) :=
  h.seq h.getCpu fun _ => h.seq (h.resolve _) fun _ => h.seq (h.writeData _ _ _ _) fun _ => h.pure _ _

theorem modifyMem {m : MemOperand} {f : RmwFn}
    (hf : ∀ v, P Unit (modifyCpu fun c => { c with p := (f c.widthA c v).2 })) : P CostFacts (modifyOperand (.mem m) f) :=
  h.seq h.getCpu fun _ => h.seq (h.resolve _) fun _ => h.seq (h.readData _ _ _) fun v =>
    h.seq (h.writeDataHiFirst _ _ _ _) fun _ => h.seq (hf v) fun _ => h.pure _ _

variable {w : Bool} (hs : P Unit (modifyCpu fun c => { c with s := stackDown w c.s }))
include hs

theorem pushByte (v : Byte) : P Unit (pushByte w v) := h.seq h.getCpu fun _ => h.seq (h.busWrite _ _) fun _ => hs

theorem pushWord (v : Word) : P Unit (pushWord w v) := h.seq (h.pushByte hs _) fun _ => h.pushByte hs _

theorem pushData (wd : Width) (v : Word) : P Unit (pushData wd w v) := by
  cases wd with
  | byte => exact h.pushByte hs _
  | word => exact h.pushWord hs _

theorem pushReturn : P Unit (pushReturn w) := h.seq h.getCpu fun _ => h.pushWord hs _

omit hs

theorem trapEntry (hs : ∀ w, P Unit (modifyCpu fun c => { c with s := stackDown w c.s }))
    (hp : P Unit (modifyCpu fun c => { c with p := { c.p with i := true, d := false }, pb := 0x00#8 }))
    (hj : ∀ pc, P Unit (modifyCpu fun c => { c with pc := pc })) (k : TrapKind) (ret : Word) :
    P Unit (trapEntry k ret) := by
  refine h.seq h.getCpu fun c => h.seq ?_ fun _ => h.seq (h.pushWord (hs _) _) fun _ =>
    h.seq (h.pushByte (hs _) _) fun _ => h.seq hp fun _ => h.seq (h.memRead16 _ _) fun t => hj t
  unfold pushBank
  split
  · exact h.pure _ _
  · exact h.pushByte (hs _) _

end WriteClosed

/-! ### What each instruction does to the registers -/

/-- One push moves `S`. -/
def PushStep (f : Cpu → Cpu) : Prop := ∃ wrap1, f = fun c => { c with s := stackDown wrap1 c.s }

/-- One pull moves `S`. -/
def PullStep (f : Cpu → Cpu) : Prop := ∃ wrap1, f = fun c => { c with s := stackUp wrap1 c.s }

/-- The end of an instruction of `EMU_STACK_NEW_INSN_16BIT` (R242). -/
def EndStep (f : Cpu → Cpu) : Prop := f = fun c => { c with s := page1 c.s }

/-- A jump inside the program bank. -/
def JumpStep (f : Cpu → Cpu) : Prop := ∃ pc, f = fun c => { c with pc := pc }

/-- A long jump. -/
def LongStep (f : Cpu → Cpu) : Prop := ∃ pb pc, f = fun c => { c with pb := pb, pc := pc }

/-- A read-modify-write of memory changes the flags; of the accumulator, the accumulator too. -/
def RmwStep (r : RmwFn) (o : Operand) (f : Cpu → Cpu) : Prop :=
  (∃ m v, memOperand o = some m ∧ f = fun c => { c with p := (r c.widthA c v).2 }) ∨
    memOperand o = none ∧ f = fun c => { c.accWrite (r c.widthA c c.accRead).1 with p := (r c.widthA c c.accRead).2 }

/-- A logic operation on the accumulator. -/
def LogicStep (op : Word → Word → Word) (f : Cpu → Cpu) : Prop :=
  ∃ v, f = fun c => { c.accWrite (logicResult op c.widthA c.p c.accRead v).1 with
    p := (logicResult op c.widthA c.p c.accRead v).2 }

/-- A block move selects the destination bank, then steps. -/
def BlockStep (dir : Word) (f : Cpu → Cpu) : Prop :=
  (∃ dst, f = fun c => { c with db := dst }) ∨ f = fun c => c.blockStep dir

/-- A trap pushes, sets `I` and clears `D` in bank 0, and jumps. -/
def TrapStep (f : Cpu → Cpu) : Prop :=
  PushStep f ∨ (f = fun c => { c with p := { c.p with i := true, d := false }, pb := 0x00#8 }) ∨ JumpStep f

/-- Every change of the register file the body of a mnemonic makes. -/
def Changes (m : Mnemonic) (o : Operand) (f : Cpu → Cpu) : Prop :=
  match m with
  | .adc => ∃ v, f = fun c => { c.accWrite (adcResult c.widthA c.p c.accRead v).1 with
      p := (adcResult c.widthA c.p c.accRead v).2 }
  | .and => LogicStep (fun a m => a &&& m) f
  | .asl => RmwStep aslResult o f
  | .bcc => JumpStep f
  | .bcs => JumpStep f
  | .beq => JumpStep f
  | .bit => ∃ d v, dataOperand o = some d ∧ f = fun c => { c with p := bitFlags d c v }
  | .bmi => JumpStep f
  | .bne => JumpStep f
  | .bpl => JumpStep f
  | .bra => JumpStep f
  | .brk => TrapStep f
  | .brl => JumpStep f
  | .bvc => JumpStep f
  | .bvs => JumpStep f
  | .clc => f = fun c => { c with p := { c.p with c := false } }
  | .cld => f = fun c => { c with p := { c.p with d := false } }
  | .cli => f = fun c => { c with p := { c.p with i := false } }
  | .clv => f = fun c => { c with p := { c.p with v := false } }
  | .cmp => ∃ v, f = fun c => { c with p := compareFlags c.widthA c.p c.accRead v }
  | .cop => TrapStep f
  | .cpx => ∃ v, f = fun c => { c with p := compareFlags c.widthXY c.p (c.widthXY.trunc c.x) v }
  | .cpy => ∃ v, f = fun c => { c with p := compareFlags c.widthXY c.p (c.widthXY.trunc c.y) v }
  | .dec => RmwStep decResult o f
  | .dex => f = fun c => c.loadX (c.x - 1#16)
  | .dey => f = fun c => c.loadY (c.y - 1#16)
  | .eor => LogicStep (fun a m => a ^^^ m) f
  | .inc => RmwStep incResult o f
  | .inx => f = fun c => c.loadX (c.x + 1#16)
  | .iny => f = fun c => c.loadY (c.y + 1#16)
  | .jml => LongStep f
  | .jmp => JumpStep f
  | .jsl => PushStep f ∨ EndStep f ∨ LongStep f
  | .jsr => PushStep f ∨ EndStep f ∨ JumpStep f
  | .lda => ∃ v, f = fun c => c.loadA v
  | .ldx => ∃ v, f = fun c => c.loadX v
  | .ldy => ∃ v, f = fun c => c.loadY v
  | .lsr => RmwStep lsrResult o f
  | .mvn => BlockStep 1#16 f
  | .mvp => BlockStep 0xFFFF#16 f
  | .nop => False
  | .ora => LogicStep (fun a m => a ||| m) f
  | .pea => PushStep f ∨ EndStep f
  | .pei => PushStep f ∨ EndStep f
  | .per => PushStep f ∨ EndStep f
  | .pha => PushStep f
  | .phb => PushStep f
  | .phd => PushStep f ∨ EndStep f
  | .phk => PushStep f
  | .php => PushStep f
  | .phx => PushStep f
  | .phy => PushStep f
  | .pla => PullStep f ∨ ∃ v, f = fun c => c.loadA v
  | .plb => PullStep f ∨ ∃ v, f = fun c => { c with db := v, p := c.p.setNZ .byte (zext16 v) }
  | .pld => PullStep f ∨ EndStep f ∨ ∃ v, f = fun c => { c with d := v, p := c.p.setNZ .word v }
  | .plp => PullStep f ∨ ∃ v, f = fun c => c.unpackP v
  | .plx => PullStep f ∨ ∃ v, f = fun c => c.loadX v
  | .ply => PullStep f ∨ ∃ v, f = fun c => c.loadY v
  | .rep => ∃ mask : Byte, f = fun c => c.unpackP (c.p.pack &&& ~~~mask)
  | .rol => RmwStep rolResult o f
  | .ror => RmwStep rorResult o f
  | .rti => PullStep f ∨ (∃ v, f = fun c => c.unpackP v) ∨ JumpStep f ∨ ∃ pb, f = fun c => { c with pb := pb }
  | .rtl => PullStep f ∨ EndStep f ∨ LongStep f
  | .rts => PullStep f ∨ JumpStep f
  | .sbc => ∃ v, f = fun c => { c.accWrite (sbcResult c.widthA c.p c.accRead v).1 with
      p := (sbcResult c.widthA c.p c.accRead v).2 }
  | .sec => f = fun c => { c with p := { c.p with c := true } }
  | .sed => f = fun c => { c with p := { c.p with d := true } }
  | .sei => f = fun c => { c with p := { c.p with i := true } }
  | .sep => ∃ mask : Byte, f = fun c => c.unpackP (c.p.pack ||| mask)
  | .sta => False
  | .stp => False
  | .stx => False
  | .sty => False
  | .stz => False
  | .tax => f = fun c => c.loadX c.a
  | .tay => f = fun c => c.loadY c.a
  | .tcd => f = fun c => { c with d := c.a, p := c.p.setNZ .word c.a }
  | .tcs => f = fun c => c.writeS c.a
  | .tdc => f = fun c => { c with a := c.d, p := c.p.setNZ .word c.d }
  | .trb => RmwStep trbResult o f
  | .tsb => RmwStep tsbResult o f
  | .tsc => f = fun c => { c with a := c.s, p := c.p.setNZ .word c.s }
  | .tsx => f = fun c => c.loadX c.s
  | .txa => f = fun c => c.loadA c.x
  | .txs => f = fun c => c.writeS c.x
  | .txy => f = fun c => c.loadY c.x
  | .tya => f = fun c => c.loadA c.y
  | .tyx => f = fun c => c.loadX c.y
  | .wai => False
  | .wdm => False
  | .xba => f = fun c => { c with a := mkWord (loByte c.a) (hiByte c.a)
                                  p := c.p.setNZ .byte (mkWord (loByte c.a) (hiByte c.a)) }
  | .xce => f = fun c => { c with p := { c.p with c := c.e }, e := c.p.c }.normalize

/-- The mnemonics whose bodies write the bus. -/
def Mnemonic.writes (m : Mnemonic) : Bool :=
  decide (m ∈ [.sta, .stx, .sty, .stz, .inc, .dec, .asl, .lsr, .rol, .ror, .tsb, .trb, .mvn, .mvp, .pha, .phx, .phy,
    .php, .phb, .phd, .phk, .pea, .pei, .per, .jsr, .jsl, .brk, .cop])

/-- Every body but those of WAI, STP and WDM, which set latches, is made of the basic operations: reads, writes if the
mnemonic writes, and the register changes of `Changes`. -/
theorem closed_body (h : ReadClosed P) (m : Mnemonic) (o : Operand) (hm : m ≠ .wai ∧ m ≠ .stp ∧ m ≠ .wdm)
    (hw : Mnemonic.writes m = true → ∀ a v, P Unit (busWrite a v)) (hc : ∀ f, Changes m o f → P Unit (modifyCpu f)) :
    P CostFacts (bodyOf m o) := by
  have data : ∀ (w : Cpu → Width) (g : DataOperand → Cpu → Word → Cpu),
      (∀ d v, dataOperand o = some d → P Unit (modifyCpu (g d · v))) →
      P CostFacts (onData (fun d => withOperand w d (g d)) o) := fun w g hg => by
    unfold onData
    split
    · exact h.withOperand fun v => hg _ v ‹_›
    · exact h.pure _ _
  have logics : ∀ op, (∀ f, LogicStep op f → P Unit (modifyCpu f)) → P CostFacts (onData (logic op) o) := fun _ hg =>
    data Cpu.widthA _ fun _ v _ => hg _ ⟨v, rfl⟩
  have stores : WriteClosed P → ∀ (w : Cpu → Width) (g : Cpu → Word),
      P CostFacts (onMem (fun m => storeOperand w m g) o) := fun h' w g => by
    unfold onMem
    split
    · exact h'.storeOperand
    · exact h.pure _ _
  have modifies : WriteClosed P → ∀ r, (∀ f, RmwStep r o f → P Unit (modifyCpu f)) → P CostFacts (onRmw r o) :=
    fun h' r hg => by
      unfold onRmw
      split
      · exact h'.modifyMem fun v => hg _ (.inl ⟨_, v, ‹_›, rfl⟩)
      · exact h.plainly (hg _ (.inr ⟨‹_›, rfl⟩))
  have branches : (∀ f, JumpStep f → P Unit (modifyCpu f)) → ∀ c, P CostFacts (onRel8 (branchIf c) o) := fun hg c => by
    unfold onRel8
    split
    · exact h.branchIf (fun t => hg _ ⟨t, rfl⟩) _ _
    · exact h.pure _ _
  have rel16 : ∀ g, (∀ d, P CostFacts (g d)) → P CostFacts (onRel16 g o) := fun g hg => by
    unfold onRel16
    split
    · exact hg _
    · exact h.pure _ _
  have imm8 : ∀ g, (∀ v, P CostFacts (g v)) → P CostFacts (onImm8 g o) := fun g hg => by
    unfold onImm8
    split
    · exact hg _
    · exact h.pure _ _
  have imm16 : ∀ g, (∀ v, P CostFacts (g v)) → P CostFacts (onImm16 g o) := fun g hg => by
    unfold onImm16
    split
    · exact hg _
    · exact h.pure _ _
  have moves : WriteClosed P → ∀ dir, (∀ f, BlockStep dir f → P Unit (modifyCpu f)) →
      P CostFacts (onBlk (blockMove dir) o) := fun h' dir hg => by
    unfold onBlk
    split
    · exact h.plainly (h.seq (hg _ (.inl ⟨_, rfl⟩)) fun _ => h.seq h.getCpu fun _ => h.seq (h.busRead _) fun _ =>
        h.seq (h'.busWrite _ _) fun _ => hg _ (.inr rfl))
    · exact h.pure _ _
  have ind : ∀ g, (∀ v, P CostFacts (g v)) → P CostFacts (onInd g o) := fun g hg => by
    unfold onInd
    split
    · exact hg _
    · exact h.pure _ _
  have jumps : ∀ g k l, (∀ a, P CostFacts (g a)) → (∀ a, P CostFacts (k a)) → (∀ a, P CostFacts (l a)) →
      P CostFacts (onJump g k l o) := fun g k l hg hk hl => by
    unfold onJump
    split
    · exact hg _
    · exact hk _
    · exact hl _
    · exact h.pure _ _
  have jumpsLong : ∀ g k, (∀ a, P CostFacts (g a)) → (∀ a, P CostFacts (k a)) → P CostFacts (onJumpLong g k o) :=
    fun g k hg hk => by
      unfold onJumpLong
      split
      · exact hg _
      · exact hk _
      · exact h.pure _ _
  have stack : ∀ {body : Bool → BusM Unit}, (∀ w, P Unit (body w)) → P CostFacts (plainly (withStack body)) :=
    fun hb => h.plainly (h.withStack hb)
  have stackNewUnit : (∀ f, EndStep f → P Unit (modifyCpu f)) → ∀ {body : Bool → BusM Unit}, (∀ w, P Unit (body w)) →
      P Unit (withStackNew body) := fun he body hb => by
    refine h.state _ (fun s => body s.stackWrapsNew >>= fun _ =>
      if s.cpu.e && s.params.emuStackNewInsn16Bit then modifyCpu fun c => { c with s := page1 c.s } else Pure.pure ())
      fun s => h.seq (hb _) fun _ => ?_
    split
    · exact he _ rfl
    · exact h.pure _ _
  have stackNew : (∀ f, EndStep f → P Unit (modifyCpu f)) → ∀ {body : Bool → BusM Unit}, (∀ w, P Unit (body w)) →
      P CostFacts (plainly (withStackNew body)) := fun he _ hb => h.plainly (stackNewUnit he hb)
  have registers : ∀ f, P Unit (modifyCpu f) → P CostFacts (registers f) := fun f hf => h.plainly hf
  have jumpTo : (∀ f, JumpStep f → P Unit (modifyCpu f)) → ∀ t, P Unit (jumpTo t) := fun hg t => hg _ ⟨t, rfl⟩
  have jumpLong : (∀ f, LongStep f → P Unit (modifyCpu f)) → ∀ t, P Unit (jumpLong t) := fun hg t => hg _ ⟨_, _, rfl⟩
  have down : (∀ f, PushStep f → P Unit (modifyCpu f)) → ∀ w, P Unit (modifyCpu fun c => { c with s := stackDown w c.s }) :=
    fun hg w => hg _ ⟨w, rfl⟩
  have up : (∀ f, PullStep f → P Unit (modifyCpu f)) → ∀ w, P Unit (modifyCpu fun c => { c with s := stackUp w c.s }) :=
    fun hg w => hg _ ⟨w, rfl⟩
  have traps : WriteClosed P → (∀ f, TrapStep f → P Unit (modifyCpu f)) → ∀ k, P CostFacts (softwareTrap k) :=
    fun h' hg _ => h.plainly (h.seq h.getCpu fun _ => h'.trapEntry (down fun f hf => hg f (.inl hf)) (hg _ (.inr (.inl rfl)))
      (fun pc => hg _ (.inr (.inr ⟨pc, rfl⟩))) _ _)
  cases m with
  | wai => exact absurd rfl hm.1
  | stp => exact absurd rfl hm.2.1
  | wdm => exact absurd rfl hm.2.2
  | adc => exact data _ _ fun _ v _ => hc _ ⟨v, rfl⟩
  | cmp => exact data _ _ fun _ v _ => hc _ ⟨v, rfl⟩
  | cpx => exact data _ _ fun _ v _ => hc _ ⟨v, rfl⟩
  | cpy => exact data _ _ fun _ v _ => hc _ ⟨v, rfl⟩
  | lda => exact data _ _ fun _ v _ => hc _ ⟨v, rfl⟩
  | ldx => exact data _ _ fun _ v _ => hc _ ⟨v, rfl⟩
  | ldy => exact data _ _ fun _ v _ => hc _ ⟨v, rfl⟩
  | sbc => exact data _ _ fun _ v _ => hc _ ⟨v, rfl⟩
  | bit => exact data _ _ fun d v hd => hc _ ⟨d, v, hd, rfl⟩
  | and => exact logics (fun a m => a &&& m) hc
  | ora => exact logics (fun a m => a ||| m) hc
  | eor => exact logics (fun a m => a ^^^ m) hc
  | sta => exact stores ⟨h, hw rfl⟩ _ _
  | stx => exact stores ⟨h, hw rfl⟩ _ _
  | sty => exact stores ⟨h, hw rfl⟩ _ _
  | stz => exact stores ⟨h, hw rfl⟩ _ _
  | asl => exact modifies ⟨h, hw rfl⟩ _ hc
  | dec => exact modifies ⟨h, hw rfl⟩ _ hc
  | inc => exact modifies ⟨h, hw rfl⟩ _ hc
  | lsr => exact modifies ⟨h, hw rfl⟩ _ hc
  | rol => exact modifies ⟨h, hw rfl⟩ _ hc
  | ror => exact modifies ⟨h, hw rfl⟩ _ hc
  | trb => exact modifies ⟨h, hw rfl⟩ _ hc
  | tsb => exact modifies ⟨h, hw rfl⟩ _ hc
  | bcc => exact branches hc _
  | bcs => exact branches hc _
  | beq => exact branches hc _
  | bmi => exact branches hc _
  | bne => exact branches hc _
  | bpl => exact branches hc _
  | bra => exact branches hc _
  | bvc => exact branches hc _
  | bvs => exact branches hc _
  | brl => exact rel16 _ fun _ => h.seq h.getCpu fun _ => h.seq (jumpTo hc _) fun _ => h.pure _ _
  | brk => exact traps ⟨h, hw rfl⟩ hc _
  | cop => exact traps ⟨h, hw rfl⟩ hc _
  | rti =>
    exact h.plainly (h.trapReturn (up fun f hf => hc f (.inl hf)) (fun v => hc _ (.inr (.inl ⟨v, rfl⟩)))
      (fun pc => hc _ (.inr (.inr (.inl ⟨pc, rfl⟩)))) fun pb => hc _ (.inr (.inr (.inr ⟨pb, rfl⟩))))
  | jmp =>
    exact jumps _ _ _ (fun _ => h.plainly (jumpTo hc _)) (fun _ => h.plainly (h.seq (h.memRead16 _ _) fun _ => jumpTo hc _))
      fun _ => h.seq h.getCpu fun _ => h.seq (h.aindxPointer _) fun _ => h.seq (jumpTo hc _) fun _ => h.pure _ _
  | jml =>
    exact jumpsLong _ _ (fun _ => h.plainly (jumpLong hc _)) fun _ =>
      h.plainly (h.seq (h.memRead24 _ _) fun _ => jumpLong hc _)
  | jsr =>
    have h' : WriteClosed P := ⟨h, hw rfl⟩
    have ret : ∀ w, P Unit (pushReturn w) := fun w => h'.pushReturn (down (fun f hf => hc f (.inl hf)) w)
    have jump := jumpTo fun f hf => hc f (.inr (.inr hf))
    exact jumps _ _ _ (fun _ => stack fun _ => h.seq (ret _) fun _ => jump _) (fun _ => h.pure _ _) fun _ =>
      h.seq h.getCpu fun _ => h.seq (stackNewUnit (fun f hf => hc f (.inr (.inl hf))) fun _ => h.seq (ret _) fun _ =>
        h.seq (h.aindxPointer _) fun _ => jump _) fun _ => h.pure _ _
  | jsl =>
    have h' : WriteClosed P := ⟨h, hw rfl⟩
    have push := down fun f hf => hc f (.inl hf)
    exact jumpsLong _ _ (fun _ => stackNew (fun f hf => hc f (.inr (.inl hf))) fun w => h.seq h.getCpu fun _ =>
      h.seq (h'.pushByte (push w) _) fun _ => h.seq (h'.pushReturn (push w)) fun _ =>
        jumpLong (fun f hf => hc f (.inr (.inr hf))) _) fun _ => h.pure _ _
  | rts =>
    exact stack fun w => h.seq (h.pullWord (up (fun f hf => hc f (.inl hf)) w)) fun _ =>
      jumpTo (fun f hf => hc f (.inr hf)) _
  | rtl =>
    have pull := up fun f hf => hc f (.inl hf)
    exact stackNew (fun f hf => hc f (.inr (.inl hf))) fun w => h.seq (h.pullWord (pull w)) fun _ =>
      h.seq (h.pullByte (pull w)) fun _ => jumpLong (fun f hf => hc f (.inr (.inr hf))) _
  | mvn => exact moves ⟨h, hw rfl⟩ _ hc
  | mvp => exact moves ⟨h, hw rfl⟩ _ hc
  | nop => exact h.pure _ _
  | pea =>
    exact imm16 _ fun _ => stackNew (fun f hf => hc f (.inr hf)) fun w =>
      WriteClosed.pushWord ⟨h, hw rfl⟩ (down (fun f hf => hc f (.inl hf)) w) _
  | per =>
    exact rel16 _ fun _ => stackNew (fun f hf => hc f (.inr hf)) fun w => h.seq h.getCpu fun _ =>
      WriteClosed.pushWord ⟨h, hw rfl⟩ (down (fun f hf => hc f (.inl hf)) w) _
  | pei =>
    exact ind _ fun v => stackNew (fun f hf => hc f (.inr hf)) fun w =>
      h.state _ (fun s => directPointer (directOffset s v) >>= pushWord w) fun _ => h.seq (h.directPointer _) fun _ =>
        WriteClosed.pushWord ⟨h, hw rfl⟩ (down (fun f hf => hc f (.inl hf)) w) _
  | phd =>
    exact stackNew (fun f hf => hc f (.inr hf)) fun w => h.seq h.getCpu fun _ =>
      WriteClosed.pushWord ⟨h, hw rfl⟩ (down (fun f hf => hc f (.inl hf)) w) _
  | pld =>
    exact stackNew (fun f hf => hc f (.inr (.inl hf))) fun w => h.seq (h.pullWord (up (fun f hf => hc f (.inl hf)) w))
      fun v => hc _ (.inr (.inr ⟨v, rfl⟩))
  | pha => exact stack fun w => h.seq h.getCpu fun _ => WriteClosed.pushData ⟨h, hw rfl⟩ (down hc w) _ _
  | phx => exact stack fun w => h.seq h.getCpu fun _ => WriteClosed.pushData ⟨h, hw rfl⟩ (down hc w) _ _
  | phy => exact stack fun w => h.seq h.getCpu fun _ => WriteClosed.pushData ⟨h, hw rfl⟩ (down hc w) _ _
  | php => exact stack fun w => h.seq h.getCpu fun _ => WriteClosed.pushByte ⟨h, hw rfl⟩ (down hc w) _
  | phb => exact stack fun w => h.seq h.getCpu fun _ => WriteClosed.pushByte ⟨h, hw rfl⟩ (down hc w) _
  | phk => exact stack fun w => h.seq h.getCpu fun _ => WriteClosed.pushByte ⟨h, hw rfl⟩ (down hc w) _
  | pla =>
    exact stack fun w => h.seq h.getCpu fun _ => h.seq (h.pullData (up (fun f hf => hc f (.inl hf)) w) _) fun v =>
      hc _ (.inr ⟨v, rfl⟩)
  | plx =>
    exact stack fun w => h.seq h.getCpu fun _ => h.seq (h.pullData (up (fun f hf => hc f (.inl hf)) w) _) fun v =>
      hc _ (.inr ⟨v, rfl⟩)
  | ply =>
    exact stack fun w => h.seq h.getCpu fun _ => h.seq (h.pullData (up (fun f hf => hc f (.inl hf)) w) _) fun v =>
      hc _ (.inr ⟨v, rfl⟩)
  | plb =>
    exact stack fun w => h.seq (h.pullByte (up (fun f hf => hc f (.inl hf)) w)) fun v => hc _ (.inr ⟨v, rfl⟩)
  | plp =>
    exact stack fun w => h.seq (h.pullByte (up (fun f hf => hc f (.inl hf)) w)) fun v => hc _ (.inr ⟨v, rfl⟩)
  | rep => exact imm8 _ fun v => registers _ (hc _ ⟨v, rfl⟩)
  | sep => exact imm8 _ fun v => registers _ (hc _ ⟨v, rfl⟩)
  | clc => exact registers _ (hc _ rfl)
  | cld => exact registers _ (hc _ rfl)
  | cli => exact registers _ (hc _ rfl)
  | clv => exact registers _ (hc _ rfl)
  | sec => exact registers _ (hc _ rfl)
  | sed => exact registers _ (hc _ rfl)
  | sei => exact registers _ (hc _ rfl)
  | xce => exact registers _ (hc _ rfl)
  | dex => exact registers _ (hc _ rfl)
  | dey => exact registers _ (hc _ rfl)
  | inx => exact registers _ (hc _ rfl)
  | iny => exact registers _ (hc _ rfl)
  | tax => exact registers _ (hc _ rfl)
  | tay => exact registers _ (hc _ rfl)
  | tcd => exact registers _ (hc _ rfl)
  | tcs => exact registers _ (hc _ rfl)
  | tdc => exact registers _ (hc _ rfl)
  | tsc => exact registers _ (hc _ rfl)
  | tsx => exact registers _ (hc _ rfl)
  | txa => exact registers _ (hc _ rfl)
  | txs => exact registers _ (hc _ rfl)
  | txy => exact registers _ (hc _ rfl)
  | tya => exact registers _ (hc _ rfl)
  | tyx => exact registers _ (hc _ rfl)
  | xba => exact registers _ (hc _ rfl)

/-- A property that every basic operation has, every body has. -/
theorem BodyClosed.body (h : BodyClosed P) (m : Mnemonic) (o : Operand) (hm : m ≠ .wai ∧ m ≠ .stp ∧ m ≠ .wdm) :
    P CostFacts (bodyOf m o) := closed_body h.toReadClosed m o hm (fun _ => h.busWrite) fun f _ => h.modifyCpu f

/-! ### Relations between the start and the end of a computation -/

/-- What a relation between states must satisfy to hold between the start and the end of every computation that reads
the bus. -/
structure ReadRel (R : State → State → Prop) : Prop where
  refl  : ∀ s, R s s
  trans : ∀ s t u, R s t → R t u → R s u
  read  : ∀ s b, b.regions = s.bus.regions → b.table = s.bus.table → s.bus.callbackLog <:+ b.callbackLog →
    R s (s.withBus b)

/-- What it must satisfy besides for computations that write the bus. -/
structure WriteRel (R : State → State → Prop) : Prop extends ReadRel R where
  store : ∀ s a v k r, s.bus.regionNumber a = some k → s.bus.regions[k]? = some r → r.kind = .ram →
    R s (s.withBus ((s.bus.record a .write).setRegion k (r.poke a v)))

variable {R : State → State → Prop}

theorem ReadRel.closed (h : ReadRel R) : ReadClosed fun _ m => Carries R m where
  pure _ v := carries_pure h.refl v
  bind _ _ _ _ hm hf := carries_bind h.trans hm hf
  state _ _ hb s := hb s s
  getCpu := carries_getCpu h.refl
  busRead a := carries_busRead a h.read

theorem WriteRel.closed (h : WriteRel R) : WriteClosed fun _ m => Carries R m where
  toReadClosed := h.toReadRel.closed
  busWrite a v := carries_busWrite a v h.read fun s k r => h.store s a v k r

/-- A relation that also ignores the register file is carried by every body. -/
theorem WriteRel.body (h : WriteRel R) (hc : ∀ (s : State) (c : Cpu), R s (s.withCpu c)) (m : Mnemonic) (o : Operand)
    (hm : m ≠ .wai ∧ m ≠ .stp ∧ m ≠ .wdm) : Carries R (bodyOf m o) :=
  BodyClosed.body (P := fun _ m => Carries R m) ⟨h.closed, fun _ => carries_modifyCpu fun s => hc s _⟩ m o hm

end Sys2Proof.Machine
end

