-- ==== Sys2Proof/Laws/PerInstr.lean ====
section
/-! SUPPORT. Sys2Proof/Laws/PerInstr.lean: facts about every instruction as syntax, one lemma per constructor. -/
namespace Sys2Proof.Laws

/-- The instruction table gives a constructor's opcode its mnemonic and its addressing-mode tag (R71, R77). -/
def Descriptor.Statement (i : Instr) : Prop :=
  instructionTable i.opcode = ⟨i.mnemonic, i.operand.mode⟩

namespace Descriptor

theorem brk (v : Byte) : Statement (.brk v) := by show instructionTable 0x00#8 = _; rfl
theorem oraIndx (o : Byte) : Statement (.oraIndx o) := by show instructionTable 0x01#8 = _; rfl
theorem cop (v : Byte) : Statement (.cop v) := by show instructionTable 0x02#8 = _; rfl
theorem oraSr (o : Byte) : Statement (.oraSr o) := by show instructionTable 0x03#8 = _; rfl
theorem tsbDp (o : Byte) : Statement (.tsbDp o) := by show instructionTable 0x04#8 = _; rfl
theorem oraDp (o : Byte) : Statement (.oraDp o) := by show instructionTable 0x05#8 = _; rfl
theorem aslDp (o : Byte) : Statement (.aslDp o) := by show instructionTable 0x06#8 = _; rfl
theorem oraIndl (o : Byte) : Statement (.oraIndl o) := by show instructionTable 0x07#8 = _; rfl
theorem php : Statement .php := by show instructionTable 0x08#8 = _; rfl
theorem oraImmM (v : Imm) : Statement (.oraImmM v) := by show instructionTable 0x09#8 = _; rfl
theorem aslAcc : Statement .aslAcc := by show instructionTable 0x0A#8 = _; rfl
theorem phd : Statement .phd := by show instructionTable 0x0B#8 = _; rfl
theorem tsbAbs (a : Word) : Statement (.tsbAbs a) := by show instructionTable 0x0C#8 = _; rfl
theorem oraAbs (a : Word) : Statement (.oraAbs a) := by show instructionTable 0x0D#8 = _; rfl
theorem aslAbs (a : Word) : Statement (.aslAbs a) := by show instructionTable 0x0E#8 = _; rfl
theorem oraLong (a : Address) : Statement (.oraLong a) := by show instructionTable 0x0F#8 = _; rfl
theorem bpl (d : Byte) : Statement (.bpl d) := by show instructionTable 0x10#8 = _; rfl
theorem oraIndy (o : Byte) : Statement (.oraIndy o) := by show instructionTable 0x11#8 = _; rfl
theorem oraInd (o : Byte) : Statement (.oraInd o) := by show instructionTable 0x12#8 = _; rfl
theorem oraSry (o : Byte) : Statement (.oraSry o) := by show instructionTable 0x13#8 = _; rfl
theorem trbDp (o : Byte) : Statement (.trbDp o) := by show instructionTable 0x14#8 = _; rfl
theorem oraDpx (o : Byte) : Statement (.oraDpx o) := by show instructionTable 0x15#8 = _; rfl
theorem aslDpx (o : Byte) : Statement (.aslDpx o) := by show instructionTable 0x16#8 = _; rfl
theorem oraIndly (o : Byte) : Statement (.oraIndly o) := by show instructionTable 0x17#8 = _; rfl
theorem clc : Statement .clc := by show instructionTable 0x18#8 = _; rfl
theorem oraAbsy (a : Word) : Statement (.oraAbsy a) := by show instructionTable 0x19#8 = _; rfl
theorem incAcc : Statement .incAcc := by show instructionTable 0x1A#8 = _; rfl
theorem tcs : Statement .tcs := by show instructionTable 0x1B#8 = _; rfl
theorem trbAbs (a : Word) : Statement (.trbAbs a) := by show instructionTable 0x1C#8 = _; rfl
theorem oraAbsx (a : Word) : Statement (.oraAbsx a) := by show instructionTable 0x1D#8 = _; rfl
theorem aslAbsx (a : Word) : Statement (.aslAbsx a) := by show instructionTable 0x1E#8 = _; rfl
theorem oraLongx (a : Address) : Statement (.oraLongx a) := by show instructionTable 0x1F#8 = _; rfl
theorem jsrAbs (a : Word) : Statement (.jsrAbs a) := by show instructionTable 0x20#8 = _; rfl
theorem andIndx (o : Byte) : Statement (.andIndx o) := by show instructionTable 0x21#8 = _; rfl
theorem jsl (a : Address) : Statement (.jsl a) := by show instructionTable 0x22#8 = _; rfl
theorem andSr (o : Byte) : Statement (.andSr o) := by show instructionTable 0x23#8 = _; rfl
theorem bitDp (o : Byte) : Statement (.bitDp o) := by show instructionTable 0x24#8 = _; rfl
theorem andDp (o : Byte) : Statement (.andDp o) := by show instructionTable 0x25#8 = _; rfl
theorem rolDp (o : Byte) : Statement (.rolDp o) := by show instructionTable 0x26#8 = _; rfl
theorem andIndl (o : Byte) : Statement (.andIndl o) := by show instructionTable 0x27#8 = _; rfl
theorem plp : Statement .plp := by show instructionTable 0x28#8 = _; rfl
theorem andImmM (v : Imm) : Statement (.andImmM v) := by show instructionTable 0x29#8 = _; rfl
theorem rolAcc : Statement .rolAcc := by show instructionTable 0x2A#8 = _; rfl
theorem pld : Statement .pld := by show instructionTable 0x2B#8 = _; rfl
theorem bitAbs (a : Word) : Statement (.bitAbs a) := by show instructionTable 0x2C#8 = _; rfl
theorem andAbs (a : Word) : Statement (.andAbs a) := by show instructionTable 0x2D#8 = _; rfl
theorem rolAbs (a : Word) : Statement (.rolAbs a) := by show instructionTable 0x2E#8 = _; rfl
theorem andLong (a : Address) : Statement (.andLong a) := by show instructionTable 0x2F#8 = _; rfl
theorem bmi (d : Byte) : Statement (.bmi d) := by show instructionTable 0x30#8 = _; rfl
theorem andIndy (o : Byte) : Statement (.andIndy o) := by show instructionTable 0x31#8 = _; rfl
theorem andInd (o : Byte) : Statement (.andInd o) := by show instructionTable 0x32#8 = _; rfl
theorem andSry (o : Byte) : Statement (.andSry o) := by show instructionTable 0x33#8 = _; rfl
theorem bitDpx (o : Byte) : Statement (.bitDpx o) := by show instructionTable 0x34#8 = _; rfl
theorem andDpx (o : Byte) : Statement (.andDpx o) := by show instructionTable 0x35#8 = _; rfl
theorem rolDpx (o : Byte) : Statement (.rolDpx o) := by show instructionTable 0x36#8 = _; rfl
theorem andIndly (o : Byte) : Statement (.andIndly o) := by show instructionTable 0x37#8 = _; rfl
theorem sec : Statement .sec := by show instructionTable 0x38#8 = _; rfl
theorem andAbsy (a : Word) : Statement (.andAbsy a) := by show instructionTable 0x39#8 = _; rfl
theorem decAcc : Statement .decAcc := by show instructionTable 0x3A#8 = _; rfl
theorem tsc : Statement .tsc := by show instructionTable 0x3B#8 = _; rfl
theorem bitAbsx (a : Word) : Statement (.bitAbsx a) := by show instructionTable 0x3C#8 = _; rfl
theorem andAbsx (a : Word) : Statement (.andAbsx a) := by show instructionTable 0x3D#8 = _; rfl
theorem rolAbsx (a : Word) : Statement (.rolAbsx a) := by show instructionTable 0x3E#8 = _; rfl
theorem andLongx (a : Address) : Statement (.andLongx a) := by show instructionTable 0x3F#8 = _; rfl
theorem rti : Statement .rti := by show instructionTable 0x40#8 = _; rfl
theorem eorIndx (o : Byte) : Statement (.eorIndx o) := by show instructionTable 0x41#8 = _; rfl
theorem wdm (v : Byte) : Statement (.wdm v) := by show instructionTable 0x42#8 = _; rfl
theorem eorSr (o : Byte) : Statement (.eorSr o) := by show instructionTable 0x43#8 = _; rfl
theorem mvp (dst : Byte) (src : Byte) : Statement (.mvp dst src) := by show instructionTable 0x44#8 = _; rfl
theorem eorDp (o : Byte) : Statement (.eorDp o) := by show instructionTable 0x45#8 = _; rfl
theorem lsrDp (o : Byte) : Statement (.lsrDp o) := by show instructionTable 0x46#8 = _; rfl
theorem eorIndl (o : Byte) : Statement (.eorIndl o) := by show instructionTable 0x47#8 = _; rfl
theorem pha : Statement .pha := by show instructionTable 0x48#8 = _; rfl
theorem eorImmM (v : Imm) : Statement (.eorImmM v) := by show instructionTable 0x49#8 = _; rfl
theorem lsrAcc : Statement .lsrAcc := by show instructionTable 0x4A#8 = _; rfl
theorem phk : Statement .phk := by show instructionTable 0x4B#8 = _; rfl
theorem jmpAbs (a : Word) : Statement (.jmpAbs a) := by show instructionTable 0x4C#8 = _; rfl
theorem eorAbs (a : Word) : Statement (.eorAbs a) := by show instructionTable 0x4D#8 = _; rfl
theorem lsrAbs (a : Word) : Statement (.lsrAbs a) := by show instructionTable 0x4E#8 = _; rfl
theorem eorLong (a : Address) : Statement (.eorLong a) := by show instructionTable 0x4F#8 = _; rfl
theorem bvc (d : Byte) : Statement (.bvc d) := by show instructionTable 0x50#8 = _; rfl
theorem eorIndy (o : Byte) : Statement (.eorIndy o) := by show instructionTable 0x51#8 = _; rfl
theorem eorInd (o : Byte) : Statement (.eorInd o) := by show instructionTable 0x52#8 = _; rfl
theorem eorSry (o : Byte) : Statement (.eorSry o) := by show instructionTable 0x53#8 = _; rfl
theorem mvn (dst : Byte) (src : Byte) : Statement (.mvn dst src) := by show instructionTable 0x54#8 = _; rfl
theorem eorDpx (o : Byte) : Statement (.eorDpx o) := by show instructionTable 0x55#8 = _; rfl
theorem lsrDpx (o : Byte) : Statement (.lsrDpx o) := by show instructionTable 0x56#8 = _; rfl
theorem eorIndly (o : Byte) : Statement (.eorIndly o) := by show instructionTable 0x57#8 = _; rfl
theorem cli : Statement .cli := by show instructionTable 0x58#8 = _; rfl
theorem eorAbsy (a : Word) : Statement (.eorAbsy a) := by show instructionTable 0x59#8 = _; rfl
theorem phy : Statement .phy := by show instructionTable 0x5A#8 = _; rfl
theorem tcd : Statement .tcd := by show instructionTable 0x5B#8 = _; rfl
theorem jmlLong (a : Address) : Statement (.jmlLong a) := by show instructionTable 0x5C#8 = _; rfl
theorem eorAbsx (a : Word) : Statement (.eorAbsx a) := by show instructionTable 0x5D#8 = _; rfl
theorem lsrAbsx (a : Word) : Statement (.lsrAbsx a) := by show instructionTable 0x5E#8 = _; rfl
theorem eorLongx (a : Address) : Statement (.eorLongx a) := by show instructionTable 0x5F#8 = _; rfl
theorem rts : Statement .rts := by show instructionTable 0x60#8 = _; rfl
theorem adcIndx (o : Byte) : Statement (.adcIndx o) := by show instructionTable 0x61#8 = _; rfl
theorem per (d : Word) : Statement (.per d) := by show instructionTable 0x62#8 = _; rfl
theorem adcSr (o : Byte) : Statement (.adcSr o) := by show instructionTable 0x63#8 = _; rfl
theorem stzDp (o : Byte) : Statement (.stzDp o) := by show instructionTable 0x64#8 = _; rfl
theorem adcDp (o : Byte) : Statement (.adcDp o) := by show instructionTable 0x65#8 = _; rfl
theorem rorDp (o : Byte) : Statement (.rorDp o) := by show instructionTable 0x66#8 = _; rfl
theorem adcIndl (o : Byte) : Statement (.adcIndl o) := by show instructionTable 0x67#8 = _; rfl
theorem pla : Statement .pla := by show instructionTable 0x68#8 = _; rfl
theorem adcImmM (v : Imm) : Statement (.adcImmM v) := by show instructionTable 0x69#8 = _; rfl
theorem rorAcc : Statement .rorAcc := by show instructionTable 0x6A#8 = _; rfl
theorem rtl : Statement .rtl := by show instructionTable 0x6B#8 = _; rfl
theorem jmpAind (a : Word) : Statement (.jmpAind a) := by show instructionTable 0x6C#8 = _; rfl
theorem adcAbs (a : Word) : Statement (.adcAbs a) := by show instructionTable 0x6D#8 = _; rfl
theorem rorAbs (a : Word) : Statement (.rorAbs a) := by show instructionTable 0x6E#8 = _; rfl
theorem adcLong (a : Address) : Statement (.adcLong a) := by show instructionTable 0x6F#8 = _; rfl
theorem bvs (d : Byte) : Statement (.bvs d) := by show instructionTable 0x70#8 = _; rfl
theorem adcIndy (o : Byte) : Statement (.adcIndy o) := by show instructionTable 0x71#8 = _; rfl
theorem adcInd (o : Byte) : Statement (.adcInd o) := by show instructionTable 0x72#8 = _; rfl
theorem adcSry (o : Byte) : Statement (.adcSry o) := by show instructionTable 0x73#8 = _; rfl
theorem stzDpx (o : Byte) : Statement (.stzDpx o) := by show instructionTable 0x74#8 = _; rfl
theorem adcDpx (o : Byte) : Statement (.adcDpx o) := by show instructionTable 0x75#8 = _; rfl
theorem rorDpx (o : Byte) : Statement (.rorDpx o) := by show instructionTable 0x76#8 = _; rfl
theorem adcIndly (o : Byte) : Statement (.adcIndly o) := by show instructionTable 0x77#8 = _; rfl
theorem sei : Statement .sei := by show instructionTable 0x78#8 = _; rfl
theorem adcAbsy (a : Word) : Statement (.adcAbsy a) := by show instructionTable 0x79#8 = _; rfl
theorem ply : Statement .ply := by show instructionTable 0x7A#8 = _; rfl
theorem tdc : Statement .tdc := by show instructionTable 0x7B#8 = _; rfl
theorem jmpAindx (a : Word) : Statement (.jmpAindx a) := by show instructionTable 0x7C#8 = _; rfl
theorem adcAbsx (a : Word) : Statement (.adcAbsx a) := by show instructionTable 0x7D#8 = _; rfl
theorem rorAbsx (a : Word) : Statement (.rorAbsx a) := by show instructionTable 0x7E#8 = _; rfl
theorem adcLongx (a : Address) : Statement (.adcLongx a) := by show instructionTable 0x7F#8 = _; rfl
theorem bra (d : Byte) : Statement (.bra d) := by show instructionTable 0x80#8 = _; rfl
theorem staIndx (o : Byte) : Statement (.staIndx o) := by show instructionTable 0x81#8 = _; rfl
theorem brl (d : Word) : Statement (.brl d) := by show instructionTable 0x82#8 = _; rfl
theorem staSr (o : Byte) : Statement (.staSr o) := by show instructionTable 0x83#8 = _; rfl
theorem styDp (o : Byte) : Statement (.styDp o) := by show instructionTable 0x84#8 = _; rfl
theorem staDp (o : Byte) : Statement (.staDp o) := by show instructionTable 0x85#8 = _; rfl
theorem stxDp (o : Byte) : Statement (.stxDp o) := by show instructionTable 0x86#8 = _; rfl
theorem staIndl (o : Byte) : Statement (.staIndl o) := by show instructionTable 0x87#8 = _; rfl
theorem dey : Statement .dey := by show instructionTable 0x88#8 = _; rfl
theorem bitImmM (v : Imm) : Statement (.bitImmM v) := by show instructionTable 0x89#8 = _; rfl
theorem txa : Statement .txa := by show instructionTable 0x8A#8 = _; rfl
theorem phb : Statement .phb := by show instructionTable 0x8B#8 = _; rfl
theorem styAbs (a : Word) : Statement (.styAbs a) := by show instructionTable 0x8C#8 = _; rfl
theorem staAbs (a : Word) : Statement (.staAbs a) := by show instructionTable 0x8D#8 = _; rfl
theorem stxAbs (a : Word) : Statement (.stxAbs a) := by show instructionTable 0x8E#8 = _; rfl
theorem staLong (a : Address) : Statement (.staLong a) := by show instructionTable 0x8F#8 = _; rfl
theorem bcc (d : Byte) : Statement (.bcc d) := by show instructionTable 0x90#8 = _; rfl
theorem staIndy (o : Byte) : Statement (.staIndy o) := by show instructionTable 0x91#8 = _; rfl
theorem staInd (o : Byte) : Statement (.staInd o) := by show instructionTable 0x92#8 = _; rfl
theorem staSry (o : Byte) : Statement (.staSry o) := by show instructionTable 0x93#8 = _; rfl
theorem styDpx (o : Byte) : Statement (.styDpx o) := by show instructionTable 0x94#8 = _; rfl
theorem staDpx (o : Byte) : Statement (.staDpx o) := by show instructionTable 0x95#8 = _; rfl
theorem stxDpy (o : Byte) : Statement (.stxDpy o) := by show instructionTable 0x96#8 = _; rfl
theorem staIndly (o : Byte) : Statement (.staIndly o) := by show instructionTable 0x97#8 = _; rfl
theorem tya : Statement .tya := by show instructionTable 0x98#8 = _; rfl
theorem staAbsy (a : Word) : Statement (.staAbsy a) := by show instructionTable 0x99#8 = _; rfl
theorem txs : Statement .txs := by show instructionTable 0x9A#8 = _; rfl
theorem txy : Statement .txy := by show instructionTable 0x9B#8 = _; rfl
theorem stzAbs (a : Word) : Statement (.stzAbs a) := by show instructionTable 0x9C#8 = _; rfl
theorem staAbsx (a : Word) : Statement (.staAbsx a) := by show instructionTable 0x9D#8 = _; rfl
theorem stzAbsx (a : Word) : Statement (.stzAbsx a) := by show instructionTable 0x9E#8 = _; rfl
theorem staLongx (a : Address) : Statement (.staLongx a) := by show instructionTable 0x9F#8 = _; rfl
theorem ldyImmX (v : Imm) : Statement (.ldyImmX v) := by show instructionTable 0xA0#8 = _; rfl
theorem ldaIndx (o : Byte) : Statement (.ldaIndx o) := by show instructionTable 0xA1#8 = _; rfl
theorem ldxImmX (v : Imm) : Statement (.ldxImmX v) := by show instructionTable 0xA2#8 = _; rfl
theorem ldaSr (o : Byte) : Statement (.ldaSr o) := by show instructionTable 0xA3#8 = _; rfl
theorem ldyDp (o : Byte) : Statement (.ldyDp o) := by show instructionTable 0xA4#8 = _; rfl
theorem ldaDp (o : Byte) : Statement (.ldaDp o) := by show instructionTable 0xA5#8 = _; rfl
theorem ldxDp (o : Byte) : Statement (.ldxDp o) := by show instructionTable 0xA6#8 = _; rfl
theorem ldaIndl (o : Byte) : Statement (.ldaIndl o) := by show instructionTable 0xA7#8 = _; rfl
theorem tay : Statement .tay := by show instructionTable 0xA8#8 = _; rfl
theorem ldaImmM (v : Imm) : Statement (.ldaImmM v) := by show instructionTable 0xA9#8 = _; rfl
theorem tax : Statement .tax := by show instructionTable 0xAA#8 = _; rfl
theorem plb : Statement .plb := by show instructionTable 0xAB#8 = _; rfl
theorem ldyAbs (a : Word) : Statement (.ldyAbs a) := by show instructionTable 0xAC#8 = _; rfl
theorem ldaAbs (a : Word) : Statement (.ldaAbs a) := by show instructionTable 0xAD#8 = _; rfl
theorem ldxAbs (a : Word) : Statement (.ldxAbs a) := by show instructionTable 0xAE#8 = _; rfl
theorem ldaLong (a : Address) : Statement (.ldaLong a) := by show instructionTable 0xAF#8 = _; rfl
theorem bcs (d : Byte) : Statement (.bcs d) := by show instructionTable 0xB0#8 = _; rfl
theorem ldaIndy (o : Byte) : Statement (.ldaIndy o) := by show instructionTable 0xB1#8 = _; rfl
theorem ldaInd (o : Byte) : Statement (.ldaInd o) := by show instructionTable 0xB2#8 = _; rfl
theorem ldaSry (o : Byte) : Statement (.ldaSry o) := by show instructionTable 0xB3#8 = _; rfl
theorem ldyDpx (o : Byte) : Statement (.ldyDpx o) := by show instructionTable 0xB4#8 = _; rfl
theorem ldaDpx (o : Byte) : Statement (.ldaDpx o) := by show instructionTable 0xB5#8 = _; rfl
theorem ldxDpy (o : Byte) : Statement (.ldxDpy o) := by show instructionTable 0xB6#8 = _; rfl
theorem ldaIndly (o : Byte) : Statement (.ldaIndly o) := by show instructionTable 0xB7#8 = _; rfl
theorem clv : Statement .clv := by show instructionTable 0xB8#8 = _; rfl
theorem ldaAbsy (a : Word) : Statement (.ldaAbsy a) := by show instructionTable 0xB9#8 = _; rfl
theorem tsx : Statement .tsx := by show instructionTable 0xBA#8 = _; rfl
theorem tyx : Statement .tyx := by show instructionTable 0xBB#8 = _; rfl
theorem ldyAbsx (a : Word) : Statement (.ldyAbsx a) := by show instructionTable 0xBC#8 = _; rfl
theorem ldaAbsx (a : Word) : Statement (.ldaAbsx a) := by show instructionTable 0xBD#8 = _; rfl
theorem ldxAbsy (a : Word) : Statement (.ldxAbsy a) := by show instructionTable 0xBE#8 = _; rfl
theorem ldaLongx (a : Address) : Statement (.ldaLongx a) := by show instructionTable 0xBF#8 = _; rfl
theorem cpyImmX (v : Imm) : Statement (.cpyImmX v) := by show instructionTable 0xC0#8 = _; rfl
theorem cmpIndx (o : Byte) : Statement (.cmpIndx o) := by show instructionTable 0xC1#8 = _; rfl
theorem rep (v : Byte) : Statement (.rep v) := by show instructionTable 0xC2#8 = _; rfl
theorem cmpSr (o : Byte) : Statement (.cmpSr o) := by show instructionTable 0xC3#8 = _; rfl
theorem cpyDp (o : Byte) : Statement (.cpyDp o) := by show instructionTable 0xC4#8 = _; rfl
theorem cmpDp (o : Byte) : Statement (.cmpDp o) := by show instructionTable 0xC5#8 = _; rfl
theorem decDp (o : Byte) : Statement (.decDp o) := by show instructionTable 0xC6#8 = _; rfl
theorem cmpIndl (o : Byte) : Statement (.cmpIndl o) := by show instructionTable 0xC7#8 = _; rfl
theorem iny : Statement .iny := by show instructionTable 0xC8#8 = _; rfl
theorem cmpImmM (v : Imm) : Statement (.cmpImmM v) := by show instructionTable 0xC9#8 = _; rfl
theorem dex : Statement .dex := by show instructionTable 0xCA#8 = _; rfl
theorem wai : Statement .wai := by show instructionTable 0xCB#8 = _; rfl
theorem cpyAbs (a : Word) : Statement (.cpyAbs a) := by show instructionTable 0xCC#8 = _; rfl
theorem cmpAbs (a : Word) : Statement (.cmpAbs a) := by show instructionTable 0xCD#8 = _; rfl
theorem decAbs (a : Word) : Statement (.decAbs a) := by show instructionTable 0xCE#8 = _; rfl
theorem cmpLong (a : Address) : Statement (.cmpLong a) := by show instructionTable 0xCF#8 = _; rfl
theorem bne (d : Byte) : Statement (.bne d) := by show instructionTable 0xD0#8 = _; rfl
theorem cmpIndy (o : Byte) : Statement (.cmpIndy o) := by show instructionTable 0xD1#8 = _; rfl
theorem cmpInd (o : Byte) : Statement (.cmpInd o) := by show instructionTable 0xD2#8 = _; rfl
theorem cmpSry (o : Byte) : Statement (.cmpSry o) := by show instructionTable 0xD3#8 = _; rfl
theorem pei (o : Byte) : Statement (.pei o) := by show instructionTable 0xD4#8 = _; rfl
theorem cmpDpx (o : Byte) : Statement (.cmpDpx o) := by show instructionTable 0xD5#8 = _; rfl
theorem decDpx (o : Byte) : Statement (.decDpx o) := by show instructionTable 0xD6#8 = _; rfl
theorem cmpIndly (o : Byte) : Statement (.cmpIndly o) := by show instructionTable 0xD7#8 = _; rfl
theorem cld : Statement .cld := by show instructionTable 0xD8#8 = _; rfl
theorem cmpAbsy (a : Word) : Statement (.cmpAbsy a) := by show instructionTable 0xD9#8 = _; rfl
theorem phx : Statement .phx := by show instructionTable 0xDA#8 = _; rfl
theorem stp : Statement .stp := by show instructionTable 0xDB#8 = _; rfl
theorem jmlAindl (a : Word) : Statement (.jmlAindl a) := by show instructionTable 0xDC#8 = _; rfl
theorem cmpAbsx (a : Word) : Statement (.cmpAbsx a) := by show instructionTable 0xDD#8 = _; rfl
theorem decAbsx (a : Word) : Statement (.decAbsx a) := by show instructionTable 0xDE#8 = _; rfl
theorem cmpLongx (a : Address) : Statement (.cmpLongx a) := by show instructionTable 0xDF#8 = _; rfl
theorem cpxImmX (v : Imm) : Statement (.cpxImmX v) := by show instructionTable 0xE0#8 = _; rfl
theorem sbcIndx (o : Byte) : Statement (.sbcIndx o) := by show instructionTable 0xE1#8 = _; rfl
theorem sep (v : Byte) : Statement (.sep v) := by show instructionTable 0xE2#8 = _; rfl
theorem sbcSr (o : Byte) : Statement (.sbcSr o) := by show instructionTable 0xE3#8 = _; rfl
theorem cpxDp (o : Byte) : Statement (.cpxDp o) := by show instructionTable 0xE4#8 = _; rfl
theorem sbcDp (o : Byte) : Statement (.sbcDp o) := by show instructionTable 0xE5#8 = _; rfl
theorem incDp (o : Byte) : Statement (.incDp o) := by show instructionTable 0xE6#8 = _; rfl
theorem sbcIndl (o : Byte) : Statement (.sbcIndl o) := by show instructionTable 0xE7#8 = _; rfl
theorem inx : Statement .inx := by show instructionTable 0xE8#8 = _; rfl
theorem sbcImmM (v : Imm) : Statement (.sbcImmM v) := by show instructionTable 0xE9#8 = _; rfl
theorem nop : Statement .nop := by show instructionTable 0xEA#8 = _; rfl
theorem xba : Statement .xba := by show instructionTable 0xEB#8 = _; rfl
theorem cpxAbs (a : Word) : Statement (.cpxAbs a) := by show instructionTable 0xEC#8 = _; rfl
theorem sbcAbs (a : Word) : Statement (.sbcAbs a) := by show instructionTable 0xED#8 = _; rfl
theorem incAbs (a : Word) : Statement (.incAbs a) := by show instructionTable 0xEE#8 = _; rfl
theorem sbcLong (a : Address) : Statement (.sbcLong a) := by show instructionTable 0xEF#8 = _; rfl
theorem beq (d : Byte) : Statement (.beq d) := by show instructionTable 0xF0#8 = _; rfl
theorem sbcIndy (o : Byte) : Statement (.sbcIndy o) := by show instructionTable 0xF1#8 = _; rfl
theorem sbcInd (o : Byte) : Statement (.sbcInd o) := by show instructionTable 0xF2#8 = _; rfl
theorem sbcSry (o : Byte) : Statement (.sbcSry o) := by show instructionTable 0xF3#8 = _; rfl
theorem pea (v : Word) : Statement (.pea v) := by show instructionTable 0xF4#8 = _; rfl
theorem sbcDpx (o : Byte) : Statement (.sbcDpx o) := by show instructionTable 0xF5#8 = _; rfl
theorem incDpx (o : Byte) : Statement (.incDpx o) := by show instructionTable 0xF6#8 = _; rfl
theorem sbcIndly (o : Byte) : Statement (.sbcIndly o) := by show instructionTable 0xF7#8 = _; rfl
theorem sed : Statement .sed := by show instructionTable 0xF8#8 = _; rfl
theorem sbcAbsy (a : Word) : Statement (.sbcAbsy a) := by show instructionTable 0xF9#8 = _; rfl
theorem plx : Statement .plx := by show instructionTable 0xFA#8 = _; rfl
theorem xce : Statement .xce := by show instructionTable 0xFB#8 = _; rfl
theorem jsrAindx (a : Word) : Statement (.jsrAindx a) := by show instructionTable 0xFC#8 = _; rfl
theorem sbcAbsx (a : Word) : Statement (.sbcAbsx a) := by show instructionTable 0xFD#8 = _; rfl
theorem incAbsx (a : Word) : Statement (.incAbsx a) := by show instructionTable 0xFE#8 = _; rfl
theorem sbcLongx (a : Address) : Statement (.sbcLongx a) := by show instructionTable 0xFF#8 = _; rfl

end Descriptor

end Sys2Proof.Laws
end

