-- ==== Sys2Proof/Laws/Frames.lean ====
section
/-! SUPPORT. Sys2Proof/Laws/Frames.lean: what an instruction's execution can end in and what it leaves alone, and how the
shapes of effects of Sys2Proof/Safety.lean follow from a body. -/
namespace Sys2Proof.Machine

/-! ### The three ways an instruction ends -/

/-- `exec` ends with the body's state and the recorded cost, with the rollback of a failed access, or with `WidthMismatch`. -/
theorem exec_cases (i : Instr) (s : State) :
    (∃ f t, bodyOf i.mnemonic i.operand (advance i s) = .ok f t ∧ i.wellFormed s.cpu.p.m s.cpu.p.x = true ∧ exec i s = .next (t.charge (instrCost i s f t.cpu.pc))) ∨
    (∃ e t, bodyOf i.mnemonic i.operand (advance i s) = .error e t ∧ i.wellFormed s.cpu.p.m s.cpu.p.x = true ∧ exec i s = .next (t.rollback s e.cause)) ∨
    (i.wellFormed s.cpu.p.m s.cpu.p.x = false ∧ exec i s = .next (s.rollback s .widthMismatch)) := by
  rw [exec_eq_perform]
  rcases perform_cases i (bodyOf i.mnemonic i.operand) s with ⟨f, t, h1, h2, h3⟩ | ⟨f, t, h1, h2, h3⟩ | h
  · exact .inl ⟨f, t, h2, h1, h3⟩
  · exact .inr (.inl ⟨f, t, h2, h1, h3⟩)
  · exact .inr (.inr h)

theorem exec_ok {i : Instr} {s t : State} {f : CostFacts} (hw : i.wellFormed s.cpu.p.m s.cpu.p.x = true)
    (hb : bodyOf i.mnemonic i.operand (advance i s) = .ok f t) : exec i s = .next (t.charge (instrCost i s f t.cpu.pc)) := by
  rw [exec_eq_perform, perform_ok hw hb]

/-! ### Effects from bodies -/

/-- An instruction with a memory operand is well-formed under all flags. -/
theorem wf_of_mem {i : Instr} {m : MemOperand} (h : memOperand i.operand = some m) (a b : Bool) :
    i.wellFormed a b = true := by
  unfold Instr.wellFormed
  cases ho : i.operand <;> simp_all [memOperand, Operand.wellFormed]

theorem withOperand_ok {width : Cpu → Width} {o : DataOperand} {g : Cpu → Word → Cpu} {s : State} {v : Word}
    {f : CostFacts} {b : Bus} (h : readOperand (width s.cpu) o s = .ok (v, f) (s.withBus b)) :
    withOperand width o g s = .ok f ((s.withBus b).withCpu (g s.cpu v)) := by
  rw [withOperand, run_bind_ok s _ (run_getCpu s), run_bind_ok s _ h]
  rfl

/-- A body that is `withOperand` has the reading effect of its register function. -/
theorem readingEffect_of {mn : Mnemonic} {narrow : Cpu → Bool} {eff : Instr → Cpu → Word → Cpu} {width : Cpu → Width}
    {g : DataOperand → Cpu → Word → Cpu}
    (hb : bodyOf mn = onData (fun o => withOperand width o (g o)))
    (hw : ∀ c pc, width { c with pc := pc } = if narrow c then .byte else .word)
    (hg : ∀ i o c v pc, i.mnemonic = mn → dataOperand i.operand = some o → g o { c with pc := pc } v = { eff i c v with pc := pc }) :
    ReadingEffect mn narrow eff := by
  intro i o s v f b hm ho hwf hr
  have : bodyOf i.mnemonic i.operand (advance i s) = .ok f (((advance i s).withBus b).withCpu (g o (advance i s).cpu v)) := by
    rw [hm, hb]
    simp only [onData, ho]
    apply withOperand_ok
    rw [advance_cpu, hw]
    exact hr
  rw [exec_ok hwf this]
  simp only [ended, advance_cpu, hg i o _ _ _ hm ho]
  rfl

/-- A body that is `storeOperand` has the storing effect of its value. -/
theorem storingEffect_of {mn : Mnemonic} {narrow : Cpu → Bool} {width : Cpu → Width} {value value' : Cpu → Word}
    (hb : bodyOf mn = onMem (fun m => storeOperand width m value))
    (hw : ∀ c pc, width { c with pc := pc } = if narrow c then .byte else .word)
    (hv : ∀ c pc, dataBytes (narrow c) (value { c with pc := pc }) = dataBytes (narrow c) (value' c)) :
    StoringEffect mn narrow value' := by
  intro i m s r b b' hm ho hr hs
  have : bodyOf i.mnemonic i.operand (advance i s) = .ok r.facts ((advance i s).withBus b') := by
    rw [hm, hb]
    simp only [onMem, ho]
    rw [storeOperand, run_bind_ok _ _ (run_getCpu _), run_bind_ok _ _ hr]
    rw [run_bind_ok _ _ (writeData_ok (s := (advance i s).withBus b) (b := b') ?_)]
    · rfl
    · rw [advance_cpu, hw]
      have : ((if narrow s.cpu then Width.byte else Width.word) == Width.byte) = narrow s.cpu := by
        cases narrow s.cpu <;> rfl
      rw [this, hv]
      exact hs
  rw [exec_ok (wf_of_mem ho _ _) this]
  rfl

/-- A body that is `registers` has the register effect of its function. -/
theorem registerEffect_of {i : Instr} {g eff : Cpu → Cpu} (hb : bodyOf i.mnemonic i.operand = registers g)
    (hw : ∀ a b, i.wellFormed a b = true)
    (hg : ∀ c pc, g { c with pc := pc } = { eff c with pc := pc }) : RegisterEffect i eff := by
  intro s
  have : bodyOf i.mnemonic i.operand (advance i s) = .ok noFacts ((advance i s).withCpu (g (advance i s).cpu)) := by
    rw [hb, run_registers]
  rw [exec_ok (hw _ _) this]
  simp only [advance_cpu, hg]
  rfl

theorem branchEffect_of {mk : Byte → Instr} {cond : Status → Bool}
    (hb : ∀ d, bodyOf (mk d).mnemonic (mk d).operand = branchIf cond d) (hl : ∀ d, (mk d).length = 2)
    (hw : ∀ d a b, (mk d).wellFormed a b = true) : BranchEffect mk cond := by
  intro d s
  have : bodyOf (mk d).mnemonic (mk d).operand (advance (mk d) s) =
     .ok { taken := cond s.cpu.p, target := s.cpu.pc + 2#16 + d.signExtend 16 }
     (s.withCpu { s.cpu with pc := if cond s.cpu.p then s.cpu.pc + 2#16 + d.signExtend 16 else s.cpu.pc + 2#16 }) := by
    have hn : nextPc (mk d) s.cpu.pc = s.cpu.pc + 2#16 := by rw [nextPc, hl]
    rw [hb, branchIf, run_bind_ok _ _ (run_getCpu _)]
    simp only [advance_cpu, rel8Target, sext16, hn]
    cases h : cond s.cpu.p
    · simp only [Bool.false_eq_true, if_false, run_pure, advance, hn]
    · simp only [if_true]
      rw [run_bind_ok _ _ (show jumpTo _ _ = _ from run_modifyCpu _ _)]
      simp only [run_pure, advance, hn]
      rfl
  rw [exec_ok (hw _ _ _) this]
  rfl

/-! ### What an execution leaves alone -/

/-- What an instruction never changes beside its registers, memory contents and the access record. -/
structure Quiet (s t : State) : Prop where
  params : t.params = s.params
  abortCause : t.abortCause = s.abortCause
  stopped : t.stopped = s.stopped
  waiting : t.waiting = s.waiting
  nmi : t.nmiPending = s.nmiPending
  irq : t.irqLine = s.irqLine
  last : t.cyclesLast = s.cyclesLast
  total : t.cyclesTotal = s.cyclesTotal
  prevPc : t.prevPc = s.prevPc
  table : t.bus.table = s.bus.table
  len : t.bus.regions.length = s.bus.regions.length
  regs : ∀ (k : Nat) (r : Region), s.bus.regions[k]? = some r → ∃ r', t.bus.regions[k]? = some r' ∧ r'.kind = r.kind ∧ r'.size = r.size ∧ r'.origin = r.origin ∧ r'.map = r.map ∧ (r.kind = .rom → r'.bytes = r.bytes)
  log : s.bus.callbackLog <:+ t.bus.callbackLog
  wf : RegionsWf s.bus → RegionsWf t.bus

/-- Putting back a region in canonical form keeps every region's storage canonical. -/
theorem setRegion_wf {b : Bus} {k : Nat} {r : Region} (h : RegionsWf b) (hr : r.bytes.wf) : RegionsWf (b.setRegion k r) := by
  intro r' hr'
  rcases List.mem_or_eq_of_mem_set hr' with h' | rfl
  · exact h r' h'
  · exact hr

/-- The host's direct write of a region keeps the canonical form. -/
theorem writeRegion_wf {s t : State} {k : Nat} {a : Address} {v : Byte} (h : RegionsWf s.bus)
    (hw : s.writeRegion k a v = some t) : RegionsWf t.bus := by
  unfold State.writeRegion Bus.writeRegion at hw
  split at hw
  · cases hw
  · rename_i r hr
    split at hw <;> cases hw
    · exact setRegion_wf h (write_wf (h r (List.mem_of_getElem? hr)) _ _)
    · exact h
    · exact h

/-- The host's direct read of a region changes no region. -/
theorem readRegion_keeps {s t : State} {k : Nat} {a : Address} {v : Byte} (hr : s.readRegion k a = some (v, t)) :
    KeepsMemory s.bus t.bus := by
  unfold State.readRegion Bus.readRegion at hr
  split at hr
  · cases hr
  · rename_i h
    split at h
    · cases h
    · split at h <;> cases h <;> cases hr <;> exact keepsMemory_of rfl rfl

/-- The host's clear of a region keeps the canonical form. -/
theorem clearRegion_wf {s : State} {k : Nat} (h : RegionsWf s.bus) : RegionsWf (s.clearRegion k).bus := by
  unfold State.clearRegion
  split
  · exact h
  · rename_i r hr
    have hc : r.clear.bytes.wf := by
      unfold Region.clear
      split
      · exact wf_nil
      · exact h r (List.mem_of_getElem? hr)
      · exact h r (List.mem_of_getElem? hr)
    exact setRegion_wf h hc

theorem quietRefl (s : State) : Quiet s s := ⟨rfl, rfl, rfl, rfl, rfl, rfl, rfl, rfl, rfl, rfl, rfl, fun k r h => ⟨r, h, rfl, rfl, rfl, rfl, fun _ => rfl⟩, List.suffix_refl _, id⟩

theorem quietRel : WriteRel Quiet where
  refl := quietRefl
  trans s t u a b := by
    refine ⟨b.1.trans a.1, b.2.trans a.2, b.3.trans a.3, b.4.trans a.4, b.5.trans a.5, b.6.trans a.6, b.7.trans a.7, b.8.trans a.8, b.9.trans a.9, b.10.trans a.10, b.11.trans a.11, ?_, a.13.trans b.13, fun h => b.14 (a.14 h)⟩
    intro k r h
    obtain ⟨r', h', e1, e2, e3, e4, e5⟩ := a.12 k r h
    obtain ⟨r'', h'', f1, f2, f3, f4, f5⟩ := b.12 k r' h'
    exact ⟨r'', h'', f1.trans e1, f2.trans e2, f3.trans e3, f4.trans e4, fun hk => (f5 (e1.trans hk)).trans (e5 hk)⟩
  read s b h1 h2 h3 := by
    refine ⟨rfl, rfl, rfl, rfl, rfl, rfl, rfl, rfl, rfl, h2, by rw [withBus_bus, h1], ?_, h3, ?_⟩
    · intro k r h; exact ⟨r, by rw [withBus_bus, h1]; exact h, rfl, rfl, rfl, rfl, fun _ => rfl⟩
    · intro h r hr; rw [withBus_bus, h1] at hr; exact h r hr
  store s a v k r hk hr hkind := by
    refine ⟨rfl, rfl, rfl, rfl, rfl, rfl, rfl, rfl, rfl, rfl, by simp [Bus.setRegion], ?_, List.suffix_refl _, ?_⟩
    · intro k' r' h
      by_cases e : k' = k
      · subst e
        rw [hr] at h; cases h
        refine ⟨r.poke a v, ?_, rfl, rfl, rfl, rfl, fun hrom => ?_⟩
        · have hlt : k' < s.bus.regions.length := (List.getElem?_eq_some_iff.1 hr).1
          simp only [withBus_bus, Bus.setRegion, record_regions, List.getElem?_set_self hlt]
        · rw [hkind] at hrom; cases hrom
      · refine ⟨r', ?_, rfl, rfl, rfl, rfl, fun _ => rfl⟩
        simp only [withBus_bus, Bus.setRegion, record_regions, List.getElem?_set_ne (fun h => e h.symm)]; exact h
    · exact fun hwf => setRegion_wf (b := s.bus.record a .write) hwf (write_wf (hwf r (List.mem_of_getElem? hr)) _ _)

theorem quietCpu (s : State) (c : Cpu) : Quiet s (s.withCpu c) := ⟨rfl, rfl, rfl, rfl, rfl, rfl, rfl, rfl, rfl, rfl, rfl, fun k r h => ⟨r, h, rfl, rfl, rfl, rfl, fun _ => rfl⟩, List.suffix_refl _, id⟩

theorem quietBody {m : Mnemonic} (o : Operand) (hm : m ≠ .wai ∧ m ≠ .stp ∧ m ≠ .wdm) : Carries Quiet (bodyOf m o) :=
  quietRel.body quietCpu m o hm

/-- How the latches end: unchanged, except by WAI, STP and WDM. -/
inductive Latch (i : Instr) (s t : State) : Prop
  | quiet (h : i.mnemonic ≠ .wai ∧ i.mnemonic ≠ .stp ∧ i.mnemonic ≠ .wdm) (hq : Quiet s t) 
  | wai (h : i = .wai) (e : t = { s with waiting := true })
  | stp (h : i = .stp) (e : t = { s with stopped := true, abortCause := .stopped })
  | wdm (h : i.mnemonic = .wdm) (e : t = if s.params.abortOpcode = 0x42#8 then { s with abortCause := .abortInstruction } else s)

theorem mn_wai {i : Instr} (h : i.mnemonic = .wai) : i = .wai := by cases i <;> first | rfl | cases h

theorem mn_stp {i : Instr} (h : i.mnemonic = .stp) : i = .stp := by cases i <;> first | rfl | cases h

theorem mn_wdm {i : Instr} (h : i.mnemonic = .wdm) : i.opcode = 0x42#8 ∧ (∀ m x, i.wellFormed m x = true) := by cases i <;> first | exact ⟨rfl, fun _ _ => rfl⟩ | cases h

theorem body_ok_latch {i : Instr} {s t : State} {f : CostFacts} (h : bodyOf i.mnemonic i.operand s = .ok f t) : Latch i s t := by
  by_cases h1 : i.mnemonic = .wai
  · refine .wai (mn_wai h1) ?_; rw [h1] at h; cases h; rfl
  by_cases h2 : i.mnemonic = .stp
  · refine .stp (mn_stp h2) ?_; rw [h2] at h; cases h; rfl
  by_cases h3 : i.mnemonic = .wdm
  · refine .wdm h3 ?_
    rw [h3] at h
    show t = _
    change wdm s = _ at h
    unfold wdm at h
    split at h
    · rw [if_pos (by assumption)]; cases h; rfl
    · rw [if_neg (by assumption)]; cases h; rfl
  · exact .quiet ⟨h1, h2, h3⟩ ((quietBody i.operand ⟨h1, h2, h3⟩).ok h)

theorem body_error_quiet {i : Instr} {s t : State} {e : BusFailure} (h : bodyOf i.mnemonic i.operand s = .error e t) : Quiet s t := by
  by_cases h1 : i.mnemonic = .wai
  · rw [h1] at h; cases h
  by_cases h2 : i.mnemonic = .stp
  · rw [h2] at h; cases h
  by_cases h3 : i.mnemonic = .wdm
  · rw [h3] at h
    change wdm s = _ at h
    unfold wdm at h
    split at h <;> cases h
  · exact (quietBody i.operand ⟨h1, h2, h3⟩).error h

/-- Reads keep memory. -/
theorem keepsRel : ReadRel fun s t => KeepsMemory s.bus t.bus where
  refl s := keepsMemory_refl _
  trans _ _ _ a b := keepsMemory_trans a b
  read s b h1 h2 _ := keepsMemory_of h1 h2

/-! ### Register invariants over one instruction -/

theorem inv_rel (I : Cpu → Prop) : WriteRel fun s t => I s.cpu → I t.cpu where
  refl _ h := h
  trans _ _ _ a b h := b (a h)
  read _ _ _ _ _ h := h
  store _ _ _ _ _ _ _ _ h := h

/-- A property of the registers that `PC` does not touch and every change of the body keeps holds after the instruction. -/
theorem inv_kept {i : Instr} {s t : State} (I : Cpu → Prop) (hpc : ∀ c pc, I c → I { c with pc := pc })
    (hch : ∀ f, Changes i.mnemonic i.operand f → ∀ c, I c → I (f c)) (h : exec i s = .next t) (h0 : I s.cpu) : I t.cpu := by
  rcases exec_cases i s with ⟨f, u, hb, _, he⟩ | ⟨e, u, hb, _, he⟩ | ⟨_, he⟩
  · rw [he] at h; cases h
    rw [charge_cpu]
    have h1 : I (advance i s).cpu := hpc _ _ h0
    by_cases hm : i.mnemonic ≠ .wai ∧ i.mnemonic ≠ .stp ∧ i.mnemonic ≠ .wdm
    · exact (closed_body (inv_rel I).closed.toReadClosed i.mnemonic i.operand hm (fun _ => (inv_rel I).closed.busWrite) fun f hf => carries_modifyCpu fun s => hch f hf s.cpu).ok hb h1
    · cases body_ok_latch hb with
      | quiet h hq => exact absurd h hm
      | wai h e => rw [e]; exact h1
      | stp h e => rw [e]; exact h1
      | wdm h e => rw [e]; split <;> exact h1
  · rw [he] at h; cases h; exact h0
  · rw [he] at h; cases h; exact h0

/-- A view of the registers that no change of the body touches is the same after the instruction. -/
theorem field_kept {i : Instr} {s t : State} {β : Type} (g : Cpu → β) (hpc : ∀ c pc, g { c with pc := pc } = g c)
    (hch : ∀ f, Changes i.mnemonic i.operand f → ∀ c, g (f c) = g c) (h : exec i s = .next t) : g t.cpu = g s.cpu :=
  inv_kept (fun c => g c = g s.cpu) (fun c pc h => (hpc c pc).trans h) (fun f hf c h => (hch f hf c).trans h) h rfl

/-! ### Fetching -/

theorem fetchOperands_ok {pb : Byte} {pc : Word} {n : Nat} {k : Nat} {s : State} {bytes : List Byte} {b : Bus}
    (h : s.bus.loadAll ((List.range' k n).map (fetchAddr pb pc)) = some (bytes, b)) : fetchOperands pb pc n k s = .ok bytes (s.withBus b) := by
  induction n generalizing k s bytes b with
  | zero =>
    obtain ⟨rfl, rfl⟩ := of_loadAll_nil h; rfl
  | succ n ih =>
    rw [List.range'_succ, List.map_cons] at h
    obtain ⟨v, b₁, ws, h1, h2, e⟩ := of_loadAll_cons h
    subst e
    rw [fetchOperands]
    refine (run_bind_ok _ _ (busRead_ok h1)).trans ?_
    refine (run_bind_ok _ _ (ih (s := s.withBus b₁) h2)).trans ?_
    rfl

theorem fetchBytes_ok {s : State} {op : Byte} {rest : List Byte} {b : Bus} {n : Nat} (hn : n = 1 + operandCount s.cpu.p.m s.cpu.p.x op)
    (h : s.bus.loadAll ((List.range n).map (fetchAddr s.cpu.pb s.cpu.pc)) = some (op :: rest, b)) : fetchBytes s = .ok (op :: rest) (s.withBus b) := by
  subst hn
  rw [List.range_eq_range', Nat.add_comm, List.range'_succ, List.map_cons] at h
  obtain ⟨v, b₁, ws, h1, h2, e⟩ := of_loadAll_cons h
  cases e
  rw [fetchBytes]
  refine (run_bind_ok _ _ (run_getCpu _)).trans ?_
  refine (run_bind_ok _ _ (busRead_ok h1)).trans ?_
  refine (run_bind_ok _ _ (fetchOperands_ok (s := s.withBus b₁) h2)).trans ?_
  rfl

/-! ### On mapped addresses -/

/-- Stores keep the segment table, the cells, the kinds and the canonical form. -/
theorem storeAll_keeps_shape {ws : List (Address × Byte)} {b b' : Bus} (h : b.storeAll ws = some b') :
    b'.table = b.table ∧ (∀ a, b'.regionNumber a = b.regionNumber a) ∧ (∀ a, cellOf b' a = cellOf b a) ∧ (∀ a, IsRam b' a ↔ IsRam b a) ∧ (RegionsWf b → RegionsWf b') ∧ (∀ a, b'.mapped a = b.mapped a) := by
  induction ws generalizing b with
  | nil => cases of_storeAll_nil h; exact ⟨rfl, fun _ => rfl, fun _ => rfl, fun _ => Iff.rfl, id, fun _ => rfl⟩
  | cons w ws ih =>
    obtain ⟨a, v⟩ := w
    obtain ⟨b₁, h1, h2⟩ := of_storeAll_cons h
    obtain ⟨i1, i2, i3, i4, i5, i6⟩ := ih h2
    have q : b₁.table = b.table ∧ (∀ a, b₁.regionNumber a = b.regionNumber a) ∧ (∀ a, cellOf b₁ a = cellOf b a) ∧ (∀ a, IsRam b₁ a ↔ IsRam b a) ∧ (RegionsWf b → RegionsWf b₁) ∧ (∀ a, b₁.mapped a = b.mapped a) := by
      rcases store_cases a v b with ⟨hn, hl⟩ | ⟨k, r, hk, hr, hkind, hl⟩ | ⟨r, hr, hkind, hl⟩ | ⟨k, r, hk, hr, hkind, hl⟩
      · rw [hl] at h1; cases h1
      · rw [hl] at h1; cases h1
        have hlt : k < b.regions.length := (List.getElem?_eq_some_iff.1 hr).1
        have hget : ∀ j, ((b.record a .write).setRegion k (r.poke a v)).regions[j]? = if j = k then some (r.poke a v) else b.regions[j]? := by
          intro j
          simp only [Bus.setRegion, record_regions]
          by_cases e : j = k
          · subst e; rw [List.getElem?_set_self hlt, if_pos rfl]
          · rw [List.getElem?_set_ne (fun h => e h.symm), if_neg e]
        have hnum : ∀ a', ((b.record a .write).setRegion k (r.poke a v)).regionNumber a' = b.regionNumber a' := fun _ => rfl
        refine ⟨rfl, fun _ => rfl, ?_, ?_, ?_, ?_⟩
        · intro a'
          unfold cellOf
          rw [hnum]
          cases b.regionNumber a' with
          | none => rfl
          | some j =>
            simp only [hget]
            by_cases e : j = k
            · subst e; rw [if_pos rfl, hr]; rfl
            · rw [if_neg e]
        · intro a'
          unfold IsRam Bus.regionAt
          rw [hnum]
          cases b.regionNumber a' with
          | none => rfl
          | some j =>
            simp only [Option.bind_some, hget]
            by_cases e : j = k
            · subst e; rw [if_pos rfl, hr]
              simp [Region.poke, hkind]
            · rw [if_neg e]
        · intro hwf r' hr'
          simp only [Bus.setRegion, record_regions] at hr'
          rcases List.mem_or_eq_of_mem_set hr' with h | h
          · exact hwf r' h
          · subst h; exact write_wf (hwf r (List.mem_of_getElem? hr)) _ _
        · intro a'
          unfold Bus.mapped Bus.regionAt
          rw [hnum]
          cases b.regionNumber a' with
          | none => rfl
          | some j =>
            simp only [Option.bind_some, hget]
            by_cases e : j = k
            · subst e; rw [if_pos rfl, hr]; rfl
            · rw [if_neg e]
      · rw [hl] at h1; cases h1; exact ⟨rfl, fun _ => rfl, fun _ => rfl, fun _ => Iff.rfl, id, fun _ => rfl⟩
      · rw [hl] at h1; cases h1; exact ⟨rfl, fun _ => rfl, fun _ => rfl, fun _ => Iff.rfl, id, fun _ => rfl⟩
    exact ⟨i1.trans q.1, fun a => (i2 a).trans (q.2.1 a), fun a => (i3 a).trans (q.2.2.1 a), fun a => (i4 a).trans (q.2.2.2.1 a), fun h => i5 (q.2.2.2.2.1 h), fun a => (i6 a).trans (q.2.2.2.2.2 a)⟩

theorem storeAll_isSome {ws : List (Address × Byte)} {b : Bus} (h : ∀ w ∈ ws, b.mapped w.1 = true) : ∃ b', b.storeAll ws = some b' := by
  induction ws generalizing b with
  | nil => exact ⟨b, rfl⟩
  | cons w ws ih =>
    obtain ⟨a, v⟩ := w
    have := store_isSome (b := b) (a := a) (v := v)
    rw [h (a, v) (List.mem_cons_self ..)] at this
    cases hs : b.store a v with
    | none => rw [hs] at this; cases this
    | some b₁ =>
      have hall : b.storeAll [(a, v)] = some b₁ := by simp [Bus.storeAll, hs]
      have sh := storeAll_keeps_shape hall
      obtain ⟨b', hb'⟩ := ih (b := b₁) (fun w hw => by rw [sh.2.2.2.2.2]; exact h w (List.mem_cons_of_mem _ hw))
      exact ⟨b', by rw [Bus.storeAll, hs]; exact hb'⟩

/-- The computation ends well on every fully mapped bus, and leaves one. -/
def Alive (α : Type) (m : BusM α) : Prop := ∀ s, FullyMapped s.bus → ∃ v t, m s = .ok v t ∧ FullyMapped t.bus

theorem alive : BodyClosed Alive where
  pure _ v s h := ⟨v, s, rfl, h⟩
  bind _ _ m f hm hf s h := by
    obtain ⟨v, t, e, ht⟩ := hm s h
    obtain ⟨w, u, e', hu⟩ := hf v t ht
    exact ⟨w, u, by show EStateM.bind m f s = _; unfold EStateM.bind; rw [e]; exact e', hu⟩
  state _ b hb s h := hb s s h
  getCpu s h := ⟨_, s, rfl, h⟩
  busRead a s h := by
    have h1 := load_isSome (b := s.bus) (a := a)
    rw [h a] at h1
    obtain ⟨⟨v, b⟩, e⟩ := Option.isSome_iff_exists.1 h1
    refine ⟨v, s.withBus b, by unfold busRead; rw [e], fun a' => ?_⟩
    have k := load_keeps e
    unfold Bus.mapped; rw [withBus_bus, regionAt_congr k.1 k.2.1]; exact h a'
  busWrite a v s h := by
    obtain ⟨b, e⟩ := storeAll_isSome (b := s.bus) (ws := [(a, v)]) (fun w hw => by simp at hw; subst hw; exact h a)
    have sh := storeAll_keeps_shape e
    obtain ⟨b₁, e1, e2⟩ : ∃ b₁, s.bus.store a v = some b₁ ∧ b₁ = b := by
      unfold Bus.storeAll at e
      cases hs : s.bus.store a v with
      | none => rw [hs] at e; cases e
      | some b₁ => rw [hs] at e; simp only [Bus.storeAll, Option.some.injEq] at e; exact ⟨b₁, rfl, e⟩
    subst e2
    refine ⟨(), s.withBus b₁, by unfold busWrite; rw [e1], fun a' => ?_⟩
    rw [withBus_bus, sh.2.2.2.2.2]; exact h a'
  modifyCpu f s h := ⟨(), _, rfl, h⟩

theorem mapped_body (i : Instr) (s : State) (h : FullyMapped s.bus) : ∃ f t, bodyOf i.mnemonic i.operand s = .ok f t := by
  by_cases hm : i.mnemonic ≠ .wai ∧ i.mnemonic ≠ .stp ∧ i.mnemonic ≠ .wdm
  · obtain ⟨v, t, e, _⟩ := alive.body i.mnemonic i.operand hm s h; exact ⟨v, t, e⟩
  · have : i.mnemonic = .wai ∨ i.mnemonic = .stp ∨ i.mnemonic = .wdm := by
      by_contra hc; push_neg at hc; exact hm hc
    rcases this with h1 | h1 | h1 <;> rw [h1]
    · exact ⟨_, _, rfl⟩
    · exact ⟨_, _, rfl⟩
    · show ∃ f t, wdm s = _
      unfold wdm
      split <;> exact ⟨_, _, rfl⟩

end Sys2Proof.Machine
end

