-- ==== Sys2Proof/Laws/Failures.lean ====
section
/-! SUPPORT. Sys2Proof/Laws/Failures.lean: where a computation fails on the bus: the accesses before the failing one stand.
One lemma per shared operation, the counterpart of those of Sys2Proof/Laws/Access.lean. -/
namespace Sys2Proof.Machine

variable {α β : Type} {s : State} {b b₁ b' : Bus} {a : Address} {d : Direction} {v : Byte}

/-- Started in `s`, the computation fails at an access of `a`, with the bus as `b` before it; beside the bus it may have
changed only the register file. -/
def Breaks (m : BusM α) (s : State) (b : Bus) (a : Address) (d : Direction) : Prop :=
  ∃ c, m s = .error ⟨a, d⟩ ((s.withCpu c).withBus (b.record a d))

theorem breaks_bind {m : BusM α} {f : α → BusM β} (h : Breaks m s b a d) : Breaks (m >>= f) s b a d := by
  obtain ⟨c, h⟩ := h
  exact ⟨c, run_bind_error s _ h⟩

theorem breaks_after {m : BusM α} {f : α → BusM β} {w : α} {c : Cpu}
    (hm : m s = .ok w ((s.withCpu c).withBus b₁)) (h : Breaks (f w) ((s.withCpu c).withBus b₁) b a d) :
    Breaks (m >>= f) s b a d := by
  obtain ⟨c', h⟩ := h
  exact ⟨c', (run_bind_ok s _ hm).trans h⟩

theorem breaks_getCpu {f : Cpu → BusM β} (h : Breaks (f s.cpu) s b a d) : Breaks (getCpu >>= f) s b a d :=
  breaks_after (c := s.cpu) (b₁ := s.bus) (run_getCpu s) h

theorem breaks_modifyCpu {g : Cpu → Cpu} {f : Unit → BusM β} (h : Breaks (f ()) (s.withCpu (g s.cpu)) b a d) :
    Breaks (modifyCpu g >>= f) s b a d :=
  breaks_after (c := g s.cpu) (b₁ := s.bus) (run_modifyCpu s g) h

theorem breaks_busRead (h : s.bus.regionAt a = none) : Breaks (busRead a) s s.bus a .read := by
  refine ⟨s.cpu, busRead_none ?_⟩
  have := load_isSome (b := s.bus) (a := a)
  rw [Bus.mapped, h] at this
  simpa using this

theorem breaks_busWrite (h : s.bus.regionAt a = none) : Breaks (busWrite a v) s s.bus a .write := by
  refine ⟨s.cpu, busWrite_none ?_⟩
  have := store_isSome (b := s.bus) (a := a) (v := v)
  rw [Bus.mapped, h] at this
  simpa using this

/-- A body that fails makes the instruction fail, with every register as before. -/
theorem failsOn_of {i : Instr} (hw : i.wellFormed s.cpu.p.m s.cpu.p.x = true)
    (h : Breaks (bodyOf i.mnemonic i.operand) (advance i s) b a d) : FailsOn i s b a d := by
  obtain ⟨c, h⟩ := h
  rw [FailsOn, exec_eq_perform, perform_error hw h]
  rfl

theorem breaks_plainly {m : BusM Unit} (h : Breaks m s b a d) : Breaks (plainly m) s b a d := breaks_bind h

/-! ### Reads -/

theorem memRead_breaks (wrap : Wrap) {n k : Nat} {a₀ : Address} {bytes : List Byte}
    (hk : (byteAddresses wrap n a₀)[k]? = some a) (hb : s.bus.loadAll ((byteAddresses wrap n a₀).take k) = some (bytes, b))
    (hn : b.regionAt a = none) : Breaks (memRead wrap n a₀) s b a .read := by
  induction n generalizing k a₀ s bytes with
  | zero => simp [byteAddresses] at hk
  | succ n ih =>
    rw [memRead]
    cases k with
    | zero =>
      obtain ⟨-, rfl⟩ := of_loadAll_nil hb
      simp only [byteAddresses, List.getElem?_cons_zero, Option.some.injEq] at hk
      subst hk
      exact breaks_bind (breaks_busRead hn)
    | succ k =>
      simp only [byteAddresses, List.getElem?_cons_succ] at hk
      obtain ⟨v, b₁, ws, h1, h2, -⟩ := of_loadAll_cons (show s.bus.loadAll (a₀ :: _) = _ from hb)
      exact breaks_after (c := s.cpu) (busRead_ok h1) (breaks_bind (ih (s := s.withBus b₁) hk h2))

theorem memRead16_breaks (wrap : Wrap) {k : Nat} {a₀ : Address} {bytes : List Byte}
    (hk : (byteAddresses wrap 2 a₀)[k]? = some a) (hb : s.bus.loadAll ((byteAddresses wrap 2 a₀).take k) = some (bytes, b))
    (hn : b.regionAt a = none) : Breaks (memRead16 wrap a₀) s b a .read :=
  breaks_bind (memRead_breaks wrap hk hb hn)

theorem dataAddresses_eq (w : Width) (r : Resolved) :
    dataAddresses (w == .byte) r = byteAddresses r.wrap w.bytes r.ea := by cases w <;> rfl

theorem readData_breaks {w : Width} {r : Resolved} {k : Nat} {bytes : List Byte}
    (hk : (dataAddresses (w == .byte) r)[k]? = some a)
    (hb : s.bus.loadAll ((dataAddresses (w == .byte) r).take k) = some (bytes, b)) (hn : b.regionAt a = none) :
    Breaks (readData w r.wrap r.ea) s b a .read := by
  rw [dataAddresses_eq] at hk hb
  exact breaks_bind (memRead_breaks r.wrap hk hb hn)

/-! ### Writes -/

/-- Writes one after another. -/
def writeList : List (Address × Byte) → BusM Unit
  | [] => pure ()
  | w :: rest => do
    busWrite w.1 w.2
    writeList rest

theorem writeList_breaks {ws : List (Address × Byte)} {k : Nat} (hk : ws[k]? = some (a, v))
    (hb : s.bus.storeAll (ws.take k) = some b) (hn : b.regionAt a = none) : Breaks (writeList ws) s b a .write := by
  induction ws generalizing k s with
  | nil => simp at hk
  | cons w ws ih =>
    rw [writeList]
    cases k with
    | zero =>
      cases of_storeAll_nil hb
      simp only [List.getElem?_cons_zero, Option.some.injEq] at hk
      subst hk
      exact breaks_bind (breaks_busWrite hn)
    | succ k =>
      simp only [List.getElem?_cons_succ] at hk
      obtain ⟨b₁, h1, h2⟩ := of_storeAll_cons (show s.bus.storeAll ((w.1, w.2) :: _) = _ from hb)
      exact breaks_after (c := s.cpu) (busWrite_ok h1) (ih (s := s.withBus b₁) hk h2)

theorem memWrite_eq (wrap : Wrap) (n w : Nat) (a₀ : Address) :
    memWrite wrap n a₀ w s = writeList ((byteAddresses wrap n a₀).zip (bytesOfNumber n w)) s := by
  induction n generalizing a₀ w s with
  | zero => rfl
  | succ n ih =>
    simp only [memWrite, byteAddresses, bytesOfNumber, List.zip_cons_cons, writeList, run_bind]
    cases busWrite a₀ (BitVec.ofNat 8 w) s with
    | ok u t => exact ih ..
    | error e t => rfl

theorem writeData_eq (w : Width) (r : Resolved) (x : Word) :
    writeData w r.wrap r.ea x s = writeList ((dataAddresses (w == .byte) r).zip (dataBytes (w == .byte) x)) s := by
  rw [writeData, memWrite_eq]
  cases w with
  | byte => simp only [Width.bytes, bytesOfNumber, ofNat_low]; rfl
  | word => simp only [Width.bytes, bytesOfNumber, ofNat_low, ofNat_high]; rfl

theorem writeDataHiFirst_eq (w : Width) (r : Resolved) (x : Word) :
    writeDataHiFirst w r.wrap r.ea x s =
      writeList ((dataAddresses (w == .byte) r).zip (dataBytes (w == .byte) x)).reverse s := by
  cases w with
  | byte =>
    show busWrite r.ea (loByte x) s = (busWrite r.ea (loByte x) >>= fun _ => pure ()) s
    rw [run_bind]
    cases busWrite r.ea (loByte x) s <;> rfl
  | word =>
    show (busWrite (r.wrap.next r.ea) (hiByte x) >>= fun _ => busWrite r.ea (loByte x)) s =
      (busWrite (r.wrap.next r.ea) (hiByte x) >>= fun _ => busWrite r.ea (loByte x) >>= fun _ => pure ()) s
    rw [run_bind, run_bind]
    cases busWrite (r.wrap.next r.ea) (hiByte x) s with
    | error e t => rfl
    | ok u t =>
      simp only [run_bind]
      cases busWrite r.ea (loByte x) t <;> rfl

/-- A computation that answers as another one fails as it does. -/
theorem breaks_congr {m m' : BusM α} (h : m s = m' s) (h' : Breaks m' s b a d) : Breaks m s b a d := by
  obtain ⟨c, h'⟩ := h'
  exact ⟨c, h.trans h'⟩

theorem writeData_breaks {w : Width} {r : Resolved} {x : Word} {k : Nat}
    (hk : ((dataAddresses (w == .byte) r).zip (dataBytes (w == .byte) x))[k]? = some (a, v))
    (hb : s.bus.storeAll (((dataAddresses (w == .byte) r).zip (dataBytes (w == .byte) x)).take k) = some b)
    (hn : b.regionAt a = none) : Breaks (writeData w r.wrap r.ea x) s b a .write :=
  breaks_congr (writeData_eq w r x) (writeList_breaks hk hb hn)

theorem writeDataHiFirst_breaks {w : Width} {r : Resolved} {x : Word} {k : Nat}
    (hk : ((dataAddresses (w == .byte) r).zip (dataBytes (w == .byte) x)).reverse[k]? = some (a, v))
    (hb : s.bus.storeAll (((dataAddresses (w == .byte) r).zip (dataBytes (w == .byte) x)).reverse.take k) = some b)
    (hn : b.regionAt a = none) : Breaks (writeDataHiFirst w r.wrap r.ea x) s b a .write :=
  breaks_congr (writeDataHiFirst_eq w r x) (writeList_breaks hk hb hn)

/-! ### Pushes -/

theorem pushList_breaks {wrap1 : Bool} {bytes : List Byte} {k : Nat}
    (hk : (pushWrites wrap1 s.cpu.s 0 bytes)[k]? = some (a, v))
    (hb : s.bus.storeAll ((pushWrites wrap1 s.cpu.s 0 bytes).take k) = some b) (hn : b.regionAt a = none) :
    Breaks (pushList wrap1 bytes) s b a .write := by
  induction bytes generalizing k s with
  | nil => simp [pushWrites] at hk
  | cons x rest ih =>
    rw [pushWrites, pushWrites_succ, pushOffset_zero] at hk hb
    rw [pushList]
    cases k with
    | zero =>
      cases of_storeAll_nil hb
      simp only [List.getElem?_cons_zero, Option.some.injEq, Prod.mk.injEq] at hk
      obtain ⟨rfl, rfl⟩ := hk
      exact breaks_bind (breaks_getCpu (breaks_bind (breaks_busWrite hn)))
    | succ k =>
      simp only [List.getElem?_cons_succ] at hk
      obtain ⟨b₁, h1, h2⟩ := of_storeAll_cons (show s.bus.storeAll ((_, _) :: _) = _ from hb)
      exact breaks_after (c := { s.cpu with s := stackDown wrap1 s.cpu.s }) (pushByte_ok wrap1 h1)
        (ih (s := (s.withBus b₁).withCpu { s.cpu with s := stackDown wrap1 s.cpu.s }) hk h2)

theorem withStackNew_breaks {body : Bool → BusM Unit} (h : Breaks (body s.stackWrapsNew) s b a d) :
    Breaks (withStackNew body) s b a d := by
  obtain ⟨c, h⟩ := h
  exact ⟨c, run_bind_error s _ h⟩

theorem withStack_breaks {body : Bool → BusM α} (h : Breaks (body s.stackWraps) s b a d) :
    Breaks (withStack body) s b a d := h

/-! ### Traps -/

theorem pushList_append (w : Bool) (l l' : List Byte) :
    pushList w (l ++ l') = pushList w l >>= fun _ => pushList w l' := by
  induction l with
  | nil => rfl
  | cons x l ih => simp only [List.cons_append, pushList, ih, bind_assoc]

theorem pushBank_eq (c : Cpu) : pushBank c = pushList c.e (if c.e then [] else [c.pb]) := by
  unfold pushBank
  cases c.e with
  | false => exact funext fun s => pushByte_eq false _
  | true => rfl

/-- The frame of a trap as one list of pushes. -/
theorem trapEntry_eq (k : TrapKind) (ret : Word) : trapEntry k ret s =
    (pushList s.cpu.e (trapFrame s.cpu ret (k.pushedP s.cpu)) >>= fun _ =>
      modifyCpu (fun c => { c with p := { c.p with i := true, d := false }, pb := 0x00#8 }) >>= fun _ =>
      memRead16 .bank (k.vector s.cpu.e) >>= fun target => modifyCpu fun c => { c with pc := target }) s := by
  have hword : ∀ w v, pushWord w v = pushList w [hiByte v, loByte v] := fun w v => funext fun s => pushWord_eq w v
  have hbyte : ∀ w v, pushByte w v = pushList w [v] := fun w v => funext fun s => pushByte_eq w v
  have hframe : trapFrame s.cpu ret (k.pushedP s.cpu) =
      (if s.cpu.e then [] else [s.cpu.pb]) ++ ([hiByte ret, loByte ret] ++ [k.pushedP s.cpu]) := by
    unfold trapFrame
    cases s.cpu.e <;> rfl
  rw [trapEntry, run_bind_ok s _ (run_getCpu s), hframe, pushList_append, pushList_append, pushBank_eq, hword, hbyte,
    bind_assoc, bind_assoc]

theorem trapEntry_push_breaks {kind : TrapKind} {ret : Word} {k : Nat}
    (hk : (pushWrites s.cpu.e s.cpu.s 0 (trapFrame s.cpu ret (kind.pushedP s.cpu)))[k]? = some (a, v))
    (hb : s.bus.storeAll ((pushWrites s.cpu.e s.cpu.s 0 (trapFrame s.cpu ret (kind.pushedP s.cpu))).take k) = some b)
    (hn : b.regionAt a = none) : Breaks (trapEntry kind ret) s b a .write :=
  breaks_congr (trapEntry_eq kind ret) (breaks_bind (pushList_breaks hk hb hn))

theorem trapEntry_vector_breaks {kind : TrapKind} {ret : Word} {k : Nat} {bytes : List Byte}
    (hf : s.bus.storeAll (pushWrites s.cpu.e s.cpu.s 0 (trapFrame s.cpu ret (kind.pushedP s.cpu))) = some b₁)
    (hk : (byteAddresses .bank 2 (kind.vector s.cpu.e))[k]? = some a)
    (hb : b₁.loadAll ((byteAddresses .bank 2 (kind.vector s.cpu.e)).take k) = some (bytes, b))
    (hn : b.regionAt a = none) : Breaks (trapEntry kind ret) s b a .read := by
  refine breaks_congr (trapEntry_eq kind ret) (breaks_after (c := _) (pushList_ok s.cpu.e hf) ?_)
  refine breaks_modifyCpu (breaks_bind ?_)
  exact memRead16_breaks .bank hk hb hn

end Sys2Proof.Machine
end

