-- ==== Sys2Proof/Tests/Slice0.lean ====
section
/-! SUPPORT. Sys2Proof/Tests/Slice0.lean: what WellFormed refuses, the decoding of every opcode from words written out from
the spec's tables, one step per instruction against the rows of spec/95_test_vectors.md, and a witness for the hypotheses of
every statement. -/
namespace Sys2Proof.Tests
open Sys2Proof.Machine

/-! ### Well-formedness -/

/-- R73, R323: a one-byte `imm_m` operand is refused while `P.M = 0`. -/
theorem test_wellFormed_byte_refused_m0 : (Instr.ldaImmM (.imm8 0x01#8)).wellFormed false true = false := by decide

/-- R73, R323: a two-byte `imm_m` operand is refused while `P.M = 1`. -/
theorem test_wellFormed_word_refused_m1 : (Instr.adcImmM (.imm16 0x0001#16)).wellFormed true false = false := by decide

/-- R73, R323: a one-byte `imm_x` operand is refused while `P.X = 0`. -/
theorem test_wellFormed_byte_refused_x0 : (Instr.ldxImmX (.imm8 0x01#8)).wellFormed true false = false := by decide

/-- R73, R323: a two-byte `imm_x` operand is refused while `P.X = 1`. -/
theorem test_wellFormed_word_refused_x1 : (Instr.cpyImmX (.imm16 0x0001#16)).wellFormed false true = false := by decide

/-- R73: each width is accepted under its flag. -/
theorem test_wellFormed_accepts : (Instr.ldaImmM (.imm8 0x01#8)).wellFormed true false = true ∧
    (Instr.ldaImmM (.imm16 0x0001#16)).wellFormed false true = true ∧
    (Instr.ldxImmX (.imm8 0x01#8)).wellFormed false true = true ∧
    (Instr.ldxImmX (.imm16 0x0001#16)).wellFormed true false = true := by decide

/-! ### Decoding -/

/-- Under 8-bit flags each of these words decodes to the instruction beside it and leaves what follows. -/
def decodesAll (words : List (List Byte × Instr)) : Bool :=
  words.all fun w => decode true true (w.1 ++ [0xEA#8]) == some (w.2, [0xEA#8])

/-- Row 0x of R77, with operand bytes in the order of R74 and R81. -/
theorem test_decode_row_0 : decodesAll [
    ([0x00#8, 0x91#8], .brk 0x91#8), ([0x01#8, 0x91#8], .oraIndx 0x91#8),
    ([0x02#8, 0x91#8], .cop 0x91#8), ([0x03#8, 0x91#8], .oraSr 0x91#8),
    ([0x04#8, 0x91#8], .tsbDp 0x91#8), ([0x05#8, 0x91#8], .oraDp 0x91#8),
    ([0x06#8, 0x91#8], .aslDp 0x91#8), ([0x07#8, 0x91#8], .oraIndl 0x91#8),
    ([0x08#8], .php), ([0x09#8, 0x91#8], .oraImmM (.imm8 0x91#8)),
    ([0x0A#8], .aslAcc), ([0x0B#8], .phd),
    ([0x0C#8, 0x91#8, 0x22#8], .tsbAbs 0x2291#16), ([0x0D#8, 0x91#8, 0x22#8], .oraAbs 0x2291#16),
    ([0x0E#8, 0x91#8, 0x22#8], .aslAbs 0x2291#16), ([0x0F#8, 0x91#8, 0x22#8, 0x73#8], .oraLong 0x732291#24)] = true := by decide

/-- Row 1x of R77, with operand bytes in the order of R74 and R81. -/
theorem test_decode_row_1 : decodesAll [
    ([0x10#8, 0x91#8], .bpl 0x91#8), ([0x11#8, 0x91#8], .oraIndy 0x91#8),
    ([0x12#8, 0x91#8], .oraInd 0x91#8), ([0x13#8, 0x91#8], .oraSry 0x91#8),
    ([0x14#8, 0x91#8], .trbDp 0x91#8), ([0x15#8, 0x91#8], .oraDpx 0x91#8),
    ([0x16#8, 0x91#8], .aslDpx 0x91#8), ([0x17#8, 0x91#8], .oraIndly 0x91#8),
    ([0x18#8], .clc), ([0x19#8, 0x91#8, 0x22#8], .oraAbsy 0x2291#16),
    ([0x1A#8], .incAcc), ([0x1B#8], .tcs),
    ([0x1C#8, 0x91#8, 0x22#8], .trbAbs 0x2291#16), ([0x1D#8, 0x91#8, 0x22#8], .oraAbsx 0x2291#16),
    ([0x1E#8, 0x91#8, 0x22#8], .aslAbsx 0x2291#16), ([0x1F#8, 0x91#8, 0x22#8, 0x73#8], .oraLongx 0x732291#24)] = true := by decide

/-- Row 2x of R77, with operand bytes in the order of R74 and R81. -/
theorem test_decode_row_2 : decodesAll [
    ([0x20#8, 0x91#8, 0x22#8], .jsrAbs 0x2291#16), ([0x21#8, 0x91#8], .andIndx 0x91#8),
    ([0x22#8, 0x91#8, 0x22#8, 0x73#8], .jsl 0x732291#24), ([0x23#8, 0x91#8], .andSr 0x91#8),
    ([0x24#8, 0x91#8], .bitDp 0x91#8), ([0x25#8, 0x91#8], .andDp 0x91#8),
    ([0x26#8, 0x91#8], .rolDp 0x91#8), ([0x27#8, 0x91#8], .andIndl 0x91#8),
    ([0x28#8], .plp), ([0x29#8, 0x91#8], .andImmM (.imm8 0x91#8)),
    ([0x2A#8], .rolAcc), ([0x2B#8], .pld),
    ([0x2C#8, 0x91#8, 0x22#8], .bitAbs 0x2291#16), ([0x2D#8, 0x91#8, 0x22#8], .andAbs 0x2291#16),
    ([0x2E#8, 0x91#8, 0x22#8], .rolAbs 0x2291#16), ([0x2F#8, 0x91#8, 0x22#8, 0x73#8], .andLong 0x732291#24)] = true := by decide

/-- Row 3x of R77, with operand bytes in the order of R74 and R81. -/
theorem test_decode_row_3 : decodesAll [
    ([0x30#8, 0x91#8], .bmi 0x91#8), ([0x31#8, 0x91#8], .andIndy 0x91#8),
    ([0x32#8, 0x91#8], .andInd 0x91#8), ([0x33#8, 0x91#8], .andSry 0x91#8),
    ([0x34#8, 0x91#8], .bitDpx 0x91#8), ([0x35#8, 0x91#8], .andDpx 0x91#8),
    ([0x36#8, 0x91#8], .rolDpx 0x91#8), ([0x37#8, 0x91#8], .andIndly 0x91#8),
    ([0x38#8], .sec), ([0x39#8, 0x91#8, 0x22#8], .andAbsy 0x2291#16),
    ([0x3A#8], .decAcc), ([0x3B#8], .tsc),
    ([0x3C#8, 0x91#8, 0x22#8], .bitAbsx 0x2291#16), ([0x3D#8, 0x91#8, 0x22#8], .andAbsx 0x2291#16),
    ([0x3E#8, 0x91#8, 0x22#8], .rolAbsx 0x2291#16), ([0x3F#8, 0x91#8, 0x22#8, 0x73#8], .andLongx 0x732291#24)] = true := by decide

/-- Row 4x of R77, with operand bytes in the order of R74 and R81. -/
theorem test_decode_row_4 : decodesAll [
    ([0x40#8], .rti), ([0x41#8, 0x91#8], .eorIndx 0x91#8),
    ([0x42#8, 0x91#8], .wdm 0x91#8), ([0x43#8, 0x91#8], .eorSr 0x91#8),
    ([0x44#8, 0x11#8, 0x22#8], .mvp 0x11#8 0x22#8), ([0x45#8, 0x91#8], .eorDp 0x91#8),
    ([0x46#8, 0x91#8], .lsrDp 0x91#8), ([0x47#8, 0x91#8], .eorIndl 0x91#8),
    ([0x48#8], .pha), ([0x49#8, 0x91#8], .eorImmM (.imm8 0x91#8)),
    ([0x4A#8], .lsrAcc), ([0x4B#8], .phk),
    ([0x4C#8, 0x91#8, 0x22#8], .jmpAbs 0x2291#16), ([0x4D#8, 0x91#8, 0x22#8], .eorAbs 0x2291#16),
    ([0x4E#8, 0x91#8, 0x22#8], .lsrAbs 0x2291#16), ([0x4F#8, 0x91#8, 0x22#8, 0x73#8], .eorLong 0x732291#24)] = true := by decide

/-- Row 5x of R77, with operand bytes in the order of R74 and R81. -/
theorem test_decode_row_5 : decodesAll [
    ([0x50#8, 0x91#8], .bvc 0x91#8), ([0x51#8, 0x91#8], .eorIndy 0x91#8),
    ([0x52#8, 0x91#8], .eorInd 0x91#8), ([0x53#8, 0x91#8], .eorSry 0x91#8),
    ([0x54#8, 0x11#8, 0x22#8], .mvn 0x11#8 0x22#8), ([0x55#8, 0x91#8], .eorDpx 0x91#8),
    ([0x56#8, 0x91#8], .lsrDpx 0x91#8), ([0x57#8, 0x91#8], .eorIndly 0x91#8),
    ([0x58#8], .cli), ([0x59#8, 0x91#8, 0x22#8], .eorAbsy 0x2291#16),
    ([0x5A#8], .phy), ([0x5B#8], .tcd),
    ([0x5C#8, 0x91#8, 0x22#8, 0x73#8], .jmlLong 0x732291#24), ([0x5D#8, 0x91#8, 0x22#8], .eorAbsx 0x2291#16),
    ([0x5E#8, 0x91#8, 0x22#8], .lsrAbsx 0x2291#16), ([0x5F#8, 0x91#8, 0x22#8, 0x73#8], .eorLongx 0x732291#24)] = true := by decide

/-- Row 6x of R77, with operand bytes in the order of R74 and R81. -/
theorem test_decode_row_6 : decodesAll [
    ([0x60#8], .rts), ([0x61#8, 0x91#8], .adcIndx 0x91#8),
    ([0x62#8, 0x91#8, 0x22#8], .per 0x2291#16), ([0x63#8, 0x91#8], .adcSr 0x91#8),
    ([0x64#8, 0x91#8], .stzDp 0x91#8), ([0x65#8, 0x91#8], .adcDp 0x91#8),
    ([0x66#8, 0x91#8], .rorDp 0x91#8), ([0x67#8, 0x91#8], .adcIndl 0x91#8),
    ([0x68#8], .pla), ([0x69#8, 0x91#8], .adcImmM (.imm8 0x91#8)),
    ([0x6A#8], .rorAcc), ([0x6B#8], .rtl),
    ([0x6C#8, 0x91#8, 0x22#8], .jmpAind 0x2291#16), ([0x6D#8, 0x91#8, 0x22#8], .adcAbs 0x2291#16),
    ([0x6E#8, 0x91#8, 0x22#8], .rorAbs 0x2291#16), ([0x6F#8, 0x91#8, 0x22#8, 0x73#8], .adcLong 0x732291#24)] = true := by decide

/-- Row 7x of R77, with operand bytes in the order of R74 and R81. -/
theorem test_decode_row_7 : decodesAll [
    ([0x70#8, 0x91#8], .bvs 0x91#8), ([0x71#8, 0x91#8], .adcIndy 0x91#8),
    ([0x72#8, 0x91#8], .adcInd 0x91#8), ([0x73#8, 0x91#8], .adcSry 0x91#8),
    ([0x74#8, 0x91#8], .stzDpx 0x91#8), ([0x75#8, 0x91#8], .adcDpx 0x91#8),
    ([0x76#8, 0x91#8], .rorDpx 0x91#8), ([0x77#8, 0x91#8], .adcIndly 0x91#8),
    ([0x78#8], .sei), ([0x79#8, 0x91#8, 0x22#8], .adcAbsy 0x2291#16),
    ([0x7A#8], .ply), ([0x7B#8], .tdc),
    ([0x7C#8, 0x91#8, 0x22#8], .jmpAindx 0x2291#16), ([0x7D#8, 0x91#8, 0x22#8], .adcAbsx 0x2291#16),
    ([0x7E#8, 0x91#8, 0x22#8], .rorAbsx 0x2291#16), ([0x7F#8, 0x91#8, 0x22#8, 0x73#8], .adcLongx 0x732291#24)] = true := by decide

/-- Row 8x of R77, with operand bytes in the order of R74 and R81. -/
theorem test_decode_row_8 : decodesAll [
    ([0x80#8, 0x91#8], .bra 0x91#8), ([0x81#8, 0x91#8], .staIndx 0x91#8),
    ([0x82#8, 0x91#8, 0x22#8], .brl 0x2291#16), ([0x83#8, 0x91#8], .staSr 0x91#8),
    ([0x84#8, 0x91#8], .styDp 0x91#8), ([0x85#8, 0x91#8], .staDp 0x91#8),
    ([0x86#8, 0x91#8], .stxDp 0x91#8), ([0x87#8, 0x91#8], .staIndl 0x91#8),
    ([0x88#8], .dey), ([0x89#8, 0x91#8], .bitImmM (.imm8 0x91#8)),
    ([0x8A#8], .txa), ([0x8B#8], .phb),
    ([0x8C#8, 0x91#8, 0x22#8], .styAbs 0x2291#16), ([0x8D#8, 0x91#8, 0x22#8], .staAbs 0x2291#16),
    ([0x8E#8, 0x91#8, 0x22#8], .stxAbs 0x2291#16), ([0x8F#8, 0x91#8, 0x22#8, 0x73#8], .staLong 0x732291#24)] = true := by decide

/-- Row 9x of R77, with operand bytes in the order of R74 and R81. -/
theorem test_decode_row_9 : decodesAll [
    ([0x90#8, 0x91#8], .bcc 0x91#8), ([0x91#8, 0x91#8], .staIndy 0x91#8),
    ([0x92#8, 0x91#8], .staInd 0x91#8), ([0x93#8, 0x91#8], .staSry 0x91#8),
    ([0x94#8, 0x91#8], .styDpx 0x91#8), ([0x95#8, 0x91#8], .staDpx 0x91#8),
    ([0x96#8, 0x91#8], .stxDpy 0x91#8), ([0x97#8, 0x91#8], .staIndly 0x91#8),
    ([0x98#8], .tya), ([0x99#8, 0x91#8, 0x22#8], .staAbsy 0x2291#16),
    ([0x9A#8], .txs), ([0x9B#8], .txy),
    ([0x9C#8, 0x91#8, 0x22#8], .stzAbs 0x2291#16), ([0x9D#8, 0x91#8, 0x22#8], .staAbsx 0x2291#16),
    ([0x9E#8, 0x91#8, 0x22#8], .stzAbsx 0x2291#16), ([0x9F#8, 0x91#8, 0x22#8, 0x73#8], .staLongx 0x732291#24)] = true := by decide

/-- Row Ax of R77, with operand bytes in the order of R74 and R81. -/
theorem test_decode_row_a : decodesAll [
    ([0xA0#8, 0x91#8], .ldyImmX (.imm8 0x91#8)), ([0xA1#8, 0x91#8], .ldaIndx 0x91#8),
    ([0xA2#8, 0x91#8], .ldxImmX (.imm8 0x91#8)), ([0xA3#8, 0x91#8], .ldaSr 0x91#8),
    ([0xA4#8, 0x91#8], .ldyDp 0x91#8), ([0xA5#8, 0x91#8], .ldaDp 0x91#8),
    ([0xA6#8, 0x91#8], .ldxDp 0x91#8), ([0xA7#8, 0x91#8], .ldaIndl 0x91#8),
    ([0xA8#8], .tay), ([0xA9#8, 0x91#8], .ldaImmM (.imm8 0x91#8)),
    ([0xAA#8], .tax), ([0xAB#8], .plb),
    ([0xAC#8, 0x91#8, 0x22#8], .ldyAbs 0x2291#16), ([0xAD#8, 0x91#8, 0x22#8], .ldaAbs 0x2291#16),
    ([0xAE#8, 0x91#8, 0x22#8], .ldxAbs 0x2291#16), ([0xAF#8, 0x91#8, 0x22#8, 0x73#8], .ldaLong 0x732291#24)] = true := by decide

/-- Row Bx of R77, with operand bytes in the order of R74 and R81. -/
theorem test_decode_row_b : decodesAll [
    ([0xB0#8, 0x91#8], .bcs 0x91#8), ([0xB1#8, 0x91#8], .ldaIndy 0x91#8),
    ([0xB2#8, 0x91#8], .ldaInd 0x91#8), ([0xB3#8, 0x91#8], .ldaSry 0x91#8),
    ([0xB4#8, 0x91#8], .ldyDpx 0x91#8), ([0xB5#8, 0x91#8], .ldaDpx 0x91#8),
    ([0xB6#8, 0x91#8], .ldxDpy 0x91#8), ([0xB7#8, 0x91#8], .ldaIndly 0x91#8),
    ([0xB8#8], .clv), ([0xB9#8, 0x91#8, 0x22#8], .ldaAbsy 0x2291#16),
    ([0xBA#8], .tsx), ([0xBB#8], .tyx),
    ([0xBC#8, 0x91#8, 0x22#8], .ldyAbsx 0x2291#16), ([0xBD#8, 0x91#8, 0x22#8], .ldaAbsx 0x2291#16),
    ([0xBE#8, 0x91#8, 0x22#8], .ldxAbsy 0x2291#16), ([0xBF#8, 0x91#8, 0x22#8, 0x73#8], .ldaLongx 0x732291#24)] = true := by decide

/-- Row Cx of R77, with operand bytes in the order of R74 and R81. -/
theorem test_decode_row_c : decodesAll [
    ([0xC0#8, 0x91#8], .cpyImmX (.imm8 0x91#8)), ([0xC1#8, 0x91#8], .cmpIndx 0x91#8),
    ([0xC2#8, 0x91#8], .rep 0x91#8), ([0xC3#8, 0x91#8], .cmpSr 0x91#8),
    ([0xC4#8, 0x91#8], .cpyDp 0x91#8), ([0xC5#8, 0x91#8], .cmpDp 0x91#8),
    ([0xC6#8, 0x91#8], .decDp 0x91#8), ([0xC7#8, 0x91#8], .cmpIndl 0x91#8),
    ([0xC8#8], .iny), ([0xC9#8, 0x91#8], .cmpImmM (.imm8 0x91#8)),
    ([0xCA#8], .dex), ([0xCB#8], .wai),
    ([0xCC#8, 0x91#8, 0x22#8], .cpyAbs 0x2291#16), ([0xCD#8, 0x91#8, 0x22#8], .cmpAbs 0x2291#16),
    ([0xCE#8, 0x91#8, 0x22#8], .decAbs 0x2291#16), ([0xCF#8, 0x91#8, 0x22#8, 0x73#8], .cmpLong 0x732291#24)] = true := by decide

/-- Row Dx of R77, with operand bytes in the order of R74 and R81. -/
theorem test_decode_row_d : decodesAll [
    ([0xD0#8, 0x91#8], .bne 0x91#8), ([0xD1#8, 0x91#8], .cmpIndy 0x91#8),
    ([0xD2#8, 0x91#8], .cmpInd 0x91#8), ([0xD3#8, 0x91#8], .cmpSry 0x91#8),
    ([0xD4#8, 0x91#8], .pei 0x91#8), ([0xD5#8, 0x91#8], .cmpDpx 0x91#8),
    ([0xD6#8, 0x91#8], .decDpx 0x91#8), ([0xD7#8, 0x91#8], .cmpIndly 0x91#8),
    ([0xD8#8], .cld), ([0xD9#8, 0x91#8, 0x22#8], .cmpAbsy 0x2291#16),
    ([0xDA#8], .phx), ([0xDB#8], .stp),
    ([0xDC#8, 0x91#8, 0x22#8], .jmlAindl 0x2291#16), ([0xDD#8, 0x91#8, 0x22#8], .cmpAbsx 0x2291#16),
    ([0xDE#8, 0x91#8, 0x22#8], .decAbsx 0x2291#16), ([0xDF#8, 0x91#8, 0x22#8, 0x73#8], .cmpLongx 0x732291#24)] = true := by decide

/-- Row Ex of R77, with operand bytes in the order of R74 and R81. -/
theorem test_decode_row_e : decodesAll [
    ([0xE0#8, 0x91#8], .cpxImmX (.imm8 0x91#8)), ([0xE1#8, 0x91#8], .sbcIndx 0x91#8),
    ([0xE2#8, 0x91#8], .sep 0x91#8), ([0xE3#8, 0x91#8], .sbcSr 0x91#8),
    ([0xE4#8, 0x91#8], .cpxDp 0x91#8), ([0xE5#8, 0x91#8], .sbcDp 0x91#8),
    ([0xE6#8, 0x91#8], .incDp 0x91#8), ([0xE7#8, 0x91#8], .sbcIndl 0x91#8),
    ([0xE8#8], .inx), ([0xE9#8, 0x91#8], .sbcImmM (.imm8 0x91#8)),
    ([0xEA#8], .nop), ([0xEB#8], .xba),
    ([0xEC#8, 0x91#8, 0x22#8], .cpxAbs 0x2291#16), ([0xED#8, 0x91#8, 0x22#8], .sbcAbs 0x2291#16),
    ([0xEE#8, 0x91#8, 0x22#8], .incAbs 0x2291#16), ([0xEF#8, 0x91#8, 0x22#8, 0x73#8], .sbcLong 0x732291#24)] = true := by decide

/-- Row Fx of R77, with operand bytes in the order of R74 and R81. -/
theorem test_decode_row_f : decodesAll [
    ([0xF0#8, 0x91#8], .beq 0x91#8), ([0xF1#8, 0x91#8], .sbcIndy 0x91#8),
    ([0xF2#8, 0x91#8], .sbcInd 0x91#8), ([0xF3#8, 0x91#8], .sbcSry 0x91#8),
    ([0xF4#8, 0x91#8, 0x22#8], .pea 0x2291#16), ([0xF5#8, 0x91#8], .sbcDpx 0x91#8),
    ([0xF6#8, 0x91#8], .incDpx 0x91#8), ([0xF7#8, 0x91#8], .sbcIndly 0x91#8),
    ([0xF8#8], .sed), ([0xF9#8, 0x91#8, 0x22#8], .sbcAbsy 0x2291#16),
    ([0xFA#8], .plx), ([0xFB#8], .xce),
    ([0xFC#8, 0x91#8, 0x22#8], .jsrAindx 0x2291#16), ([0xFD#8, 0x91#8, 0x22#8], .sbcAbsx 0x2291#16),
    ([0xFE#8, 0x91#8, 0x22#8], .incAbsx 0x2291#16), ([0xFF#8, 0x91#8, 0x22#8, 0x73#8], .sbcLongx 0x732291#24)] = true := by decide

/-- R73: the twelve flag-dependent immediates take two bytes while their flag is 0. -/
theorem test_decode_wide_immediates : ([
    ([0x09#8, 0x91#8, 0x22#8], Instr.oraImmM (.imm16 0x2291#16)), ([0x29#8, 0x91#8, 0x22#8], .andImmM (.imm16 0x2291#16)),
    ([0x49#8, 0x91#8, 0x22#8], .eorImmM (.imm16 0x2291#16)), ([0x69#8, 0x91#8, 0x22#8], .adcImmM (.imm16 0x2291#16)),
    ([0x89#8, 0x91#8, 0x22#8], .bitImmM (.imm16 0x2291#16)), ([0xA9#8, 0x91#8, 0x22#8], .ldaImmM (.imm16 0x2291#16)),
    ([0xC9#8, 0x91#8, 0x22#8], .cmpImmM (.imm16 0x2291#16)), ([0xE9#8, 0x91#8, 0x22#8], .sbcImmM (.imm16 0x2291#16)),
    ([0xA0#8, 0x91#8, 0x22#8], .ldyImmX (.imm16 0x2291#16)), ([0xA2#8, 0x91#8, 0x22#8], .ldxImmX (.imm16 0x2291#16)),
    ([0xC0#8, 0x91#8, 0x22#8], .cpyImmX (.imm16 0x2291#16)), ([0xE0#8, 0x91#8, 0x22#8], .cpxImmX (.imm16 0x2291#16))
    ].all fun w => decode false false w.1 == some (w.2, [])) = true := by decide

/-- An opcode-table word is read with its first byte in bits 7 to 0. -/
theorem test_decodeTableWord : decodeTableWord 16 0x01A9 = some (.ldaImmM (.imm8 0x01#8)) ∧
    decodeTableWord 24 0x20008D = some (.staAbs 0x2000#16) ∧ decodeTableWord 8 0x5C = some (.jmlLong 0x000000#24) := by
  decide

/-- R84: the step after `withFetchWord` runs the word's instruction (`LDA #$01`). -/
theorem test_withFetchWord :
    (match step (State.reset.withFetchWord 16 0x01A9) with
      | .next t => decide (t.cpu.a = 0x0001#16 ∧ t.cpu.pc = 0x0002#16)
      | _ => false) = true := by decide

/-! ### One step per instruction -/

/-- Emulation mode at 00:8000 with `P = 0x34`. -/
def emu : Cpu := { Cpu.reset with pc := 0x8000#16 }

/-- Native mode at 00:8000 with `P = 0x04`: 16-bit widths. -/
def native : Cpu := { emu with e := false, s := 0x1FFF#16, p := Status.unpack 0x04#8 }

/-- The session of `Bus.reset` with these registers, the code at `PB:PC` and the bytes `mem`. -/
def start (c : Cpu) (code : List Byte) (mem : List (Address × Byte)) : State :=
  { State.reset with cpu := c, bus := mem.foldl (fun b w => b.place w.1 w.2) (placeBytes c.pb c.pc code 0 Bus.reset) }

/-- One step ends with the registers `f` makes of the start registers, with these bytes in memory, and this result. -/
def runs (s : State) (f : Cpu → Cpu) (mem : List (Address × Byte)) (result : Nat × Bool) : Bool :=
  match step s with
  | .next t => t.cpu == f s.cpu && mem.all (fun w => t.peek w.1 == some w.2) && stepResult s == some result
  | _ => false
/-- R131: spec/95_test_vectors.md, row "ADC 8-bit carry out". -/
theorem test_adc_8_bit_carry_out : runs (start { emu with a := 0x12FF#16 } [0x69#8, 0x01#8] [])
    (fun c => { c with a := 0x1200#16, pc := 0x8002#16, p := Status.unpack 0x37#8 }) [] (2, false) = true := by decide

/-- R131: spec/95_test_vectors.md, row "ADC 8-bit signed overflow". -/
theorem test_adc_8_bit_signed_overflow : runs (start { emu with a := 0x007F#16 } [0x69#8, 0x01#8] [])
    (fun c => { c with a := 0x0080#16, pc := 0x8002#16, p := Status.unpack 0xF4#8 }) [] (2, false) = true := by decide

/-- R132: spec/95_test_vectors.md, row "SBC 8-bit overflow". -/
theorem test_sbc_8_bit_overflow : runs (start { emu with p := Status.unpack 0x35#8, a := 0x0080#16 } [0xE9#8, 0x01#8] [])
    (fun c => { c with a := 0x007F#16, pc := 0x8002#16, p := Status.unpack 0x75#8 }) [] (2, false) = true := by decide

/-- R132: spec/95_test_vectors.md, row "SBC decimal borrow". -/
theorem test_sbc_decimal_borrow : runs (start { emu with p := Status.unpack 0x3D#8 } [0xE9#8, 0x01#8] [])
    (fun c => { c with a := 0x0099#16, pc := 0x8002#16, p := Status.unpack 0xBC#8 }) [] (2, false) = true := by decide

/-- R133: spec/95_test_vectors.md, row "AND imm 8". -/
theorem test_and_imm_8 : runs (start { emu with a := 0xAB5A#16 } [0x29#8, 0x0F#8] [])
    (fun c => { c with a := 0xAB0A#16, pc := 0x8002#16 }) [] (2, false) = true := by decide

/-- R134: spec/95_test_vectors.md, row "ORA imm 8 negative". -/
theorem test_ora_imm_8_negative : runs (start { emu with a := 0x0001#16 } [0x09#8, 0x80#8] [])
    (fun c => { c with a := 0x0081#16, pc := 0x8002#16, p := Status.unpack 0xB4#8 }) [] (2, false) = true := by decide

/-- R135: spec/95_test_vectors.md, row "EOR imm 8 zero". -/
theorem test_eor_imm_8_zero : runs (start { emu with a := 0x00FF#16 } [0x49#8, 0xFF#8] [])
    (fun c => { c with a := 0x0000#16, pc := 0x8002#16, p := Status.unpack 0x36#8 }) [] (2, false) = true := by decide

/-- R136: spec/95_test_vectors.md, row "CMP equal". -/
theorem test_cmp_equal : runs (start { emu with a := 0x0010#16 } [0xC9#8, 0x10#8] [])
    (fun c => { c with pc := 0x8002#16, p := Status.unpack 0x37#8 }) [] (2, false) = true := by decide

/-- R136: spec/95_test_vectors.md, row "CMP less". -/
theorem test_cmp_less : runs (start { emu with a := 0x0010#16 } [0xC9#8, 0x20#8] [])
    (fun c => { c with pc := 0x8002#16, p := Status.unpack 0xB4#8 }) [] (2, false) = true := by decide

/-- R137: spec/95_test_vectors.md, row "CPX 8-bit". -/
theorem test_cpx_8_bit : runs (start { emu with x := 0x00FF#16 } [0xE0#8, 0xFF#8] [])
    (fun c => { c with pc := 0x8002#16, p := Status.unpack 0x37#8 }) [] (2, false) = true := by decide

/-- R138: spec/95_test_vectors.md, row "CPY 16-bit less". -/
theorem test_cpy_16_bit_less : runs (start { native with y := 0x7FFF#16 } [0xC0#8, 0x00#8, 0x80#8] [])
    (fun c => { c with pc := 0x8003#16, p := Status.unpack 0x84#8 }) [] (3, false) = true := by decide

/-- R139: spec/95_test_vectors.md, row "BIT imm (Z only)". -/
theorem test_bit_imm_ind_z_only : runs (start { emu with p := Status.unpack 0xF4#8, a := 0x007F#16 } [0x89#8, 0x80#8] [])
    (fun c => { c with pc := 0x8002#16, p := Status.unpack 0xF6#8 }) [] (2, false) = true := by decide

/-- R139: spec/95_test_vectors.md, row "BIT dp (N,V,Z)". -/
theorem test_bit_dp_ind_n_v_z : runs (start { emu with a := 0x0001#16 } [0x24#8, 0x10#8] [(0x000010#24, 0xC0#8)])
    (fun c => { c with pc := 0x8002#16, p := Status.unpack 0xF6#8 }) [] (3, false) = true := by decide

/-- R140: spec/95_test_vectors.md, row "INC A 8-bit wrap". -/
theorem test_inc_a_8_bit_wrap : runs (start { emu with a := 0x12FF#16 } [0x1A#8] [])
    (fun c => { c with a := 0x1200#16, pc := 0x8001#16, p := Status.unpack 0x36#8 }) [] (2, false) = true := by decide

/-- R141: spec/95_test_vectors.md, row "DEC A 16-bit wrap". -/
theorem test_dec_a_16_bit_wrap : runs (start native [0x3A#8] [])
    (fun c => { c with a := 0xFFFF#16, pc := 0x8001#16, p := Status.unpack 0x84#8 }) [] (2, false) = true := by decide

/-- R142: spec/95_test_vectors.md, row "INX 8-bit wrap". -/
theorem test_inx_8_bit_wrap : runs (start { emu with x := 0x00FF#16 } [0xE8#8] [])
    (fun c => { c with x := 0x0000#16, pc := 0x8001#16, p := Status.unpack 0x36#8 }) [] (2, false) = true := by decide

/-- R145: spec/95_test_vectors.md, row "DEY 8-bit wrap". -/
theorem test_dey_8_bit_wrap : runs (start emu [0x88#8] [])
    (fun c => { c with y := 0x00FF#16, pc := 0x8001#16, p := Status.unpack 0xB4#8 }) [] (2, false) = true := by decide

/-- R144: spec/95_test_vectors.md, row "DEX 16-bit wrap". -/
theorem test_dex_16_bit_wrap : runs (start native [0xCA#8] [])
    (fun c => { c with x := 0xFFFF#16, pc := 0x8001#16, p := Status.unpack 0x84#8 }) [] (2, false) = true := by decide

/-- R143: spec/95_test_vectors.md, row "INY 16-bit wrap". -/
theorem test_iny_16_bit_wrap : runs (start { native with y := 0xFFFF#16 } [0xC8#8] [])
    (fun c => { c with y := 0x0000#16, pc := 0x8001#16, p := Status.unpack 0x06#8 }) [] (2, false) = true := by decide

/-- R146: spec/95_test_vectors.md, row "ASL A 8-bit". -/
theorem test_asl_a_8_bit : runs (start { emu with a := 0x1281#16 } [0x0A#8] [])
    (fun c => { c with a := 0x1202#16, pc := 0x8001#16, p := Status.unpack 0x35#8 }) [] (2, false) = true := by decide

/-- R147: spec/95_test_vectors.md, row "LSR A 8-bit". -/
theorem test_lsr_a_8_bit : runs (start { emu with a := 0x0001#16 } [0x4A#8] [])
    (fun c => { c with a := 0x0000#16, pc := 0x8001#16, p := Status.unpack 0x37#8 }) [] (2, false) = true := by decide

/-- R148: spec/95_test_vectors.md, row "ROL A 8-bit". -/
theorem test_rol_a_8_bit : runs (start { emu with p := Status.unpack 0x35#8, a := 0x0080#16 } [0x2A#8] [])
    (fun c => { c with a := 0x0001#16, pc := 0x8001#16 }) [] (2, false) = true := by decide

/-- R149: spec/95_test_vectors.md, row "ROR A 8-bit". -/
theorem test_ror_a_8_bit : runs (start { emu with p := Status.unpack 0x35#8, a := 0x0001#16 } [0x6A#8] [])
    (fun c => { c with a := 0x0080#16, pc := 0x8001#16, p := Status.unpack 0xB5#8 }) [] (2, false) = true := by decide

/-- R147: spec/95_test_vectors.md, row "LSR abs 16-bit". -/
theorem test_lsr_abs_16_bit : runs (start native [0x4E#8, 0x00#8, 0x20#8] [(0x002000#24, 0x01#8), (0x002001#24, 0x80#8)])
    (fun c => { c with pc := 0x8003#16, p := Status.unpack 0x05#8 }) [(0x002001#24, 0x40#8), (0x002000#24, 0x00#8)] (8, false) = true := by decide

/-- R148: spec/95_test_vectors.md, row "ROL abs,X 16-bit". -/
theorem test_rol_abs_x_16_bit : runs (start { native with p := Status.unpack 0x05#8, x := 0x0002#16 } [0x3E#8, 0x00#8, 0x20#8] [(0x002002#24, 0x00#8), (0x002003#24, 0x80#8)])
    (fun c => { c with pc := 0x8003#16 }) [(0x002003#24, 0x00#8), (0x002002#24, 0x01#8)] (9, false) = true := by decide

/-- R150: spec/95_test_vectors.md, row "TSB dp". -/
theorem test_tsb_dp : runs (start { emu with a := 0x000F#16 } [0x04#8, 0x10#8] [(0x000010#24, 0xF0#8)])
    (fun c => { c with pc := 0x8002#16, p := Status.unpack 0x36#8 }) [(0x000010#24, 0xFF#8)] (5, false) = true := by decide

/-- R151: spec/95_test_vectors.md, row "TRB dp". -/
theorem test_trb_dp : runs (start { emu with a := 0x000F#16 } [0x14#8, 0x10#8] [(0x000010#24, 0xFF#8)])
    (fun c => { c with pc := 0x8002#16 }) [(0x000010#24, 0xF0#8)] (5, false) = true := by decide

/-- R170: spec/95_test_vectors.md, row "LDA #1 (source)". -/
theorem test_lda_imm_1_ind_source : runs (start emu [0xA9#8, 0x01#8] [])
    (fun c => { c with a := 0x0001#16, pc := 0x8002#16 }) [] (2, false) = true := by decide

/-- R171: spec/95_test_vectors.md, row "LDX #FF 8-bit". -/
theorem test_ldx_imm_ff_8_bit : runs (start emu [0xA2#8, 0xFF#8] [])
    (fun c => { c with x := 0x00FF#16, pc := 0x8002#16, p := Status.unpack 0xB4#8 }) [] (2, false) = true := by decide

/-- R172: spec/95_test_vectors.md, row "LDY #imm 16-bit". -/
theorem test_ldy_imm_imm_16_bit : runs (start native [0xA0#8, 0x00#8, 0x80#8] [])
    (fun c => { c with y := 0x8000#16, pc := 0x8003#16, p := Status.unpack 0x84#8 }) [] (3, false) = true := by decide

/-- R170: spec/95_test_vectors.md, row "LDA abs 16-bit crossing bank". -/
theorem test_lda_abs_16_bit_crossing_bank : runs (start { native with db := 0x7E#8 } [0xAD#8, 0xFF#8, 0xFF#8] [(0x7E0000#24, 0x99#8), (0x7EFFFF#24, 0x34#8), (0x7F0000#24, 0x12#8)])
    (fun c => { c with a := 0x1234#16, pc := 0x8003#16 }) [] (5, false) = true := by decide

/-- R173: spec/95_test_vectors.md, row "STA dp 8-bit". -/
theorem test_sta_dp_8_bit : runs (start { emu with a := 0x12AB#16 } [0x85#8, 0x10#8] [])
    (fun c => { c with pc := 0x8002#16 }) [(0x000010#24, 0xAB#8)] (3, false) = true := by decide

/-- R173: spec/95_test_vectors.md, row "STA abs 16-bit (lo first)". -/
theorem test_sta_abs_16_bit_ind_lo_first : runs (start { native with a := 0x12AB#16, db := 0x7E#8 } [0x8D#8, 0x00#8, 0x20#8] [])
    (fun c => { c with pc := 0x8003#16 }) [(0x7E2000#24, 0xAB#8), (0x7E2001#24, 0x12#8)] (5, false) = true := by decide

/-- R174: spec/95_test_vectors.md, row "STX abs 16-bit". -/
theorem test_stx_abs_16_bit : runs (start { native with x := 0xBEEF#16 } [0x8E#8, 0x00#8, 0x20#8] [])
    (fun c => { c with pc := 0x8003#16 }) [(0x002000#24, 0xEF#8), (0x002001#24, 0xBE#8)] (5, false) = true := by decide

/-- R175: spec/95_test_vectors.md, row "STY dp,X". -/
theorem test_sty_dp_x : runs (start { emu with x := 0x0001#16, y := 0x0077#16 } [0x94#8, 0x10#8] [])
    (fun c => { c with pc := 0x8002#16 }) [(0x000011#24, 0x77#8)] (4, false) = true := by decide

/-- R176: spec/95_test_vectors.md, row "STZ abs 16-bit". -/
theorem test_stz_abs_16_bit : runs (start native [0x9C#8, 0x00#8, 0x20#8] [(0x002000#24, 0xFF#8), (0x002001#24, 0xFF#8)])
    (fun c => { c with pc := 0x8003#16 }) [(0x002000#24, 0x00#8), (0x002001#24, 0x00#8)] (5, false) = true := by decide

/-- R177: spec/95_test_vectors.md, row "TAX 8-bit index, 16-bit A". -/
theorem test_tax_8_bit_index_16_bit_a : runs (start { native with p := Status.unpack 0x14#8, a := 0x1280#16 } [0xAA#8] [])
    (fun c => { c with x := 0x0080#16, pc := 0x8001#16, p := Status.unpack 0x94#8 }) [] (2, false) = true := by decide

/-- R177: spec/95_test_vectors.md, row "TAX 16-bit index, 8-bit A (B copied)". -/
theorem test_tax_16_bit_index_8_bit_a_ind_b_copied : runs (start { native with p := Status.unpack 0x24#8, a := 0x1280#16 } [0xAA#8] [])
    (fun c => { c with x := 0x1280#16, pc := 0x8001#16 }) [] (2, false) = true := by decide

/-- R178: spec/95_test_vectors.md, row "TAY zero". -/
theorem test_tay_zero : runs (start { emu with a := 0x1200#16 } [0xA8#8] [])
    (fun c => { c with pc := 0x8001#16, p := Status.unpack 0x36#8 }) [] (2, false) = true := by decide

/-- R179: spec/95_test_vectors.md, row "TXA 8-bit A, 16-bit X". -/
theorem test_txa_8_bit_a_16_bit_x : runs (start { native with p := Status.unpack 0x24#8, a := 0x5500#16, x := 0x1234#16 } [0x8A#8] [])
    (fun c => { c with a := 0x5534#16, pc := 0x8001#16 }) [] (2, false) = true := by decide

/-- R179: spec/95_test_vectors.md, row "TXA 16-bit A, 8-bit X". -/
theorem test_txa_16_bit_a_8_bit_x : runs (start { native with p := Status.unpack 0x14#8, a := 0x5555#16, x := 0x0080#16 } [0x8A#8] [])
    (fun c => { c with a := 0x0080#16, pc := 0x8001#16 }) [] (2, false) = true := by decide

/-- R180: spec/95_test_vectors.md, row "TYA". -/
theorem test_tya : runs (start { emu with a := 0x12FF#16 } [0x98#8] [])
    (fun c => { c with a := 0x1200#16, pc := 0x8001#16, p := Status.unpack 0x36#8 }) [] (2, false) = true := by decide

/-- R181: spec/95_test_vectors.md, row "TXY". -/
theorem test_txy : runs (start { emu with x := 0x0080#16 } [0x9B#8] [])
    (fun c => { c with y := 0x0080#16, pc := 0x8001#16, p := Status.unpack 0xB4#8 }) [] (2, false) = true := by decide

/-- R182: spec/95_test_vectors.md, row "TYX 16". -/
theorem test_tyx_16 : runs (start { native with x := 0x1111#16 } [0xBB#8] [])
    (fun c => { c with x := 0x0000#16, pc := 0x8001#16, p := Status.unpack 0x06#8 }) [] (2, false) = true := by decide

/-- R183: spec/95_test_vectors.md, row "TSX emulation". -/
theorem test_tsx_emulation : runs (start emu [0xBA#8] [])
    (fun c => { c with x := 0x00FF#16, pc := 0x8001#16, p := Status.unpack 0xB4#8 }) [] (2, false) = true := by decide

/-- R184: spec/95_test_vectors.md, row "TXS emulation". -/
theorem test_txs_emulation : runs (start { emu with x := 0x0080#16 } [0x9A#8] [])
    (fun c => { c with s := 0x0180#16, pc := 0x8001#16 }) [] (2, false) = true := by decide

/-- R184: spec/95_test_vectors.md, row "TXS native, 8-bit X". -/
theorem test_txs_native_8_bit_x : runs (start { native with p := Status.unpack 0x14#8, x := 0x0080#16 } [0x9A#8] [])
    (fun c => { c with s := 0x0080#16, pc := 0x8001#16 }) [] (2, false) = true := by decide

/-- R185: spec/95_test_vectors.md, row "TCD". -/
theorem test_tcd : runs (start { emu with a := 0x8000#16 } [0x5B#8] [])
    (fun c => { c with d := 0x8000#16, pc := 0x8001#16, p := Status.unpack 0xB4#8 }) [] (2, false) = true := by decide

/-- R186: spec/95_test_vectors.md, row "TDC". -/
theorem test_tdc : runs (start { emu with a := 0x1234#16 } [0x7B#8] [])
    (fun c => { c with a := 0x0000#16, pc := 0x8001#16, p := Status.unpack 0x36#8 }) [] (2, false) = true := by decide

/-- R187: spec/95_test_vectors.md, row "TCS emulation". -/
theorem test_tcs_emulation : runs (start { emu with a := 0x1234#16 } [0x1B#8] [])
    (fun c => { c with s := 0x0134#16, pc := 0x8001#16 }) [] (2, false) = true := by decide

/-- R188: spec/95_test_vectors.md, row "TSC emulation". -/
theorem test_tsc_emulation : runs (start { emu with a := 0xFFFF#16 } [0x3B#8] [])
    (fun c => { c with a := 0x01FF#16, pc := 0x8001#16 }) [] (2, false) = true := by decide

/-- R189: spec/95_test_vectors.md, row "XBA". -/
theorem test_xba : runs (start { emu with a := 0x8000#16 } [0xEB#8] [])
    (fun c => { c with a := 0x0080#16, pc := 0x8001#16, p := Status.unpack 0xB4#8 }) [] (3, false) = true := by decide

/-- R215: spec/95_test_vectors.md, row "BNE taken (source)". -/
theorem test_bne_taken_ind_source : runs (start { emu with pc := 0x8002#16 } [0xD0#8, 0x02#8] [])
    (fun c => { c with pc := 0x8006#16 }) [] (3, false) = true := by decide

/-- R215: spec/95_test_vectors.md, row "BNE not taken". -/
theorem test_bne_not_taken : runs (start { emu with p := Status.unpack 0x36#8, pc := 0x8002#16 } [0xD0#8, 0x02#8] [])
    (fun c => { c with pc := 0x8004#16 }) [] (2, false) = true := by decide

/-- R214: spec/95_test_vectors.md, row "BEQ taken backward". -/
theorem test_beq_taken_backward : runs (start { emu with p := Status.unpack 0x36#8, pc := 0x8005#16 } [0xF0#8, 0xFB#8] [])
    (fun c => { c with pc := 0x8002#16 }) [] (3, false) = true := by decide

/-- R212: spec/95_test_vectors.md, row "BCC taken, page cross, E=1". -/
theorem test_bcc_taken_page_cross_e_1 : runs (start { emu with pc := 0x80F0#16 } [0x90#8, 0x7F#8] [])
    (fun c => { c with pc := 0x8171#16 }) [] (4, false) = true := by decide

/-- R213: spec/95_test_vectors.md, row "BCS not taken". -/
theorem test_bcs_not_taken : runs (start emu [0xB0#8, 0x10#8] [])
    (fun c => { c with pc := 0x8002#16 }) [] (2, false) = true := by decide

/-- R216: spec/95_test_vectors.md, row "BMI taken". -/
theorem test_bmi_taken : runs (start { emu with p := Status.unpack 0xB4#8 } [0x30#8, 0x10#8] [])
    (fun c => { c with pc := 0x8012#16 }) [] (3, false) = true := by decide

/-- R217: spec/95_test_vectors.md, row "BPL taken". -/
theorem test_bpl_taken : runs (start emu [0x10#8, 0xFE#8] [])
    (fun c => c) [] (3, false) = true := by decide

/-- R219: spec/95_test_vectors.md, row "BVS taken". -/
theorem test_bvs_taken : runs (start { emu with p := Status.unpack 0x74#8 } [0x70#8, 0x00#8] [])
    (fun c => { c with pc := 0x8002#16 }) [] (3, false) = true := by decide

/-- R218: spec/95_test_vectors.md, row "BVC not taken". -/
theorem test_bvc_not_taken : runs (start { emu with p := Status.unpack 0x74#8 } [0x50#8, 0x05#8] [])
    (fun c => { c with pc := 0x8002#16 }) [] (2, false) = true := by decide

/-- R220: spec/95_test_vectors.md, row "BRA wraps inside bank". -/
theorem test_bra_wraps_inside_bank : runs (start { native with pb := 0x01#8, pc := 0xFFF8#16 } [0x80#8, 0x10#8] [])
    (fun c => { c with pc := 0x000A#16 }) [] (3, false) = true := by decide

/-- R221: spec/95_test_vectors.md, row "BRL forward". -/
theorem test_brl_forward : runs (start emu [0x82#8, 0x00#8, 0x10#8] [])
    (fun c => { c with pc := 0x9003#16 }) [] (4, false) = true := by decide

/-- R222: spec/95_test_vectors.md, row "JMP abs". -/
theorem test_jmp_abs : runs (start { emu with pb := 0x05#8 } [0x4C#8, 0x34#8, 0x12#8] [])
    (fun c => { c with pc := 0x1234#16 }) [] (3, false) = true := by decide

/-- R222: spec/95_test_vectors.md, row "JMP (abs)". -/
theorem test_jmp_ind_abs : runs (start { emu with pb := 0x05#8 } [0x6C#8, 0x00#8, 0x20#8] [(0x002000#24, 0x78#8), (0x002001#24, 0x56#8), (0x052000#24, 0xFF#8)])
    (fun c => { c with pc := 0x5678#16 }) [] (5, false) = true := by decide

/-- R223: spec/95_test_vectors.md, row "JML long". -/
theorem test_jml_long : runs (start emu [0x5C#8, 0x56#8, 0x34#8, 0x12#8] [])
    (fun c => { c with pb := 0x12#8, pc := 0x3456#16 }) [] (4, false) = true := by decide

/-- R224: spec/95_test_vectors.md, row "JSR abs, emulation". -/
theorem test_jsr_abs_emulation : runs (start { emu with pc := 0x8010#16 } [0x20#8, 0x00#8, 0x90#8] [])
    (fun c => { c with s := 0x01FD#16, pc := 0x9000#16 }) [(0x0001FF#24, 0x80#8), (0x0001FE#24, 0x12#8)] (6, false) = true := by decide

/-- R226: spec/95_test_vectors.md, row "RTS". -/
theorem test_rts : runs (start { emu with s := 0x01FD#16 } [0x60#8] [(0x0001FE#24, 0x12#8), (0x0001FF#24, 0x80#8)])
    (fun c => { c with s := 0x01FF#16, pc := 0x8013#16 }) [] (6, false) = true := by decide

/-- R224: spec/95_test_vectors.md, row "JSR (abs,X) native". -/
theorem test_jsr_ind_abs_x_native : runs (start { native with pb := 0x05#8, x := 0x0002#16 } [0xFC#8, 0x00#8, 0x90#8] [(0x059002#24, 0x21#8), (0x059003#24, 0x43#8)])
    (fun c => { c with s := 0x1FFD#16, pc := 0x4321#16 }) [(0x001FFF#24, 0x80#8), (0x001FFE#24, 0x02#8)] (8, false) = true := by decide

/-- R225: spec/95_test_vectors.md, row "JSL native". -/
theorem test_jsl_native : runs (start { native with pb := 0x05#8, pc := 0x8010#16 } [0x22#8, 0x56#8, 0x34#8, 0x12#8] [])
    (fun c => { c with s := 0x1FFC#16, pb := 0x12#8, pc := 0x3456#16 }) [(0x001FFF#24, 0x05#8), (0x001FFE#24, 0x80#8), (0x001FFD#24, 0x13#8)] (8, false) = true := by decide

/-- R227: spec/95_test_vectors.md, row "RTL native". -/
theorem test_rtl_native : runs (start { native with s := 0x1FFC#16 } [0x6B#8] [(0x001FFD#24, 0x13#8), (0x001FFE#24, 0x80#8), (0x001FFF#24, 0x05#8)])
    (fun c => { c with s := 0x1FFF#16, pb := 0x05#8, pc := 0x8014#16 }) [] (6, false) = true := by decide

/-- R243: spec/95_test_vectors.md, row "PHA 8-bit". -/
theorem test_pha_8_bit : runs (start { emu with a := 0x12AB#16 } [0x48#8] [])
    (fun c => { c with s := 0x01FE#16, pc := 0x8001#16 }) [(0x0001FF#24, 0xAB#8)] (3, false) = true := by decide

/-- R243: spec/95_test_vectors.md, row "PHA 16-bit". -/
theorem test_pha_16_bit : runs (start { native with a := 0x12AB#16 } [0x48#8] [])
    (fun c => { c with s := 0x1FFD#16, pc := 0x8001#16 }) [(0x001FFF#24, 0x12#8), (0x001FFE#24, 0xAB#8)] (4, false) = true := by decide

/-- R244: spec/95_test_vectors.md, row "PHX (source loop)". -/
theorem test_phx_ind_source_loop : runs (start { emu with x := 0x00FF#16 } [0xDA#8] [])
    (fun c => { c with s := 0x01FE#16, pc := 0x8001#16 }) [(0x0001FF#24, 0xFF#8)] (3, false) = true := by decide

/-- R245: spec/95_test_vectors.md, row "PHY 16-bit". -/
theorem test_phy_16_bit : runs (start { native with s := 0x0200#16, y := 0xABCD#16 } [0x5A#8] [])
    (fun c => { c with s := 0x01FE#16, pc := 0x8001#16 }) [(0x000200#24, 0xAB#8), (0x0001FF#24, 0xCD#8)] (4, false) = true := by decide

/-- R246: spec/95_test_vectors.md, row "PHP emulation". -/
theorem test_php_emulation : runs (start { emu with p := Status.unpack 0x35#8 } [0x08#8] [])
    (fun c => { c with s := 0x01FE#16, pc := 0x8001#16 }) [(0x0001FF#24, 0x35#8)] (3, false) = true := by decide

/-- R247: spec/95_test_vectors.md, row "PHB". -/
theorem test_phb : runs (start { native with db := 0x7E#8 } [0x8B#8] [])
    (fun c => { c with s := 0x1FFE#16, pc := 0x8001#16 }) [(0x001FFF#24, 0x7E#8)] (3, false) = true := by decide

/-- R248: spec/95_test_vectors.md, row "PHD". -/
theorem test_phd : runs (start { native with d := 0x2100#16 } [0x0B#8] [])
    (fun c => { c with s := 0x1FFD#16, pc := 0x8001#16 }) [(0x001FFF#24, 0x21#8), (0x001FFE#24, 0x00#8)] (4, false) = true := by decide

/-- R249: spec/95_test_vectors.md, row "PHK". -/
theorem test_phk : runs (start { native with pb := 0x80#8 } [0x4B#8] [])
    (fun c => { c with s := 0x1FFE#16, pc := 0x8001#16 }) [(0x001FFF#24, 0x80#8)] (3, false) = true := by decide

/-- R250: spec/95_test_vectors.md, row "PLA 8-bit". -/
theorem test_pla_8_bit : runs (start { emu with s := 0x01FE#16, a := 0x5500#16 } [0x68#8] [(0x0001FF#24, 0x80#8)])
    (fun c => { c with a := 0x5580#16, s := 0x01FF#16, pc := 0x8001#16, p := Status.unpack 0xB4#8 }) [] (4, false) = true := by decide

/-- R251: spec/95_test_vectors.md, row "PLX 16-bit". -/
theorem test_plx_16_bit : runs (start { native with s := 0x1FFD#16 } [0xFA#8] [(0x001FFE#24, 0x34#8), (0x001FFF#24, 0x92#8)])
    (fun c => { c with x := 0x9234#16, s := 0x1FFF#16, pc := 0x8001#16, p := Status.unpack 0x84#8 }) [] (5, false) = true := by decide

/-- R252: spec/95_test_vectors.md, row "PLY (source loop)". -/
theorem test_ply_ind_source_loop : runs (start { emu with s := 0x01FE#16 } [0x7A#8] [(0x0001FF#24, 0xFF#8)])
    (fun c => { c with y := 0x00FF#16, s := 0x01FF#16, pc := 0x8001#16, p := Status.unpack 0xB4#8 }) [] (4, false) = true := by decide

/-- R253: spec/95_test_vectors.md, row "PLP emulation (M,X forced)". -/
theorem test_plp_emulation_ind_m_x_forced : runs (start { emu with s := 0x01FE#16 } [0x28#8] [(0x0001FF#24, 0x00#8)])
    (fun c => { c with s := 0x01FF#16, pc := 0x8001#16, p := Status.unpack 0x30#8 }) [] (4, false) = true := by decide

/-- R253: spec/95_test_vectors.md, row "PLP native sets X, truncates index". -/
theorem test_plp_native_sets_x_truncates_index : runs (start { native with s := 0x1FFE#16, x := 0x1234#16, y := 0xABCD#16 } [0x28#8] [(0x001FFF#24, 0x10#8)])
    (fun c => { c with x := 0x0034#16, y := 0x00CD#16, s := 0x1FFF#16, pc := 0x8001#16, p := Status.unpack 0x10#8 }) [] (4, false) = true := by decide

/-- R254: spec/95_test_vectors.md, row "PLB". -/
theorem test_plb : runs (start { native with s := 0x1FFE#16 } [0xAB#8] [(0x001FFF#24, 0x80#8)])
    (fun c => { c with s := 0x1FFF#16, db := 0x80#8, pc := 0x8001#16, p := Status.unpack 0x84#8 }) [] (4, false) = true := by decide

/-- R255: spec/95_test_vectors.md, row "PLD". -/
theorem test_pld : runs (start { native with s := 0x1FFD#16, d := 0x1111#16 } [0x2B#8] [(0x001FFE#24, 0x00#8), (0x001FFF#24, 0x00#8)])
    (fun c => { c with d := 0x0000#16, s := 0x1FFF#16, pc := 0x8001#16, p := Status.unpack 0x06#8 }) [] (5, false) = true := by decide

/-- R256: spec/95_test_vectors.md, row "PEA". -/
theorem test_pea : runs (start native [0xF4#8, 0x34#8, 0x12#8] [])
    (fun c => { c with s := 0x1FFD#16, pc := 0x8003#16 }) [(0x001FFF#24, 0x12#8), (0x001FFE#24, 0x34#8)] (5, false) = true := by decide

/-- R257: spec/95_test_vectors.md, row "PEI". -/
theorem test_pei : runs (start native [0xD4#8, 0x10#8] [(0x000010#24, 0x78#8), (0x000011#24, 0x56#8)])
    (fun c => { c with s := 0x1FFD#16, pc := 0x8002#16 }) [(0x001FFF#24, 0x56#8), (0x001FFE#24, 0x78#8)] (6, false) = true := by decide

/-- R258: spec/95_test_vectors.md, row "PER". -/
theorem test_per : runs (start native [0x62#8, 0x10#8, 0x00#8] [])
    (fun c => { c with s := 0x1FFD#16, pc := 0x8003#16 }) [(0x001FFF#24, 0x80#8), (0x001FFE#24, 0x13#8)] (6, false) = true := by decide

/-- R248: spec/95_test_vectors.md, row "PHD emulation S=0100 (default parameter)". -/
theorem test_phd_emulation_s_0100_ind_default_parameter : runs (start { emu with s := 0x0100#16, d := 0x1234#16 } [0x0B#8] [])
    (fun c => { c with s := 0x01FE#16, pc := 0x8001#16 }) [(0x000100#24, 0x12#8), (0x0001FF#24, 0x34#8)] (4, false) = true := by decide

/-- R271: spec/95_test_vectors.md, row "MVN 3 bytes, step 1". -/
theorem test_mvn_3_bytes_step_1 : runs (start { native with a := 0x0002#16, x := 0x1000#16, y := 0x2000#16 } [0x54#8, 0x7F#8, 0x7E#8] [(0x7E1000#24, 0x11#8), (0x7E1001#24, 0x22#8), (0x7E1002#24, 0x33#8)])
    (fun c => { c with a := 0x0001#16, x := 0x1001#16, y := 0x2001#16, db := 0x7F#8 }) [(0x7F2000#24, 0x11#8)] (7, false) = true := by decide

/-- R271: spec/95_test_vectors.md, row "MVN 8-bit index wraps in page 0". -/
theorem test_mvn_8_bit_index_wraps_in_page_0 : runs (start { native with p := Status.unpack 0x14#8, x := 0x00FF#16, y := 0x00FF#16 } [0x54#8, 0x00#8, 0x00#8] [(0x0000FF#24, 0x5A#8)])
    (fun c => { c with a := 0xFFFF#16, x := 0x0000#16, y := 0x0000#16, pc := 0x8003#16 }) [(0x0000FF#24, 0x5A#8)] (7, false) = true := by decide

/-- R280: spec/95_test_vectors.md, row "CLC". -/
theorem test_clc : runs (start { emu with p := Status.unpack 0x35#8 } [0x18#8] [])
    (fun c => { c with pc := 0x8001#16, p := Status.unpack 0x34#8 }) [] (2, false) = true := by decide

/-- R281: spec/95_test_vectors.md, row "SEC". -/
theorem test_sec : runs (start emu [0x38#8] [])
    (fun c => { c with pc := 0x8001#16, p := Status.unpack 0x35#8 }) [] (2, false) = true := by decide

/-- R282: spec/95_test_vectors.md, row "CLI". -/
theorem test_cli : runs (start emu [0x58#8] [])
    (fun c => { c with pc := 0x8001#16, p := Status.unpack 0x30#8 }) [] (2, false) = true := by decide

/-- R283: spec/95_test_vectors.md, row "SEI". -/
theorem test_sei : runs (start { native with p := Status.unpack 0x00#8 } [0x78#8] [])
    (fun c => { c with pc := 0x8001#16, p := Status.unpack 0x04#8 }) [] (2, false) = true := by decide

/-- R284: spec/95_test_vectors.md, row "CLD". -/
theorem test_cld : runs (start { emu with p := Status.unpack 0x3C#8 } [0xD8#8] [])
    (fun c => { c with pc := 0x8001#16, p := Status.unpack 0x34#8 }) [] (2, false) = true := by decide

/-- R285: spec/95_test_vectors.md, row "SED". -/
theorem test_sed : runs (start emu [0xF8#8] [])
    (fun c => { c with pc := 0x8001#16, p := Status.unpack 0x3C#8 }) [] (2, false) = true := by decide

/-- R286: spec/95_test_vectors.md, row "CLV". -/
theorem test_clv : runs (start { emu with p := Status.unpack 0x74#8 } [0xB8#8] [])
    (fun c => { c with pc := 0x8001#16, p := Status.unpack 0x34#8 }) [] (2, false) = true := by decide

/-- R287: spec/95_test_vectors.md, row "REP #30 native". -/
theorem test_rep_imm_30_native : runs (start { native with p := Status.unpack 0x34#8 } [0xC2#8, 0x30#8] [])
    (fun c => { c with pc := 0x8002#16, p := Status.unpack 0x04#8 }) [] (3, false) = true := by decide

/-- R287: spec/95_test_vectors.md, row "REP #30 emulation (M,X stay)". -/
theorem test_rep_imm_30_emulation_ind_m_x_stay : runs (start emu [0xC2#8, 0x30#8] [])
    (fun c => { c with pc := 0x8002#16 }) [] (3, false) = true := by decide

/-- R288: spec/95_test_vectors.md, row "SEP #10 truncates X,Y". -/
theorem test_sep_imm_10_truncates_x_y : runs (start { native with x := 0x1234#16, y := 0xFF00#16 } [0xE2#8, 0x10#8] [])
    (fun c => { c with x := 0x0034#16, y := 0x0000#16, pc := 0x8002#16, p := Status.unpack 0x14#8 }) [] (3, false) = true := by decide

/-- R288: spec/95_test_vectors.md, row "SEP #20 keeps B". -/
theorem test_sep_imm_20_keeps_b : runs (start { native with a := 0x1234#16 } [0xE2#8, 0x20#8] [])
    (fun c => { c with pc := 0x8002#16, p := Status.unpack 0x24#8 }) [] (3, false) = true := by decide

/-- R289: spec/95_test_vectors.md, row "XCE to native". -/
theorem test_xce_to_native : runs (start emu [0xFB#8] [])
    (fun c => { c with pc := 0x8001#16, p := Status.unpack 0x35#8, e := false }) [] (2, false) = true := by decide

/-- R289: spec/95_test_vectors.md, row "XCE to emulation". -/
theorem test_xce_to_emulation : runs (start { native with p := Status.unpack 0x05#8, a := 0xBEEF#16, x := 0x1234#16, y := 0x5678#16, s := 0x1FF0#16 } [0xFB#8] [])
    (fun c => { c with x := 0x0034#16, y := 0x0078#16, s := 0x01F0#16, pc := 0x8001#16, p := Status.unpack 0x34#8, e := true }) [] (2, false) = true := by decide

/-- R300: spec/95_test_vectors.md, row "BRK emulation". -/
theorem test_brk_emulation : runs (start { emu with pc := 0x8006#16 } [0x00#8, 0x00#8] [(0x00FFFE#24, 0x00#8), (0x00FFFF#24, 0x90#8)])
    (fun c => { c with s := 0x01FC#16, pc := 0x9000#16 }) [(0x0001FF#24, 0x80#8), (0x0001FE#24, 0x08#8), (0x0001FD#24, 0x34#8)] (7, false) = true := by decide

/-- R300: spec/95_test_vectors.md, row "BRK native". -/
theorem test_brk_native : runs (start { native with p := Status.unpack 0x09#8, pb := 0x01#8, pc := 0x9000#16 } [0x00#8, 0xEA#8] [(0x00FFE6#24, 0x00#8), (0x00FFE7#24, 0xA0#8)])
    (fun c => { c with s := 0x1FFB#16, pb := 0x00#8, pc := 0xA000#16, p := Status.unpack 0x05#8 }) [(0x001FFF#24, 0x01#8), (0x001FFE#24, 0x90#8), (0x001FFD#24, 0x02#8), (0x001FFC#24, 0x09#8)] (8, false) = true := by decide +kernel

/-- R301: spec/95_test_vectors.md, row "COP native". -/
theorem test_cop_native : runs (start { native with pb := 0x01#8, pc := 0x9000#16 } [0x02#8, 0x00#8] [(0x00FFE4#24, 0x34#8), (0x00FFE5#24, 0x12#8)])
    (fun c => { c with s := 0x1FFB#16, pb := 0x00#8, pc := 0x1234#16 }) [(0x001FFF#24, 0x01#8), (0x001FFE#24, 0x90#8), (0x001FFD#24, 0x02#8), (0x001FFC#24, 0x04#8)] (8, false) = true := by decide +kernel

/-- R302: spec/95_test_vectors.md, row "RTI native". -/
theorem test_rti_native : runs (start { native with s := 0x1FFB#16 } [0x40#8] [(0x001FFC#24, 0xC1#8), (0x001FFD#24, 0x02#8), (0x001FFE#24, 0x90#8), (0x001FFF#24, 0x01#8)])
    (fun c => { c with s := 0x1FFF#16, pb := 0x01#8, pc := 0x9002#16, p := Status.unpack 0xC1#8 }) [] (7, false) = true := by decide

/-- R302: spec/95_test_vectors.md, row "RTI emulation". -/
theorem test_rti_emulation : runs (start { emu with s := 0x01FC#16 } [0x40#8] [(0x0001FD#24, 0x00#8), (0x0001FE#24, 0x08#8), (0x0001FF#24, 0x80#8)])
    (fun c => { c with s := 0x01FF#16, pc := 0x8008#16, p := Status.unpack 0x30#8 }) [] (6, false) = true := by decide

/-- R306: spec/95_test_vectors.md, row "NOP". -/
theorem test_nop : runs (start emu [0xEA#8] [])
    (fun c => { c with pc := 0x8001#16 }) [] (2, false) = true := by decide

/-- R272: spec/95_test_vectors.md, row "MVP 2 bytes, 2 steps", its first step. -/
theorem test_mvp_step_1 : runs (start { native with a := 0x0001#16, x := 0x1001#16, y := 0x1002#16 } [0x44#8, 0x00#8, 0x00#8]
      [(0x001000#24, 0xAA#8), (0x001001#24, 0xBB#8)])
    (fun c => { c with a := 0x0000#16, x := 0x1000#16, y := 0x1001#16 }) [(0x001002#24, 0xBB#8)] (7, false) = true := by decide

/-- R303: spec/95_test_vectors.md, row "WAI then idle", its first step. -/
theorem test_wai : runs (start emu [0xCB#8] []) (fun c => { c with pc := 0x8001#16 }) [] (3, false) = true := by decide

/-- R303: spec/95_test_vectors.md, row "WAI then idle", its second step. -/
theorem test_wai_idle : runs { start { emu with pc := 0x8001#16 } [] [] with waiting := true } id [] (0, false) = true := by
  decide

/-- R304: spec/95_test_vectors.md, row "STP then refused", its first step. -/
theorem test_stp : runs (start emu [0xDB#8] []) (fun c => { c with pc := 0x8001#16 }) [] (3, true) = true := by decide

/-- R305: spec/95_test_vectors.md, row "WDM then refused", its first step. -/
theorem test_wdm : runs (start { emu with pc := 0x8010#16 } [0x42#8, 0x00#8] [])
    (fun c => { c with pc := 0x8012#16 }) [] (2, true) = true := by decide

/-! ### Costs (R358, R359) -/

/-- Note `px`: `LDA $80FF,X` crosses a page with `X = 1`, and not with `X = 0`. -/
theorem test_cost_page_crossing :
    runs (start { emu with x := 0x0001#16 } [0xBD#8, 0xFF#8, 0x80#8] [(0x008100#24, 0x01#8)])
      (fun c => { c with a := 0x0001#16, pc := 0x8003#16 }) [] (5, false) = true ∧
    runs (start emu [0xBD#8, 0xFF#8, 0x80#8] [(0x0080FF#24, 0x01#8)])
      (fun c => { c with a := 0x0001#16, pc := 0x8003#16 }) [] (4, false) = true := by decide

/-- Log entry 11: with `ABORT_OPCODE` 0x80 the base cost 3, although the branch would leave the page of `PCn`. -/
theorem test_abort_branch_cost :
    runs { start { emu with pc := 0x80FD#16 } [0x80#8, 0x7F#8] [] with params := { abortOpcode := 0x80#8 } }
      (fun c => { c with pc := 0x80FF#16 }) [] (3, true) = true := by decide

/-- Log entry 11: with `ABORT_OPCODE` 0xBD no page crossing is counted, at 8 bits 4 cycles; `px` and `m` count at 16. -/
theorem test_abort_indexed_cost :
    runs { start { emu with x := 0x0001#16 } [0xBD#8, 0xFF#8, 0x80#8] [] with params := { abortOpcode := 0xBD#8 } }
      (fun c => { c with pc := 0x8003#16 }) [] (4, true) = true ∧
    runs { start native [0xBD#8, 0xFF#8, 0x80#8] [] with params := { abortOpcode := 0xBD#8 } }
      (fun c => { c with pc := 0x8003#16 }) [] (6, true) = true := by decide

/-! ### Sessions for the tests below -/

/-- A state with both widths 16. -/
def wide : State := start native [] []

/-- A state in Emulation mode. -/
def small : State := start emu [] []

/-- Two ranges attached, as in row F4 of spec/95_test_vectors.md: 00:0000 to 00:1FFF and 00:8000 to 00:FFFF. -/
def gap (s : State) : State := s.withBus { s.bus with table := [⟨0, 0x000, 0x1FF⟩, ⟨0, 0x800, 0xFFF⟩] }

/-- Nothing attached. -/
def bare (s : State) : State := s.withBus { s.bus with table := [] }

/-- With the page wrap of R121 and an index. -/
def wrapping : State :=
  { start { emu with d := 0x0200#16, x := 0x0002#16, y := 0x0003#16 } [] [] with params := { emuDpPageWrap := true } }

/-- With interrupt inputs. -/
def listening (s : State) : State := { s with params := { hasInterruptInputs := true } }

/-! ### Bus failures and interrupts -/

/-- R322: spec/95_test_vectors.md, row F4: the first byte of the store stands, the registers roll back. -/
theorem test_bus_failure_partial_store : runs (gap (start { native with a := 0xBEEF#16 } [0x8D#8, 0xFF#8, 0x1F#8] [])) id
    [(0x001FFF#24, 0xEF#8)] (0, true) = true := by decide

/-- R322: spec/95_test_vectors.md, row F6: the pointer's second byte is unmapped. -/
theorem test_bus_failure_pointer :
    (match step (State.withBus (start { native with p := Status.unpack 0x24#8, d := 0x2F00#16 } [0xB1#8, 0xFF#8] [])
        { Bus.reset with table := [⟨0, 0x200, 0x2FF⟩, ⟨0, 0x800, 0xFFF⟩]
                         regions := (start native [0xB1#8, 0xFF#8] []).bus.regions }) with
      | .next t => decide (t.abortCause = .busUnmapped 0x003000#24 .read ∧ t.cpu.pc = 0x8000#16 ∧
          t.bus.lastAddr = 0x003000#24)
      | _ => false) = true := by decide

/-- R328: spec/95_test_vectors.md, row I1. -/
theorem test_nmi_emulation : runs (listening { start { emu with p := Status.unpack 0x30#8, pc := 0x8004#16 } []
      [(0x00FFFB#24, 0x90#8)] with nmiPending := true })
    (fun c => { c with s := 0x01FC#16, p := Status.unpack 0x34#8, pc := 0x9000#16 })
    [(0x0001FF#24, 0x80#8), (0x0001FE#24, 0x04#8), (0x0001FD#24, 0x20#8)] (7, false) = true := by decide

/-- R328: spec/95_test_vectors.md, row I2. -/
theorem test_irq_native : runs (listening { start { native with p := Status.unpack 0x00#8, pb := 0x01#8, pc := 0x9000#16 } []
      [(0x00FFEE#24, 0x34#8), (0x00FFEF#24, 0x12#8)] with irqLine := true })
    (fun c => { c with s := 0x1FFB#16, p := Status.unpack 0x04#8, pb := 0x00#8, pc := 0x1234#16 })
    [(0x001FFF#24, 0x01#8), (0x001FFE#24, 0x90#8)] (8, false) = true := by decide +kernel

/-- R328: spec/95_test_vectors.md, row I4. -/
theorem test_masked_irq_ends_wait :
    runs (listening { start { emu with pc := 0x8001#16 } [0xEA#8] [] with irqLine := true, waiting := true })
      (fun c => { c with pc := 0x8002#16 }) [] (2, false) = true := by decide

/-- A session whose only region is ROM. -/
def romSession : State :=
  { State.reset with bus := { State.reset.bus with regions := [⟨.rom, 16777216, 0x000000#24, .reference, []⟩] } }

/-! ### What the host does (R352, R360) -/

/-- R352: a constructed session whose host attached nothing cannot read its reset vector. -/
theorem test_construct_unattached :
    (State.construct {} ⟨emu, 0x000000#24, .read, .noAbort, false, false, false, false, 0, 0, 0x0000#16⟩).hostReset.abortCause =
      .busUnmapped 0x00FFFC#24 .read := by decide

/-- R42: a direct write of a ROM region changes nothing; one of a RAM region does, and is no bus access (R28). -/
theorem test_region_write :
    (romSession.writeRegion 0 0x000010#24 0x12#8).map (·.bus) = some romSession.bus ∧
    (State.reset.writeRegion 0 0x000010#24 0x12#8).map (fun t => (t.peek 0x000010#24, t.bus.lastAddr)) =
      some (some 0x12#8, State.reset.bus.lastAddr) := by decide

/-- R41: a region's own dump, both ends included; R60: a bus dump stops at the end of the range. -/
theorem test_dumps :
    (start emu [] [(0x000010#24, 0x12#8), (0x000011#24, 0x34#8)]).dumpRegion 0 0x000010#24 0x000011#24 =
      some [0x12#8, 0x34#8] ∧
    (start emu [] [(0x000010#24, 0x12#8)]).bus.dump 0x000010#24 0x000010#24 [0xAA#8, 0xBB#8] = [0x12#8, 0xBB#8] := by decide

/-- R360: two NOPs use up a budget of 4 cycles. -/
theorem test_cycle_budget :
    (runCycleBudget 4 4 (start emu [0xEA#8, 0xEA#8, 0xDB#8] [])).map (fun r => (r.1, r.2.cpu.pc)) =
      some (.budgetExhausted, 0x8002#16) := by decide

/-! ### Witnesses: the hypotheses of each statement can be met -/

theorem witness_EncodeThenDecode : (Instr.ldaImmM (.imm16 0xFFFF#16)).wellFormed false true = true ∧
    (Instr.ldxImmX (.imm8 0xFF#8)).wellFormed false true = true := by decide

theorem witness_DecodeThenEncode :
    decode true true [0xA9#8, 0xFF#8, 0x12#8] = some (.ldaImmM (.imm8 0xFF#8), [0x12#8]) := by decide

theorem witness_EveryOpcodeDecodes : operandCount true true 0x5C#8 ≤ [0x00#8, 0x80#8, 0x7E#8].length ∧
    [0x00#8, 0x80#8].length < operandCount true true 0x5C#8 := by decide

theorem witness_StepRunsDecodedInstruction : ∃ bytes b,
    let s := start emu [0xA9#8, 0x01#8] []
    s.abortCause = .noAbort ∧ s.waiting = false ∧ NoInterruptTaken s ∧
    s.bus.loadAll ((List.range 2).map (fetchAddr s.cpu.pb s.cpu.pc)) = some (bytes, b) ∧
    decode s.cpu.p.m s.cpu.p.x bytes = some (.ldaImmM (.imm8 0x01#8), []) ∧
    (Instr.ldaImmM (.imm8 0x01#8)).opcode ≠ s.params.abortOpcode :=
  ⟨_, _, rfl, rfl, .inl rfl, rfl, rfl, by decide⟩

theorem witness_AbortOpcodeStep : ∃ bytes b,
    let s := start emu [0x42#8, 0x00#8] []
    s.abortCause = .noAbort ∧ s.waiting = false ∧ NoInterruptTaken s ∧
    s.bus.loadAll ((List.range 2).map (fetchAddr s.cpu.pb s.cpu.pc)) = some (bytes, b) ∧
    decode s.cpu.p.m s.cpu.p.x bytes = some (.wdm 0x00#8, []) ∧ (Instr.wdm 0x00#8).opcode = s.params.abortOpcode :=
  ⟨_, _, rfl, rfl, .inl rfl, rfl, rfl, rfl⟩

theorem witness_AbortOpcodeStep_other : { State.reset with params := { abortOpcode := 0xDB#8 } }.params.abortOpcode ≠ 0x42#8 := by
  decide

theorem witness_LatchedAndIdleSteps :
    { State.reset with abortCause := .stopped, stopped := true }.abortCause ≠ .noAbort ∧
    ({ State.reset with waiting := true }.params.hasInterruptInputs = false) ∧
    ((listening { State.reset with waiting := true }).nmiPending = false ∧
      (listening { State.reset with waiting := true }).irqLine = false) := by decide

theorem witness_StepKeepsInvariant :
    (∃ t, StateInv (start native [0xFB#8] []) ∧ step (start native [0xFB#8] []) = .next t) ∧
    RegionsWf (start native [0xFB#8] []).bus :=
  ⟨⟨_, ⟨⟨fun h => (nomatch h), fun h => (nomatch h)⟩, by simp only [RegionsWf]; decide, by simp only [LatchInv]; decide⟩, rfl⟩,
    by simp only [RegionsWf]; decide⟩

theorem witness_HostReset : (∃ b, State.reset.bus.loadAll [0x00FFFC#24, 0x00FFFD#24] = some ([0x00#8, 0x00#8], b)) ∧
    (bare State.reset).bus.regionAt 0x00FFFC#24 = none := ⟨⟨_, rfl⟩, rfl⟩

/-- Number `k` of these writes is the first unmapped one. -/
def WriteBreaks (b : Bus) (writes : List (Address × Byte)) (k : Nat) : Prop :=
  ∃ a v b', writes[k]? = some (a, v) ∧ b.storeAll (writes.take k) = some b' ∧ b'.regionAt a = none

/-- Number `k` of these reads is the first unmapped one. -/
def ReadBreaks (b : Bus) (reads : List Address) (k : Nat) : Prop :=
  ∃ a bytes b', reads[k]? = some a ∧ b.loadAll (reads.take k) = some (bytes, b') ∧ b'.regionAt a = none

/-- The premises of `StoringFailure`. -/
def StoreBreaks (mn : Mnemonic) (narrow : Cpu → Bool) (value : Cpu → Word) (i : Instr) (s : State) (k : Nat) : Prop :=
  ∃ m r b, i.mnemonic = mn ∧ memOperand i.operand = some m ∧ resolve m (advance i s) = .ok r ((advance i s).withBus b) ∧
    WriteBreaks b ((dataAddresses (narrow s.cpu) r).zip (dataBytes (narrow s.cpu) (value s.cpu))) k

/-- The premises of `ModifyingFailure`. -/
def ModifyBreaks (i : Instr) (s : State) (k : Nat) : Prop :=
  ∃ m r b, i.mnemonic ∈ modifiers ∧ memOperand i.operand = some m ∧
    resolve m (advance i s) = .ok r ((advance i s).withBus b) ∧ ReadBreaks b (dataAddresses s.cpu.p.m r) k

/-- Row F1 of spec/95_test_vectors.md; the second byte of a store at `$1FFF` (row F4) and the only byte of one at `$2000`;
both bytes of a read-modify-write. -/
theorem witness_BusFailureIsPrecise :
    (∃ t, (bare State.reset).abortCause = .noAbort ∧ step (bare State.reset) = .next t ∧
      t.abortCause = .busUnmapped 0x000000#24 .read) ∧
    (StoreBreaks .sta (·.p.m) (·.a) (.staAbs 0x1FFF#16) (gap wide) 1 ∧
      StoreBreaks .stx (·.p.x) (·.x) (.stxAbs 0x2000#16) (gap small) 0 ∧
      StoreBreaks .sty (·.p.x) (·.y) (.styAbs 0x1FFF#16) (gap wide) 1 ∧
      StoreBreaks .stz (·.p.m) (fun _ => 0x0000#16) (.stzAbsx 0x1FFF#16) (gap wide) 1) ∧
    (ModifyBreaks (.incAbs 0x1FFF#16) (gap wide) 1 ∧ ModifyBreaks (.rorAbs 0x2000#16) (gap small) 0) :=
  ⟨⟨_, rfl, rfl, rfl⟩,
    ⟨⟨_, _, _, rfl, rfl, rfl, _, _, _, rfl, rfl, rfl⟩, ⟨_, _, _, rfl, rfl, rfl, _, _, _, rfl, rfl, rfl⟩,
      ⟨_, _, _, rfl, rfl, rfl, _, _, _, rfl, rfl, rfl⟩, ⟨_, _, _, rfl, rfl, rfl, _, _, _, rfl, rfl, rfl⟩⟩,
    ⟨_, _, _, by decide, rfl, rfl, _, _, _, rfl, rfl, rfl⟩, ⟨_, _, _, by decide, rfl, rfl, _, _, _, rfl, rfl, rfl⟩⟩

/-- Native mode with this stack pointer. -/
def brink (sp : Word) : State := gap (start { native with s := sp } [] [])

/-- The pushes at the top of an unmapped range, and after one byte of it. -/
theorem witness_BusFailureIsPrecise_pushes :
    (let s := brink 0x2000#16;
      WriteBreaks s.bus (pushWrites s.cpu.e s.cpu.s 0 [hiByte s.cpu.a, loByte s.cpu.a]) 0 ∧
      WriteBreaks s.bus (pushWrites s.stackWrapsNew s.cpu.s 0 [hiByte s.cpu.d, loByte s.cpu.d]) 0) ∧
    (let s := brink 0x8000#16;
      WriteBreaks s.bus (pushWrites s.cpu.e s.cpu.s 0 [hiByte s.cpu.x, loByte s.cpu.x]) 1 ∧
      WriteBreaks s.bus (pushWrites s.stackWrapsNew s.cpu.s 0 [s.cpu.pb, hiByte (s.cpu.pc + 3#16), loByte (s.cpu.pc + 3#16)])
        1 ∧
      ∃ v b, directPointer (directOffset s 0x10#8) (advance (.pei 0x10#8) s) = .ok v ((advance (.pei 0x10#8) s).withBus b) ∧
        WriteBreaks b (pushWrites s.stackWrapsNew s.cpu.s 0 [hiByte v, loByte v]) 1) :=
  ⟨⟨⟨_, _, _, rfl, rfl, rfl⟩, ⟨_, _, _, rfl, rfl, rfl⟩⟩, ⟨_, _, _, rfl, rfl, rfl⟩, ⟨_, _, _, rfl, rfl, rfl⟩,
    _, _, rfl, _, _, _, rfl, rfl, rfl⟩

/-- The pointer of `JSR ($1FFF,X)` after the push; the destination of a block move; the frame and the vector of a trap and
of an interrupt. -/
theorem witness_BusFailureIsPrecise_entries :
    (∃ b, let s := gap wide
      s.bus.storeAll (pushWrites s.stackWrapsNew s.cpu.s 0 [hiByte (s.cpu.pc + 2#16), loByte (s.cpu.pc + 2#16)]) = some b ∧
      ReadBreaks b (byteAddresses .bank 2 (mkAddr s.cpu.pb (0x1FFF#16 + s.cpu.x))) 1) ∧
    (∃ v b, let s := gap (start { native with y := 0x2000#16 } [] [])
      s.bus.load (mkAddr 0x00#8 s.cpu.x) = some (v, b) ∧ b.regionAt (mkAddr 0x00#8 s.cpu.y) = none) ∧
    (let s := brink 0x8001#16;
      WriteBreaks s.bus (pushWrites s.cpu.e s.cpu.s 0 [s.cpu.pb, hiByte (s.cpu.pc + 2#16), loByte (s.cpu.pc + 2#16),
        s.cpu.p.pack]) 2) ∧
    (∃ b, let s := small.withBus { small.bus with table := [⟨0, 0x000, 0x1FF⟩] }
      s.bus.storeAll (pushWrites s.cpu.e s.cpu.s 0 [hiByte (s.cpu.pc + 2#16), loByte (s.cpu.pc + 2#16), s.cpu.p.pack]) =
        some b ∧ ReadBreaks b (byteAddresses .bank 2 0x00FFFE#24) 0) ∧
    (let s := listening { brink 0x8001#16 with nmiPending := true };
      InterruptTaken s true ∧ WriteBreaks s.bus (pushWrites s.cpu.e s.cpu.s 0 (trapFrame s.cpu s.cpu.pc s.cpu.p.pack)) 2) ∧
    (∃ b, let s := listening { small.withBus { small.bus with table := [⟨0, 0x000, 0x1FF⟩] } with
          irqLine := true, cpu := { emu with p := Status.unpack 0x30#8 } }
      InterruptTaken s false ∧
      s.bus.storeAll (pushWrites s.cpu.e s.cpu.s 0 (trapFrame s.cpu s.cpu.pc (s.cpu.p.pack &&& 0xEF#8))) = some b ∧
      ReadBreaks b (byteAddresses .bank 2 0x00FFFE#24) 0) :=
  ⟨⟨_, rfl, _, _, _, rfl, rfl, rfl⟩, ⟨_, _, rfl, rfl⟩, ⟨_, _, _, rfl, rfl, rfl⟩, ⟨_, rfl, _, _, _, rfl, rfl, rfl⟩,
    ⟨⟨rfl, rfl, .inl ⟨rfl, rfl⟩⟩, _, _, _, rfl, rfl, rfl⟩,
    ⟨_, ⟨rfl, rfl, .inr ⟨rfl, rfl, rfl, rfl⟩⟩, rfl, _, _, _, rfl, rfl, rfl⟩⟩

/-- A read failure before a store, and a failing read-modify-write. -/
theorem witness_BusFailureIsPrecise_keeps :
    (∃ t, exec (.staInd 0x10#8) (bare small) = .next t ∧ (bare small).abortCause = .noAbort ∧
      t.abortCause = .busUnmapped 0x000010#24 .read) ∧
    (∃ t, exec (.incAbs 0x1FFF#16) (gap wide) = .next t ∧ t.abortCause = .busUnmapped 0x002000#24 .read) :=
  ⟨⟨_, rfl, rfl, rfl⟩, _, rfl, rfl⟩

theorem witness_WidthMismatch :
    (∃ t, step { State.reset with abortCause := .widthMismatch } = .next t ∧ t.abortCause = .widthMismatch) ∧
    (Instr.ldaImmM (.imm16 0x0000#16)).wellFormed State.reset.cpu.p.m State.reset.cpu.p.x = false :=
  ⟨⟨_, rfl, rfl⟩, rfl⟩

theorem witness_CountersAddUp : ∃ t, State.reset.abortCause = .noAbort ∧ step State.reset = .next t ∧
    State.reset.params.counterWidth = none ∧ State.reset.params.cycleCost = .wdcTable := ⟨_, rfl, rfl, rfl, rfl⟩

/-- Row I1 of spec/95_test_vectors.md (NMI), an unmasked IRQ, and row I4 (a masked IRQ ends the wait). -/
theorem witness_InterruptsAreTaken :
    (∃ b b', let s := listening { start { emu with pc := 0x8004#16 } [] [] with nmiPending := true }
      s.abortCause = .noAbort ∧ s.params.hasInterruptInputs = true ∧ s.params.cycleCost = .wdcTable ∧
      s.params.counterWidth = none ∧ s.nmiPending = true ∧
      s.bus.storeAll (pushWrites s.cpu.e s.cpu.s 0 (trapFrame s.cpu s.cpu.pc (s.cpu.p.pack &&& 0xEF#8))) = some b ∧
      b.loadAll (byteAddresses .bank 2 0x00FFFA#24) = some ([0x00#8, 0x00#8], b')) ∧
    (∃ b b', let s := listening { start { native with p := Status.unpack 0x00#8 } [] [] with irqLine := true }
      s.abortCause = .noAbort ∧ s.params.hasInterruptInputs = true ∧ s.params.cycleCost = .wdcTable ∧
      s.params.counterWidth = none ∧ s.nmiPending = false ∧ s.irqLine = true ∧ s.cpu.p.i = false ∧
      s.bus.storeAll (pushWrites s.cpu.e s.cpu.s 0 (trapFrame s.cpu s.cpu.pc s.cpu.p.pack)) = some b ∧
      b.loadAll (byteAddresses .bank 2 0x00FFEE#24) = some ([0x00#8, 0x00#8], b')) ∧
    (∃ t, let s := listening { start emu [0xEA#8] [] with irqLine := true, waiting := true }
      s.abortCause = .noAbort ∧ s.nmiPending = false ∧ s.irqLine = true ∧ s.cpu.p.i = true ∧
      s.params.hasInterruptInputs = true ∧ step { s with waiting := false } = .next t ∧ t.abortCause = .noAbort) :=
  ⟨⟨_, _, rfl, rfl, rfl, rfl, rfl, rfl, rfl⟩, ⟨_, _, rfl, rfl, rfl, rfl, rfl, rfl, rfl, rfl, rfl⟩,
    ⟨_, rfl, rfl, rfl, rfl, rfl, rfl, rfl⟩⟩

theorem witness_BusAccess : (gap State.reset).bus.regionAt 0x002000#24 = none ∧
    (gap State.reset).bus.mapped 0x001FFF#24 = true ∧
    (∃ r, romSession.bus.regionAt 0xFFFFFF#24 = some r ∧ r.kind = .rom) := ⟨rfl, rfl, _, rfl, rfl⟩

theorem witness_LoadAfterStore :
    (∃ b', RegionsWf State.reset.bus ∧ IsRam State.reset.bus 0xFFFFFF#24 ∧
      State.reset.bus.store 0xFFFFFF#24 0x12#8 = some b') ∧
    (∃ b', ¬ IsRam romSession.bus 0x000000#24 ∧ romSession.bus.store 0x000000#24 0x12#8 = some b') ∧
    (∃ v b', State.reset.bus.load 0x000000#24 = some (v, b') ∧ State.reset.bus.peek 0x000000#24 = some v) :=
  ⟨⟨_, by simp only [RegionsWf]; decide, ⟨_, rfl, rfl⟩, rfl⟩, ⟨_, fun ⟨r, h, k⟩ => by cases h; exact absurd k (by decide), rfl⟩,
    ⟨_, _, rfl, rfl⟩⟩

/-- The smallest and the last 16-byte range, a mapped address outside, and each failure. -/
theorem witness_Attach :
    (∃ t, State.reset.attach scratchRegion "RAM" 0xFFFFF0 0xFFFFFF = .ok t) ∧ State.reset.bus.mapped 0xFFFFEF#24 = true ∧
    State.reset.attach scratchRegion "RAM" 0x000008 0x00000F = .error .misaligned ∧
    State.reset.attach scratchRegion "RAM" 0x000010 0x00000F = .error .badRange :=
  ⟨⟨_, rfl⟩, rfl, rfl, rfl⟩

theorem witness_MultiByteAccess :
    (∃ bytes b, State.reset.bus.loadAll (byteAddresses .bank 3 0x00FFFF#24) = some (bytes, b)) ∧
    (∃ b, State.reset.bus.storeAll ((byteAddresses .addr 2 0xFFFFFF#24).zip (bytesOfNumber 2 0x1234)) = some b) ∧
    (∃ b, State.reset.bus.storeAll [(Wrap.addr.next 0xFFFFFF#24, 0x12#8), (0xFFFFFF#24, 0x34#8)] = some b) :=
  ⟨⟨_, _, rfl⟩, ⟨_, rfl⟩, ⟨_, rfl⟩⟩

theorem witness_PartialAccess :
    (∃ e t, memRead .addr 2 0x001FFF#24 (gap State.reset) = .error e t) ∧
    (∃ e t, memWrite .addr 2 0x001FFF#24 0x1234 (gap State.reset) = .error e t) := ⟨⟨_, _, rfl⟩, ⟨_, _, rfl⟩⟩

theorem witness_Normalize : ModeInv Cpu.reset := ⟨fun _ => ⟨rfl, rfl, rfl⟩, fun _ => ⟨rfl, rfl⟩⟩

theorem witness_DirectPageModes : State.reset.dpPageWraps = false ∧
    (wrapping.params.emuDpPageWrap = true ∧ wrapping.cpu.e = true ∧ loByte wrapping.cpu.d = 0x00#8) := by decide

/-- The pointer at the last offset of bank 0. -/
theorem witness_DirectIndirectModes : ∃ b b', let s := start { native with d := 0xFF00#16, x := 0x0000#16 } [] []
    s.dpPageWraps = false ∧
    s.bus.loadAll [mkAddr 0x00#8 (s.cpu.d + zext16 0xFF#8), mkAddr 0x00#8 (s.cpu.d + zext16 0xFF#8 + 1#16)] =
      some ([0x00#8, 0x00#8], b) ∧
    s.bus.loadAll [mkAddr 0x00#8 (s.cpu.d + zext16 0xFF#8 + s.cpu.x),
      mkAddr 0x00#8 (s.cpu.d + zext16 0xFF#8 + s.cpu.x + 1#16)] = some ([0x00#8, 0x00#8], b') :=
  ⟨_, _, rfl, rfl, rfl⟩

/-- The pointer at the last byte of the page. -/
theorem witness_PageWrappedPointers : ∃ b b',
    wrapping.params.emuDpPageWrap = true ∧ wrapping.cpu.e = true ∧ loByte wrapping.cpu.d = 0x00#8 ∧
    wrapping.bus.loadAll [mkAddr 0x00#8 (mkWord (hiByte wrapping.cpu.d) 0xFF#8),
      mkAddr 0x00#8 (mkWord (hiByte wrapping.cpu.d) (0xFF#8 + 1#8))] = some ([0x00#8, 0x00#8], b) ∧
    wrapping.bus.loadAll [mkAddr 0x00#8 (mkWord (hiByte wrapping.cpu.d) (0xFD#8 + loByte wrapping.cpu.x)),
      mkAddr 0x00#8 (mkWord (hiByte wrapping.cpu.d) (0xFD#8 + loByte wrapping.cpu.x + 1#8))] =
      some ([0x00#8, 0x00#8], b') := ⟨_, _, rfl, rfl, rfl, rfl, rfl⟩

theorem witness_DirectLongModes : ∃ b, let s := start { native with d := 0xFF00#16 } [] []
    s.bus.loadAll [mkAddr 0x00#8 (s.cpu.d + zext16 0xFE#8), mkAddr 0x00#8 (s.cpu.d + zext16 0xFE#8 + 1#16),
      mkAddr 0x00#8 (s.cpu.d + zext16 0xFE#8 + 2#16)] = some ([0x00#8, 0x00#8, 0x00#8], b) := ⟨_, rfl⟩

theorem witness_StackRelativeModes : ∃ b, let s := start native [] []
    s.bus.loadAll [mkAddr 0x00#8 (s.cpu.s + zext16 0xFF#8), mkAddr 0x00#8 (s.cpu.s + zext16 0xFF#8 + 1#16)] =
      some ([0x00#8, 0x00#8], b) := ⟨_, rfl⟩

theorem witness_OperandReads : ∃ r t bytes b, resolve (.indly 0xFF#8) (start native [] []) = .ok r t ∧
    t.bus.loadAll (dataAddresses (Width.word == .byte) r) = some (bytes, b) := ⟨_, _, _, _, rfl, rfl⟩

/-- The hypotheses of `ReadingEffect` and of `DecimalArithmetic`'s operand, met by this instruction in this state. -/
def Reads (mn : Mnemonic) (narrow : Cpu → Bool) (i : Instr) (s : State) : Prop :=
  ∃ o v f b, i.mnemonic = mn ∧ dataOperand i.operand = some o ∧ i.wellFormed s.cpu.p.m s.cpu.p.x = true ∧
    readOperand (if narrow s.cpu then .byte else .word) o (advance i s) = .ok (v, f) ((advance i s).withBus b)

/-- The hypotheses of `StoringEffect`. -/
def StoresAt (mn : Mnemonic) (narrow : Cpu → Bool) (value : Cpu → Word) (i : Instr) (s : State) : Prop :=
  ∃ m r b b', i.mnemonic = mn ∧ memOperand i.operand = some m ∧
    resolve m (advance i s) = .ok r ((advance i s).withBus b) ∧
    b.storeAll ((dataAddresses (narrow s.cpu) r).zip (dataBytes (narrow s.cpu) (value s.cpu))) = some b'

/-- The hypotheses of `ModifyingEffect`. -/
def ModifiesAt (mn : Mnemonic) (res : Cpu → Word → Word) (i : Instr) (s : State) : Prop :=
  ∃ m r bytes b b' b'', i.mnemonic = mn ∧ memOperand i.operand = some m ∧
    resolve m (advance i s) = .ok r ((advance i s).withBus b) ∧
    b.loadAll (dataAddresses s.cpu.p.m r) = some (bytes, b') ∧
    b'.storeAll ((dataAddresses s.cpu.p.m r).zip (dataBytes s.cpu.p.m (res s.cpu (wordOfBytes bytes)))).reverse = some b''

theorem witness_Loads : Reads .lda (·.p.m) (.ldaIndy 0xFF#8) wide ∧ Reads .ldx (·.p.x) (.ldxImmX (.imm8 0xFF#8)) small ∧
    Reads .ldy (·.p.x) (.ldyAbsx 0xFFFF#16) wide :=
  ⟨⟨_, _, _, _, rfl, rfl, rfl, rfl⟩, ⟨_, _, _, _, rfl, rfl, rfl, rfl⟩, ⟨_, _, _, _, rfl, rfl, rfl, rfl⟩⟩

theorem witness_Logic : Reads .and (·.p.m) (.andSry 0xFF#8) wide ∧ Reads .ora (·.p.m) (.oraImmM (.imm16 0xFFFF#16)) wide ∧
    Reads .eor (·.p.m) (.eorLongx 0xFFFFFF#24) small :=
  ⟨⟨_, _, _, _, rfl, rfl, rfl, rfl⟩, ⟨_, _, _, _, rfl, rfl, rfl, rfl⟩, ⟨_, _, _, _, rfl, rfl, rfl, rfl⟩⟩

theorem witness_AddSubtract : Reads .adc (·.p.m) (.adcImmM (.imm8 0xFF#8)) small ∧
    Reads .sbc (·.p.m) (.sbcDp 0xFF#8) (start { native with p := Status.unpack 0x08#8 } [] []) :=
  ⟨⟨_, _, _, _, rfl, rfl, rfl, rfl⟩, ⟨_, _, _, _, rfl, rfl, rfl, rfl⟩⟩

/-- `0x99 + 0x01` and `0x9999 - 0x0000`. -/
theorem witness_DecimalArithmetic :
    (∃ o f b, let s := start { emu with a := 0x0099#16, p := Status.unpack 0x38#8 } [] []
      let i := Instr.adcImmM (.imm8 0x01#8)
      dataOperand i.operand = some o ∧ i.wellFormed s.cpu.p.m s.cpu.p.x = true ∧ s.cpu.p.d = true ∧
      2 = (if s.cpu.p.m then 2 else 4) ∧ 99 < 10 ^ 2 ∧ 1 < 10 ^ 2 ∧ accumulator s.cpu = BitVec.ofNat 16 (toBcd 2 99) ∧
      readOperand (if s.cpu.p.m then .byte else .word) o (advance i s) =
        .ok (BitVec.ofNat 16 (toBcd 2 1), f) ((advance i s).withBus b) ∧ i.mnemonic = .adc) ∧
    (∃ o f b, let s := start { native with a := 0x9999#16, p := Status.unpack 0x08#8 } [] []
      let i := Instr.sbcAbs 0x2000#16
      dataOperand i.operand = some o ∧ i.wellFormed s.cpu.p.m s.cpu.p.x = true ∧ s.cpu.p.d = true ∧
      4 = (if s.cpu.p.m then 2 else 4) ∧ 9999 < 10 ^ 4 ∧ 0 < 10 ^ 4 ∧
      accumulator s.cpu = BitVec.ofNat 16 (toBcd 4 9999) ∧
      readOperand (if s.cpu.p.m then .byte else .word) o (advance i s) =
        .ok (BitVec.ofNat 16 (toBcd 4 0), f) ((advance i s).withBus b) ∧ i.mnemonic = .sbc) :=
  ⟨⟨_, _, _, rfl, rfl, rfl, rfl, by decide, by decide, rfl, rfl, rfl⟩,
    ⟨_, _, _, rfl, rfl, rfl, rfl, by decide, by decide, rfl, rfl, rfl⟩⟩

theorem witness_Compares : Reads .cmp (·.p.m) (.cmpIndl 0xFF#8) wide ∧ Reads .cpx (·.p.x) (.cpxImmX (.imm16 0xFFFF#16)) wide ∧
    Reads .cpy (·.p.x) (.cpyAbs 0xFFFF#16) small :=
  ⟨⟨_, _, _, _, rfl, rfl, rfl, rfl⟩, ⟨_, _, _, _, rfl, rfl, rfl, rfl⟩, ⟨_, _, _, _, rfl, rfl, rfl, rfl⟩⟩

theorem witness_BitTest : Reads .bit (·.p.m) (.bitImmM (.imm8 0xFF#8)) small ∧ Reads .bit (·.p.m) (.bitAbsx 0xFFFF#16) wide :=
  ⟨⟨_, _, _, _, rfl, rfl, rfl, rfl⟩, ⟨_, _, _, _, rfl, rfl, rfl, rfl⟩⟩

theorem witness_Stores : StoresAt .sta (·.p.m) (·.a) (.staSry 0xFF#8) wide ∧ StoresAt .stx (·.p.x) (·.x) (.stxDpy 0xFF#8) small ∧
    StoresAt .sty (·.p.x) (·.y) (.styAbs 0xFFFF#16) wide ∧ StoresAt .stz (·.p.m) (fun _ => 0x0000#16) (.stzAbsx 0xFFFF#16) wide :=
  ⟨⟨_, _, _, _, rfl, rfl, rfl, rfl⟩, ⟨_, _, _, _, rfl, rfl, rfl, rfl⟩, ⟨_, _, _, _, rfl, rfl, rfl, rfl⟩,
    ⟨_, _, _, _, rfl, rfl, rfl, rfl⟩⟩

theorem witness_ReadModifyWrite :
    ModifiesAt .inc (fun c m => atWidthA c (m + 1#16)) (.incDp 0xFF#8) small ∧
    ModifiesAt .dec (fun c m => atWidthA c (m - 1#16)) (.decAbs 0xFFFF#16) wide ∧
    ModifiesAt .asl (fun c m => atWidthA c (m <<< 1)) (.aslDpx 0xFF#8) wide ∧
    ModifiesAt .lsr (fun _ m => m >>> 1) (.lsrAbsx 0xFFFF#16) small ∧
    ModifiesAt .rol (fun c m => atWidthA c ((m <<< 1) ||| BitVec.ofNat 16 (bitNat c.p.c))) (.rolDp 0xFF#8) wide ∧
    ModifiesAt .ror (fun c m => (m >>> 1) ||| (if c.p.c then (if c.p.m then 0x0080#16 else 0x8000#16) else 0x0000#16))
      (.rorAbs 0x0000#16) small ∧
    ModifiesAt .tsb (fun c m => m ||| accumulator c) (.tsbAbs 0xFFFF#16) wide ∧
    ModifiesAt .trb (fun c m => m &&& ~~~(accumulator c)) (.trbDp 0x00#8) small :=
  ⟨⟨_, _, _, _, _, _, rfl, rfl, rfl, rfl, rfl⟩, ⟨_, _, _, _, _, _, rfl, rfl, rfl, rfl, rfl⟩,
    ⟨_, _, _, _, _, _, rfl, rfl, rfl, rfl, rfl⟩, ⟨_, _, _, _, _, _, rfl, rfl, rfl, rfl, rfl⟩,
    ⟨_, _, _, _, _, _, rfl, rfl, rfl, rfl, rfl⟩, ⟨_, _, _, _, _, _, rfl, rfl, rfl, rfl, rfl⟩,
    ⟨_, _, _, _, _, _, rfl, rfl, rfl, rfl, rfl⟩, ⟨_, _, _, _, _, _, rfl, rfl, rfl, rfl, rfl⟩⟩

/-- Pointers at the last offset of their bank. -/
theorem witness_Jumps : ∃ b b' b'',
    small.bus.loadAll [mkAddr 0x00#8 0xFFFF#16, mkAddr 0x00#8 (0xFFFF#16 + 1#16)] = some ([0x00#8, 0x00#8], b) ∧
    small.bus.loadAll [mkAddr small.cpu.pb (0xFFFF#16 + small.cpu.x), mkAddr small.cpu.pb (0xFFFF#16 + small.cpu.x + 1#16)] =
      some ([0x00#8, 0x00#8], b') ∧
    small.bus.loadAll [mkAddr 0x00#8 0xFFFE#16, mkAddr 0x00#8 (0xFFFE#16 + 1#16), mkAddr 0x00#8 (0xFFFE#16 + 2#16)] =
      some ([0x00#8, 0x00#8, 0x00#8], b'') := ⟨_, _, _, rfl, rfl, rfl⟩

/-- From the bottom of the stack page in Emulation mode. -/
theorem witness_Calls : ∃ b b₁ b₂ b₃, let s := start { emu with s := 0x0100#16 } [] []
    s.bus.storeAll (pushWrites s.cpu.e s.cpu.s 0 [hiByte (s.cpu.pc + 2#16), loByte (s.cpu.pc + 2#16)]) = some b ∧
    s.bus.storeAll (pushWrites s.stackWrapsNew s.cpu.s 0 [hiByte (s.cpu.pc + 2#16), loByte (s.cpu.pc + 2#16)]) = some b₁ ∧
    b₁.loadAll [mkAddr s.cpu.pb (0x0000#16 + s.cpu.x), mkAddr s.cpu.pb (0x0000#16 + s.cpu.x + 1#16)] =
      some ([0x00#8, 0x00#8], b₂) ∧
    s.bus.storeAll (pushWrites s.stackWrapsNew s.cpu.s 0
      [s.cpu.pb, hiByte (s.cpu.pc + 3#16), loByte (s.cpu.pc + 3#16)]) = some b₃ := ⟨_, _, _, _, rfl, rfl, rfl, rfl⟩

theorem witness_Returns : ∃ b b',
    small.bus.loadAll (pullReads small.cpu.e small.cpu.s 2) = some ([0x00#8, 0x00#8], b) ∧
    wide.bus.loadAll (pullReads wide.stackWrapsNew wide.cpu.s 3) = some ([0x00#8, 0x00#8, 0x00#8], b') :=
  ⟨_, _, rfl, rfl⟩

/-- The registers of `emu` and `native` meet the mode invariants. -/
theorem modes : ModeInv emu ∧ ModeInv native :=
  ⟨⟨fun _ => ⟨rfl, rfl, rfl⟩, fun _ => ⟨rfl, rfl⟩⟩, ⟨fun h => (nomatch h), fun h => (nomatch h)⟩⟩

/-- Every address of the session of `Bus.reset` is RAM. -/
theorem reset_ram (a : Address) : IsRam Bus.reset a := by
  have h : Bus.reset.regionNumber a = some 0 := by
    have := a.isLt
    simp only [Bus.regionNumber, Bus.reset, lookupSegment, segmentOf, Config.segShift]
    rw [if_pos (by omega)]
  exact ⟨_, by rw [Bus.regionAt, h]; rfl, rfl⟩

theorem reset_mapped : FullyMapped Bus.reset := fun a =>
  have ⟨_, h, _⟩ := reset_ram a
  by rw [Bus.mapped, h]; rfl

theorem reset_wf : RegionsWf Bus.reset := by simp only [RegionsWf]; decide

theorem witness_ReturnUndoesCall : ModeInv small.cpu ∧ StackReady small 2 ∧ StackReady small 3 ∧
    small.params.emuStackNewInsn16Bit = false :=
  ⟨modes.1, ⟨reset_wf, fun _ _ => reset_ram _, by decide⟩, ⟨reset_wf, fun _ _ => reset_ram _, by decide⟩, rfl⟩

theorem witness_Pushes : ∃ b b' b'',
    small.bus.storeAll (pushWrites small.cpu.e small.cpu.s 0 [loByte small.cpu.a]) = some b ∧
    wide.bus.storeAll (pushWrites wide.cpu.e wide.cpu.s 0 [hiByte wide.cpu.x, loByte wide.cpu.x]) = some b' ∧
    small.bus.storeAll (pushWrites small.stackWrapsNew small.cpu.s 0 [hiByte small.cpu.d, loByte small.cpu.d]) = some b'' :=
  ⟨_, _, _, rfl, rfl, rfl⟩

theorem witness_Pulls : ∃ bytes b bytes' b',
    wide.bus.loadAll (pullReads wide.cpu.e wide.cpu.s (if wide.cpu.p.m then 1 else 2)) = some (bytes, b) ∧
    small.bus.loadAll (pullReads small.cpu.e small.cpu.s 1) = some (bytes', b') := ⟨_, _, _, _, rfl, rfl⟩

/-- The two pointer addresses of `PEI $FF`. -/
def peiPointer (s : State) : List Address :=
  [mkAddr 0x00#8 (s.cpu.d + zext16 0xFF#8), mkAddr 0x00#8
    (if s.params.emuDpPageWrap = true ∧ s.cpu.e = true ∧ loByte s.cpu.d = 0x00#8 then mkWord (hiByte s.cpu.d) (0xFF#8 + 1#8)
      else s.cpu.d + zext16 0xFF#8 + 1#16)]

/-- Also at the end of a wrapping direct page. -/
theorem witness_PushEffectiveAddress :
    (∃ b b' b'', wide.bus.loadAll (peiPointer wide) = some ([0x00#8, 0x00#8], b) ∧
      b.storeAll (pushWrites wide.stackWrapsNew wide.cpu.s 0 [0x00#8, 0x00#8]) = some b' ∧
      wide.bus.storeAll (pushWrites wide.stackWrapsNew wide.cpu.s 0 [hiByte 0xFFFF#16, loByte 0xFFFF#16]) = some b'') ∧
    (∃ b b', wrapping.bus.loadAll (peiPointer wrapping) = some ([0x00#8, 0x00#8], b) ∧
      b.storeAll (pushWrites wrapping.stackWrapsNew wrapping.cpu.s 0 [0x00#8, 0x00#8]) = some b') :=
  ⟨⟨_, _, _, rfl, rfl, rfl⟩, ⟨_, _, rfl, rfl⟩⟩

/-- From the last byte of one bank to the first of another. -/
theorem witness_BlockMoves : ∃ v b b', let s := start { native with x := 0xFFFF#16 } [] []
    s.bus.load (mkAddr 0x7E#8 s.cpu.x) = some (v, b) ∧ b.store (mkAddr 0x7F#8 s.cpu.y) v = some b' ∧ RegionsWf s.bus :=
  ⟨_, _, _, rfl, rfl, by simp only [RegionsWf]; decide⟩

theorem witness_SoftwareTraps : ∃ b b' b₁ b₁',
    wide.bus.storeAll (pushWrites wide.cpu.e wide.cpu.s 0 (trapFrame wide.cpu (wide.cpu.pc + 2#16) wide.cpu.p.pack)) = some b ∧
    b.loadAll (byteAddresses .bank 2 0x00FFE6#24) = some ([0x00#8, 0x00#8], b') ∧
    small.bus.storeAll (pushWrites small.cpu.e small.cpu.s 0
      (trapFrame small.cpu (small.cpu.pc + 2#16) small.cpu.p.pack)) = some b₁ ∧
    b₁.loadAll (byteAddresses .bank 2 0x00FFF4#24) = some ([0x00#8, 0x00#8], b₁') := ⟨_, _, _, _, rfl, rfl, rfl, rfl⟩

theorem witness_ReturnFromInterrupt : ∃ b b', wide.cpu.e = false ∧
    wide.bus.loadAll (pullReads false wide.cpu.s 4) = some ([0x00#8, 0x00#8, 0x00#8, 0x00#8], b) ∧ small.cpu.e = true ∧
    small.bus.loadAll (pullReads true small.cpu.s 3) = some ([0x00#8, 0x00#8, 0x00#8], b') := ⟨_, _, rfl, rfl, rfl, rfl⟩

theorem witness_ReturnUndoesTrap : (∃ sig, Instr.brk 0xFF#8 = .brk sig ∨ Instr.brk 0xFF#8 = .cop sig) ∧
    (ModeInv small.cpu ∧ FullyMapped small.bus ∧ StackReady small (if small.cpu.e then 3 else 4)) ∧
    ModeInv wide.cpu ∧ FullyMapped wide.bus ∧ StackReady wide (if wide.cpu.e then 3 else 4) :=
  ⟨⟨_, .inl rfl⟩, ⟨modes.1, reset_mapped, reset_wf, fun _ _ => reset_ram _, by decide⟩,
    modes.2, reset_mapped, reset_wf, fun _ _ => reset_ram _, by decide⟩

theorem witness_HaltsAndNop : State.reset.params.abortOpcode = 0x42#8 := rfl

theorem witness_FlagWriters : ∃ t, exec .xce small = .next t ∧ ModeInv small.cpu ∧ t.cpu.e ≠ small.cpu.e ∧
    t.cpu.p.c ≠ small.cpu.p.c := ⟨_, rfl, modes.1, by decide, by decide⟩

theorem witness_RegisterWriters : (∃ t, exec .pha wide = .next t ∧ ModeInv wide.cpu ∧ t.cpu.s ≠ wide.cpu.s) ∧
    (∃ t, exec (.jmpAbs 0x0000#16) wide = .next t ∧ t.cpu.pc ≠ nextPc (.jmpAbs 0x0000#16) wide.cpu.pc) ∧
    (∃ t, exec .stp wide = .next t ∧ t.abortCause ≠ wide.abortCause ∧ t.stopped ≠ wide.stopped) ∧
    (∃ t, exec (.wdm 0x00#8) wide = .next t ∧ t.abortCause ≠ wide.abortCause) :=
  ⟨⟨_, rfl, modes.2, by decide⟩, ⟨_, rfl, by decide⟩, ⟨_, rfl, by decide, by decide⟩, _, rfl, by decide⟩

/-- An instruction that stores nothing, a store and a push. -/
theorem witness_MemoryWriters : (∃ t, exec .nop wide = .next t ∧ RegionsWf wide.bus) ∧
    (∃ r t u, exec (.staAbs 0xFFFF#16) wide = .next t ∧ memOperand (Instr.staAbs 0xFFFF#16).operand = some (.abs 0xFFFF#16) ∧
      resolve (.abs 0xFFFF#16) (advance (.staAbs 0xFFFF#16) wide) = .ok r u) ∧
    (∃ e u, memOperand (Instr.staInd 0x00#8).operand = some (.ind 0x00#8) ∧
      resolve (.ind 0x00#8) (advance (.staInd 0x00#8) (bare wide)) = .error e u) ∧
    (∃ t, exec .pha wide = .next t ∧ wide.cpu.p.m = false ∧ false = wide.cpu.e) ∧
    (∃ t, exec .phd small = .next t ∧ true = small.stackWrapsNew) ∧
    (∃ t, exec (.brk 0x00#8) wide = .next t ∧ wide.cpu.e = false) :=
  ⟨⟨_, rfl, by simp only [RegionsWf]; decide⟩, ⟨_, _, _, rfl, rfl, rfl⟩, ⟨_, _, rfl, rfl⟩, ⟨_, rfl, rfl, rfl⟩,
    ⟨_, rfl, rfl⟩, ⟨_, rfl, rfl⟩⟩

theorem witness_MappedInstructionsComplete : FullyMapped State.reset.bus ∧
    (Instr.ldaImmM (.imm8 0xFF#8)).wellFormed State.reset.cpu.p.m State.reset.cpu.p.x = true := ⟨reset_mapped, rfl⟩

end Sys2Proof.Tests
end

section
/-! # The decoder answers well-formed instructions -/
namespace Sys2Proof

/-- The answer of a decoding function, if there is one, is well-formed under the width flags. -/
def AnswersWf (m x : Bool) (d : Decoded) : Prop := ∀ i rest, d = some (i, rest) → i.wellFormed m x = true

section
variable {m x : Bool} {b : List Byte}

theorem answersWf_none : AnswersWf m x none := fun _ _ h => by cases h

theorem answersWf_take0 {i : Instr} (h : i.wellFormed m x = true) : AnswersWf m x (take0 i b) := by
  rintro _ _ ⟨⟩
  exact h

theorem answersWf_take1 {mk : Byte → Instr} (h : ∀ v, (mk v).wellFormed m x = true) :
    AnswersWf m x (take1 mk b) := by
  intro i rest hd
  unfold take1 at hd
  split at hd <;> cases hd
  exact h _

theorem answersWf_take2 {mk : Word → Instr} (h : ∀ v, (mk v).wellFormed m x = true) :
    AnswersWf m x (take2 mk b) := by
  intro i rest hd
  unfold take2 at hd
  split at hd <;> cases hd
  exact h _

theorem answersWf_take3 {mk : Address → Instr} (h : ∀ v, (mk v).wellFormed m x = true) :
    AnswersWf m x (take3 mk b) := by
  intro i rest hd
  unfold take3 at hd
  split at hd <;> cases hd
  exact h _

theorem answersWf_takeBlk {mk : Byte → Byte → Instr} (h : ∀ v w, (mk v w).wellFormed m x = true) :
    AnswersWf m x (takeBlk mk b) := by
  intro i rest hd
  unfold takeBlk at hd
  split at hd <;> cases hd
  exact h _ _

/-- A flag-dependent immediate is read at the width its flag selects (R73). -/
theorem answersWf_takeImm {flag : Bool} {mk : Imm → Instr}
    (h : ∀ v, v.isByte = flag → (mk v).wellFormed m x = true) : AnswersWf m x (takeImm flag mk b) := by
  unfold takeImm
  cases flag with
  | true => exact answersWf_take1 fun _ => h _ rfl
  | false => exact answersWf_take2 fun _ => h _ rfl

theorem answersWf_decodeOpcode (opcode : Byte) : AnswersWf m x (decodeOpcode m x opcode b) := by
  unfold decodeOpcode
  split
  case h_17 => exact answersWf_none
  all_goals
    simp only [decodeRow0, decodeRow1, decodeRow2, decodeRow3, decodeRow4, decodeRow5, decodeRow6, decodeRow7,
      decodeRow8, decodeRow9, decodeRowA, decodeRowB, decodeRowC, decodeRowD, decodeRowE, decodeRowF]
    split
    -- one alternative for each shape of operand
    all_goals first
      | exact answersWf_none
      | exact answersWf_take0 rfl
      | exact answersWf_take1 fun _ => rfl
      | exact answersWf_take2 fun _ => rfl
      | exact answersWf_take3 fun _ => rfl
      | exact answersWf_takeBlk fun _ _ => rfl
      | exact answersWf_takeImm fun _ h => beq_iff_eq.2 h

/-- What the decoder answers is well-formed under its width flags. -/
theorem decode_wellFormed {bytes rest : List Byte} {i : Instr} (h : decode m x bytes = some (i, rest)) :
    i.wellFormed m x = true := by
  cases bytes with
  | nil => cases h
  | cons opcode operands => exact answersWf_decodeOpcode opcode i rest h

end

end Sys2Proof
end

section
/-! # Status byte and `Normalize()` -/
namespace Sys2Proof.Machine

/-- `Normalize()` as one record update (R22). -/
theorem normalize_eq (c : Cpu) : c.normalize = { c with
    p := { c.p with m := c.e || c.p.m, x := c.e || c.p.x }
    s := if c.e then page1 c.s else c.s
    x := if c.e || c.p.x then mkWord 0x00#8 (loByte c.x) else c.x
    y := if c.e || c.p.x then mkWord 0x00#8 (loByte c.y) else c.y } := by
  unfold Cpu.normalize Cpu.forceEmulation Cpu.clearIndexHigh
  obtain ⟨a, x, y, d, s, pc, db, pb, ⟨n, v, m, x', d', i, z, c⟩, e⟩ := c
  cases e <;> cases x' <;> rfl

/-- `UnpackP` as one record update (R18, R22). -/
theorem unpackP_eq (c : Cpu) (b : Byte) : c.unpackP b = withStatusByte c b := by
  rw [Cpu.unpackP, normalize_eq]
  rfl

/-- A word whose high byte is `hi` is `hi` over its low byte. -/
theorem mkWord_loByte_of_hiByte {hi : Byte} {v : Word} (h : hiByte v = hi) : mkWord hi (loByte v) = v := by
  rw [← h, mkWord_hiByte_loByte]

/-- `Normalize()` establishes both mode invariants (R20, R13). -/
theorem modeInv_normalize (c : Cpu) : ModeInv c.normalize := by
  rw [normalize_eq]
  refine ⟨fun he => ?_, fun hx => ?_⟩
  · have he : c.e = true := he
    simp [he, page1]
  · have hx : (c.e || c.p.x) = true := hx
    simp [hx]

/-- Where `S` is in page 1 when `E = 1`, forcing it there changes nothing. -/
theorem forced_stack_eq {c : Cpu} (h : c.e = true → hiByte c.s = 0x01#8) : (if c.e then page1 c.s else c.s) = c.s := by
  split
  · exact mkWord_loByte_of_hiByte (h ‹_›)
  · rfl

/-- `Normalize()` changes nothing where the mode invariants hold. -/
theorem normalize_of_modeInv {c : Cpu} (h : ModeInv c) : c.normalize = c := by
  obtain ⟨hE, hX⟩ := h
  have hm : (c.e || c.p.m) = c.p.m := by cases he : c.e <;> simp [(hE · |>.1), he]
  have hx : (c.e || c.p.x) = c.p.x := by cases he : c.e <;> simp [(hE · |>.2.1), he]
  have cleared : ∀ v : Word, (c.p.x = true → hiByte v = 0x00#8) →
      (if c.p.x then mkWord 0x00#8 (loByte v) else v) = v := fun v hv => by
    split
    · exact mkWord_loByte_of_hiByte (hv ‹_›)
    · rfl
  rw [normalize_eq, hm, hx, forced_stack_eq fun he => (hE he).2.2, cleared c.x fun h => (hX h).1,
    cleared c.y fun h => (hX h).2]

/-- Settles O23: the exact effect of `Normalize()`, from which the invariants and idempotence follow. -/
theorem normalize : Obligations.Normalize := by
  unfold Obligations.Normalize
  exact fun c => ⟨modeInv_normalize c, normalize_of_modeInv, normalize_eq c⟩

/-! ### The status byte -/

/-- The packed status byte as a number: `N` is bit 7 and `C` is bit 0 (R18). -/
theorem toNat_pack : ∀ p : Status, p.pack.toNat = 128 * bitNat p.n + 64 * bitNat p.v + 32 * bitNat p.m +
    16 * bitNat p.x + 8 * bitNat p.d + 4 * bitNat p.i + 2 * bitNat p.z + bitNat p.c := by
  rintro ⟨n, v, m, x, d, i, z, c⟩
  revert n v m x d i z c
  decide

theorem unpack_pack : ∀ p : Status, Status.unpack p.pack = p := by
  rintro ⟨n, v, m, x, d, i, z, c⟩
  revert n v m x d i z c
  decide

/-- Every byte is the packed form of the status it assigns. -/
theorem pack_unpack (b : Byte) : (Status.unpack b).pack = b := by
  revert b
  decide

/-- Settles O22. -/
theorem statusByte : Obligations.StatusByte := by
  unfold Obligations.StatusByte
  exact ⟨toNat_pack, unpack_pack, pack_unpack, unpackP_eq⟩

end Sys2Proof.Machine
end

section
/-! # Which parts of the register file an instruction can change -/
namespace Sys2Proof.Machine

/-- A part of the register file: a register, or one status flag. -/
inductive Part where
  | regA | regX | regY | regD | regS | regPC | regDB | regPB | bitE
  | flagN | flagV | flagM | flagX | flagD | flagI | flagZ | flagC
  deriving DecidableEq

/-- The values of a part. -/
abbrev Part.Value : Part → Type
  | .regA | .regX | .regY | .regD | .regS | .regPC => Word
  | .regDB | .regPB => Byte
  | .bitE | .flagN | .flagV | .flagM | .flagX | .flagD | .flagI | .flagZ | .flagC => Bool

/-- What a part holds. -/
def Part.get : (g : Part) → Cpu → g.Value
  | .regA, c => c.a
  | .regX, c => c.x
  | .regY, c => c.y
  | .regD, c => c.d
  | .regS, c => c.s
  | .regPC, c => c.pc
  | .regDB, c => c.db
  | .regPB, c => c.pb
  | .bitE, c => c.e
  | .flagN, c => c.p.n
  | .flagV, c => c.p.v
  | .flagM, c => c.p.m
  | .flagX, c => c.p.x
  | .flagD, c => c.p.d
  | .flagI, c => c.p.i
  | .flagZ, c => c.p.z
  | .flagC, c => c.p.c

/-- The register file with the listed parts blanked out. -/
def mask (l : List Part) (c : Cpu) : Cpu where
  a := if l.contains .regA then 0x0000#16 else c.a
  x := if l.contains .regX then 0x0000#16 else c.x
  y := if l.contains .regY then 0x0000#16 else c.y
  d := if l.contains .regD then 0x0000#16 else c.d
  s := if l.contains .regS then 0x0000#16 else c.s
  pc := if l.contains .regPC then 0x0000#16 else c.pc
  db := if l.contains .regDB then 0x00#8 else c.db
  pb := if l.contains .regPB then 0x00#8 else c.pb
  e := if l.contains .bitE then false else c.e
  p :=
    { n := if l.contains .flagN then false else c.p.n
      v := if l.contains .flagV then false else c.p.v
      m := if l.contains .flagM then false else c.p.m
      x := if l.contains .flagX then false else c.p.x
      d := if l.contains .flagD then false else c.p.d
      i := if l.contains .flagI then false else c.p.i
      z := if l.contains .flagZ then false else c.p.z
      c := if l.contains .flagC then false else c.p.c }

theorem get_mask {g : Part} {l : List Part} (h : g ∉ l) (c : Cpu) : g.get (mask l c) = g.get c := by
  cases g <;> exact if_neg (by simpa using h)

/-- A change of the register file changes at most the listed parts. -/
def Touches (l : List Part) (f : Cpu → Cpu) : Prop := ∀ c, mask l (f c) = mask l c

theorem Touches.get_eq {l : List Part} {f : Cpu → Cpu} (h : Touches l f) {g : Part} (hg : g ∉ l) (c : Cpu) :
    g.get (f c) = g.get c := by
  rw [← get_mask hg, h c, get_mask hg]

theorem mask_mask {l l' : List Part} (h : l ⊆ l') (c : Cpu) : mask l' (mask l c) = mask l' c := by
  have masked : ∀ {α : Type} (g : Part) (v w : α),
      (if l'.contains g then v else if l.contains g then v else w) = if l'.contains g then v else w := fun g v w => by
    by_cases hg : g ∈ l
    · simp [h hg]
    · simp [hg]
  simp only [mask, masked]

theorem Touches.mono {l l' : List Part} {f : Cpu → Cpu} (h : Touches l f) (hl : l ⊆ l') : Touches l' f := fun c => by
  rw [← mask_mask hl, h c, mask_mask hl]

/-- The parts `UnpackP` can change. -/
def unpackedParts : List Part :=
  [.flagN, .flagV, .flagM, .flagX, .flagD, .flagI, .flagZ, .flagC, .regX, .regY, .regS]

/-- The parts the body of a mnemonic can change; `mem` says that its operand is in memory. -/
def touchedParts (mem : Bool) : Mnemonic → List Part
  | .adc | .sbc => [.regA, .flagN, .flagV, .flagZ, .flagC]
  | .and | .ora | .eor | .lda | .txa | .tya | .tdc | .tsc | .xba => [.regA, .flagN, .flagZ]
  | .asl | .lsr | .rol | .ror => if mem then [.flagN, .flagZ, .flagC] else [.regA, .flagN, .flagZ, .flagC]
  | .inc | .dec => if mem then [.flagN, .flagZ] else [.regA, .flagN, .flagZ]
  | .tsb | .trb => if mem then [.flagZ] else [.regA, .flagZ]
  | .bit => if mem then [.flagN, .flagV, .flagZ] else [.flagZ]
  | .cmp | .cpx | .cpy => [.flagN, .flagZ, .flagC]
  | .ldx | .tax | .tyx | .tsx | .inx | .dex => [.regX, .flagN, .flagZ]
  | .ldy | .tay | .txy | .iny | .dey => [.regY, .flagN, .flagZ]
  | .tcd => [.regD, .flagN, .flagZ]
  | .txs | .tcs => [.regS]
  | .bcc | .bcs | .beq | .bne | .bmi | .bpl | .bvc | .bvs | .bra | .brl | .jmp => [.regPC]
  | .jml => [.regPB, .regPC]
  | .jsr | .rts => [.regS, .regPC]
  | .jsl | .rtl => [.regS, .regPB, .regPC]
  | .brk | .cop => [.regS, .flagI, .flagD, .regPB, .regPC]
  | .rti => .regPC :: .regPB :: unpackedParts
  | .plp | .rep | .sep => unpackedParts
  | .xce => [.flagC, .bitE, .flagM, .flagX, .regS, .regX, .regY]
  | .clc | .sec => [.flagC]
  | .cld | .sed => [.flagD]
  | .cli | .sei => [.flagI]
  | .clv => [.flagV]
  | .pha | .phx | .phy | .php | .phb | .phd | .phk | .pea | .pei | .per => [.regS]
  | .pla => [.regS, .regA, .flagN, .flagZ]
  | .plx => [.regS, .regX, .flagN, .flagZ]
  | .ply => [.regS, .regY, .flagN, .flagZ]
  | .plb => [.regS, .regDB, .flagN, .flagZ]
  | .pld => [.regS, .regD, .flagN, .flagZ]
  | .mvn | .mvp => [.regA, .regX, .regY, .regDB, .regPC]
  | .nop | .wai | .stp | .wdm | .sta | .stx | .sty | .stz => []

/-- The mnemonics whose bodies can change a part (for the flags, the table of R24). -/
def writersOf : Part → List Mnemonic
  | .flagN => [.adc, .sbc, .and, .ora, .eor, .cmp, .cpx, .cpy, .inc, .dec, .inx, .iny, .dex, .dey, .asl, .lsr, .rol,
      .ror, .lda, .ldx, .ldy, .pla, .plx, .ply, .plb, .pld, .tax, .tay, .txa, .tya, .txy, .tyx, .tsx, .tcd, .tdc, .tsc,
      .xba, .bit, .plp, .rti, .rep, .sep]
  | .flagV => [.adc, .sbc, .bit, .clv, .plp, .rti, .rep, .sep]
  | .flagM | .flagX => [.rep, .sep, .plp, .rti] ++ [.xce]
  | .flagD => [.sed, .cld, .rep, .sep, .plp, .rti, .brk, .cop]
  | .flagI => [.sei, .cli, .rep, .sep, .plp, .rti, .brk, .cop]
  | .flagZ => [.adc, .sbc, .and, .ora, .eor, .cmp, .cpx, .cpy, .inc, .dec, .inx, .iny, .dex, .dey, .asl, .lsr, .rol,
      .ror, .lda, .ldx, .ldy, .pla, .plx, .ply, .plb, .pld, .tax, .tay, .txa, .tya, .txy, .tyx, .tsx, .tcd, .tdc, .tsc,
      .xba, .bit, .tsb, .trb, .plp, .rti, .rep, .sep]
  | .flagC => [.adc, .sbc, .cmp, .cpx, .cpy, .asl, .lsr, .rol, .ror, .clc, .sec, .xce, .plp, .rti, .rep, .sep]
  | .regA => [.adc, .sbc, .and, .ora, .eor, .lda, .pla, .txa, .tya, .tdc, .tsc, .xba, .mvn, .mvp] ++ modifiers
  | .regX => [.ldx, .plx, .tax, .tyx, .tsx, .inx, .dex, .mvn, .mvp, .sep, .rep, .plp, .rti, .xce]
  | .regY => [.ldy, .ply, .tay, .txy, .iny, .dey, .mvn, .mvp, .sep, .rep, .plp, .rti, .xce]
  | .regD => [.tcd, .pld]
  | .regS => [.txs, .tcs, .pha, .phx, .phy, .php, .phb, .phd, .phk, .pla, .plx, .ply, .plp, .plb, .pld, .pea, .pei, .per,
      .jsr, .jsl, .rts, .rtl, .brk, .cop, .rti, .xce] ++ [.rep, .sep]
  | .regDB => [.plb, .mvn, .mvp]
  | .regPB => [.jml, .jsl, .rtl, .brk, .cop] ++ [.rti]
  | .bitE => [.xce]
  | .regPC => [.bcc, .bcs, .beq, .bne, .bmi, .bpl, .bvc, .bvs, .bra, .brl, .jmp, .jml, .jsr, .jsl, .rts, .rtl, .brk,
      .cop, .rti, .mvn, .mvp]

theorem mem_writersOf {m : Mnemonic} {mem : Bool} : ∀ g ∈ touchedParts mem m, m ∈ writersOf g := by
  cases m <;> cases mem <;> decide

/-- A read-modify-write of memory leaves `A` alone. -/
theorem regA_touched_by_modifier {m : Mnemonic} {mem : Bool} (hm : m ∈ modifiers) (h : Part.regA ∈ touchedParts mem m) :
    mem = false := by
  revert mem hm
  cases m <;> decide

/-! ### The changes of the register file, by their shape -/

section
variable {f : Cpu → Cpu} {o : Operand}

theorem memOperand_of_dataOperand {m : MemOperand} (h : dataOperand o = some (.mem m)) : memOperand o = some m := by
  cases o <;> cases h
  rfl

/-- A sum changes the four arithmetic flags. -/
theorem addBinary_flags (w : Width) (p : Status) (a m : Word) : ∃ n v z c,
    (addBinary w p a m).2 = { p with n := n, v := v, z := z, c := c } := ⟨_, _, _, _, rfl⟩

theorem adcResult_flags (w : Width) (p : Status) (a m : Word) : ∃ n v z c,
    (adcResult w p a m).2 = { p with n := n, v := v, z := z, c := c } := by
  unfold adcResult
  split
  · exact ⟨_, _, _, _, rfl⟩
  · exact addBinary_flags w p a m

theorem sbcResult_flags (w : Width) (p : Status) (a m : Word) : ∃ n v z c,
    (sbcResult w p a m).2 = { p with n := n, v := v, z := z, c := c } := by
  unfold sbcResult
  dsimp only
  split
  · exact ⟨_, _, _, _, rfl⟩
  · exact addBinary_flags w p a _

theorem touches_adc (m : Word) : Touches [.regA, .flagN, .flagV, .flagZ, .flagC] fun c =>
    { c.accWrite (adcResult c.widthA c.p c.accRead m).1 with p := (adcResult c.widthA c.p c.accRead m).2 } := by
  intro c
  obtain ⟨n, v, z, cf, h⟩ := adcResult_flags c.widthA c.p c.accRead m
  dsimp only
  rw [h]
  rfl

theorem touches_sbc (m : Word) : Touches [.regA, .flagN, .flagV, .flagZ, .flagC] fun c =>
    { c.accWrite (sbcResult c.widthA c.p c.accRead m).1 with p := (sbcResult c.widthA c.p c.accRead m).2 } := by
  intro c
  obtain ⟨n, v, z, cf, h⟩ := sbcResult_flags c.widthA c.p c.accRead m
  dsimp only
  rw [h]
  rfl

theorem touches_unpackP (b : Cpu → Byte) : Touches unpackedParts fun c => c.unpackP (b c) := by
  intro c
  beta_reduce
  rw [unpackP_eq]
  rfl

/-- Every change the body of a mnemonic makes touches only the parts listed for it. -/
theorem changes_touch {m : Mnemonic} (h : Changes m o f) : Touches (touchedParts (memOperand o).isSome m) f := by
  cases m with
  | nop | wai | stp | wdm | sta | stx | sty | stz => exact h.elim
  | clc | sec | cld | sed | cli | sei | clv | tax | tay | txa | tya | txy | tyx | tsx | tcd | tdc | tsc | txs | tcs | xba
  | inx | iny | dex | dey =>
    obtain rfl := h
    exact fun _ => rfl
  | xce =>
    obtain rfl := h
    intro c
    beta_reduce
    rw [normalize_eq]
    rfl
  | adc =>
    obtain ⟨v, rfl⟩ := h
    exact touches_adc v
  | sbc =>
    obtain ⟨v, rfl⟩ := h
    exact touches_sbc v
  | and | ora | eor | lda | ldx | ldy | cmp | cpx | cpy =>
    obtain ⟨v, rfl⟩ := h
    exact fun _ => rfl
  | bit =>
    obtain ⟨d, v, hd, rfl⟩ := h
    cases d with
    | imm _ => cases (memOperand o).isSome <;> exact fun _ => rfl
    | mem _ =>
      rw [memOperand_of_dataOperand hd]
      exact fun _ => rfl
  | asl | lsr | rol | ror | inc | dec | tsb | trb =>
    rcases h with ⟨mo, v, hm, rfl⟩ | ⟨hm, rfl⟩ <;> rw [hm] <;> exact fun _ => rfl
  | bcc | bcs | beq | bne | bmi | bpl | bvc | bvs | bra | brl | jmp | pha | phx | phy | php | phb | phk =>
    obtain ⟨_, rfl⟩ := h
    exact fun _ => rfl
  | jml =>
    obtain ⟨_, _, rfl⟩ := h
    exact fun _ => rfl
  | mvn | mvp => rcases h with ⟨_, rfl⟩ | rfl <;> exact fun _ => rfl
  | jsr => rcases h with ⟨_, rfl⟩ | rfl | ⟨_, rfl⟩ <;> exact fun _ => rfl
  | jsl | rtl => rcases h with ⟨_, rfl⟩ | rfl | ⟨_, _, rfl⟩ <;> exact fun _ => rfl
  | brk | cop => rcases h with ⟨_, rfl⟩ | rfl | ⟨_, rfl⟩ <;> exact fun _ => rfl
  | phd | pea | pei | per => rcases h with ⟨_, rfl⟩ | rfl <;> exact fun _ => rfl
  | pla | plx | ply | plb | rts => rcases h with ⟨_, rfl⟩ | ⟨_, rfl⟩ <;> exact fun _ => rfl
  | pld => rcases h with ⟨_, rfl⟩ | rfl | ⟨_, rfl⟩ <;> exact fun _ => rfl
  | rep | sep =>
    obtain ⟨_, rfl⟩ := h
    exact touches_unpackP _
  | plp =>
    rcases h with ⟨_, rfl⟩ | ⟨v, rfl⟩
    · exact fun _ => rfl
    · exact touches_unpackP fun _ => v
  | rti =>
    rcases h with ⟨_, rfl⟩ | ⟨v, rfl⟩ | ⟨_, rfl⟩ | ⟨_, rfl⟩
    · exact fun _ => rfl
    · exact (touches_unpackP fun _ => v).mono (List.subset_append_right [Part.regPC, .regPB] _)
    · exact fun _ => rfl
    · exact fun _ => rfl

end
end Sys2Proof.Machine
end

section
/-! # What one instruction keeps -/
namespace Sys2Proof.Machine

section
variable {i : Instr} {m : Mnemonic} {o : Operand} {s t : State} {f : CostFacts}

/-- A property of the registers that every change of a body keeps holds where the body ends well. -/
theorem body_keeps (I : Cpu → Prop) (hch : ∀ g, Changes i.mnemonic i.operand g → ∀ c, I c → I (g c))
    (hb : bodyOf i.mnemonic i.operand s = .ok f t) (h0 : I s.cpu) : I t.cpu := by
  cases body_ok_latch hb with
  | quiet hm hq =>
    exact (closed_body (inv_rel I).closed.toReadClosed i.mnemonic i.operand hm (fun _ => (inv_rel I).closed.busWrite)
      fun g hg => carries_modifyCpu fun s => hch g hg s.cpu).ok hb h0
  | wai _ e => rw [e]; exact h0
  | stp _ e => rw [e]; exact h0
  | wdm _ e => rw [e]; split <;> exact h0

/-- A part the body of the instruction does not touch is the same where the body ends well. -/
theorem body_keeps_part {g : Part} (hg : g ∉ touchedParts (memOperand i.operand).isSome i.mnemonic)
    (hb : bodyOf i.mnemonic i.operand s = .ok f t) : g.get t.cpu = g.get s.cpu :=
  body_keeps (fun c => g.get c = g.get s.cpu) (fun _ hf c h => ((changes_touch hf).get_eq hg c).trans h) hb rfl

/-- A property of the registers holds at the end of a computation where it holds at the start, however it ends. -/
abbrev KeepsCpu (I : Cpu → Prop) {α : Type} (body : BusM α) : Prop := Carries (fun s t => I s.cpu → I t.cpu) body

/-! ### The invariants of the width flags and the index registers -/

/-- What the mode invariants say beside the stack pointer: `E = 1` forces the width flags (R20), and `P.X = 1` the high
bytes of the index registers (R13). -/
def WidthInv (c : Cpu) : Prop := (c.e = true → c.p.m = true ∧ c.p.x = true) ∧ IndexInv c

/-- What they say of the stack pointer. -/
def PageInv (c : Cpu) : Prop := c.e = true → hiByte c.s = 0x01#8

theorem modeInv_iff {c : Cpu} : ModeInv c ↔ WidthInv c ∧ PageInv c :=
  ⟨fun ⟨hE, hX⟩ => ⟨⟨fun he => ⟨(hE he).1, (hE he).2.1⟩, hX⟩, fun he => (hE he).2.2⟩,
    fun ⟨⟨hW, hX⟩, hS⟩ => ⟨fun he => ⟨(hW he).1, (hW he).2, hS he⟩, hX⟩⟩

/-- The parts `WidthInv` speaks of. -/
def widthParts : List Part := [.bitE, .flagM, .flagX, .regX, .regY]

theorem widthInv_congr {c c' : Cpu} (h : ∀ g ∈ widthParts, g.get c' = g.get c) (hc : WidthInv c) : WidthInv c' := by
  have he : c'.e = c.e := h .bitE (by decide)
  have hm : c'.p.m = c.p.m := h .flagM (by decide)
  have hx : c'.p.x = c.p.x := h .flagX (by decide)
  have hX : c'.x = c.x := h .regX (by decide)
  have hY : c'.y = c.y := h .regY (by decide)
  unfold WidthInv IndexInv
  rwa [he, hm, hx, hX, hY]

/-- A value truncated to the index width has no high byte when `P.X = 1`. -/
theorem hiByte_trunc_widthXY {c : Cpu} (h : c.p.x = true) (v : Word) : hiByte (c.widthXY.trunc v) = 0x00#8 := by
  simp [Cpu.widthXY, h, Width.trunc]

theorem widthInv_loadX {c : Cpu} (v : Word) (h : WidthInv c) : WidthInv (c.loadX v) :=
  ⟨h.1, fun hx => ⟨hiByte_trunc_widthXY hx v, (h.2 hx).2⟩⟩

theorem widthInv_loadY {c : Cpu} (v : Word) (h : WidthInv c) : WidthInv (c.loadY v) :=
  ⟨h.1, fun hx => ⟨(h.2 hx).1, hiByte_trunc_widthXY hx v⟩⟩

theorem widthInv_normalize (c : Cpu) : WidthInv c.normalize := (modeInv_iff.1 (modeInv_normalize c)).1

theorem widthInv_blockStep {c : Cpu} (dir : Word) (h : WidthInv c) : WidthInv (c.blockStep dir) :=
  ⟨h.1, fun hx => ⟨hiByte_trunc_widthXY hx _, hiByte_trunc_widthXY hx _⟩⟩

/-- The mnemonics whose bodies write what `WidthInv` speaks of. -/
def widthWriters : List Mnemonic :=
  [.ldx, .plx, .tax, .tyx, .tsx, .inx, .dex, .ldy, .ply, .tay, .txy, .iny, .dey, .mvn, .mvp, .rep, .sep, .plp, .rti, .xce]

theorem mem_widthWriters {mem : Bool} {g : Part} (hg : g ∈ widthParts) (h : g ∈ touchedParts mem m) :
    m ∈ widthWriters := by
  revert g mem
  cases m <;> decide

/-- Every change a body makes keeps `WidthInv`. -/
theorem changes_keep_widthInv {g : Cpu → Cpu} (h : Changes m o g) {c : Cpu} (hc : WidthInv c) : WidthInv (g c) := by
  cases m with
  | ldx =>
    obtain ⟨v, rfl⟩ := h
    exact widthInv_loadX v hc
  | ldy =>
    obtain ⟨v, rfl⟩ := h
    exact widthInv_loadY v hc
  | tax | tyx | tsx | inx | dex =>
    obtain rfl := h
    exact widthInv_loadX _ hc
  | tay | txy | iny | dey =>
    obtain rfl := h
    exact widthInv_loadY _ hc
  | plx =>
    rcases h with ⟨_, rfl⟩ | ⟨v, rfl⟩
    · exact hc
    · exact widthInv_loadX v hc
  | ply =>
    rcases h with ⟨_, rfl⟩ | ⟨v, rfl⟩
    · exact hc
    · exact widthInv_loadY v hc
  | mvn | mvp =>
    rcases h with ⟨_, rfl⟩ | rfl
    · exact hc
    · exact widthInv_blockStep _ hc
  | rep | sep =>
    obtain ⟨_, rfl⟩ := h
    exact widthInv_normalize _
  | plp =>
    rcases h with ⟨_, rfl⟩ | ⟨_, rfl⟩
    · exact hc
    · exact widthInv_normalize _
  | rti =>
    rcases h with ⟨_, rfl⟩ | ⟨_, rfl⟩ | ⟨_, rfl⟩ | ⟨_, rfl⟩
    · exact hc
    · exact widthInv_normalize _
    · exact hc
    · exact hc
  | xce =>
    obtain rfl := h
    exact widthInv_normalize _
  | _ =>
    exact widthInv_congr
      (fun _ hp => (changes_touch h).get_eq (fun ht => absurd (mem_widthWriters hp ht) (by decide)) c) hc

/-! ### The stack pointer in Emulation mode

A push or pull that does not wrap inside page 1 may leave it; but in Emulation mode the instructions of R240 and R241 wrap,
and those of R242 that do not wrap end with `S` forced back.  So what is kept is kept by a whole body started in Emulation
mode, not by each of its changes. -/

/-- The stack pointer is in page 1. -/
def InPage1 (c : Cpu) : Prop := hiByte c.s = 0x01#8

/-- From Emulation mode with the stack pointer in page 1, the computation ends with it in page 1 if it ends well. -/
def StaysInPage1 {α : Type} (body : BusM α) : Prop :=
  ∀ s v t, s.cpu.e = true → InPage1 s.cpu → body s = .ok v t → InPage1 t.cpu

/-- Every part of the computation keeps the stack pointer in page 1, in any mode. -/
abbrev KeepsPage1 {α : Type} (body : BusM α) : Prop := KeepsCpu InPage1 body

theorem keepsPage1_closed : WriteClosed fun _ body => KeepsPage1 body := (inv_rel InPage1).closed

theorem keepsPage1_modifyCpu {g : Cpu → Cpu} (h : ∀ c, InPage1 c → InPage1 (g c)) : KeepsPage1 (modifyCpu g) :=
  carries_modifyCpu fun s => h s.cpu

theorem keepsPage1_down : KeepsPage1 (modifyCpu fun c => { c with s := stackDown true c.s }) :=
  keepsPage1_modifyCpu fun _ _ => hiByte_mkWord _ _

theorem keepsPage1_up : KeepsPage1 (modifyCpu fun c => { c with s := stackUp true c.s }) :=
  keepsPage1_modifyCpu fun _ _ => hiByte_mkWord _ _

theorem keepsPage1_pushList (bytes : List Byte) : KeepsPage1 (pushList true bytes) := by
  induction bytes with
  | nil => exact keepsPage1_closed.pure _ _
  | cons v rest ih => exact keepsPage1_closed.seq (keepsPage1_closed.pushByte keepsPage1_down v) fun _ => ih

theorem inPage1_unpackP {c : Cpu} (b : Byte) (h : InPage1 c) : InPage1 (c.unpackP b) := by
  rw [unpackP_eq]
  unfold InPage1 withStatusByte
  dsimp only
  split
  · exact hiByte_mkWord _ _
  · exact h

section
variable {α β : Type} {body : BusM α}

theorem staysInPage1_of_keeps (h : KeepsPage1 body) : StaysInPage1 body := fun _ _ _ _ hs hb => h.ok hb hs

theorem staysInPage1_pure (v : α) : StaysInPage1 (pure v : BusM α) :=
  staysInPage1_of_keeps (keepsPage1_closed.pure _ v)

theorem staysInPage1_then_pure (h : StaysInPage1 body) (g : α → β) : StaysInPage1 (body >>= fun v => pure (g v)) := by
  intro s v t he hs hb
  obtain ⟨w, u, h1, h2⟩ := of_bind_ok s hb
  cases h2
  exact h s w _ he hs h1

theorem staysInPage1_plainly {body : BusM Unit} (h : StaysInPage1 body) : StaysInPage1 (plainly body) :=
  staysInPage1_then_pure h fun _ => noFacts

theorem staysInPage1_getCpu {g : Cpu → BusM α} (h : ∀ c, StaysInPage1 (g c)) : StaysInPage1 (getCpu >>= g) :=
  fun s v t he hs hb => h s.cpu s v t he hs hb

/-- In Emulation mode a stack instruction runs with the page-1 arm (R240, R241). -/
theorem staysInPage1_withStack {body : Bool → BusM α} (h : KeepsPage1 (body true)) : StaysInPage1 (withStack body) := by
  intro s v t he hs hb
  rw [run_withStack, State.stackWraps, he] at hb
  exact h.ok hb hs

/-- In Emulation mode an instruction of R242 runs with the page-1 arm, or ends with `S` forced into page 1. -/
theorem staysInPage1_withStackNew {body : Bool → BusM Unit} (h : KeepsPage1 (body true)) :
    StaysInPage1 (withStackNew body) := by
  intro s v t he hs hb
  obtain ⟨_, u, h1, h2⟩ := of_bind_ok s hb
  rw [State.stackWrapsNew, he] at h1
  rw [he] at h2
  cases hp : s.params.emuStackNewInsn16Bit with
  | true =>
    rw [hp] at h2
    cases h2
    exact hiByte_mkWord _ _
  | false =>
    rw [hp] at h1 h2
    cases h2
    exact h.ok h1 hs

end

theorem staysInPage1_trapEntry (k : TrapKind) (ret : Word) : StaysInPage1 (trapEntry k ret) := by
  intro s v t he hs hb
  rw [trapEntry_eq, he] at hb
  have h : KeepsPage1 (pushList true (trapFrame s.cpu ret (k.pushedP s.cpu)) >>= fun _ =>
      modifyCpu (fun c => { c with p := { c.p with i := true, d := false }, pb := 0x00#8 }) >>= fun _ =>
      memRead16 .bank (k.vector true) >>= fun target => modifyCpu fun c => { c with pc := target }) :=
    keepsPage1_closed.seq (keepsPage1_pushList _) fun _ =>
      keepsPage1_closed.seq (keepsPage1_modifyCpu fun _ h => h) fun _ =>
      keepsPage1_closed.seq (keepsPage1_closed.memRead16 _ _) fun _ => keepsPage1_modifyCpu fun _ h => h
  exact h.ok hb hs

/-- `TrapReturn()` in Emulation mode pulls the status and the program counter, and no program bank (R330). -/
theorem trapReturn_emulation (he : s.cpu.e = true) : trapReturn s =
    (pullByte true >>= fun p => modifyCpu (fun c => c.unpackP p) >>= fun _ =>
      pullWord true >>= fun pc => modifyCpu (fun c => { c with pc := pc }) >>= fun _ => pure ()) s := by
  rw [trapReturn, run_bind_ok s _ (run_getCpu s)]
  simp only [he, if_true]

/-- In Emulation mode `TrapReturn()` keeps what pulls inside page 1, `UnpackP` and a change of `PC` keep. -/
theorem trapReturn_keeps (I : Cpu → Prop) (hs : ∀ c v, hiByte v = 0x01#8 → I c → I { c with s := v })
    (hp : ∀ c b, I c → I (c.unpackP b)) (hpc : ∀ c v, I c → I { c with pc := v }) (he : s.cpu.e = true)
    (h : trapReturn s = .ok () t) (h0 : I s.cpu) : I t.cpu := by
  have k : WriteClosed fun _ body => KeepsCpu I body := (inv_rel I).closed
  have up : KeepsCpu I (modifyCpu fun c => { c with s := stackUp true c.s }) :=
    carries_modifyCpu fun s => hs s.cpu _ (hiByte_mkWord _ _)
  have unpack : ∀ p, KeepsCpu I (modifyCpu fun c => c.unpackP p) := fun p => carries_modifyCpu fun s => hp s.cpu p
  have jump : ∀ pc, KeepsCpu I (modifyCpu fun c => { c with pc := pc }) := fun pc =>
    carries_modifyCpu fun s => hpc s.cpu pc
  rw [trapReturn_emulation he] at h
  exact (k.seq (k.pullByte up) fun p => k.seq (unpack p) fun _ => k.seq (k.pullWord up) fun pc =>
    k.seq (jump pc) fun _ => k.pure _ _).ok h h0

theorem staysInPage1_trapReturn : StaysInPage1 trapReturn := fun _ _ _ he hs hb =>
  trapReturn_keeps InPage1 (fun _ _ h _ => h) (fun _ => inPage1_unpackP) (fun _ _ => id) he hb hs

/-- The mnemonics whose bodies push or pull. -/
def stackMnemonics : List Mnemonic :=
  [.pha, .phx, .phy, .php, .phb, .phd, .phk, .pla, .plx, .ply, .plp, .plb, .pld, .pea, .pei, .per, .jsr, .jsl, .rts,
    .rtl, .brk, .cop, .rti]

/-- In Emulation mode every instruction that pushes or pulls ends with the stack pointer in page 1. -/
theorem staysInPage1_stack (hm : m ∈ stackMnemonics) : StaysInPage1 (bodyOf m o) := by
  have k := keepsPage1_closed
  have down := keepsPage1_down
  have up := keepsPage1_up
  have same : ∀ {g : Cpu → Cpu}, (∀ c, (g c).s = c.s) → KeepsPage1 (modifyCpu g) := fun h =>
    keepsPage1_modifyCpu fun c hc => by rwa [InPage1, h]
  have stack : ∀ {body : Bool → BusM Unit}, KeepsPage1 (body true) → StaysInPage1 (plainly (withStack body)) :=
    fun h => staysInPage1_plainly (staysInPage1_withStack h)
  have stackNew : ∀ {body : Bool → BusM Unit}, KeepsPage1 (body true) → StaysInPage1 (plainly (withStackNew body)) :=
    fun h => staysInPage1_plainly (staysInPage1_withStackNew h)
  have jump : ∀ target, KeepsPage1 (jumpTo target) := fun _ => same fun _ => rfl
  cases m with
  | pha | phx | phy => exact stack (k.seq k.getCpu fun _ => k.pushData down _ _)
  | php | phb | phk => exact stack (k.seq k.getCpu fun _ => k.pushByte down _)
  | phd => exact stackNew (k.seq k.getCpu fun _ => k.pushWord down _)
  | pla | plx | ply => exact stack (k.seq k.getCpu fun _ => k.seq (k.pullData up _) fun _ => same fun _ => rfl)
  | plb => exact stack (k.seq (k.pullByte up) fun _ => same fun _ => rfl)
  | plp => exact stack (k.seq (k.pullByte up) fun v => keepsPage1_modifyCpu fun _ => inPage1_unpackP v)
  | pld => exact stackNew (k.seq (k.pullWord up) fun _ => same fun _ => rfl)
  | rts => exact stack (k.seq (k.pullWord up) fun _ => same fun _ => rfl)
  | rtl => exact stackNew (k.seq (k.pullWord up) fun _ => k.seq (k.pullByte up) fun _ => same fun _ => rfl)
  | brk | cop => exact staysInPage1_plainly (staysInPage1_getCpu fun c => staysInPage1_trapEntry _ c.pc)
  | rti => exact staysInPage1_plainly staysInPage1_trapReturn
  | pea =>
    show StaysInPage1 (onImm16 pea o)
    unfold onImm16
    split
    · exact stackNew (k.pushWord down _)
    · exact staysInPage1_pure _
  | per =>
    show StaysInPage1 (onRel16 per o)
    unfold onRel16
    split
    · exact stackNew (k.seq k.getCpu fun _ => k.pushWord down _)
    · exact staysInPage1_pure _
  | pei =>
    show StaysInPage1 (onInd pei o)
    unfold onInd
    split
    · rename_i v
      exact stackNew (k.state _ (fun s => directPointer (directOffset s v) >>= pushWord true) fun _ =>
        k.seq (k.directPointer _) fun _ => k.pushWord down _)
    · exact staysInPage1_pure _
  | jsr =>
    show StaysInPage1 (onJump jsr (fun _ => pure noFacts) jsrIndexed o)
    unfold onJump
    split
    · exact stack (k.seq (k.pushReturn down) fun _ => jump _)
    · exact staysInPage1_pure _
    · exact staysInPage1_getCpu fun _ => staysInPage1_then_pure (staysInPage1_withStackNew
        (k.seq (k.pushReturn down) fun _ => k.seq (k.aindxPointer _) jump)) _
    · exact staysInPage1_pure _
  | jsl =>
    show StaysInPage1 (onJumpLong jsl (fun _ => pure noFacts) o)
    unfold onJumpLong
    split
    · exact stackNew (k.seq k.getCpu fun _ => k.seq (k.pushByte down _) fun _ =>
        k.seq (k.pushReturn down) fun _ => same fun _ => rfl)
    · exact staysInPage1_pure _
    · exact staysInPage1_pure _
  | _ => exact absurd hm (by decide)

theorem pageInv_normalize (c : Cpu) : PageInv c.normalize := (modeInv_iff.1 (modeInv_normalize c)).2

theorem pageInv_writeS (c : Cpu) (v : Word) : PageInv (c.writeS v) := by
  intro he
  have he : c.e = true := he
  simp [Cpu.writeS, he, page1]

/-- The mnemonics whose bodies write what `PageInv` speaks of: the stack instructions, and five others. -/
theorem mem_pageWriters {mem : Bool} {g : Part} (hg : g ∈ [Part.bitE, .regS]) (h : g ∈ touchedParts mem m) :
    m ∈ stackMnemonics ∨ m ∈ [Mnemonic.txs, .tcs, .rep, .sep, .xce] := by
  revert g mem
  cases m <;> decide

/-- Every change made by a body that neither pushes nor pulls keeps `PageInv`. -/
theorem changes_keep_pageInv {g : Cpu → Cpu} (hm : m ∉ stackMnemonics) (h : Changes m o g) {c : Cpu} (hc : PageInv c) :
    PageInv (g c) := by
  cases m with
  | txs | tcs =>
    obtain rfl := h
    exact pageInv_writeS c _
  | rep | sep =>
    obtain ⟨_, rfl⟩ := h
    exact pageInv_normalize _
  | xce =>
    obtain rfl := h
    exact pageInv_normalize _
  | _ =>
    have kept : ∀ p ∈ [Part.bitE, .regS], p.get (g c) = p.get c := fun p hp =>
      (changes_touch h).get_eq (fun ht => (mem_pageWriters hp ht).elim hm (by decide)) c
    have he : (g c).e = c.e := kept .bitE (by decide)
    have hs : (g c).s = c.s := kept .regS (by decide)
    rwa [PageInv, he, hs]

/-! ### The mode invariants over one instruction -/

/-- No instruction but XCE writes `E`. -/
theorem bitE_touched {mem : Bool} (h : Part.bitE ∈ touchedParts mem m) : m = .xce :=
  List.mem_singleton.1 (mem_writersOf .bitE h)

theorem body_keeps_pageInv (hb : bodyOf i.mnemonic i.operand s = .ok f t) (h : PageInv s.cpu) : PageInv t.cpu := by
  by_cases hm : i.mnemonic ∈ stackMnemonics
  · intro ht
    have hE : t.cpu.e = s.cpu.e := body_keeps_part (g := .bitE) (fun hg => by
      rw [bitE_touched hg] at hm
      exact absurd hm (by decide)) hb
    have hs : s.cpu.e = true := hE ▸ ht
    exact staysInPage1_stack hm s f t hs (h hs) hb
  · exact body_keeps PageInv (fun _ hg _ => changes_keep_pageInv hm hg) hb h

theorem body_keeps_modeInv (hb : bodyOf i.mnemonic i.operand s = .ok f t) (h : ModeInv s.cpu) : ModeInv t.cpu := by
  obtain ⟨hW, hS⟩ := modeInv_iff.1 h
  exact modeInv_iff.2 ⟨body_keeps WidthInv (fun _ hg _ => changes_keep_widthInv hg) hb hW, body_keeps_pageInv hb hS⟩

theorem exec_keeps_modeInv (h : exec i s = .next t) (hs : ModeInv s.cpu) : ModeInv t.cpu := by
  rcases exec_cases i s with ⟨f, u, hb, -, he⟩ | ⟨e, u, -, -, he⟩ | ⟨-, he⟩ <;> rw [he] at h <;> cases h
  · exact body_keeps_modeInv (t := u) hb hs
  · exact hs
  · exact hs

end
end Sys2Proof.Machine
end

section
/-! # What one step can do, and the invariant it keeps -/
namespace Sys2Proof.Machine

/-! ### Computations that only read -/

/-- Between the start and the end of a computation only the bus's access record and callback log changed. -/
def OnlyReads (s t : State) : Prop := ∃ b, t = s.withBus b ∧ KeepsMemory s.bus b

theorem onlyReads_rel : ReadRel OnlyReads where
  refl s := ⟨s.bus, rfl, keepsMemory_refl _⟩
  trans := by
    rintro s _ _ ⟨b, rfl, k⟩ ⟨b', rfl, k'⟩
    exact ⟨b', rfl, keepsMemory_trans k k'⟩
  read _ b hr ht _ := ⟨b, rfl, keepsMemory_of hr ht⟩

theorem OnlyReads.regionsWf {s t : State} (h : OnlyReads s t) (hs : RegionsWf s.bus) : RegionsWf t.bus := by
  obtain ⟨b, rfl, hregions, -⟩ := h
  rwa [withBus_bus, RegionsWf, hregions]

/-- The fetch is made of bus reads. -/
theorem ReadClosed.fetchBytes {P : (α : Type) → BusM α → Prop} (h : ReadClosed P) : P (List Byte) fetchBytes := by
  have operands : ∀ pb pc n k, P (List Byte) (fetchOperands pb pc n k) := fun pb pc n => by
    induction n with
    | zero => exact fun k => h.pure _ _
    | succ n ih => exact fun k => h.seq (h.busRead _) fun _ => h.seq (ih _) fun _ => h.pure _ _
  exact h.seq h.getCpu fun _ => h.seq (h.busRead _) fun _ => h.seq (operands _ _ _ _) fun _ => h.pure _ _

theorem fetchBytes_onlyReads : Carries OnlyReads fetchBytes := onlyReads_rel.closed.fetchBytes

theorem memRead16_onlyReads (w : Wrap) (a : Address) : Carries OnlyReads (memRead16 w a) :=
  onlyReads_rel.closed.memRead16 w a

/-- A trap entry changes nothing but registers and memory. -/
theorem trapEntry_quiet (k : TrapKind) (ret : Word) : Carries Quiet (trapEntry k ret) := by
  have change : ∀ g, Carries Quiet (modifyCpu g) := fun g => carries_modifyCpu fun s => quietCpu s (g s.cpu)
  exact quietRel.closed.trapEntry (fun _ => change _) (change _) (fun _ => change _) k ret

/-- A property of the registers that `S`, `P.I`, `P.D`, `PB` and `PC` have no part in is kept by a trap entry (R326). -/
theorem trapEntry_keeps (I : Cpu → Prop) (hs : ∀ c v, I c → I { c with s := v })
    (hp : ∀ c, I c → I { c with p := { c.p with i := true, d := false }, pb := 0x00#8 })
    (hpc : ∀ c v, I c → I { c with pc := v }) (k : TrapKind) (ret : Word) :
    KeepsCpu I (trapEntry k ret) :=
  (inv_rel I).closed.trapEntry (fun _ => carries_modifyCpu fun s => hs s.cpu _) (carries_modifyCpu fun s => hp s.cpu)
    (fun _ => carries_modifyCpu fun s => hpc s.cpu _) k ret

/-- A trap entry that ends well keeps the mode invariants. -/
theorem trapEntry_keeps_modeInv {k : TrapKind} {ret : Word} {s t : State} (h : trapEntry k ret s = .ok () t)
    (hs : ModeInv s.cpu) : ModeInv t.cpu := by
  obtain ⟨hW, hS⟩ := modeInv_iff.1 hs
  have he : t.cpu.e = s.cpu.e :=
    (trapEntry_keeps (fun c => c.e = s.cpu.e) (fun _ _ => id) (fun _ => id) (fun _ _ => id) k ret).ok h rfl
  refine modeInv_iff.2 ⟨?_, fun ht => ?_⟩
  · exact (trapEntry_keeps WidthInv (fun _ _ => id) (fun _ => id) (fun _ _ => id) k ret).ok h hW
  · rw [he] at ht
    exact staysInPage1_trapEntry k ret s () t ht (hS ht) h

/-! ### The ways a step ends -/

/-- What interrupt sampling can change before the step goes on: `nmi_pending` and `waiting` (R328). -/
def SampledFrom (s s' : State) : Prop := ∃ nmi wait, s' = { s with nmiPending := nmi, waiting := wait }

section
variable {start s t : State} {k : TrapKind} {i : Instr}

/-- A step that is not refused enters a handler, idles, or runs an instruction. -/
theorem step_cases (hrun : s.abortCause = .noAbort) (h : step s = .next t) :
    (∃ k s', SampledFrom s s' ∧ takeInterrupt k s s' = .next t) ∨ t = idleStep s ∨
      ∃ s', SampledFrom s s' ∧ runInstruction s s' = .next t := by
  have goOn : ∀ s', SampledFrom s s' → (s'.waiting = true → s' = s) →
      (if s'.waiting then Host.Outcome.next (idleStep s') else runInstruction s s') = .next t →
      t = idleStep s ∨ ∃ s', SampledFrom s s' ∧ runInstruction s s' = .next t := fun s' hs' hw h => by
    split at h
    · cases h
      rw [hw ‹_›]
      exact .inl rfl
    · exact .inr ⟨s', hs', h⟩
  unfold step stepSession at h
  rw [if_pos hrun] at h
  unfold checkInterrupts at h
  split at h
  · rename_i r hr
    split at hr
    · cases hr
    split at hr
    · cases hr
      exact .inl ⟨_, _, ⟨_, _, rfl⟩, h⟩
    split at hr
    · split at hr <;> cases hr
      exact .inl ⟨_, _, ⟨s.nmiPending, _, rfl⟩, h⟩
    · cases hr
  · rename_i s' hs'
    split at hs'
    · cases hs'
      exact .inr (goOn s ⟨_, _, rfl⟩ (fun _ => rfl) h)
    split at hs'
    · cases hs'
    split at hs'
    · split at hs' <;> cases hs'
      exact .inr (goOn _ ⟨s.nmiPending, _, rfl⟩ (fun hw => by cases hw) h)
    · cases hs'
      exact .inr (goOn s ⟨_, _, rfl⟩ (fun _ => rfl) h)

/-- An interrupt entry ends with its cost recorded, or with the rollback of a failed access (R326). -/
theorem takeInterrupt_cases (h : takeInterrupt k start s = .next t) :
    (∃ u, trapEntry k s.cpu.pc s.notePc = .ok () u ∧ t = u.charge (interruptCost s.params.cycleCost s.cpu.e)) ∨
    ∃ e u, trapEntry k s.cpu.pc s.notePc = .error e u ∧ t = u.rollback start e.cause := by
  unfold takeInterrupt at h
  dsimp only at h
  split at h
  · rename_i u hu
    cases h
    exact .inl ⟨u, hu, rfl⟩
  · rename_i e u hu
    cases h
    exact .inr ⟨e, u, hu, rfl⟩

/-- Running an instruction ends with the rollback of a failed fetch, or where the decoded instruction ends, rolled back
to the start of the step if that is a bus failure. -/
theorem runInstruction_cases (h : runInstruction start s = .next t) :
    (∃ e u, fetchBytes s.notePc = .error e u ∧ t = u.rollback start e.cause) ∨
    ∃ bytes u i rest v, fetchBytes s.notePc = .ok bytes u ∧ decode u.cpu.p.m u.cpu.p.x bytes = some (i, rest) ∧
      execDecoded i u = .next v ∧ (t = v ∨ ∃ a d, t = v.rollback start (.busUnmapped a d)) := by
  unfold runInstruction at h
  split at h
  · rename_i e u hu
    cases h
    exact .inl ⟨e, u, hu, rfl⟩
  · rename_i bytes u hu
    split at h
    · cases h
    · rename_i i rest hi
      refine .inr ⟨bytes, u, i, rest, ?_⟩
      unfold settle at h
      split at h
      · rename_i v hv
        refine ⟨v, hu, hi, hv, ?_⟩
        split at h <;> cases h
        · exact .inr ⟨_, _, rfl⟩
        all_goals exact .inl rfl
      · cases h
      · cases h

/-- The decoded instruction performs its own body, or R305's when its opcode is `ABORT_OPCODE` (R79). -/
theorem execDecoded_eq (i : Instr) (s : State) : execDecoded i s =
    perform i (if i.opcode = s.params.abortOpcode then abortBody else bodyOf i.mnemonic i.operand) s := by
  unfold execDecoded
  split
  · rfl
  · exact exec_eq_perform i s

/-! ### The invariant -/

theorem stopped_of_running (h : LatchInv s) (hrun : s.abortCause = .noAbort) : s.stopped = false := by
  cases hst : s.stopped with
  | false => rfl
  | true => rw [h.1.1 hst] at hrun; cases hrun

/-- The latches of a core that did not execute STP. -/
theorem latchInv_of_not_stopped (hst : t.stopped = false) (h : t.abortCause ≠ .stopped)
    (hw : t.abortCause ≠ .widthMismatch) : LatchInv t :=
  ⟨⟨fun h' => absurd (hst ▸ h') nofun, fun h' => absurd h' h⟩, hw⟩

/-- The rollback of a bus failure keeps the invariant of the start of the step. -/
theorem stateInv_rollback (hs : StateInv start) (hrun : start.abortCause = .noAbort) (ht : RegionsWf t.bus)
    (a : Address) (d : Direction) : StateInv (t.rollback start (.busUnmapped a d)) := by
  obtain ⟨hmode, -, hlatch⟩ := hs
  exact ⟨hmode, ht, latchInv_of_not_stopped (stopped_of_running (s := start) hlatch hrun) nofun nofun⟩

theorem stateInv_charge (h : StateInv t) (n : Nat) : StateInv (t.charge n) := h

theorem stateInv_of_onlyReads (h : StateInv s) (hr : OnlyReads s t) : StateInv t := by
  obtain ⟨hmode, hmem, hlatch⟩ := h
  have hmem' := hr.regionsWf hmem
  obtain ⟨b, rfl, -⟩ := hr
  exact ⟨hmode, hmem', hlatch⟩

/-- What a body ends well in meets the invariant. -/
theorem body_ok_stateInv {f : CostFacts} (hs : StateInv s) (hrun : s.abortCause = .noAbort)
    (h : bodyOf i.mnemonic i.operand s = .ok f t) : StateInv t := by
  obtain ⟨hmode, hmem, hlatch⟩ := hs
  have hmode' := body_keeps_modeInv h hmode
  have hst := stopped_of_running hlatch hrun
  cases body_ok_latch h with
  | quiet _ hq =>
    refine ⟨hmode', hq.wf hmem, ?_⟩
    rwa [LatchInv, hq.stopped, hq.abortCause]
  | wai _ e => subst e; exact ⟨hmode', hmem, hlatch⟩
  | stp _ e => subst e; exact ⟨hmode', hmem, ⟨fun _ => rfl, fun _ => rfl⟩, nofun⟩
  | wdm _ e =>
    split at e
    · subst e
      exact ⟨hmode', hmem, latchInv_of_not_stopped hst nofun nofun⟩
    · subst e
      exact ⟨hmode', hmem, hlatch⟩

/-- A decoded instruction keeps the invariant: it is well-formed, so that `WidthMismatch` cannot arise (R323). -/
theorem execDecoded_stateInv (hw : i.wellFormed s.cpu.p.m s.cpu.p.x = true) (hs : StateInv s)
    (hrun : s.abortCause = .noAbort) (h : execDecoded i s = .next t) : StateInv t := by
  have hadv : StateInv (advance i s) := hs
  rw [execDecoded_eq] at h
  rcases perform_cases i (if i.opcode = s.params.abortOpcode then abortBody else bodyOf i.mnemonic i.operand) s with
    ⟨f, u, -, hb, he⟩ | ⟨e, u, -, hb, he⟩ | ⟨hw', -⟩
  · rw [he] at h
    cases h
    refine stateInv_charge ?_ _
    split at hb
    · cases hb
      obtain ⟨hmode, hmem, hlatch⟩ := hadv
      exact ⟨hmode, hmem, latchInv_of_not_stopped (stopped_of_running (s := s) hlatch hrun) nofun nofun⟩
    · exact body_ok_stateInv hadv hrun hb
  · rw [he] at h
    cases h
    refine stateInv_rollback hs hrun ?_ _ _
    split at hb
    · cases hb
    · exact (body_error_quiet hb).wf hs.2.1
  · rw [hw] at hw'
    cases hw'

theorem stateInv_of_sampled (hs : StateInv s) (h : SampledFrom s t) : StateInv t := by
  obtain ⟨_, _, rfl⟩ := h
  exact hs

theorem takeInterrupt_stateInv (hstart : StateInv start) (hrun : start.abortCause = .noAbort)
    (hs : SampledFrom start s) (h : takeInterrupt k start s = .next t) : StateInv t := by
  obtain ⟨hmode, hmem, hlatch⟩ := stateInv_of_sampled hstart hs
  rcases takeInterrupt_cases h with ⟨u, hu, rfl⟩ | ⟨e, u, hu, rfl⟩
  · have hq := (trapEntry_quiet _ _).ok hu
    refine stateInv_charge ⟨trapEntry_keeps_modeInv hu hmode, hq.wf hmem, ?_⟩ _
    rw [LatchInv, hq.stopped, hq.abortCause]
    exact hlatch
  · exact stateInv_rollback hstart hrun (((trapEntry_quiet _ _).error hu).wf hmem) _ _

theorem runInstruction_stateInv (hstart : StateInv start) (hrun : start.abortCause = .noAbort)
    (hs : SampledFrom start s) (h : runInstruction start s = .next t) : StateInv t := by
  have hs' : StateInv s.notePc := stateInv_of_sampled (t := s) hstart hs
  have hrun' : s.notePc.abortCause = .noAbort := by
    obtain ⟨_, _, rfl⟩ := hs
    exact hrun
  rcases runInstruction_cases h with ⟨e, u, hu, rfl⟩ | ⟨bytes, u, i, rest, v, hu, hi, hv, ht⟩
  · exact stateInv_rollback hstart hrun ((fetchBytes_onlyReads.error hu).regionsWf hs'.2.1) _ _
  · have hread := fetchBytes_onlyReads.ok hu
    have hinv := stateInv_of_onlyReads hs' hread
    obtain ⟨b, rfl, -⟩ := hread
    have hv := execDecoded_stateInv (decode_wellFormed hi) hinv hrun' hv
    rcases ht with rfl | ⟨a, d, rfl⟩
    · exact hv
    · exact stateInv_rollback hstart hrun hv.2.1 a d

/-- Every step keeps the invariant. -/
theorem step_keeps_stateInv (hs : StateInv s) (h : step s = .next t) : StateInv t := by
  by_cases hrun : s.abortCause = .noAbort
  · rcases step_cases hrun h with ⟨k, s', hs', h'⟩ | rfl | ⟨s', hs', h'⟩
    · exact takeInterrupt_stateInv hs hrun hs' h'
    · exact hs
    · exact runInstruction_stateInv hs hrun hs' h'
  · unfold step stepSession at h
    rw [if_neg hrun] at h
    cases h
    exact hs

end
end Sys2Proof.Machine
end

section
/-! # `reset()` -/
namespace Sys2Proof.Machine

section
variable {s t : State}

/-- The registers `reset()` writes before it reads the vector (R32, R350). -/
theorem resetRegisters_cpu (s : State) : s.resetRegisters.cpu = { s.cpu with
    x := mkWord 0x00#8 (loByte s.cpu.x), y := mkWord 0x00#8 (loByte s.cpu.y), d := 0x0000#16, s := 0x01FF#16
    db := 0x00#8, e := true, p := { s.cpu.p with m := true, x := true, d := false, i := true } } := rfl

theorem resetRegisters_modeInv (s : State) : ModeInv s.resetRegisters.cpu := by
  have hpage : hiByte 0x01FF#16 = 0x01#8 := by decide
  rw [resetRegisters_cpu]
  exact ⟨fun _ => ⟨rfl, rfl, hpage⟩, fun _ => ⟨hiByte_mkWord _ _, hiByte_mkWord _ _⟩⟩

/-- `reset()` ends with the vector in `PC` and `prev_PC`, or with the abort of the failed vector read (R350, R324). -/
theorem hostReset_cases (s : State) :
    (∃ pc t, memRead16 .bank Config.resetVector s.resetRegisters = .ok pc t ∧
      s.hostReset = { t.withCpu { t.cpu with pc := pc, pb := 0x00#8 } with prevPc := pc }) ∨
    ∃ e t, memRead16 .bank Config.resetVector s.resetRegisters = .error e t ∧
      s.hostReset = { t with abortCause := e.cause } := by
  unfold State.hostReset
  cases h : memRead16 .bank Config.resetVector s.resetRegisters with
  | ok pc t => exact .inl ⟨pc, t, rfl, rfl⟩
  | error e t => exact .inr ⟨e, t, rfl, rfl⟩

/-- `reset()` establishes the invariant from every state with canonical memory, also when the vector read fails. -/
theorem hostReset_stateInv (hs : RegionsWf s.bus) : StateInv s.hostReset := by
  have hmode := resetRegisters_modeInv s
  have hread := memRead16_onlyReads .bank Config.resetVector
  rcases hostReset_cases s with ⟨pc, t, ht, he⟩ | ⟨e, t, ht, he⟩
  · have hmem := (hread.ok ht).regionsWf hs
    obtain ⟨b, rfl, -⟩ := hread.ok ht
    rw [he]
    exact ⟨hmode, hmem, latchInv_of_not_stopped rfl nofun nofun⟩
  · have hmem := (hread.error ht).regionsWf hs
    obtain ⟨b, rfl, -⟩ := hread.error ht
    rw [he]
    exact ⟨hmode, hmem, latchInv_of_not_stopped rfl nofun nofun⟩

/-- The two bytes of the vector, read in the order R350 gives. -/
theorem hostReset_of_mapped {lo hi : Byte} {b : Bus}
    (h : s.bus.loadAll [0x00FFFC#24, 0x00FFFD#24] = some ([lo, hi], b)) :
    s.hostReset = { (s.resetRegisters.withBus b).withCpu
      { s.resetRegisters.cpu with pc := mkWord hi lo, pb := 0x00#8 } with prevPc := mkWord hi lo } := by
  have hread : memRead16 .bank Config.resetVector s.resetRegisters = .ok (mkWord hi lo) (s.resetRegisters.withBus b) :=
    memRead16_ok .bank h
  rw [State.hostReset, hread]
  rfl

/-- The last of two reads is the one recorded. -/
theorem loadAll_pair_record {a a' : Address} {vs : List Byte} {b b' : Bus} (h : b.loadAll [a, a'] = some (vs, b')) :
    b'.lastAddr = a' ∧ b'.lastDir = .read := by
  obtain ⟨_, b₁, _, _, h', -⟩ := of_loadAll_cons h
  obtain ⟨_, b₂, _, hload, hnil, -⟩ := of_loadAll_cons h'
  obtain ⟨-, rfl⟩ := of_loadAll_nil hnil
  obtain ⟨-, -, haddr, hdir, -⟩ := load_record hload
  exact ⟨haddr, hdir⟩

theorem load_of_unmapped {b : Bus} {a : Address} (h : b.regionAt a = none) : b.load a = none := by
  rw [← Option.isNone_iff_eq_none, ← Option.not_isSome, load_isSome, Bus.mapped, h]
  rfl

/-- Where the vector's first byte is unmapped, the abort is latched and the vector is not taken (R324). -/
theorem hostReset_of_unmapped (h : s.bus.regionAt 0x00FFFC#24 = none) :
    s.hostReset = { s.resetRegisters.withBus (s.bus.record 0x00FFFC#24 .read) with
      abortCause := .busUnmapped 0x00FFFC#24 .read } := by
  have hload : s.resetRegisters.bus.load Config.resetVector = none := load_of_unmapped h
  have hread : memRead16 .bank Config.resetVector s.resetRegisters =
      .error ⟨0x00FFFC#24, .read⟩ (s.resetRegisters.withBus (s.bus.record 0x00FFFC#24 .read)) :=
    run_bind_error _ _ (run_bind_error _ _ (busRead_none hload))
  rw [State.hostReset, hread]
  rfl

/-- Settles O10: each way a step ends keeps the invariant, and `reset()` writes the registers it speaks of. -/
theorem stepKeepsInvariant : Obligations.StepKeepsInvariant := by
  unfold Obligations.StepKeepsInvariant
  exact ⟨fun _ _ => step_keeps_stateInv, fun _ => hostReset_stateInv⟩

/-- The model's own session is one that `reset()` leaves as it is. -/
theorem hostReset_reset : State.reset.hostReset = State.reset := rfl

/-- Settles O12. -/
theorem hostReset : Obligations.HostReset := by
  unfold Obligations.HostReset
  refine ⟨fun s lo hi b h => ⟨?_, loadAll_keeps h, loadAll_pair_record h⟩, fun s h => ?_, hostReset_reset⟩
  · rw [hostReset_of_mapped h]
    rfl
  · rw [hostReset_of_unmapped h]
    exact ⟨rfl, rfl, rfl, rfl, rfl, rfl, rfl, rfl⟩

/-- Settles O11: `State.reset` is what `reset()` leaves in it. -/
theorem resetMeetsInvariant : Obligations.ResetMeetsInvariant := by
  unfold Obligations.ResetMeetsInvariant
  rw [← hostReset_reset]
  exact hostReset_stateInv fun r hr => by
    obtain rfl := List.mem_singleton.1 hr
    exact wf_nil

end
end Sys2Proof.Machine
end

section
/-! # Which instructions change each flag, register and latch -/
namespace Sys2Proof.Machine

section
variable {i : Instr} {m : Mnemonic} {s t : State}

/-! ### Instructions by their descriptor -/

theorem instructionTable_opcode (i : Instr) : instructionTable i.opcode = ⟨i.mnemonic, i.operand.mode⟩ := by
  cases i <;> (dsimp only [Instr.opcode]; rfl)

/-- Opcode 89 is BIT with an immediate: its operand is not in memory. -/
theorem bit_immediate (h : i.opcode = 0x89#8) : i.mnemonic = .bit ∧ (memOperand i.operand).isSome = false := by
  have hd := instructionTable_opcode i
  rw [h] at hd
  obtain ⟨hm, hmode⟩ := Descriptor.mk.inj (show Descriptor.mk .bit .immM = _ from hd)
  refine ⟨hm.symm, ?_⟩
  cases ho : i.operand with
  | mem mo => rw [ho] at hmode; cases mo <;> cases hmode
  | _ => rfl

/-- The modes of the read-modify-write rows of the table (R77). -/
theorem mode_of_modifier : ∀ opcode : Byte, (instructionTable opcode).mnemonic ∈ modifiers →
    (instructionTable opcode).mode ∈ [Mode.acc, .dp, .dpx, .abs, .absx] := by decide

/-- A read-modify-write instruction without a memory operand works on the accumulator (R92). -/
theorem operand_acc_of_modifier (hm : i.mnemonic ∈ modifiers) (hmem : (memOperand i.operand).isSome = false) :
    i.operand = .acc := by
  have hmode := mode_of_modifier i.opcode
  rw [instructionTable_opcode] at hmode
  have hmode := hmode hm
  cases ho : i.operand with
  | acc => rfl
  | mem mo => rw [ho] at hmem; cases hmem
  | _ => simp [ho, Operand.mode] at hmode

theorem eq_xce (h : i.mnemonic = .xce) : i = .xce := by cases i <;> first | rfl | cases h

theorem eq_rti (h : i.mnemonic = .rti) : i = .rti := by cases i <;> first | rfl | cases h

/-! ### The parts of the register file -/

/-- A part that differs after an instruction is one its body touches. -/
theorem touched_of_ne {g : Part} (h : exec i s = .next t) (hne : g.get t.cpu ≠ g.get s.cpu) (hpc : g ≠ .regPC) :
    g ∈ touchedParts (memOperand i.operand).isSome i.mnemonic := by
  by_contra hg
  have hpc' : ∀ c pc, g.get { c with pc := pc } = g.get c := fun c pc => by
    cases g <;> first | rfl | exact absurd rfl hpc
  exact hne (field_kept g.get hpc' (fun _ hf c => (changes_touch hf).get_eq hg c) h)

/-- A part but `PC` that differs after an instruction is one the instruction's mnemonic writes. -/
theorem written_of_ne (g : Part) (h : exec i s = .next t) (hne : g.get t.cpu ≠ g.get s.cpu)
    (hpc : g ≠ .regPC := by decide) : i.mnemonic ∈ writersOf g := mem_writersOf g (touched_of_ne h hne hpc)

/-- `E` is the same after every instruction but XCE. -/
theorem eq_xce_of_bitE_ne (h : exec i s = .next t) (hne : t.cpu.e ≠ s.cpu.e) : i = .xce :=
  eq_xce (List.mem_singleton.1 (written_of_ne .bitE h hne))

/-- BIT with an immediate changes only `Z` (R139). -/
theorem not_bit_immediate_of_ne {g : Part} (h : exec i s = .next t) (hne : g.get t.cpu ≠ g.get s.cpu)
    (hpc : g ≠ .regPC) (hz : g ≠ .flagZ) : i.opcode ≠ 0x89#8 := by
  intro hop
  have ht := touched_of_ne h hne hpc
  obtain ⟨hm, hmem⟩ := bit_immediate hop
  rw [hm, hmem] at ht
  exact hz (List.mem_singleton.1 ht)

/-- In Emulation mode the width flags are 1 before and after every instruction but XCE (R20). -/
theorem widthFlags_of_emulation (h : exec i s = .next t) (hs : ModeInv s.cpu) (hi : i ≠ .xce) (he : s.cpu.e = true) :
    t.cpu.p.m = s.cpu.p.m ∧ t.cpu.p.x = s.cpu.p.x := by
  have hte : t.cpu.e = true := by
    by_contra hne
    exact hi (eq_xce_of_bitE_ne h (he ▸ hne))
  obtain ⟨hm, hx, -⟩ := hs.1 he
  obtain ⟨hm', hx', -⟩ := (exec_keeps_modeInv h hs).1 hte
  exact ⟨hm'.trans hm.symm, hx'.trans hx.symm⟩

/-- A width flag changes only by the instructions that assign the status byte, in Native mode, and by XCE. -/
theorem widthFlag_writer {g : Part} (hg : g = .flagM ∨ g = .flagX) (h : exec i s = .next t) (hs : ModeInv s.cpu)
    (hne : g.get t.cpu ≠ g.get s.cpu) : (i.mnemonic ∈ [.rep, .sep, .plp, .rti] ∧ s.cpu.e = false) ∨ i = .xce := by
  by_cases hi : i = .xce
  · exact .inr hi
  have hm : i.mnemonic ∈ [.rep, .sep, .plp, .rti] ++ [Mnemonic.xce] := by
    rcases hg with rfl | rfl <;> exact written_of_ne _ h hne
  rcases List.mem_append.1 hm with hm | hm
  · refine .inl ⟨hm, Bool.eq_false_iff.2 fun he => hne ?_⟩
    obtain ⟨hm, hx⟩ := widthFlags_of_emulation h hs hi he
    rcases hg with rfl | rfl
    · exact hm
    · exact hx
  · exact absurd (eq_xce (List.mem_singleton.1 hm)) hi

/-- Settles O57: a flag that differs is one the body touches; in Emulation mode the width flags are held at 1. -/
theorem flagWriters : Obligations.FlagWriters := by
  unfold Obligations.FlagWriters
  intro i s t h hs
  refine ⟨fun hn => ⟨?_, written_of_ne .flagN h hn⟩, fun hv => ⟨?_, written_of_ne .flagV h hv⟩,
    widthFlag_writer (g := .flagM) (.inl rfl) h hs, widthFlag_writer (g := .flagX) (.inr rfl) h hs,
    fun hd => written_of_ne .flagD h hd, fun hi => written_of_ne .flagI h hi, fun hz => written_of_ne .flagZ h hz,
    fun hc => written_of_ne .flagC h hc⟩
  · exact not_bit_immediate_of_ne (g := .flagN) h hn (by decide) (by decide)
  · exact not_bit_immediate_of_ne (g := .flagV) h hv (by decide) (by decide)

/-! ### Registers -/

/-- REP and SEP leave `S` alone: in Emulation mode it is in page 1 already (R20). -/
theorem regS_kept_of_unpack (hi : i.mnemonic ∈ [.rep, .sep]) (h : exec i s = .next t) (hs : ModeInv s.cpu) :
    t.cpu.s = s.cpu.s := by
  have unpack : ∀ (c : Cpu) b, (c.e = true → hiByte c.s = 0x01#8) → (c.unpackP b).s = c.s := fun c b hc => by
    rw [unpackP_eq]
    exact forced_stack_eq hc
  have change : ∀ g, Changes i.mnemonic i.operand g → ∃ b : Cpu → Byte, g = fun c => c.unpackP (b c) := fun g hg => by
    simp only [List.mem_cons, List.not_mem_nil, or_false] at hi
    rcases hi with hi | hi <;> rw [hi] at hg <;> obtain ⟨_, rfl⟩ := hg <;> exact ⟨_, rfl⟩
  refine (inv_kept (fun c => c.s = s.cpu.s ∧ PageInv c) (fun _ _ h => h) (fun g hg c hc => ?_) h
    ⟨rfl, (modeInv_iff.1 hs).2⟩).1
  obtain ⟨b, rfl⟩ := change g hg
  exact ⟨(unpack c _ hc.2).trans hc.1, pageInv_normalize _⟩

/-- RTI in Emulation mode pulls no program bank (R330). -/
theorem regPB_kept_of_rti (h : exec .rti s = .next t) (he : s.cpu.e = true) : t.cpu.pb = s.cpu.pb := by
  have unpack : ∀ (c : Cpu) b, (c.unpackP b).pb = c.pb := fun c b => by
    rw [unpackP_eq]
    rfl
  rcases exec_cases .rti s with ⟨f, u, hb, -, hx⟩ | ⟨e, u, -, -, hx⟩ | ⟨hw, -⟩
  · rw [hx] at h
    cases h
    obtain ⟨_, u', h1, h2⟩ := of_bind_ok _ (show plainly trapReturn _ = _ from hb)
    cases h2
    exact trapReturn_keeps (s := advance .rti s) (t := u) (fun c => c.pb = s.cpu.pb) (fun _ _ _ => id)
      (fun c b hc => (unpack c b).trans hc) (fun _ _ => id) he h1 rfl
  · rw [hx] at h
    cases h
    rfl
  · cases hw

/-- `PC` is the next instruction's but after the instructions that write it, and where the instruction fails. -/
theorem pc_cases (h : exec i s = .next t) : t.cpu.pc = nextPc i s.cpu.pc ∨ i.mnemonic ∈ writersOf .regPC ∨
    t.cpu.pc = s.cpu.pc ∧ (BusFailed t ∨ i.wellFormed s.cpu.p.m s.cpu.p.x = false) := by
  rcases exec_cases i s with ⟨f, u, hb, -, he⟩ | ⟨e, u, -, -, he⟩ | ⟨hw, he⟩ <;> rw [he] at h <;> cases h
  · by_cases hg : Part.regPC ∈ touchedParts (memOperand i.operand).isSome i.mnemonic
    · exact .inr (.inl (mem_writersOf _ hg))
    · exact .inl (body_keeps_part (g := .regPC) hg hb)
  · exact .inr (.inr ⟨rfl, .inl ⟨_, _, rfl⟩⟩)
  · exact .inr (.inr ⟨rfl, .inr hw⟩)

/-! ### Latches -/

/-- The abort cause changes by STP, by WDM as `ABORT_OPCODE`, by a bus failure and by an ill-formed term (R321). -/
theorem abortCause_cases (h : exec i s = .next t) : t.abortCause = s.abortCause ∨
    i = .stp ∧ t.abortCause = .stopped ∨
    i.mnemonic = .wdm ∧ s.params.abortOpcode = 0x42#8 ∧ t.abortCause = .abortInstruction ∨
    BusFailed t ∧ t.cpu = s.cpu ∨
    i.wellFormed s.cpu.p.m s.cpu.p.x = false ∧ t.abortCause = .widthMismatch ∧ t.cpu = s.cpu := by
  rcases exec_cases i s with ⟨f, u, hb, -, he⟩ | ⟨e, u, -, -, he⟩ | ⟨hw, he⟩ <;> rw [he] at h <;> cases h
  · cases body_ok_latch hb with
    | quiet _ hq => exact .inl hq.abortCause
    | wai _ e => subst e; exact .inl rfl
    | stp hi e => subst e; exact .inr (.inl ⟨hi, rfl⟩)
    | wdm hi e =>
      split at e <;> subst e
      · exact .inr (.inr (.inl ⟨hi, ‹_›, rfl⟩))
      · exact .inl rfl
  · exact .inr (.inr (.inr (.inl ⟨⟨_, _, rfl⟩, rfl⟩)))
  · exact .inr (.inr (.inr (.inr ⟨hw, rfl, rfl⟩)))

/-- Only WAI starts a wait, only STP stops, and no instruction touches the interrupt inputs or the parameters. -/
theorem latches_kept (h : exec i s = .next t) :
    (t.waiting ≠ s.waiting → i = .wai) ∧ (t.stopped ≠ s.stopped → i = .stp) ∧
    t.nmiPending = s.nmiPending ∧ t.irqLine = s.irqLine ∧ t.params = s.params := by
  rcases exec_cases i s with ⟨f, u, hb, -, he⟩ | ⟨e, u, hb, -, he⟩ | ⟨-, he⟩ <;> rw [he] at h <;> cases h
  · cases body_ok_latch hb with
    | quiet _ hq => exact ⟨fun hw => absurd hq.waiting hw, fun hst => absurd hq.stopped hst, hq.nmi, hq.irq, hq.params⟩
    | wai hi e => subst e; exact ⟨fun _ => hi, fun hst => absurd rfl hst, rfl, rfl, rfl⟩
    | stp hi e => subst e; exact ⟨fun hw => absurd rfl hw, fun _ => hi, rfl, rfl, rfl⟩
    | wdm hi e => split at e <;> subst e <;> exact ⟨fun hw => absurd rfl hw, fun hst => absurd rfl hst, rfl, rfl, rfl⟩
  · have hq := body_error_quiet hb
    exact ⟨fun hw => absurd rfl hw, fun hst => absurd rfl hst, rfl, hq.irq, hq.params⟩
  · exact ⟨fun hw => absurd rfl hw, fun hst => absurd rfl hst, rfl, rfl, rfl⟩

/-- Settles O58. -/
theorem registerWriters : Obligations.RegisterWriters := by
  unfold Obligations.RegisterWriters
  intro i s t h hs
  refine ⟨fun ha => ?_, fun hx => written_of_ne .regX h hx, fun hy => written_of_ne .regY h hy,
    fun hd => written_of_ne .regD h hd, fun hsp => ?_, fun hdb => written_of_ne .regDB h hdb, fun hpb => ?_,
    eq_xce_of_bitE_ne h, fun hpc => (pc_cases h).resolve_left hpc, fun hc => (abortCause_cases h).resolve_left hc,
    latches_kept h⟩
  · rcases List.mem_append.1 (written_of_ne .regA h ha) with hm | hm
    · exact .inl hm
    · exact .inr (operand_acc_of_modifier hm
        (regA_touched_by_modifier hm (touched_of_ne (g := .regA) h ha (by decide))))
  · rcases List.mem_append.1 (written_of_ne .regS h hsp) with hm | hm
    · exact hm
    · exact absurd (regS_kept_of_unpack hm h hs) hsp
  · rcases List.mem_append.1 (written_of_ne .regPB h hpb) with hm | hm
    · exact .inl hm
    · obtain rfl := eq_rti (List.mem_singleton.1 hm)
      exact .inr ⟨rfl, Bool.eq_false_iff.2 fun he => hpb (regPB_kept_of_rti h he)⟩

end
end Sys2Proof.Machine
end

section
/-! # Counters and the default cycle cost -/
namespace Sys2Proof.Machine

/-! ### The cycle table by mnemonic and mode (R358, R359) -/

/-- A note, under a condition. -/
def noteIf (p : Prop) [Decidable p] (n : CycleNote) : List CycleNote := if p then [n] else []

/-- The notes of a row of the table of R358, by mnemonic and mode. -/
def costNotes (mn : Mnemonic) (mode : Mode) : List CycleNote :=
  noteIf (mn ∈ [.adc, .sbc, .and, .ora, .eor, .cmp, .bit, .lda, .sta, .stz, .pha, .pla]) .m
    ++ noteIf (mn ∈ [.ldx, .ldy, .cpx, .cpy, .stx, .sty, .phx, .phy, .plx, .ply]) .x
    ++ noteIf (mode ∈ directModes) .dl
    ++ noteIf (mn ∈ modifiers ∧ mode ≠ .acc) .mm
    ++ noteIf (mn ∈ readers ∧ mode ∈ pageCrossingModes) .px
    ++ noteIf (mn ∈ conditionalBranches) .br
    ++ noteIf (mn = .bra) .bp
    ++ noteIf (mn ∈ [.brk, .cop, .rti]) .e

/-- The cell of the table of R358 for a row of the instruction table. -/
def costCell (d : Descriptor) : CycleCell := (baseCycles d.mnemonic d.mode, costNotes d.mnemonic d.mode)

/-- Every cell of the table of R358 is that of the instruction table's row (R77). -/
theorem cycleRows_eq : cycleRows = tableRows.map (·.map costCell) := by rfl

theorem tableRow_length : ∀ r < 16, (tableRows.getD r []).length = 16 := by decide

theorem getD_map_of_lt {α β : Type} (f : α → β) {l : List α} {k : Nat} (h : k < l.length) (d : α) (e : β) :
    (l.map f).getD k e = f (l.getD k d) := by
  rw [List.getD_eq_getElem _ _ (by rwa [List.length_map]), List.getD_eq_getElem _ _ h, List.getElem_map]

theorem getD_map_map {α β : Type} (f : α → β) (rows : List (List α)) (r : Nat) :
    (rows.map (·.map f)).getD r [] = (rows.getD r []).map f :=
  List.getD_map (d := []) ..

theorem cycleCell_eq (opcode : Byte) : cycleCell opcode = costCell (instructionTable opcode) := by
  have hlt := opcode.isLt
  rw [cycleCell, cycleRows_eq, getD_map_map]
  exact getD_map_of_lt costCell (by rw [tableRow_length _ (by omega)]; omega) _ _

theorem sum_noteIf (p : Prop) [Decidable p] (ci : CycleInputs) (n : CycleNote) :
    ((noteIf p n).map (noteCost ci)).sum = if p then noteCost ci n else 0 := by
  unfold noteIf
  split <;> simp

/-- A note that adds nothing when a flag is set. -/
theorem optional_unless (p : Prop) [Decidable p] (b : Bool) (k : Nat) :
    (if p then (if b then 0 else k) else 0) = if !b ∧ p then k else 0 := by
  cases b <;> simp

theorem and_low_eq_zero (v : Word) : v &&& 0x00FF#16 = 0#16 ↔ loByte v = 0x00#8 := by
  have hmask : v.toNat &&& 255 = v.toNat % 256 := Nat.and_two_pow_sub_one_eq_mod v.toNat 8
  rw [← BitVec.toNat_inj, ← BitVec.toNat_inj, BitVec.toNat_and, toNat_loByte]
  exact hmask ▸ Iff.rfl

section
variable (i : Instr) (s : State) (f : CostFacts) (pc : Word) (p q : Prop) [Decidable p] [Decidable q]

/-! The notes as addends of `defaultCycles`. -/

theorem optional_m : (if p then noteCost (costInputs i s f pc) .m else 0) = if !s.cpu.p.m ∧ p then 1 else 0 :=
  optional_unless p _ 1

theorem optional_mm : (if p then noteCost (costInputs i s f pc) .mm else 0) = if !s.cpu.p.m ∧ p then 2 else 0 :=
  optional_unless p _ 2

theorem optional_x : (if p then noteCost (costInputs i s f pc) .x else 0) = if !s.cpu.p.x ∧ p then 1 else 0 :=
  optional_unless p _ 1

theorem optional_e : (if p then noteCost (costInputs i s f pc) .e else 0) = if !s.cpu.e ∧ p then 1 else 0 :=
  optional_unless p _ 1

theorem optional_dl : (if p then noteCost (costInputs i s f pc) .dl else 0) =
    if loByte s.cpu.d ≠ 0x00#8 ∧ p then 1 else 0 := by
  simp only [noteCost, costInputs, and_low_eq_zero]
  by_cases hd : loByte s.cpu.d = 0x00#8 <;> simp [hd]

theorem optional_px : (if p ∧ q then noteCost (costInputs i s f pc) .px else 0) =
    if p ∧ q ∧ (!s.cpu.p.x || crossesPage (offsetOf f.base) (offsetOf f.base + f.index)) then 1 else 0 := by
  rw [noteCost, optional_unless]
  congr 1
  simp [costInputs, crossesPage, pageOf, and_assoc, and_comm]

theorem optional_bp : (if p then noteCost (costInputs i s f pc) .bp else 0) =
    if p then (if s.cpu.e && crossesPage (s.cpu.pc + 2#16) (f.target.getD pc) then 1 else 0) else 0 := rfl

theorem optional_br : (if p then noteCost (costInputs i s f pc) .br else 0) =
    if p ∧ f.taken then 1 + (if s.cpu.e && crossesPage (s.cpu.pc + 2#16) (f.target.getD pc) then 1 else 0)
      else 0 := by
  have hnote : noteCost (costInputs i s f pc) .br = if f.taken then
      (if s.cpu.e && crossesPage (s.cpu.pc + 2#16) (f.target.getD pc) then 1 + 1 else 1 + 0) else 0 := rfl
  rw [hnote, ite_and, apply_ite (1 + ·)]

end

/-- The cost is the base cost of the instruction's mnemonic and mode, and what its notes add. -/
theorem instrCost_wdc (i : Instr) (s : State) (f : CostFacts) (pc : Word) (h : s.params.cycleCost = .wdcTable) :
    instrCost i s f pc = baseCycles i.mnemonic i.operand.mode +
      ((costNotes i.mnemonic i.operand.mode).map (noteCost (costInputs i s f pc))).sum := by
  have hcell := cycleCell_eq i.opcode
  rw [instructionTable_opcode] at hcell
  rw [instrCost, h]
  show wdcCost _ = _
  simp only [wdcCost, costInputs, hcell, costCell]

/-- The default cost is the base cost with one addend for each note (R358, R359). -/
theorem instrCost_default (i : Instr) (s : State) (f : CostFacts) (pc : Word) (h : s.params.cycleCost = .wdcTable) :
    instrCost i s f pc = defaultCycles i s.cpu f pc := by
  rw [instrCost_wdc i s f pc h]
  simp only [costNotes, List.map_append, List.sum_append, sum_noteIf, optional_m, optional_mm, optional_x,
    optional_e, optional_dl, optional_px, optional_bp, optional_br, defaultCycles]
  ring

/-! ### The counters -/

/-- What a step leaves in the counters (R25, R26), for a step that starts where `s` notes `prev_PC`. -/
def CountsFrom (s t : State) : Prop :=
  t.prevPc = s.prevPc ∧ (s.params.counterWidth = none → t.cyclesTotal = s.cyclesTotal + t.cyclesLast)

/-- What the recording of a cost relies on: the part of the state it reads or keeps is as at the start. -/
structure SameCounters (s t : State) : Prop where
  params : t.params = s.params
  prevPc : t.prevPc = s.prevPc
  total  : t.cyclesTotal = s.cyclesTotal

section
variable {start s t u : State} {i : Instr}

theorem Quiet.sameCounters (h : Quiet s t) : SameCounters s t := ⟨h.params, h.prevPc, h.total⟩

theorem OnlyReads.sameCounters (h : OnlyReads s t) : SameCounters s t := by
  obtain ⟨b, rfl, -⟩ := h
  exact ⟨rfl, rfl, rfl⟩

theorem sameCounters_of_latch (h : Latch i s t) : SameCounters s t := by
  cases h with
  | quiet _ hq => exact hq.sameCounters
  | wai _ e => subst e; exact ⟨rfl, rfl, rfl⟩
  | stp _ e => subst e; exact ⟨rfl, rfl, rfl⟩
  | wdm _ e => split at e <;> subst e <;> exact ⟨rfl, rfl, rfl⟩

/-- Recording a cost adds to `cycles_total` what it leaves in `cycles_last`. -/
theorem countsFrom_charge (h : SameCounters s t) (n : Nat) : CountsFrom s (t.charge n) := by
  refine ⟨h.prevPc, fun hw => ?_⟩
  rw [charge_cyclesTotal, charge_cyclesLast, h.params, hw, h.total]
  rfl

theorem execDecoded_counts (h : execDecoded i s = .next t) : CountsFrom s t := by
  rw [execDecoded_eq] at h
  rcases perform_cases i (if i.opcode = s.params.abortOpcode then abortBody else bodyOf i.mnemonic i.operand) s with
    ⟨f, u, -, hb, he⟩ | ⟨e, u, -, hb, he⟩ | ⟨-, he⟩ <;> rw [he] at h <;> cases h
  · refine countsFrom_charge (s := s) ?_ _
    split at hb
    · cases hb
      exact ⟨rfl, rfl, rfl⟩
    · obtain ⟨hparams, hprev, htotal⟩ := sameCounters_of_latch (body_ok_latch hb)
      exact ⟨hparams, hprev, htotal⟩
  · split at hb
    · cases hb
    · exact ⟨(body_error_quiet hb).prevPc, fun _ => rfl⟩
  · exact ⟨rfl, fun _ => rfl⟩

theorem takeInterrupt_counts {k : TrapKind} (hs : SampledFrom start s) (h : takeInterrupt k start s = .next t) :
    CountsFrom start.notePc t := by
  obtain ⟨_, _, rfl⟩ := hs
  rcases takeInterrupt_cases h with ⟨u, hu, rfl⟩ | ⟨e, u, hu, rfl⟩
  · obtain ⟨hparams, hprev, htotal⟩ := ((trapEntry_quiet _ _).ok hu).sameCounters
    exact countsFrom_charge ⟨hparams, hprev, htotal⟩ _
  · have hprev : u.prevPc = start.cpu.pc := ((trapEntry_quiet _ _).error hu).prevPc
    exact ⟨hprev, fun _ => rfl⟩

theorem runInstruction_counts (hs : SampledFrom start s) (h : runInstruction start s = .next t) :
    CountsFrom start.notePc t := by
  obtain ⟨_, _, rfl⟩ := hs
  rcases runInstruction_cases h with ⟨e, u, hu, rfl⟩ | ⟨bytes, u, i, rest, v, hu, -, hv, ht⟩
  · have hprev : u.prevPc = start.cpu.pc := (fetchBytes_onlyReads.error hu).sameCounters.prevPc
    exact ⟨hprev, fun _ => rfl⟩
  · obtain ⟨hparams, hprev, htotal⟩ := (fetchBytes_onlyReads.ok hu).sameCounters
    obtain ⟨hv1, hv2⟩ := execDecoded_counts hv
    rcases ht with rfl | ⟨a, d, rfl⟩
    · exact ⟨hv1.trans hprev, fun hw => (hv2 (hparams ▸ hw)).trans (by rw [htotal]; rfl)⟩
    · exact ⟨hv1.trans hprev, fun _ => rfl⟩

/-- A step that is not refused counts from its own `PC` (R84 line 4). -/
theorem step_counts (hrun : s.abortCause = .noAbort) (h : step s = .next t) : CountsFrom s.notePc t := by
  rcases step_cases hrun h with ⟨k, s', hs', h'⟩ | rfl | ⟨s', hs', h'⟩
  · exact takeInterrupt_counts hs' h'
  · exact ⟨rfl, fun _ => rfl⟩
  · exact runInstruction_counts hs' h'

end

/-- Settles O15: every way a step ends records its cost once, and the cycle table is the base costs and notes by
mnemonic and mode. -/
theorem countersAddUp : Obligations.CountersAddUp := by
  unfold Obligations.CountersAddUp
  exact ⟨fun _ _ => step_counts, instrCost_default⟩

end Sys2Proof.Machine
end

section
/-! # Byte accesses of the bus, and the cells they name -/
namespace Sys2Proof.Machine

section
variable {b b' : Bus} {a : Address} {v : Byte} {s : State} {r : Region} {k : Nat}

/-! ### Single accesses (R47 to R50) -/

theorem store_of_unmapped (h : b.regionAt a = none) : b.store a v = none := by
  rw [← Option.isNone_iff_eq_none, ← Option.not_isSome, store_isSome, Bus.mapped, h]
  rfl

/-- A read of a mapped address is answered and recorded. -/
theorem busRead_of_mapped (h : s.bus.mapped a = true) :
    ∃ w b, busRead a s = .ok w (s.withBus b) ∧ b.lastAddr = a ∧ b.lastDir = .read := by
  rw [← load_isSome] at h
  obtain ⟨⟨w, b⟩, hl⟩ := Option.isSome_iff_exists.1 h
  obtain ⟨-, -, haddr, hdir, -⟩ := load_record hl
  exact ⟨w, b, busRead_ok hl, haddr, hdir⟩

/-- A write of a mapped address succeeds and is recorded. -/
theorem busWrite_of_mapped (v : Byte) (h : s.bus.mapped a = true) :
    ∃ b, busWrite a v s = .ok () (s.withBus b) ∧ b.lastAddr = a ∧ b.lastDir = .write := by
  rw [← store_isSome (v := v)] at h
  obtain ⟨b, hs⟩ := Option.isSome_iff_exists.1 h
  obtain ⟨-, -, haddr, hdir⟩ := store_record hs
  exact ⟨b, busWrite_ok hs, haddr, hdir⟩

theorem peek_of_flat (hr : b.regionAt a = some r) (hk : r.kind ≠ .callback) : b.peek a = some (r.peek a) := by
  rw [Bus.peek, hr, Option.bind_some, flatByte_of_flat hk]

/-- A write to a ROM region is ignored: only the access is recorded (R42). -/
theorem store_of_rom (hr : b.regionAt a = some r) (hk : r.kind = .rom) : b.store a v = some (b.record a .write) := by
  have other : ∀ {r' : Region}, b.regionAt a = some r' → r'.kind = .rom := fun hr' => by
    cases hr.symm.trans hr'
    exact hk
  rcases store_cases a v b with ⟨hn, -⟩ | ⟨k, r', hn, hr', hk', -⟩ | ⟨-, -, -, hs⟩ | ⟨-, r', -, hr', hk', -⟩
  · cases hr.symm.trans hn
  · cases hk'.symm.trans (other (regionAt_of_number hn hr'))
  · exact hs
  · cases hk'.symm.trans (other hr')

/-- Settles O17. -/
theorem busAccess : Obligations.BusAccess := by
  unfold Obligations.BusAccess
  refine ⟨fun s a h => ⟨busRead_none (load_of_unmapped h), fun v => busWrite_none (store_of_unmapped h)⟩,
    fun s a v h => ⟨busRead_of_mapped h, busWrite_of_mapped v h⟩, fun s a v r hr hk => ⟨?_, ?_⟩⟩
  · exact busRead_of_peek (peek_of_flat hr (by rw [hk]; decide))
  · exact busWrite_ok (store_of_rom hr hk)

/-! ### A read after a write (R43, R61, R66) -/

theorem cellOf_of_number (hn : b.regionNumber a = some k) (hr : b.regions[k]? = some r) :
    cellOf b a = some (k, r.index a) := by
  simp only [cellOf, hn, hr, Option.map_some]

theorem peek_of_number (hn : b.regionNumber a = some k) (hr : b.regions[k]? = some r) :
    b.peek a = r.flatByte a := by
  rw [Bus.peek, regionAt_of_number hn hr, Option.bind_some]

theorem getElem?_setRegion (hr : b.regions[k]? = some r) (r' : Region) (j : Nat) :
    (b.setRegion k r').regions[j]? = if j = k then some r' else b.regions[j]? := by
  obtain ⟨hlt, -⟩ := List.getElem?_eq_some_iff.1 hr
  simp only [Bus.setRegion, List.getElem?_set, hlt, if_true, eq_comm]

/-- A RAM region after a write holds the byte written where the index is the same. -/
theorem flatByte_poke (hwf : r.bytes.wf) (hk : r.kind = .ram) (a a' : Address) (v : Byte) :
    (r.poke a v).flatByte a' = if r.index a' = r.index a then some v else r.flatByte a' := by
  have hflat : r.kind ≠ .callback := by rw [hk]; decide
  rw [flatByte_of_flat (r := r.poke a v) hflat, flatByte_of_flat hflat, Region.peek,
    show (r.poke a v).bytes.read ((r.poke a v).index a') = _ from write_read hwf _ _ _]
  simp only [eq_comm (a := r.index a), ← apply_ite some]
  rfl

/-- After a store in a region of RAM an address reads the byte stored if it names the same cell, else what it read. -/
theorem peek_setRegion_poke (hwf : RegionsWf b) (hn : b.regionNumber a = some k) (hr : b.regions[k]? = some r)
    (hk : r.kind = .ram) (a' : Address) :
    (b.setRegion k (r.poke a v)).peek a' = if cellOf b a' = cellOf b a then some v else b.peek a' := by
  rw [cellOf_of_number hn hr]
  cases hn' : b.regionNumber a' with
  | none =>
    have hcell : cellOf b a' = none := by rw [cellOf, hn']
    rw [hcell, if_neg nofun]
    simp only [Bus.peek, Bus.regionAt, setRegion_regionNumber, hn', Option.bind_none]
  | some j =>
    by_cases hj : j = k
    · subst hj
      rw [peek_of_number (b := b.setRegion j _) hn' ((getElem?_setRegion hr _ j).trans (if_pos rfl)),
        peek_of_number hn' hr, cellOf_of_number hn' hr, flatByte_poke (hwf r (List.mem_of_getElem? hr)) hk]
      simp only [Option.some.injEq, Prod.mk.injEq, true_and]
    · have hget : (b.setRegion k (r.poke a v)).regions[j]? = b.regions[j]? :=
        (getElem?_setRegion hr _ j).trans (if_neg hj)
      have hcell : cellOf b a' ≠ some (k, r.index a) := by
        simp only [cellOf, hn']
        cases b.regions[j]? with
        | none => nofun
        | some r' => simp [hj]
      rw [if_neg hcell]
      simp only [Bus.peek, Bus.regionAt, setRegion_regionNumber, hn', Option.bind_some, hget]

/-- A store in RAM is seen through every mirror of the byte, and by no other address. -/
theorem peek_store_ram (hwf : RegionsWf b) (hram : IsRam b a) (h : b.store a v = some b') (a' : Address) :
    b'.peek a' = if cellOf b a' = cellOf b a then some v else b.peek a' := by
  obtain ⟨r₀, hr₀, hk₀⟩ := hram
  have ram : ∀ {r : Region}, b.regionAt a = some r → r.kind = .ram := fun hr => by
    cases hr₀.symm.trans hr
    exact hk₀
  rcases store_cases a v b with ⟨hn, -⟩ | ⟨k, r, hn, hr, hk, hs⟩ | ⟨r, hr, hk, -⟩ | ⟨k, r, -, hr, hk, -⟩
  · cases hr₀.symm.trans hn
  · cases hs.symm.trans h
    exact peek_setRegion_poke (b := b.record a .write) hwf hn hr hk a'
  · cases hk.symm.trans (ram hr)
  · cases hk.symm.trans (ram hr)

/-- A store elsewhere than in RAM changes no byte. -/
theorem store_keeps_of_not_ram (hram : ¬ IsRam b a) (h : b.store a v = some b') : KeepsMemory b b' := by
  rcases store_cases a v b with ⟨-, hs⟩ | ⟨k, r, hn, hr, hk, -⟩ | ⟨r, -, -, hs⟩ | ⟨k, r, -, -, -, hs⟩
  · cases hs.symm.trans h
  · exact absurd ⟨r, regionAt_of_number hn hr, hk⟩ hram
  · cases hs.symm.trans h
    exact keepsMemory_of rfl rfl
  · cases hs.symm.trans h
    exact keepsMemory_of rfl rfl

/-- A load answers the byte that stands at a flat address. -/
theorem load_eq_peek {w : Byte} (h : b.load a = some (v, b')) (hw : b.peek a = some w) : v = w := by
  rcases load_cases a b with ⟨-, hl⟩ | ⟨r, hr, hk, hl⟩ | ⟨k, r, -, hr, hk, -⟩
  · cases hl.symm.trans h
  · cases hl.symm.trans h
    exact Option.some.inj ((peek_of_flat hr hk).symm.trans hw)
  · simp [Bus.peek, hr, Region.flatByte, hk] at hw

/-- Settles O18. -/
theorem loadAfterStore : Obligations.LoadAfterStore := by
  unfold Obligations.LoadAfterStore
  exact ⟨fun _ _ _ a' _ hwf hram h => peek_store_ram hwf hram h a', fun _ _ _ _ => store_keeps_of_not_ram,
    fun _ _ _ _ _ h => ⟨load_keeps h, load_eq_peek h⟩⟩

end
end Sys2Proof.Machine
end

section
/-! # Attaching regions -/
namespace Sys2Proof.Machine

section
variable {s t : State} {r : Region} {name : String} {start stop : Nat} {a : Address}

theorem construct_unmapped (p : Params) (u : Unspecified) (a : Address) : (State.construct p u).bus.mapped a = false :=
  rfl

theorem attachError_eq_misaligned :
    attachError start stop = some .misaligned ↔ start % 16 ≠ 0 ∨ (stop + 1) % 16 ≠ 0 := by
  unfold attachError
  split_ifs <;> simp [*]

theorem attachError_eq_badRange : attachError start stop = some .badRange ↔
    start % 16 = 0 ∧ (stop + 1) % 16 = 0 ∧ (stop < start ∨ 0xFFFFFF < stop) := by
  unfold attachError
  split_ifs with hal hrange
  · simp only [Option.some.injEq, reduceCtorEq, false_iff]
    omega
  · simp only [true_iff]
    omega
  · simp only [false_iff]
    omega

/-- `attach` fails exactly where the bounds check does. -/
theorem attach_eq_error {e : AttachError} : s.attach r name start stop = .error e ↔ attachError start stop = some e := by
  unfold State.attach Bus.attachNumber
  cases attachError start stop <;> simp

/-- The bus after a successful `attach`: a new region, and a new latest attachment of it. -/
def Bus.attached (b : Bus) (r : Region) (start stop : Nat) : Bus :=
  { b.addRegion r with table := ⟨b.regions.length, start / 16, stop / 16⟩ :: b.table }

theorem of_attach_ok (h : s.attach r name start stop = .ok t) :
    attachError start stop = none ∧ t = s.withBus (s.bus.attached r start stop) := by
  unfold State.attach Bus.attachNumber at h
  cases he : attachError start stop with
  | none =>
    simp only [he] at h
    cases h
    exact ⟨rfl, rfl⟩
  | some e => simp [he] at h

theorem attachError_eq_none (h : attachError start stop = none) : start % 16 = 0 ∧ (stop + 1) % 16 = 0 := by
  unfold attachError at h
  split_ifs at h with hal
  omega

/-- The segments of a range with aligned bounds hold exactly the addresses of the range. -/
theorem segmentOf_mem_range (hstart : start % 16 = 0) (hstop : (stop + 1) % 16 = 0) (a : Address) :
    start / 16 ≤ segmentOf a ∧ segmentOf a ≤ stop / 16 ↔ start ≤ a.toNat ∧ a.toNat ≤ stop := by
  have hseg : segmentOf a = a.toNat / 16 := rfl
  omega

/-- The last attachment wins on its range, and dispatches no other address (R44). -/
theorem regionNumber_attached (h : attachError start stop = none) (b : Bus) (a : Address) :
    (b.attached r start stop).regionNumber a =
      if start ≤ a.toNat ∧ a.toNat ≤ stop then some b.regions.length else b.regionNumber a := by
  obtain ⟨hstart, hstop⟩ := attachError_eq_none h
  simp only [← segmentOf_mem_range hstart hstop]
  rfl

theorem regionAt_attached_inside (h : attachError start stop = none) (b : Bus) (hlo : start ≤ a.toNat)
    (hhi : a.toNat ≤ stop) : (b.attached r start stop).regionAt a = some r :=
  regionAt_of_number ((regionNumber_attached h b a).trans (if_pos ⟨hlo, hhi⟩)) List.getElem?_concat_length

theorem regionNumber_attached_outside (h : attachError start stop = none) (b : Bus)
    (ha : a.toNat < start ∨ stop < a.toNat) : (b.attached r start stop).regionNumber a = b.regionNumber a :=
  (regionNumber_attached h b a).trans (if_neg (by omega))

theorem regionAt_attached_outside (h : attachError start stop = none) {b : Bus}
    (ha : a.toNat < start ∨ stop < a.toNat) (hm : b.mapped a = true) :
    (b.attached r start stop).regionAt a = b.regionAt a := by
  obtain ⟨r', hr'⟩ := Option.isSome_iff_exists.1 hm
  obtain ⟨k, hk, hget⟩ := regionAt_eq_some.1 hr'
  obtain ⟨hlt, -⟩ := List.getElem?_eq_some_iff.1 hget
  rw [hr']
  exact regionAt_of_number ((regionNumber_attached_outside h b ha).trans hk)
    ((List.getElem?_append_left hlt).trans hget)

/-- Settles O19. -/
theorem attach : Obligations.Attach := by
  unfold Obligations.Attach
  refine ⟨fun p u a => ⟨construct_unmapped p u a, rfl, rfl⟩, fun s r name start stop =>
    ⟨attach_eq_error.trans attachError_eq_misaligned, attach_eq_error.trans attachError_eq_badRange, fun t h => ?_⟩⟩
  obtain ⟨hbounds, rfl⟩ := of_attach_ok h
  exact ⟨rfl, rfl, fun a => regionAt_attached_inside hbounds s.bus, fun a ha =>
    ⟨regionNumber_attached_outside hbounds s.bus ha, regionAt_attached_outside hbounds ha⟩⟩

end
end Sys2Proof.Machine
end

section
/-! # Multi-byte accesses: their addresses, and where they fail -/
namespace Sys2Proof.Machine

section
variable {s t : State} {a : Address} {v : Byte} {e : BusFailure}

/-! ### The wrap disciplines (R51, R52) -/

theorem bankOf_next_bank (a : Address) : bankOf (Wrap.bank.next a) = bankOf a := bankOf_mkAddr _ _

theorem toNat_offsetOf_next_bank (a : Address) :
    (offsetOf (Wrap.bank.next a)).toNat = ((offsetOf a).toNat + 1) % 65536 := by
  rw [Wrap.next, offsetOf_mkAddr, BitVec.toNat_add]
  rfl

theorem toNat_next_addr (a : Address) : (Wrap.addr.next a).toNat = (a.toNat + 1) % 16777216 := by
  rw [Wrap.next, BitVec.toNat_add]
  rfl

/-- Settles O20. -/
theorem multiByteAccess : Obligations.MultiByteAccess := by
  unfold Obligations.MultiByteAccess
  refine ⟨fun wrap n _ _ _ _ => memRead_ok wrap n, fun wrap n v _ _ _ => memWrite_ok wrap n v, fun wrap a v s b h => ?_,
    fun a => ⟨bankOf_next_bank a, toNat_offsetOf_next_bank a, toNat_next_addr a⟩⟩
  exact writeDataHiFirst_ok (w := .word) (r := { ea := a, wrap := wrap }) h

/-! ### Where they fail (R50, R55) -/

theorem of_busRead_ok (h : busRead a s = .ok v t) : ∃ b, s.bus.load a = some (v, b) ∧ t = s.withBus b := by
  unfold busRead at h
  split at h <;> cases h
  exact ⟨_, ‹_›, rfl⟩

theorem of_busWrite_ok (h : busWrite a v s = .ok () t) : ∃ b, s.bus.store a v = some b ∧ t = s.withBus b := by
  unfold busWrite at h
  split at h <;> cases h
  exact ⟨_, ‹_›, rfl⟩

theorem of_busRead_error (h : busRead a s = .error e t) :
    e = ⟨a, .read⟩ ∧ s.bus.regionAt a = none ∧ t = s.withBus (s.bus.record a .read) := by
  rcases busRead_cases a s with ⟨hn, he⟩ | ⟨_, -, -, he⟩ | ⟨_, _, -, -, -, he⟩ <;> rw [he] at h <;> cases h
  exact ⟨rfl, hn, rfl⟩

theorem of_busWrite_error (h : busWrite a v s = .error e t) :
    e = ⟨a, .write⟩ ∧ s.bus.regionAt a = none ∧ t = s.withBus (s.bus.record a .write) := by
  rcases busWrite_cases a v s with ⟨hn, he⟩ | ⟨_, _, -, -, -, he⟩ | ⟨_, -, -, he⟩ | ⟨_, _, -, -, -, he⟩ <;>
    rw [he] at h <;> cases h
  exact ⟨rfl, hn, rfl⟩

/-- A multi-byte read that fails has read the bytes before the failing one, which is unmapped. -/
theorem of_memRead_error (wrap : Wrap) {n : Nat} (h : memRead wrap n a s = .error e t) :
    ∃ k bytes b, k < n ∧ s.bus.loadAll ((byteAddresses wrap n a).take k) = some (bytes, b) ∧
      (byteAddresses wrap n a)[k]? = some e.addr ∧ e.dir = .read ∧ b.regionAt e.addr = none ∧
      t = s.withBus (b.record e.addr .read) := by
  induction n generalizing a s with
  | zero => cases h
  | succ n ih =>
    rcases of_bind_error s h with h1 | ⟨v, s₁, h1, h2⟩
    · obtain ⟨rfl, hn, rfl⟩ := of_busRead_error h1
      exact ⟨0, [], s.bus, Nat.succ_pos n, rfl, rfl, rfl, hn, rfl⟩
    · obtain ⟨b₁, hl, rfl⟩ := of_busRead_ok h1
      rcases of_bind_error _ h2 with h3 | ⟨_, _, -, h3⟩
      · obtain ⟨k, bytes, b, hk, hb, ha, hd, hn, rfl⟩ := ih h3
        exact ⟨k + 1, v :: bytes, b, Nat.succ_lt_succ hk, loadAll_cons_ok hl hb, ha, hd, hn, rfl⟩
      · cases h3

/-- A list of writes that fails has made the writes before the failing one, which is unmapped. -/
theorem of_writeList_error {ws : List (Address × Byte)} (h : writeList ws s = .error e t) :
    ∃ k b, s.bus.storeAll (ws.take k) = some b ∧ (ws.map Prod.fst)[k]? = some e.addr ∧ e.dir = .write ∧
      b.regionAt e.addr = none ∧ t = s.withBus (b.record e.addr .write) := by
  induction ws generalizing s with
  | nil => cases h
  | cons w ws ih =>
    rcases of_bind_error s h with h1 | ⟨_, s₁, h1, h2⟩
    · obtain ⟨rfl, hn, rfl⟩ := of_busWrite_error h1
      exact ⟨0, s.bus, rfl, rfl, rfl, hn, rfl⟩
    · obtain ⟨b₁, hs, rfl⟩ := of_busWrite_ok h1
      obtain ⟨k, b, hb, ha, hd, hn, rfl⟩ := ih h2
      refine ⟨k + 1, b, ?_, ha, hd, hn, rfl⟩
      rw [List.take_succ_cons, Bus.storeAll, hs]
      exact hb

theorem length_byteAddresses (wrap : Wrap) (n : Nat) (a : Address) : (byteAddresses wrap n a).length = n := by
  induction n generalizing a with
  | zero => rfl
  | succ n ih => rw [byteAddresses, List.length_cons, ih]

theorem length_bytesOfNumber (n v : Nat) : (bytesOfNumber n v).length = n := by
  induction n generalizing v with
  | zero => rfl
  | succ n ih => rw [bytesOfNumber, List.length_cons, ih]

/-- A multi-byte write that fails has written the bytes before the failing one, which is unmapped. -/
theorem of_memWrite_error (wrap : Wrap) {n v : Nat} (h : memWrite wrap n a v s = .error e t) :
    ∃ k b, k < n ∧ s.bus.storeAll (((byteAddresses wrap n a).zip (bytesOfNumber n v)).take k) = some b ∧
      (byteAddresses wrap n a)[k]? = some e.addr ∧ e.dir = .write ∧ b.regionAt e.addr = none ∧
      t = s.withBus (b.record e.addr .write) := by
  rw [memWrite_eq] at h
  obtain ⟨k, b, hb, ha, hrest⟩ := of_writeList_error h
  rw [List.map_fst_zip (by rw [length_byteAddresses, length_bytesOfNumber])] at ha
  obtain ⟨hk, -⟩ := List.getElem?_eq_some_iff.1 ha
  exact ⟨k, b, length_byteAddresses wrap n a ▸ hk, hb, ha, hrest⟩

/-- Settles O21. -/
theorem partialAccess : Obligations.PartialAccess := by
  unfold Obligations.PartialAccess
  exact ⟨fun wrap _ _ _ _ _ => of_memRead_error wrap, fun wrap _ _ _ _ _ _ => of_memWrite_error wrap⟩

end
end Sys2Proof.Machine
end

section
/-! # Instructions on a fully mapped bus -/
namespace Sys2Proof.Machine

section
variable {i : Instr} {s t : State}

/-- `PC` is the next instruction's where a body that does not write it ends well. -/
theorem body_keeps_pc {f : CostFacts} (hm : i.mnemonic ∉ writersOf .regPC)
    (hb : bodyOf i.mnemonic i.operand s = .ok f t) : t.cpu.pc = s.cpu.pc :=
  body_keeps_part (g := .regPC) (fun hg => hm (mem_writersOf _ hg)) hb

/-- The abort cause a latch leaves: STP's, WDM's as `ABORT_OPCODE`, or the one before (R304, R305). -/
theorem abortCause_of_latch (h : Latch i s t) : t.abortCause = if i = .stp then .stopped
    else if i.mnemonic = .wdm ∧ s.params.abortOpcode = 0x42#8 then .abortInstruction else s.abortCause := by
  cases h with
  | quiet hm hq =>
    obtain ⟨-, hstp, hwdm⟩ := hm
    rw [if_neg (by rintro rfl; exact hstp rfl), if_neg fun h => hwdm h.1, hq.abortCause]
  | wai hi e =>
    subst hi e
    rfl
  | stp hi e =>
    subst hi e
    rfl
  | wdm hi e =>
    rw [if_neg (by rintro rfl; cases hi)]
    split at e <;> subst e <;> simp [*]

/-- Only WAI sets the waiting latch (R303). -/
theorem waiting_of_latch (h : Latch i s t) : t.waiting = (decide (i = .wai) || s.waiting) := by
  cases h with
  | quiet hm hq =>
    obtain ⟨hwai, -, -⟩ := hm
    rw [decide_eq_false (by rintro rfl; exact hwai rfl), Bool.false_or, hq.waiting]
  | wai hi e =>
    subst hi e
    rfl
  | stp hi e =>
    subst hi e
    rfl
  | wdm hi e =>
    rw [decide_eq_false (by rintro rfl; cases hi), Bool.false_or]
    split at e <;> subst e <;> rfl

/-- Settles O60: on a fully mapped bus every body ends well, and the latches say how. -/
theorem mappedInstructionsComplete : Obligations.MappedInstructionsComplete := by
  unfold Obligations.MappedInstructionsComplete
  intro i s hmap hwf
  obtain ⟨f, t, hb⟩ := mapped_body i (advance i s) hmap
  have hlatch := body_ok_latch hb
  obtain ⟨hparams, -, htotal⟩ := sameCounters_of_latch hlatch
  have hcause := abortCause_of_latch hlatch
  have hwaiting := waiting_of_latch hlatch
  refine ⟨_, f, exec_ok hwf hb, hcause, hwaiting, ?_, ?_, fun hm => body_keeps_pc hm hb⟩
  · rw [charge_cyclesLast, charge_cpu, hparams]
    rfl
  · rw [charge_cyclesTotal, charge_cpu, hparams, htotal]
    rfl

end
end Sys2Proof.Machine
end

section
/-! # Which bytes of memory an instruction can change -/
namespace Sys2Proof.Machine

section
variable {α β : Type} {as as' : List Address} {a : Address} {v : Byte} {b b' b'' : Bus} {s t : State} {i : Instr}

/-! ### Buses that differ at most at listed addresses -/

/-- From `b` to `b'` at most the bytes the listed addresses name have changed, on canonical storage; which cell an
address names, and the canonical form, are kept. -/
structure OnlyWrites (as : List Address) (b b' : Bus) : Prop where
  cells : ∀ a, cellOf b' a = cellOf b a
  wf    : RegionsWf b → RegionsWf b'
  frame : RegionsWf b → ∀ a, (∀ a' ∈ as, cellOf b a ≠ cellOf b a') → b'.peek a = b.peek a

theorem OnlyWrites.trans (h : OnlyWrites as b b') (h' : OnlyWrites as b' b'') : OnlyWrites as b b'' where
  cells a := (h'.cells a).trans (h.cells a)
  wf := h'.wf ∘ h.wf
  frame hwf a ha := by
    refine (h'.frame (h.wf hwf) a fun a' ha' => ?_).trans (h.frame hwf a ha)
    rw [h.cells, h.cells]
    exact ha a' ha'

theorem OnlyWrites.mono (h : OnlyWrites as b b') (hsub : as ⊆ as') : OnlyWrites as' b b' where
  cells := h.cells
  wf := h.wf
  frame hwf a ha := h.frame hwf a fun a' ha' => ha a' (hsub ha')

theorem onlyWrites_of_keeps (as : List Address) (h : KeepsMemory b b') : OnlyWrites as b b' := by
  obtain ⟨hregions, htable, hpeek⟩ := h
  refine ⟨fun a => ?_, fun hwf => ?_, fun _ a _ => hpeek a⟩
  · simp only [cellOf, Bus.regionNumber, hregions, htable]
  · rwa [RegionsWf, hregions]

theorem onlyWrites_refl (as : List Address) (b : Bus) : OnlyWrites as b b := onlyWrites_of_keeps as (keepsMemory_refl b)

theorem onlyWrites_store (h : b.store a v = some b') : OnlyWrites [a] b b' := by
  have hall : b.storeAll [(a, v)] = some b' := by simp only [Bus.storeAll, h]
  obtain ⟨-, -, hcells, -, hwf, -⟩ := storeAll_keeps_shape hall
  refine ⟨hcells, hwf, fun hb a₁ ha => ?_⟩
  by_cases hram : IsRam b a
  · rw [peek_store_ram hb hram h, if_neg (ha a (List.mem_singleton_self a))]
  · obtain ⟨-, -, hpeek⟩ := store_keeps_of_not_ram hram h
    exact hpeek a₁

/-! ### Computations that write at most at listed addresses -/

/-- However the computation ends, it has written at most at the listed addresses. -/
abbrev WritesOnly (as : List Address) (m : BusM α) : Prop := Carries (fun s t => OnlyWrites as s.bus t.bus) m

/-- However the computation ends, it has changed no byte. -/
abbrev WritesNothing (m : BusM α) : Prop := Carries (fun s t => KeepsMemory s.bus t.bus) m

theorem writesOnly_readRel (as : List Address) : ReadRel fun s t => OnlyWrites as s.bus t.bus where
  refl s := onlyWrites_refl as s.bus
  trans _ _ _ := OnlyWrites.trans
  read _ _ hr ht _ := onlyWrites_of_keeps as (keepsMemory_of hr ht)

theorem writesOnly_busWrite (ha : a ∈ as) (v : Byte) : WritesOnly as (busWrite a v) := by
  refine fun s => ⟨fun _ t h => ?_, fun e t h => ?_⟩
  · obtain ⟨b, hs, rfl⟩ := of_busWrite_ok h
    exact (onlyWrites_store hs).mono (List.cons_subset.2 ⟨ha, List.nil_subset _⟩)
  · obtain ⟨-, -, rfl⟩ := of_busWrite_error h
    exact onlyWrites_of_keeps as (keepsMemory_of rfl rfl)

theorem writesOnly_writeList {ws : List (Address × Byte)} (h : ∀ w ∈ ws, w.1 ∈ as) : WritesOnly as (writeList ws) := by
  have k := (writesOnly_readRel as).closed
  induction ws with
  | nil => exact k.pure _ _
  | cons w ws ih =>
    exact k.seq (writesOnly_busWrite (h w (List.mem_cons_self ..)) _) fun _ =>
      ih fun w' hw' => h w' (List.mem_cons_of_mem _ hw')

theorem writesNothing_modifyCpu (g : Cpu → Cpu) : WritesNothing (modifyCpu g) :=
  carries_modifyCpu fun s => keepsMemory_refl s.bus

theorem writesOnly_modifyCpu (as : List Address) (g : Cpu → Cpu) : WritesOnly as (modifyCpu g) :=
  carries_modifyCpu fun s => onlyWrites_refl as s.bus

/-- What holds of the bus before an instruction and wherever its body ends holds after the instruction. -/
theorem exec_bus {Q : Bus → Prop} (h : exec i s = .next t) (h0 : Q s.bus)
    (hok : ∀ f u, bodyOf i.mnemonic i.operand (advance i s) = .ok f u → Q u.bus)
    (herr : ∀ e u, bodyOf i.mnemonic i.operand (advance i s) = .error e u → Q u.bus) : Q t.bus := by
  rcases exec_cases i s with ⟨f, u, hb, -, he⟩ | ⟨e, u, hb, -, he⟩ | ⟨-, he⟩ <;> rw [he] at h <;> cases h
  · exact hok f u hb
  · exact herr e u hb
  · exact h0

/-! ### Instructions that store nothing -/

/-- The body of a mnemonic that does not write the bus changes no byte. -/
theorem writesNothing_body {m : Mnemonic} (hm : Mnemonic.writes m = false) (o : Operand) : WritesNothing (bodyOf m o) := by
  have latch : ∀ {body : BusM CostFacts}, (∀ s, ∃ t, body s = .ok noFacts t ∧ t.bus = s.bus) → WritesNothing body :=
    fun hb s => by
      obtain ⟨t, ht, hbus⟩ := hb s
      rw [ht]
      refine ⟨fun _ _ h => ?_, fun _ _ h => by cases h⟩
      cases h
      rw [hbus]
      exact keepsMemory_refl _
  by_cases hl : m ≠ .wai ∧ m ≠ .stp ∧ m ≠ .wdm
  · exact closed_body keepsRel.closed m o hl (fun hw => by simp [hm] at hw) fun g _ => writesNothing_modifyCpu g
  · obtain rfl | rfl | rfl : m = .wai ∨ m = .stp ∨ m = .wdm := by tauto
    · exact latch fun _ => ⟨_, rfl, rfl⟩
    · exact latch fun _ => ⟨_, rfl, rfl⟩
    · refine latch (body := wdm) fun s => ?_
      unfold wdm
      split <;> exact ⟨_, rfl, rfl⟩

theorem exec_keeps_memory (hm : Mnemonic.writes i.mnemonic = false) (h : exec i s = .next t) : KeepsMemory s.bus t.bus :=
  exec_bus h (keepsMemory_refl _) (fun _ _ => (writesNothing_body hm _).ok) fun _ _ => (writesNothing_body hm _).error

/-! ### Stores and read-modify-writes -/

theorem fst_mem_dataWrites {narrow : Bool} {r : Resolved} {w : Address × Byte} {bytes : List Byte}
    (h : w ∈ (dataAddresses narrow r).zip bytes) : w.1 ∈ dataAddresses narrow r :=
  (List.of_mem_zip (a := w.1) (b := w.2) h).1

theorem writesOnly_writeData (w : Width) (r : Resolved) (x : Word) :
    WritesOnly (dataAddresses (w == .byte) r) (writeData w r.wrap r.ea x) := fun s => by
  rw [writeData_eq]
  exact writesOnly_writeList (fun _ => fst_mem_dataWrites) s

theorem writesOnly_writeDataHiFirst (w : Width) (r : Resolved) (x : Word) :
    WritesOnly (dataAddresses (w == .byte) r) (writeDataHiFirst w r.wrap r.ea x) := fun s => by
  rw [writeDataHiFirst_eq]
  exact writesOnly_writeList (fun _ hw => fst_mem_dataWrites (List.mem_reverse.1 hw)) s

/-- The mnemonics that write a memory operand: the stores and the read-modify-writes. -/
def operandWriters : List Mnemonic := [.sta, .stx, .sty, .stz, .inc, .dec, .asl, .lsr, .rol, .ror, .tsb, .trb]

/-- The width of the memory operand an instruction writes is 8 bits (R23). -/
def writesNarrow (m : Mnemonic) (p : Status) : Bool := if m = .stx ∨ m = .sty then p.x else p.m

theorem width_beq_byte (n : Bool) : ((if n then Width.byte else Width.word) == .byte) = n := by cases n <;> rfl

/-- A body that resolves its memory operand and then writes only there: `rest` is what it does with the address. -/
def ResolvesThenWrites (narrow : Status → Bool) (m : MemOperand) (body : BusM CostFacts) : Prop :=
  ∃ rest : Cpu → Resolved → BusM CostFacts, body = (getCpu >>= fun c => resolve m >>= rest c) ∧
    ∀ c r, WritesOnly (dataAddresses (narrow c.p) r) (rest c r)

theorem storeOperand_resolves {narrow : Status → Bool} {width : Cpu → Width}
    (hw : ∀ c, width c = if narrow c.p then .byte else .word) (m : MemOperand) (value : Cpu → Word) :
    ResolvesThenWrites narrow m (storeOperand width m value) := by
  refine ⟨_, rfl, fun c r => ?_⟩
  have k := (writesOnly_readRel (dataAddresses (narrow c.p) r)).closed
  have hdata := writesOnly_writeData (width c) r (value c)
  rw [hw, width_beq_byte] at hdata
  rw [hw]
  exact k.seq hdata fun _ => k.pure _ _

theorem modifyOperand_resolves (m : MemOperand) (f : RmwFn) :
    ResolvesThenWrites Status.m m (modifyOperand (.mem m) f) := by
  refine ⟨_, rfl, fun c r => ?_⟩
  have k := (writesOnly_readRel (dataAddresses c.p.m r)).closed
  have hdata := fun v => writesOnly_writeDataHiFirst c.widthA r (f c.widthA c v).1
  simp only [Cpu.widthA, width_beq_byte] at hdata
  exact k.seq (k.readData _ _ _) fun v => k.seq (hdata v) fun _ => k.seq (writesOnly_modifyCpu _ _) fun _ => k.pure _ _

/-- A store or read-modify-write of memory resolves its operand and writes only there. -/
theorem body_resolves {mn : Mnemonic} (hmn : mn ∈ operandWriters) {o : Operand} {m : MemOperand}
    (ho : memOperand o = some m) : ResolvesThenWrites (writesNarrow mn) m (bodyOf mn o) := by
  have store : ∀ narrow width value, (∀ c : Cpu, width c = if narrow c.p then Width.byte else .word) →
      ResolvesThenWrites narrow m (onMem (fun m => storeOperand width m value) o) := fun narrow width value hw => by
    simp only [onMem, ho]
    exact storeOperand_resolves hw m value
  have modify : ∀ f, ResolvesThenWrites Status.m m (onRmw f o) := fun f => by
    simp only [onRmw, ho]
    exact modifyOperand_resolves m f
  cases mn with
  | sta | stz => exact store Status.m Cpu.widthA _ fun _ => rfl
  | stx | sty => exact store Status.x Cpu.widthXY _ fun _ => rfl
  | inc | dec | asl | lsr | rol | ror | tsb | trb => exact modify _
  | _ => exact absurd hmn (by decide)

/-- In the accumulator form a read-modify-write changes no byte (R92). -/
theorem writesNothing_accumulator {mn : Mnemonic} (hmn : mn ∈ operandWriters) : WritesNothing (bodyOf mn .acc) := by
  have register : ∀ g, WritesNothing (registers g) := fun g =>
    keepsRel.closed.plainly (writesNothing_modifyCpu g)
  cases mn with
  | sta | stx | sty | stz => exact keepsRel.closed.pure _ _
  | inc | dec | asl | lsr | rol | ror | tsb | trb => exact register _
  | _ => exact absurd hmn (by decide)

theorem exec_keeps_memory_of_accumulator (hmn : i.mnemonic ∈ operandWriters) (ho : i.operand = .acc)
    (h : exec i s = .next t) : KeepsMemory s.bus t.bus := by
  have hbody : WritesNothing (bodyOf i.mnemonic i.operand) := ho ▸ writesNothing_accumulator hmn
  exact exec_bus h (keepsMemory_refl _) (fun _ _ => hbody.ok) fun _ _ => hbody.error

/-- A store or read-modify-write changes at most the bytes of its operand, where the resolver answers. -/
theorem exec_writes_operand {m : MemOperand} {r : Resolved} {u : State} (hmn : i.mnemonic ∈ operandWriters)
    (ho : memOperand i.operand = some m) (hr : resolve m (advance i s) = .ok r u) (h : exec i s = .next t) :
    OnlyWrites (dataAddresses (writesNarrow i.mnemonic s.cpu.p) r) s.bus t.bus := by
  obtain ⟨rest, hbody, hrest⟩ := body_resolves hmn ho
  have hrun : bodyOf i.mnemonic i.operand (advance i s) = rest (advance i s).cpu r u := by
    rw [hbody, run_bind_ok _ _ (run_getCpu _), run_bind_ok _ _ hr]
  have hread := onlyWrites_of_keeps (dataAddresses (writesNarrow i.mnemonic s.cpu.p) r)
    ((keepsRel.closed.resolve m).ok hr)
  have hwrite := hrest (advance i s).cpu r
  exact exec_bus h (onlyWrites_refl _ _) (fun _ _ hb => hread.trans (hwrite.ok (hrun.symm.trans hb)))
    fun _ _ hb => hread.trans (hwrite.error (hrun.symm.trans hb))

/-- Where the resolver fails, no byte is changed. -/
theorem exec_keeps_memory_of_unresolved {m : MemOperand} {e : BusFailure} {u : State} (hmn : i.mnemonic ∈ operandWriters)
    (ho : memOperand i.operand = some m) (hr : resolve m (advance i s) = .error e u) (h : exec i s = .next t) :
    KeepsMemory s.bus t.bus := by
  obtain ⟨rest, hbody, -⟩ := body_resolves hmn ho
  have hrun : bodyOf i.mnemonic i.operand (advance i s) = .error e u := by
    rw [hbody, run_bind_ok _ _ (run_getCpu _), run_bind_error _ _ hr]
  have hread := (keepsRel.closed.resolve m).error hr
  refine exec_bus h (keepsMemory_refl _) (fun _ _ hb => ?_) fun _ _ hb => ?_ <;> rw [hrun] at hb <;> cases hb
  exact hread

/-! ### Pushes, calls and traps -/

variable {w : Bool} {n : Nat}

/-- The addresses of `n` pushes (R240). -/
def stackAddresses (wrap1 : Bool) (sp : Word) (n : Nat) : List Address :=
  (List.range n).map fun k => mkAddr 0x00#8 (pushOffset wrap1 sp k)

theorem stackAddresses_succ (w : Bool) (sp : Word) (n : Nat) :
    stackAddresses w sp (n + 1) = stackAddr sp :: stackAddresses w (stackDown w sp) n := by
  rw [stackAddresses, stackAddresses, List.range_succ_eq_map, List.map_cons, List.map_map, pushOffset_zero]
  congr 1
  exact List.map_congr_left fun k _ => congrArg _ (pushOffset_succ w sp k)

/-- Started in `s`, the computation writes at most at the next `n` stack addresses, however it ends. -/
def PushesOnly (w : Bool) (n : Nat) (m : BusM α) (s : State) : Prop :=
  (∀ v t, m s = .ok v t → OnlyWrites (stackAddresses w s.cpu.s n) s.bus t.bus) ∧
  (∀ e t, m s = .error e t → OnlyWrites (stackAddresses w s.cpu.s n) s.bus t.bus)

theorem pushesOnly_congr {m m' : BusM α} (h : m s = m' s) (h' : PushesOnly w n m' s) : PushesOnly w n m s := by
  rwa [PushesOnly, h]

theorem pushesOnly_of_writesNothing {m : BusM α} (h : WritesNothing m) : PushesOnly w n m s :=
  ⟨fun _ _ hm => onlyWrites_of_keeps _ (h.ok hm), fun _ _ hm => onlyWrites_of_keeps _ (h.error hm)⟩

/-- What follows the pushes changes no byte. -/
theorem PushesOnly.seq {m : BusM α} {f : α → BusM β} (h : PushesOnly w n m s) (hf : ∀ v, WritesNothing (f v)) :
    PushesOnly w n (m >>= f) s := by
  obtain ⟨hok, herr⟩ := h
  refine ⟨fun v u hu => ?_, fun e u hu => ?_⟩
  · obtain ⟨x, t, h1, h2⟩ := of_bind_ok s hu
    exact (hok x t h1).trans (onlyWrites_of_keeps _ ((hf x).ok h2))
  · rcases of_bind_error s hu with h1 | ⟨x, t, h1, h2⟩
    · exact herr e u h1
    · exact (hok x t h1).trans (onlyWrites_of_keeps _ ((hf x).error h2))

/-- What comes before the pushes only reads. -/
theorem pushesOnly_after_reads {m : BusM α} {f : α → BusM β} (hm : Carries OnlyReads m)
    (hf : ∀ v b, PushesOnly w n (f v) (s.withBus b)) : PushesOnly w n (m >>= f) s := by
  refine ⟨fun v u hu => ?_, fun e u hu => ?_⟩
  · obtain ⟨x, t, h1, h2⟩ := of_bind_ok s hu
    obtain ⟨b, rfl, hb⟩ := hm.ok h1
    exact (onlyWrites_of_keeps _ hb).trans ((hf x b).1 v u h2)
  · rcases of_bind_error s hu with h1 | ⟨x, t, h1, h2⟩
    · obtain ⟨b, rfl, hb⟩ := hm.error h1
      exact onlyWrites_of_keeps _ hb
    · obtain ⟨b, rfl, hb⟩ := hm.ok h1
      exact (onlyWrites_of_keeps _ hb).trans ((hf x b).2 e u h2)

theorem pushesOnly_getCpu {f : Cpu → BusM β} (h : PushesOnly w n (f s.cpu) s) : PushesOnly w n (getCpu >>= f) s := h

/-- One push, then `n` more. -/
theorem pushesOnly_pushByte_then {f : Unit → BusM β} (v : Byte)
    (hf : ∀ b, PushesOnly w n (f ()) ((s.withBus b).withCpu { s.cpu with s := stackDown w s.cpu.s })) :
    PushesOnly w (n + 1) (pushByte w v >>= f) s := by
  unfold PushesOnly
  rw [stackAddresses_succ]
  cases hs : s.bus.store (stackAddr s.cpu.s) v with
  | none =>
    have herr : pushByte w v s = _ := (run_bind_ok s _ (run_getCpu s)).trans (run_bind_error s _ (busWrite_none hs))
    rw [run_bind_error s _ herr]
    refine ⟨fun _ _ hu => (by cases hu), fun _ _ hu => ?_⟩
    cases hu
    exact onlyWrites_of_keeps _ (keepsMemory_of rfl rfl)
  | some b =>
    have hfirst := (onlyWrites_store hs).mono
      (List.cons_subset_cons (l₂ := stackAddresses w (stackDown w s.cpu.s) n) _ (List.nil_subset _))
    obtain ⟨hok, herr⟩ := hf b
    rw [run_bind_ok s _ (pushByte_ok w hs)]
    exact ⟨fun v u hu => hfirst.trans ((hok v u hu).mono (List.subset_cons_self _ _)),
      fun e u hu => hfirst.trans ((herr e u hu).mono (List.subset_cons_self _ _))⟩

theorem pushesOnly_pushList (w : Bool) (bytes : List Byte) (s : State) :
    PushesOnly w bytes.length (pushList w bytes) s := by
  induction bytes generalizing s with
  | nil => exact pushesOnly_of_writesNothing (keepsRel.closed.pure _ _)
  | cons v rest ih => exact pushesOnly_pushByte_then v fun _ => ih _

theorem pushesOnly_pushByte (w : Bool) (v : Byte) (s : State) : PushesOnly w 1 (pushByte w v) s :=
  pushesOnly_congr (pushByte_eq w v) (pushesOnly_pushList w [v] s)

theorem pushesOnly_pushWord (w : Bool) (v : Word) (s : State) : PushesOnly w 2 (pushWord w v) s :=
  pushesOnly_congr (pushWord_eq w v) (pushesOnly_pushList w [hiByte v, loByte v] s)

theorem pushesOnly_pushData (wd : Width) (w : Bool) (v : Word) (s : State) :
    PushesOnly w wd.bytes (pushData wd w v) s := by
  cases wd with
  | byte => exact pushesOnly_pushByte w _ s
  | word => exact pushesOnly_pushWord w v s

/-- A trap pushes its frame: three bytes, and in Native mode the program bank (R326). -/
theorem pushesOnly_trapEntry (k : TrapKind) (ret : Word) (s : State) :
    PushesOnly s.cpu.e (if s.cpu.e then 3 else 4) (trapEntry k ret) s := by
  have hlen : (trapFrame s.cpu ret (k.pushedP s.cpu)).length = if s.cpu.e then 3 else 4 := by
    unfold trapFrame
    split <;> rfl
  have r := keepsRel.closed
  rw [← hlen]
  exact pushesOnly_congr (trapEntry_eq k ret) ((pushesOnly_pushList _ _ s).seq fun _ =>
    r.seq (writesNothing_modifyCpu _) fun _ => r.seq (r.memRead16 _ _) fun _ => writesNothing_modifyCpu _)

theorem PushesOnly.plainly {m : BusM Unit} (h : PushesOnly w n m s) : PushesOnly w n (plainly m) s :=
  h.seq fun _ => keepsRel.closed.pure _ _

theorem PushesOnly.withStack {body : Bool → BusM α} (h : PushesOnly s.cpu.e n (body s.cpu.e) s) :
    PushesOnly s.cpu.e n (withStack body) s := h

theorem PushesOnly.withStackNew {body : Bool → BusM Unit} (h : PushesOnly s.stackWrapsNew n (body s.stackWrapsNew) s) :
    PushesOnly s.stackWrapsNew n (withStackNew body) s := by
  refine pushesOnly_congr rfl (h.seq (f := fun _ => if s.cpu.e && s.params.emuStackNewInsn16Bit then
    modifyCpu fun c => { c with s := page1 c.s } else pure ()) fun _ => ?_)
  split
  · exact writesNothing_modifyCpu _
  · exact keepsRel.closed.pure _ _

/-- The number of bytes a push, call or trap pushes (R243 to R249, R256 to R258, R224, R225, R326). -/
def pushCount (c : Cpu) : Mnemonic → Nat
  | .php | .phb | .phk => 1
  | .pha => c.widthA.bytes
  | .phx | .phy => c.widthXY.bytes
  | .jsl => 3
  | .brk | .cop => if c.e then 3 else 4
  | _ => 2

/-- The pushes, the call and the traps that use the arm of R240 push at most their bytes there. -/
theorem pushes_stack {m : Mnemonic} {o : Operand} (s : State)
    (h : m ∈ [.pha, .phx, .phy, .php, .phb, .phk, .brk, .cop] ∨ m = .jsr ∧ ∃ a, o = .mem (.abs a)) :
    PushesOnly s.cpu.e (pushCount s.cpu m) (bodyOf m o) s := by
  rcases h with hm | ⟨rfl, a, rfl⟩
  · cases m with
    | pha | phx | phy => exact PushesOnly.plainly (pushesOnly_getCpu (pushesOnly_pushData _ _ _ s)).withStack
    | php | phb | phk => exact PushesOnly.plainly (pushesOnly_getCpu (pushesOnly_pushByte _ _ s)).withStack
    | brk | cop => exact PushesOnly.plainly (pushesOnly_getCpu (pushesOnly_trapEntry _ _ s))
    | _ => exact absurd hm (by decide)
  · exact PushesOnly.plainly (PushesOnly.withStack (PushesOnly.seq (pushesOnly_getCpu (pushesOnly_pushWord _ _ s))
      fun _ => writesNothing_modifyCpu _))

/-- The pushes and the calls of R242 push at most their bytes, with the arm `EMU_STACK_NEW_INSN_16BIT` gives. -/
theorem pushes_stackNew {m : Mnemonic} {o : Operand} (s : State)
    (h : m ∈ [.phd, .pea, .pei, .per, .jsl] ∨ m = .jsr ∧ ∃ a, o = .aindx a) :
    PushesOnly s.stackWrapsNew (pushCount s.cpu m) (bodyOf m o) s := by
  have nothing : ∀ n, PushesOnly s.stackWrapsNew n (pure noFacts) s := fun n =>
    pushesOnly_of_writesNothing (keepsRel.closed.pure _ _)
  have ret : ∀ w s, PushesOnly w 2 (pushReturn w) s := fun w s => pushesOnly_getCpu (pushesOnly_pushWord w _ s)
  have r := keepsRel.closed
  rcases h with hm | ⟨rfl, a, rfl⟩
  · cases m with
    | phd => exact PushesOnly.plainly (PushesOnly.withStackNew (pushesOnly_getCpu (pushesOnly_pushWord _ _ s)))
    | pea =>
      show PushesOnly _ _ (onImm16 pea o) s
      unfold onImm16
      split
      · exact PushesOnly.plainly (PushesOnly.withStackNew (pushesOnly_pushWord _ _ s))
      · exact nothing _
    | per =>
      show PushesOnly _ _ (onRel16 per o) s
      unfold onRel16
      split
      · exact PushesOnly.plainly (PushesOnly.withStackNew (pushesOnly_getCpu (pushesOnly_pushWord _ _ s)))
      · exact nothing _
    | pei =>
      show PushesOnly _ _ (onInd pei o) s
      unfold onInd
      split
      · rename_i v
        exact PushesOnly.plainly (PushesOnly.withStackNew (pushesOnly_congr rfl (pushesOnly_after_reads
          (onlyReads_rel.closed.directPointer (directOffset s v)) fun x b => pushesOnly_pushWord s.stackWrapsNew x _)))
      · exact nothing _
    | jsl =>
      show PushesOnly _ _ (onJumpLong jsl (fun _ => pure noFacts) o) s
      unfold onJumpLong
      split
      · exact PushesOnly.plainly (PushesOnly.withStackNew (pushesOnly_getCpu (pushesOnly_pushByte_then _ fun b =>
          (ret _ _).seq fun _ => writesNothing_modifyCpu _)))
      · exact nothing _
      · exact nothing _
    | _ => exact absurd hm (by decide)
  · exact pushesOnly_getCpu (PushesOnly.seq (PushesOnly.withStackNew ((ret _ _).seq fun _ =>
      r.seq (r.aindxPointer _) fun _ => writesNothing_modifyCpu _)) fun _ => r.pure _ _)

theorem descriptor_of_opcode {opcode : Byte} (h : i.opcode = opcode) :
    i.mnemonic = (instructionTable opcode).mnemonic ∧ i.operand.mode = (instructionTable opcode).mode := by
  rw [← h, instructionTable_opcode]
  exact ⟨rfl, rfl⟩

theorem eq_abs_of_mode {o : Operand} (h : o.mode = .abs) : ∃ a, o = .mem (.abs a) := by
  cases o with
  | mem m =>
    cases m with
    | abs a => exact ⟨a, rfl⟩
    | _ => cases h
  | _ => cases h

theorem eq_aindx_of_mode {o : Operand} (h : o.mode = .aindx) : ∃ a, o = .aindx a := by
  cases o with
  | aindx a => exact ⟨a, rfl⟩
  | mem m => cases m <;> cases h
  | _ => cases h

/-- Opcode 20 is JSR with an absolute target (R224). -/
theorem jsr_absolute (h : i.opcode = 0x20#8) : i.mnemonic = .jsr ∧ ∃ a, i.operand = .mem (.abs a) := by
  obtain ⟨hm, hmode⟩ := descriptor_of_opcode h
  exact ⟨hm, eq_abs_of_mode hmode⟩

/-- Opcode FC is JSR through an indexed pointer (R224). -/
theorem jsr_indexed (h : i.opcode = 0xFC#8) : i.mnemonic = .jsr ∧ ∃ a, i.operand = .aindx a := by
  obtain ⟨hm, hmode⟩ := descriptor_of_opcode h
  exact ⟨hm, eq_aindx_of_mode hmode⟩

/-- A push, call or trap changes at most its stack bytes. -/
theorem exec_pushes (hbody : PushesOnly w n (bodyOf i.mnemonic i.operand) (advance i s)) (h : exec i s = .next t) :
    OnlyWrites (stackAddresses w s.cpu.s n) s.bus t.bus :=
  exec_bus h (onlyWrites_refl _ _) hbody.1 hbody.2

theorem OnlyWrites.frame_stack (h : OnlyWrites (stackAddresses w s.cpu.s n) s.bus t.bus) (hwf : RegionsWf s.bus)
    {a : Address} (ha : ∀ k < n, cellOf s.bus a ≠ cellOf s.bus (mkAddr 0x00#8 (pushOffset w s.cpu.s k))) :
    t.bus.peek a = s.bus.peek a := by
  refine h.frame hwf a fun a' ha' => ?_
  obtain ⟨k, hk, rfl⟩ := List.mem_map.1 ha'
  exact ha k (List.mem_range.1 hk)

/-- The number of pushed bytes, as the statement lists it. -/
theorem pushCount_eq {c : Cpu} {m : Mnemonic}
    (h : (m ∈ [.php, .phb, .phk] ∨ m = .pha ∧ c.p.m = true ∨ m ∈ [.phx, .phy] ∧ c.p.x = true) ∧ n = 1 ∨
      (m ∈ [.phd, .pea, .pei, .per, .jsr] ∨ m = .pha ∧ c.p.m = false ∨ m ∈ [.phx, .phy] ∧ c.p.x = false) ∧ n = 2 ∨
      (m = .jsl ∨ m ∈ [.brk, .cop] ∧ c.e = true) ∧ n = 3 ∨ (m ∈ [.brk, .cop] ∧ c.e = false) ∧ n = 4) :
    n = pushCount c m := by
  cases m with
  | php | phb | phk | phd | pea | pei | per | jsr | jsl => simpa [pushCount] using h
  | pha => cases hm : c.p.m <;> simpa [pushCount, Cpu.widthA, Width.bytes, hm] using h
  | phx | phy => cases hx : c.p.x <;> simpa [pushCount, Cpu.widthXY, Width.bytes, hx] using h
  | brk | cop => cases he : c.e <;> simpa [pushCount, he] using h
  | _ => simp at h

/-- Settles O59: each body writes at most at the addresses its family gives. -/
theorem memoryWriters : Obligations.MemoryWriters := by
  unfold Obligations.MemoryWriters
  intro i s t h hwf
  refine ⟨fun hm => exec_keeps_memory (decide_eq_false hm) h, fun hm => ⟨fun ho => ?_, fun m r u ho hr a ha => ?_,
    fun m e u ho hr => ?_⟩, fun n w harm hcount a ha => ?_⟩
  · exact exec_keeps_memory_of_accumulator hm ho h
  · exact (exec_writes_operand hm ho hr h).frame hwf a ha
  · exact exec_keeps_memory_of_unresolved hm ho hr h
  · obtain rfl := pushCount_eq hcount
    refine (exec_pushes ?_ h).frame_stack hwf ha
    rcases harm with ⟨hm, rfl⟩ | ⟨hm, rfl⟩
    · exact pushes_stack (advance i s) (hm.imp_right jsr_absolute)
    · exact pushes_stackNew (advance i s) (hm.imp_right jsr_indexed)

end
end Sys2Proof.Machine
end

section
/-! # The decoder and the encoder are inverse to each other -/
namespace Sys2Proof.Machine

/-! ### Reading the operand bytes of one opcode -/

/-- An answer to `bytes` of a reader of one opcode with `n` operand bytes: an instruction of that opcode whose operand
bytes are the ones read, or nothing where there are fewer than `n`. -/
def Answers (d : Decoded) (bytes : List Byte) (opcode : Byte) (n : Nat) : Prop :=
  (bytes.length < n ∧ d = none) ∨
    ∃ i rest, d = some (i, rest) ∧ i.opcode = opcode ∧ bytes = i.operand.bytes ++ rest ∧ i.operand.bytes.length = n

section
variable {m x : Bool} {opcode : Byte} {n : Nat} {bytes : List Byte}

theorem answers_take0 {i : Instr} (hop : i.opcode = opcode) (hn : n = 0) (hb : i.operand.bytes = []) :
    Answers (take0 i bytes) bytes opcode n :=
  .inr ⟨i, bytes, rfl, hop, by rw [hb, List.nil_append], by rw [hb, hn, List.length_nil]⟩

theorem answers_take1 {mk : Byte → Instr} (hop : ∀ v, (mk v).opcode = opcode) (hn : n = 1)
    (hb : ∀ v, (mk v).operand.bytes = [v]) : Answers (take1 mk bytes) bytes opcode n := by
  subst hn
  match bytes with
  | [] => exact .inl ⟨Nat.one_pos, rfl⟩
  | v :: rest => exact .inr ⟨mk v, rest, rfl, hop v, by rw [hb]; rfl, by rw [hb]; rfl⟩

theorem answers_take2 {mk : Word → Instr} (hop : ∀ v, (mk v).opcode = opcode) (hn : n = 2)
    (hb : ∀ v, (mk v).operand.bytes = wordBytes v) : Answers (take2 mk bytes) bytes opcode n := by
  subst hn
  match bytes with
  | [] | [_] => exact .inl ⟨by simp, rfl⟩
  | lo :: hi :: rest => exact .inr ⟨mk (mkWord hi lo), rest, rfl, hop _, by simp [hb, wordBytes], by rw [hb]; rfl⟩

theorem answers_take3 {mk : Address → Instr} (hop : ∀ a, (mk a).opcode = opcode) (hn : n = 3)
    (hb : ∀ a, (mk a).operand.bytes = addressBytes a) : Answers (take3 mk bytes) bytes opcode n := by
  subst hn
  match bytes with
  | [] | [_] | [_, _] => exact .inl ⟨by simp, rfl⟩
  | lo :: hi :: bank :: rest =>
    exact .inr ⟨mk (mkAddr bank (mkWord hi lo)), rest, rfl, hop _, by simp [hb, addressBytes], by rw [hb]; rfl⟩

theorem answers_takeBlk {mk : Byte → Byte → Instr} (hop : ∀ dst src, (mk dst src).opcode = opcode) (hn : n = 2)
    (hb : ∀ dst src, (mk dst src).operand.bytes = [dst, src]) : Answers (takeBlk mk bytes) bytes opcode n := by
  subst hn
  match bytes with
  | [] | [_] => exact .inl ⟨by simp, rfl⟩
  | dst :: src :: rest => exact .inr ⟨mk dst src, rest, rfl, hop _ _, by rw [hb]; rfl, by rw [hb]; rfl⟩

/-- An immediate has the width its flag selects (R73). -/
theorem answers_takeImm {flag : Bool} {mk : Imm → Instr} (hop : ∀ v, (mk v).opcode = opcode)
    (hn : n = if flag then 1 else 2) (hb : ∀ v, (mk v).operand.bytes = v.bytes) :
    Answers (takeImm flag mk bytes) bytes opcode n := by
  cases flag with
  | true => exact answers_take1 (fun v => hop (.imm8 v)) hn fun v => hb (.imm8 v)
  | false => exact answers_take2 (fun v => hop (.imm16 v)) hn fun v => hb (.imm16 v)

/-- A byte is its high nibble (the row of R77) and its low nibble (the column). -/
theorem byte_of_nibbles (b : Byte) : b = BitVec.ofNat 8 (16 * (b.toNat / 16) + b.toNat % 16) := by
  rw [Nat.div_add_mod, BitVec.ofNat_toNat, BitVec.setWidth_eq]

/-- Every cell of the matrix of R77 answers an instruction of its opcode, with the operand bytes of its mode. -/
theorem answers_decodeOpcode (opcode : Byte) :
    Answers (decodeOpcode m x opcode bytes) bytes opcode (operandCount m x opcode) := by
  have hrow : opcode.toNat / 16 < 16 := by omega
  have hcol : opcode.toNat % 16 < 16 := by omega
  have hop := byte_of_nibbles opcode
  unfold decodeOpcode
  generalize opcode.toNat / 16 = row at *
  generalize opcode.toNat % 16 = col at *
  subst hop
  interval_cases row <;> dsimp only <;> interval_cases col
  -- one alternative for each shape of operand
  all_goals first
    | exact answers_take1 (fun _ => rfl) rfl fun _ => rfl
    | exact answers_take2 (fun _ => rfl) rfl fun _ => rfl
    | exact answers_take0 rfl rfl rfl
    | exact answers_take3 (fun _ => rfl) rfl fun _ => rfl
    | exact answers_takeBlk (fun _ _ => rfl) rfl fun _ _ => rfl
    | exact answers_takeImm (fun _ => rfl) rfl fun _ => rfl

/-! ### The bytes of an operand are what its mode declares (R72, R73, R80) -/

theorem length_operand_bytes {o : Operand} (h : o.wellFormed m x = true) :
    o.bytes.length = o.mode.operandBytes m x := by
  cases o with
  | mem mo => cases mo <;> rfl
  | immM v => cases v <;> cases beq_iff_eq.1 h <;> rfl
  | immX v => cases v <;> cases beq_iff_eq.1 h <;> rfl
  | _ => rfl

theorem operandCount_opcode (m x : Bool) (i : Instr) : operandCount m x i.opcode = i.operand.mode.operandBytes m x := by
  rw [operandCount, instructionTable_opcode]

/-- The length of an instruction is that of its opcode under the flags it is well-formed for (R80). -/
theorem length_of_wellFormed {i : Instr} (h : i.wellFormed m x = true) : i.length = 1 + operandCount m x i.opcode := by
  rw [operandCount_opcode, ← length_operand_bytes h, Instr.length, encode, List.length_cons, Nat.add_comm]

theorem operandBytes_le (m x : Bool) (mode : Mode) : mode.operandBytes m x ≤ 3 := by
  cases mode with
  | immM => cases m <;> simp [Mode.operandBytes]
  | immX => cases x <;> simp [Mode.operandBytes]
  | _ => simp [Mode.operandBytes]

/-! ### Decoding an encoding

Each reader of operand bytes takes back what the encoder wrote for an operand of its shape. -/

theorem take2_wordBytes (mk : Word → Instr) (v : Word) (rest : List Byte) :
    take2 mk (wordBytes v ++ rest) = some (mk v, rest) := by
  simp [take2, wordBytes]

theorem take3_addressBytes (mk : Address → Instr) (a : Address) (rest : List Byte) :
    take3 mk (addressBytes a ++ rest) = some (mk a, rest) := by
  simp [take3, addressBytes]

theorem takeImm_bytes {flag : Bool} (mk : Imm → Instr) (v : Imm) (h : v.isByte = flag) (rest : List Byte) :
    takeImm flag mk (v.bytes ++ rest) = some (mk v, rest) := by
  subst h
  cases v with
  | imm8 v => rfl
  | imm16 v => exact take2_wordBytes (fun v => mk (.imm16 v)) v rest

/-- The decoder finds the constructor by its opcode and reads its operand back, whatever follows (R70, R74). -/
theorem decode_encode {i : Instr} (h : i.wellFormed m x = true) (rest : List Byte) :
    decode m x (encode i ++ rest) = some (i, rest) := by
  cases i <;> dsimp only [encode, Instr.opcode, Instr.operand]
  -- the operand is bytes as they stand, or one value, whose type says which reader takes it back
  all_goals first
    | rfl
    | rename_i v; exact take2_wordBytes _ v _
    | rename_i v; exact take3_addressBytes _ v _
    | rename_i v; exact takeImm_bytes _ v (beq_iff_eq.1 h) _

/-! ### What the decoder answers -/

/-- With enough operand bytes the decoder answers an instruction of the opcode whose encoding was read; else none. -/
theorem decode_cases (m x : Bool) (opcode : Byte) (operands : List Byte) :
    (operands.length < operandCount m x opcode ∧ decode m x (opcode :: operands) = none) ∨
      ∃ i rest, decode m x (opcode :: operands) = some (i, rest) ∧ i.opcode = opcode ∧
        operands = i.operand.bytes ++ rest ∧ i.operand.bytes.length = operandCount m x opcode :=
  answers_decodeOpcode opcode

theorem encode_of_decode {rest : List Byte} {i : Instr} (h : decode m x bytes = some (i, rest)) :
    bytes = encode i ++ rest := by
  cases bytes with
  | nil => cases h
  | cons opcode operands =>
    rcases decode_cases m x opcode operands with ⟨-, hnone⟩ | ⟨j, rest', hsome, hop, hbytes, -⟩
    · cases hnone.symm.trans h
    · cases hsome.symm.trans h
      rw [encode, hop, hbytes, List.cons_append]

/-- Settles O1: by the shape of the operand, reading a word, an address or an immediate inverts writing it. -/
theorem encodeThenDecode : Obligations.EncodeThenDecode := by
  unfold Obligations.EncodeThenDecode
  exact fun _ _ _ rest h => decode_encode h rest

/-- Settles O2. -/
theorem decodeThenEncode : Obligations.DecodeThenEncode := by
  unfold Obligations.DecodeThenEncode
  exact fun _ _ _ _ _ h => ⟨encode_of_decode h, decode_wellFormed h⟩

/-- Settles O3. -/
theorem everyOpcodeDecodes : Obligations.EveryOpcodeDecodes := by
  unfold Obligations.EveryOpcodeDecodes
  intro m x opcode operands
  rcases decode_cases m x opcode operands with ⟨hshort, hnone⟩ | ⟨i, rest, hsome, hop, hbytes, hlen⟩
  · exact ⟨fun henough => absurd hshort henough.not_gt, fun _ => hnone⟩
  · refine ⟨fun _ => ⟨i, ?_, hop, hop ▸ instructionTable_opcode i⟩, fun hshort => ?_⟩
    · rw [hsome, ← hlen, hbytes, List.drop_left]
    · rw [hbytes, List.length_append, hlen] at hshort
      omega

/-! ### Lengths and the width flags (R73, R80) -/

/-- `P.M` sizes one mode only. -/
theorem operandBytes_clear_m (x : Bool) (mode : Mode) :
    mode.operandBytes false x = mode.operandBytes true x + if mode = .immM then 1 else 0 := by
  cases mode <;> rfl

/-- `P.X` sizes one mode only. -/
theorem operandBytes_clear_x (m : Bool) (mode : Mode) :
    mode.operandBytes m false = mode.operandBytes m true + if mode = .immX then 1 else 0 := by
  cases mode <;> rfl

theorem mode_eq_immM : ∀ opcode : Byte, (instructionTable opcode).mode = .immM ↔
    opcode ∈ [0x09#8, 0x29#8, 0x49#8, 0x69#8, 0x89#8, 0xA9#8, 0xC9#8, 0xE9#8] := by decide

theorem mode_eq_immX : ∀ opcode : Byte, (instructionTable opcode).mode = .immX ↔
    opcode ∈ [0xA0#8, 0xA2#8, 0xC0#8, 0xE0#8] := by decide

/-- Settles O4: a width flag sizes one mode, and the table has that mode at the opcodes listed. -/
theorem lengthFollowsWidthFlags : Obligations.LengthFollowsWidthFlags := by
  unfold Obligations.LengthFollowsWidthFlags
  refine ⟨fun m x i h => ?_, fun x opcode => ?_, fun m opcode => ?_⟩
  · have hlen := length_of_wellFormed h
    have hle := operandBytes_le m x (instructionTable i.opcode).mode
    exact ⟨hlen, by rw [hlen, operandCount]; omega⟩
  · simp only [operandCount, operandBytes_clear_m, mode_eq_immM]
  · simp only [operandCount, operandBytes_clear_x, mode_eq_immX]

/-! ### Sample words -/

/-- Settles O5: each word evaluates. -/
theorem sampleWordsDecode : Obligations.SampleWordsDecode := by
  unfold Obligations.SampleWordsDecode
  exact ⟨rfl, rfl, rfl, rfl, rfl, rfl, rfl, rfl, rfl, rfl⟩

end
end Sys2Proof.Machine
end

section
/-! # The instruction a step runs, and what every step keeps of the session -/
namespace Sys2Proof.Machine

section
variable {s t u start : State} {i : Instr} {bytes : List Byte} {b : Bus}

/-! ### A step with no interrupt taken -/

/-- Interrupt sampling changes nothing for a running core that takes no interrupt (R328). -/
theorem checkInterrupts_of_noInterrupt (hwait : s.waiting = false) (h : NoInterruptTaken s) :
    checkInterrupts s = .goOn s := by
  have hs : { s with waiting := false } = s := by rw [← hwait]
  unfold checkInterrupts
  rw [hs]
  rcases h with hin | ⟨hnmi, hirq | hmask⟩
  · simp [hin]
  · simp [hnmi, hirq]
  · simp [hnmi, hmask]

theorem step_of_noInterrupt (hrun : s.abortCause = .noAbort) (hwait : s.waiting = false) (h : NoInterruptTaken s) :
    step s = runInstruction s s := by
  simp [step, stepSession, hrun, checkInterrupts_of_noInterrupt hwait h, hwait]

/-- An instruction whose bytes stand at `PB:PC` is fetched whole (R76). -/
theorem fetchBytes_of_decode
    (hload : s.bus.loadAll ((List.range i.length).map (fetchAddr s.cpu.pb s.cpu.pc)) = some (bytes, b))
    (hdec : decode s.cpu.p.m s.cpu.p.x bytes = some (i, [])) : fetchBytes s = .ok bytes (s.withBus b) := by
  have hbytes : bytes = i.opcode :: i.operand.bytes := by rw [encode_of_decode hdec, List.append_nil, encode]
  subst hbytes
  exact fetchBytes_ok (length_of_wellFormed (decode_wellFormed hdec)) hload

/-- Such a step executes the instruction whose bytes stand at `PB:PC`, with `prev_PC` noted. -/
theorem step_of_decode (hrun : s.abortCause = .noAbort) (hwait : s.waiting = false) (hint : NoInterruptTaken s)
    (hload : s.bus.loadAll ((List.range i.length).map (fetchAddr s.cpu.pb s.cpu.pc)) = some (bytes, b))
    (hdec : decode s.cpu.p.m s.cpu.p.x bytes = some (i, [])) :
    step s = settle s (execDecoded i (s.notePc.withBus b)) := by
  have hfetch : fetchBytes s.notePc = .ok bytes (s.notePc.withBus b) := fetchBytes_of_decode (s := s.notePc) hload hdec
  have hdec' : decode (s.notePc.withBus b).cpu.p.m (s.notePc.withBus b).cpu.p.x bytes = some (i, []) := hdec
  rw [step_of_noInterrupt hrun hwait hint, runInstruction, hfetch]
  simp only [hdec']

theorem execDecoded_of_ne (h : i.opcode ≠ s.params.abortOpcode) : execDecoded i s = exec i s := if_neg h

theorem execDecoded_of_eq (h : i.opcode = s.params.abortOpcode) : execDecoded i s = execAbort i s := if_pos h

/-! ### Settling a step -/

theorem settle_next (h : ∀ a d, t.abortCause ≠ .busUnmapped a d) : settle start (.next t) = .next t := by
  unfold settle
  cases hc : t.abortCause with
  | busUnmapped a d => exact absurd hc (h a d)
  | _ => simp only [hc]

theorem settle_busUnmapped {a : Address} {d : Direction} (h : t.abortCause = .busUnmapped a d) :
    settle start (.next t) = .next (t.rollback start (.busUnmapped a d)) := by
  simp only [settle, h]

/-- A body that ended well latched no bus failure. -/
theorem not_busUnmapped_of_latch (h : Latch i s t) (hrun : s.abortCause = .noAbort) (a : Address) (d : Direction) :
    t.abortCause ≠ .busUnmapped a d := by
  rw [abortCause_of_latch h, hrun]
  split_ifs <;> nofun

/-- An instruction's own rollback is already the one to the start of the step, from which fetching changed nothing but
`prev_PC` and the bus (R322). -/
theorem settle_exec (hrun : s.abortCause = .noAbort) :
    settle s (exec i (s.notePc.withBus b)) = exec i (s.notePc.withBus b) := by
  rcases exec_cases i (s.notePc.withBus b) with ⟨f, t, hb, -, he⟩ | ⟨e, t, -, -, he⟩ | ⟨-, he⟩ <;> rw [he]
  · have hcause := not_busUnmapped_of_latch (body_ok_latch hb) hrun
    exact settle_next hcause
  · rw [settle_busUnmapped rfl]
    rfl
  · exact settle_next nofun

/-- Settles O6: fetching and decoding find the instruction, and its own rollback needs no second one. -/
theorem stepRunsDecodedInstruction : Obligations.StepRunsDecodedInstruction := by
  unfold Obligations.StepRunsDecodedInstruction
  intro s i bytes b hrun hwait hint hload hdec hop
  have hexec : execDecoded i (s.notePc.withBus b) = exec i (s.notePc.withBus b) := execDecoded_of_ne hop
  rw [step_of_decode hrun hwait hint hload hdec, hexec, settle_exec hrun]

/-! ### The abort-triggering instruction (R79, R305) -/

theorem execAbort_eq (hw : i.wellFormed s.cpu.p.m s.cpu.p.x = true) : execAbort i s =
    .next ({ advance i s with abortCause := .abortInstruction }.charge (instrCost i s noFacts (nextPc i s.cpu.pc))) :=
  perform_ok hw rfl

theorem run_wdm_of_ne (h : s.params.abortOpcode ≠ 0x42#8) : wdm s = .ok noFacts s := by
  rw [wdm, if_neg h]
  rfl

/-- Settles O7: the fetched instruction performs the abort body, and WDM's own body does nothing when another opcode
aborts. -/
theorem abortOpcodeStep : Obligations.AbortOpcodeStep := by
  unfold Obligations.AbortOpcodeStep
  refine ⟨fun s i bytes b hrun hwait hint hload hdec hop => ⟨?_, loadAll_keeps hload⟩, fun s v hne => ?_⟩
  · have hw : i.wellFormed (s.notePc.withBus b).cpu.p.m (s.notePc.withBus b).cpu.p.x = true := decode_wellFormed hdec
    have hexec : execDecoded i (s.notePc.withBus b) = execAbort i (s.notePc.withBus b) := execDecoded_of_eq hop
    rw [step_of_decode hrun hwait hint hload hdec, hexec, execAbort_eq hw]
    exact settle_next nofun
  · have hbody : wdm (advance (.wdm v) s) = .ok noFacts (advance (.wdm v) s) := run_wdm_of_ne hne
    exact exec_ok rfl hbody

/-! ### Every step answers a next state -/

theorem execDecoded_total (i : Instr) (s : State) : ∃ t, execDecoded i s = .next t := by
  rw [execDecoded_eq]
  rcases perform_cases i _ s with ⟨_, _, -, -, he⟩ | ⟨_, _, -, -, he⟩ | ⟨-, he⟩ <;> exact ⟨_, he⟩

theorem settle_total (start t : State) : ∃ u, settle start (.next t) = .next u := by
  by_cases h : ∃ a d, t.abortCause = .busUnmapped a d
  · obtain ⟨a, d, hcause⟩ := h
    exact ⟨_, settle_busUnmapped hcause⟩
  · exact ⟨t, settle_next fun a d hcause => h ⟨a, d, hcause⟩⟩

theorem length_of_fetchOperands {pb : Byte} {pc : Word} {n k : Nat} (h : fetchOperands pb pc n k s = .ok bytes t) :
    bytes.length = n := by
  induction n generalizing k s bytes with
  | zero => cases h; rfl
  | succ n ih =>
    obtain ⟨v, u, -, h⟩ := of_bind_ok s h
    obtain ⟨rest, u', hrest, h⟩ := of_bind_ok u h
    cases h
    rw [List.length_cons, ih hrest]

/-- What is fetched is an opcode and every operand byte its mode declares (R73, R76). -/
theorem of_fetchBytes_ok (h : fetchBytes s = .ok bytes t) : ∃ opcode operands, bytes = opcode :: operands ∧
    operands.length = operandCount s.cpu.p.m s.cpu.p.x opcode := by
  obtain ⟨opcode, u, -, h⟩ := of_bind_ok s (show (busRead (fetchAddr s.cpu.pb s.cpu.pc 0) >>= _) s = _ from h)
  obtain ⟨operands, u', hoperands, h⟩ := of_bind_ok u h
  cases h
  exact ⟨opcode, operands, rfl, length_of_fetchOperands hoperands⟩

/-- What is fetched decodes: every opcode is one and no operand is illegal (R79). -/
theorem decode_fetched (h : fetchBytes s = .ok bytes t) : ∃ d, decode t.cpu.p.m t.cpu.p.x bytes = some d := by
  obtain ⟨b, rfl, -⟩ := fetchBytes_onlyReads.ok h
  obtain ⟨opcode, operands, rfl, hlen⟩ := of_fetchBytes_ok h
  rcases decode_cases s.cpu.p.m s.cpu.p.x opcode operands with ⟨hshort, -⟩ | ⟨i, rest, hsome, -⟩
  · omega
  · exact ⟨(i, rest), hsome⟩

theorem runInstruction_total (start s : State) : ∃ t, runInstruction start s = .next t := by
  unfold runInstruction
  cases hfetch : fetchBytes s.notePc with
  | error e u => exact ⟨_, rfl⟩
  | ok bytes u =>
    obtain ⟨⟨i, rest⟩, hdec⟩ := decode_fetched hfetch
    obtain ⟨v, hv⟩ := execDecoded_total i u
    simp only [hdec, hv]
    exact settle_total start v

theorem takeInterrupt_total (k : TrapKind) (start s : State) : ∃ t, takeInterrupt k start s = .next t := by
  unfold takeInterrupt
  dsimp only
  split <;> exact ⟨_, rfl⟩

theorem taken_total {r : Result} (h : checkInterrupts s = .taken r) : ∃ t, r = .next t := by
  unfold checkInterrupts at h
  split_ifs at h <;> cases h <;> exact takeInterrupt_total _ _ _

theorem step_total (s : State) : ∃ t, step s = .next t := by
  unfold step stepSession
  split
  · split
    · exact taken_total ‹_›
    · split
      · exact ⟨_, rfl⟩
      · exact runInstruction_total _ _
  · exact ⟨s, rfl⟩

/-! ### What every step keeps of the session's configuration -/

/-- The segment table, the number of regions, each region's configuration and each ROM region's bytes are the same on
both buses, and the callback log is extended (R27, R42, R43). -/
def KeepsShape (b b' : Bus) : Prop :=
  b'.table = b.table ∧ b'.regions.length = b.regions.length ∧
    (∀ (k : Nat) (r : Region), b.regions[k]? = some r → ∃ r', b'.regions[k]? = some r' ∧
      r'.kind = r.kind ∧ r'.size = r.size ∧ r'.origin = r.origin ∧ r'.map = r.map ∧
      (r.kind = .rom → r'.bytes = r.bytes)) ∧
    b.callbackLog <:+ b'.callbackLog

/-- The parameters and the bus's configuration are the same in both states. -/
def KeepsConfig (s t : State) : Prop := t.params = s.params ∧ KeepsShape s.bus t.bus

theorem keepsConfig_of_quiet (h : Quiet s t) : KeepsConfig s t := ⟨h.params, h.table, h.len, h.regs, h.log⟩

theorem keepsConfig_refl (s : State) : KeepsConfig s s := keepsConfig_of_quiet (quietRefl s)

theorem KeepsConfig.trans (h : KeepsConfig s t) (h' : KeepsConfig t u) : KeepsConfig s u := by
  obtain ⟨hparams, htable, hlen, hregs, hlog⟩ := h
  obtain ⟨hparams', htable', hlen', hregs', hlog'⟩ := h'
  refine ⟨hparams'.trans hparams, htable'.trans htable, hlen'.trans hlen, fun k r hr => ?_, hlog.trans hlog'⟩
  obtain ⟨r₁, hr₁, hkind, hsize, horigin, hmap, hrom⟩ := hregs k r hr
  obtain ⟨r₂, hr₂, hkind', hsize', horigin', hmap', hrom'⟩ := hregs' k r₁ hr₁
  exact ⟨r₂, hr₂, hkind'.trans hkind, hsize'.trans hsize, horigin'.trans horigin, hmap'.trans hmap,
    fun hk => (hrom' (hkind.trans hk)).trans (hrom hk)⟩

theorem keepsConfig_of_latch (h : Latch i s t) : KeepsConfig s t := by
  cases h with
  | quiet _ hq => exact keepsConfig_of_quiet hq
  | wai _ e => subst e; exact keepsConfig_refl s
  | stp _ e => subst e; exact keepsConfig_refl s
  | wdm _ e => split at e <;> rw [e] <;> exact keepsConfig_refl s

theorem fetchBytes_quiet : Carries Quiet fetchBytes := quietRel.closed.fetchBytes

theorem execDecoded_keepsConfig (h : execDecoded i s = .next t) : KeepsConfig s t := by
  rw [execDecoded_eq] at h
  rcases perform_cases i (if i.opcode = s.params.abortOpcode then abortBody else bodyOf i.mnemonic i.operand) s with
    ⟨f, u, -, hb, he⟩ | ⟨e, u, -, hb, he⟩ | ⟨-, he⟩ <;> rw [he] at h <;> cases h
  · split at hb
    · cases hb
      exact keepsConfig_refl s
    · have hbody : KeepsConfig (advance i s) u := keepsConfig_of_latch (body_ok_latch hb)
      exact hbody
  · split at hb
    · cases hb
    · have hbody : KeepsConfig (advance i s) u := keepsConfig_of_quiet (body_error_quiet hb)
      exact hbody
  · exact keepsConfig_refl s

theorem takeInterrupt_keepsConfig {k : TrapKind} (h : takeInterrupt k start s = .next t) : KeepsConfig s t := by
  rcases takeInterrupt_cases h with ⟨u, hu, rfl⟩ | ⟨e, u, hu, rfl⟩
  · have hentry : KeepsConfig s.notePc u := keepsConfig_of_quiet ((trapEntry_quiet _ _).ok hu)
    exact hentry
  · have hentry : KeepsConfig s.notePc u := keepsConfig_of_quiet ((trapEntry_quiet _ _).error hu)
    exact hentry

theorem runInstruction_keepsConfig (h : runInstruction start s = .next t) : KeepsConfig s t := by
  rcases runInstruction_cases h with ⟨e, u, hu, rfl⟩ | ⟨bytes, u, i, rest, v, hu, -, hv, ht⟩
  · have hfetch : KeepsConfig s.notePc u := keepsConfig_of_quiet (fetchBytes_quiet.error hu)
    exact hfetch
  · have hfetch : KeepsConfig s.notePc u := keepsConfig_of_quiet (fetchBytes_quiet.ok hu)
    have hall : KeepsConfig s v := hfetch.trans (execDecoded_keepsConfig hv)
    rcases ht with rfl | ⟨a, d, rfl⟩ <;> exact hall

theorem step_keepsConfig (h : step s = .next t) : KeepsConfig s t := by
  by_cases hrun : s.abortCause = .noAbort
  · rcases step_cases hrun h with ⟨k, s', ⟨_, _, rfl⟩, h'⟩ | rfl | ⟨s', ⟨_, _, rfl⟩, h'⟩
    · have hkeep := takeInterrupt_keepsConfig h'
      exact hkeep
    · exact keepsConfig_refl s
    · have hkeep := runInstruction_keepsConfig h'
      exact hkeep
  · unfold step stepSession at h
    rw [if_neg hrun] at h
    cases h
    exact keepsConfig_refl s

/-- Settles O9: fetched bytes always decode, every way a step ends is a next state, and bodies, traps and fetches leave
the session's configuration as it is. -/
theorem stepIsTotal : Obligations.StepIsTotal := by
  unfold Obligations.StepIsTotal
  intro s
  obtain ⟨t, ht⟩ := step_total s
  exact ⟨t, ht, step_keepsConfig ht⟩

end
end Sys2Proof.Machine
end

section
/-! # The addressing-mode resolver and operand reads -/
namespace Sys2Proof.Machine

section
variable {α : Type} {s t : State} {b : Bus} {o lo mid hi : Byte} {off ptr : Word} {long : Address}

/-! ### Computations that only read and fail only on an unmapped address -/

theorem regionAt_of_onlyReads (h : OnlyReads s t) (a : Address) : t.bus.regionAt a = s.bus.regionAt a := by
  obtain ⟨b, rfl, hregions, htable, -⟩ := h
  exact regionAt_congr hregions htable

/-- The computation only reads, and where it fails it does so on a read of an unmapped address (R50). -/
structure FailsOnlyUnmapped (m : BusM α) : Prop where
  onlyReads : Carries OnlyReads m
  unmapped  : ∀ s t e, m s = .error e t → e.dir = .read ∧ s.bus.regionAt e.addr = none

/-- Reading changes no region and no attachment, so what is unmapped at the failing access was unmapped at the start. -/
theorem failsOnlyUnmapped_closed : ReadClosed fun _ m => FailsOnlyUnmapped m where
  pure _ v := ⟨onlyReads_rel.closed.pure _ v, fun _ _ _ h => by cases h⟩
  bind _ _ m f hm hf := by
    refine ⟨onlyReads_rel.closed.seq hm.onlyReads fun v => (hf v).onlyReads, fun s t e h => ?_⟩
    rcases of_bind_error s h with hfirst | ⟨v, u, hfirst, hsecond⟩
    · exact hm.unmapped s t e hfirst
    · rw [← regionAt_of_onlyReads (hm.onlyReads.ok hfirst)]
      exact (hf v).unmapped u t e hsecond
  state _ _ h := ⟨onlyReads_rel.closed.state _ _ fun s => (h s).onlyReads, fun s => (h s).unmapped s⟩
  getCpu := ⟨onlyReads_rel.closed.getCpu, fun _ _ _ h => by cases h⟩
  busRead a := by
    refine ⟨onlyReads_rel.closed.busRead a, fun s t e h => ?_⟩
    obtain ⟨rfl, hnone, -⟩ := of_busRead_error h
    exact ⟨rfl, hnone⟩

/-! ### Operand reads -/

/-- Where the mode resolves, a memory operand is its bytes, little-endian at the width (R90, R130). -/
theorem readOperand_mem_ok {m : MemOperand} {r : Resolved} {w : Width} {bytes : List Byte} (hr : resolve m s = .ok r t)
    (h : t.bus.loadAll (dataAddresses (w == .byte) r) = some (bytes, b)) :
    readOperand w (.mem m) s = .ok (wordOfBytes bytes, r.facts) (t.withBus b) := by
  rw [readOperand, run_bind_ok s _ hr, run_bind_ok t _ (readData_ok h), run_pure]

/-- A memory operand is read, or its read fails on an unmapped address; only the bus record and callback log change. -/
theorem readOperand_mem_cases (w : Width) (m : MemOperand) (s : State) :
    (∃ v f b, readOperand w (.mem m) s = .ok (v, f) (s.withBus b) ∧ KeepsMemory s.bus b) ∨
    (∃ a b, readOperand w (.mem m) s = .error ⟨a, .read⟩ (s.withBus b) ∧ KeepsMemory s.bus b ∧
      s.bus.regionAt a = none) := by
  have hread : FailsOnlyUnmapped (readOperand w (.mem m)) := failsOnlyUnmapped_closed.readOperand w (.mem m)
  cases hend : readOperand w (.mem m) s with
  | ok p t =>
    obtain ⟨b, rfl, hkeep⟩ := hread.onlyReads.ok hend
    exact .inl ⟨p.1, p.2, b, rfl, hkeep⟩
  | error e t =>
    obtain ⟨b, rfl, hkeep⟩ := hread.onlyReads.error hend
    obtain ⟨a, d⟩ := e
    obtain ⟨rfl, hnone⟩ := hread.unmapped _ _ _ hend
    exact .inr ⟨a, b, rfl, hkeep, hnone⟩

/-- Settles O30: resolving and reading are made of bus reads, so they keep memory and fail only on an unmapped address. -/
theorem operandReads : Obligations.OperandReads := by
  unfold Obligations.OperandReads
  refine ⟨fun m s t r w bytes b hr => ?_, fun m s w => readOperand_mem_cases w m s, fun v s w => by cases v <;> rfl⟩
  obtain ⟨b₁, rfl, hkeep⟩ := (onlyReads_rel.closed.resolve m).ok hr
  exact ⟨⟨b₁, rfl, hkeep⟩, fun h =>
    ⟨readOperand_mem_ok (t := s.withBus b₁) hr h, keepsMemory_trans hkeep (loadAll_keeps h)⟩⟩

/-! ### Offsets in the direct page (R96 to R98, R121) -/

theorem dpPageWraps_of (hp : s.params.emuDpPageWrap = true) (he : s.cpu.e = true) (hd : loByte s.cpu.d = 0x00#8) :
    s.dpPageWraps = true := by
  simp [State.dpPageWraps, hp, he, hd]

theorem directIndexed_of_wraps (hw : s.dpPageWraps = true) (o : Byte) (index : Word) :
    directIndexed s o index = mkWord (hiByte s.cpu.d) (o + loByte index) := by rw [directIndexed, if_pos hw]

theorem directIndexed_of_not_wraps (hw : s.dpPageWraps = false) (o : Byte) (index : Word) :
    directIndexed s o index = s.cpu.d + zext16 o + index := by simp [directIndexed, hw]

/-- With `D` at the start of a page, an offset of the direct page is a byte of that page. -/
theorem directOffset_of_page (hd : loByte s.cpu.d = 0x00#8) (o : Byte) :
    directOffset s o = mkWord (hiByte s.cpu.d) o := by
  have hlow : s.cpu.d.toNat % 256 = 0 := by rw [← toNat_loByte, hd]; rfl
  apply BitVec.eq_of_toNat_eq
  rw [directOffset, BitVec.toNat_add, zext16, toNat_mkWord, toNat_mkWord, toNat_hiByte, BitVec.toNat_ofNat]
  have := s.cpu.d.isLt; have := o.isLt
  omega

theorem resolve_dpx (s : State) (o : Byte) : resolve (.dpx o) s = .ok (indexedDirect s o s.cpu.x) s := rfl

theorem resolve_dpy (s : State) (o : Byte) : resolve (.dpy o) s = .ok (indexedDirect s o s.cpu.y) s := rfl

/-! ### Pointers in bank 0 -/

@[simp] theorem next_bank_bank0 (off : Word) : Wrap.bank.next (bank0 off) = bank0 (off + 1#16) := by
  simp [Wrap.next, bank0]

theorem directPointer_ok (h : s.bus.loadAll [bank0 off, bank0 (pointerHighOffset s off)] = some ([lo, hi], b)) :
    directPointer off s = .ok (mkWord hi lo) (s.withBus b) := by
  obtain ⟨v, b₁, vs, hlo, hrest, hbytes⟩ := of_loadAll_cons h
  obtain ⟨w, b₂, ws, hhi, hnil, rfl⟩ := of_loadAll_cons hrest
  obtain ⟨rfl, rfl⟩ := of_loadAll_nil hnil
  cases hbytes
  rw [directPointer, run_bind_ok s _ (busRead_ok hlo), run_bind_ok _ _ (busRead_ok (s := s.withBus b₁) hhi)]
  rfl

/-- Outside R121 the pointer's bytes stand at consecutive offsets of bank 0. -/
theorem directPointer_of_not_wraps (hw : s.dpPageWraps = false)
    (h : s.bus.loadAll [bank0 off, bank0 (off + 1#16)] = some ([lo, hi], b)) :
    directPointer off s = .ok (mkWord hi lo) (s.withBus b) := by
  refine directPointer_ok ?_
  rw [pointerHighOffset, hw]
  exact h

/-- Under R121 the pointer's bytes stand at consecutive places of the page. -/
theorem directPointer_of_wraps (hw : s.dpPageWraps = true)
    (h : s.bus.loadAll [bank0 (mkWord (hiByte s.cpu.d) o), bank0 (mkWord (hiByte s.cpu.d) (o + 1#8))] = some ([lo, hi], b)) :
    directPointer (mkWord (hiByte s.cpu.d) o) s = .ok (mkWord hi lo) (s.withBus b) := by
  refine directPointer_ok ?_
  rw [pointerHighOffset, if_pos hw, loByte_mkWord]
  exact h

theorem memRead16_bank0_ok (h : s.bus.loadAll [bank0 off, bank0 (off + 1#16)] = some ([lo, hi], b)) :
    memRead16 .bank (bank0 off) s = .ok (mkWord hi lo) (s.withBus b) :=
  memRead16_ok .bank (by rwa [next_bank_bank0])

theorem memRead24_bank0_ok
    (h : s.bus.loadAll [bank0 off, bank0 (off + 1#16), bank0 (off + 2#16)] = some ([lo, mid, hi], b)) :
    memRead24 .bank (bank0 off) s = .ok (mkAddr hi (mkWord mid lo)) (s.withBus b) := by
  refine memRead24_ok .bank ?_
  rw [next_bank_bank0, next_bank_bank0, BitVec.add_assoc]
  exact h

/-! ### The modes with a pointer (R99 to R103, R110): what the resolver answers once the pointer is read -/

theorem resolve_ind (h : directPointer (directOffset s o) s = .ok ptr t) :
    resolve (.ind o) s = .ok (plainAddr (dataAddr s ptr)) t := run_bind_ok s _ h

theorem resolve_indx (h : directPointer (directIndexed s o s.cpu.x) s = .ok ptr t) :
    resolve (.indx o) s = .ok { plainAddr (dataAddr s ptr) with facts := directFacts s o s.cpu.x } t :=
  run_bind_ok s _ h

theorem resolve_indy (h : directPointer (directOffset s o) s = .ok ptr t) :
    resolve (.indy o) s = .ok (indexedAddr (dataAddr s ptr) s.cpu.y) t := run_bind_ok s _ h

theorem resolve_indl (h : memRead24 .bank (bank0 (directOffset s o)) s = .ok long t) :
    resolve (.indl o) s = .ok (plainAddr long) t := run_bind_ok s _ h

theorem resolve_indly (h : memRead24 .bank (bank0 (directOffset s o)) s = .ok long t) :
    resolve (.indly o) s = .ok (indexedAddr long s.cpu.y) t := run_bind_ok s _ h

theorem resolve_sry (h : memRead16 .bank (bank0 (s.cpu.s + zext16 o)) s = .ok ptr t) :
    resolve (.sry o) s = .ok (indexedAddr (dataAddr s ptr) s.cpu.y) t := run_bind_ok s _ h

/-! ### The statements -/

/-- Settles O24: the two arms of the indexed offset. -/
theorem directPageModes : Obligations.DirectPageModes := by
  unfold Obligations.DirectPageModes
  refine fun s o => ⟨rfl, fun hw => ?_, fun hp he hd => ?_⟩
  · rw [resolve_dpx, resolve_dpy, indexedDirect, indexedDirect, directIndexed_of_not_wraps hw, directIndexed_of_not_wraps hw]
    exact ⟨rfl, rfl⟩
  · have hw := dpPageWraps_of hp he hd
    rw [resolve_dpx, resolve_dpy, indexedDirect, indexedDirect, directIndexed_of_wraps hw, directIndexed_of_wraps hw]
    exact ⟨rfl, rfl⟩

/-- Settles O25: outside R121 the pointer is read at consecutive offsets of bank 0. -/
theorem directIndirectModes : Obligations.DirectIndirectModes := by
  unfold Obligations.DirectIndirectModes
  refine fun s o lo hi b hw => ⟨fun h => ?_, fun h => ?_⟩
  · have hptr : directPointer (directOffset s o) s = .ok (mkWord hi lo) (s.withBus b) := directPointer_of_not_wraps hw h
    exact ⟨resolve_ind hptr, resolve_indy hptr⟩
  · refine resolve_indx ?_
    rw [directIndexed_of_not_wraps hw]
    exact directPointer_of_not_wraps hw h

/-- Settles O26: under R121 the pointer is read at consecutive places of the page. -/
theorem pageWrappedPointers : Obligations.PageWrappedPointers := by
  unfold Obligations.PageWrappedPointers
  intro s o lo hi b hp he hd
  have hw := dpPageWraps_of hp he hd
  refine ⟨fun h => ?_, fun h => ?_⟩
  · have hptr : directPointer (directOffset s o) s = .ok (mkWord hi lo) (s.withBus b) := by
      rw [directOffset_of_page hd]
      exact directPointer_of_wraps hw h
    exact ⟨resolve_ind hptr, resolve_indy hptr⟩
  · refine resolve_indx ?_
    rw [directIndexed_of_wraps hw]
    exact directPointer_of_wraps hw h

/-- Settles O27: both modes read the same three bytes of bank 0. -/
theorem directLongModes : Obligations.DirectLongModes := by
  unfold Obligations.DirectLongModes
  intro s o lo mid hi b h
  have hptr : memRead24 .bank (bank0 (directOffset s o)) s = .ok (mkAddr hi (mkWord mid lo)) (s.withBus b) :=
    memRead24_bank0_ok h
  exact ⟨resolve_indl hptr, resolve_indly hptr⟩

/-- Settles O28: these modes read no pointer, so each is its row of the resolver. -/
theorem absoluteModes : Obligations.AbsoluteModes := by
  unfold Obligations.AbsoluteModes
  exact fun s a l => ⟨rfl, rfl, rfl, rfl, rfl⟩

/-- Settles O29: `sry` reads its pointer under `BANK`, in either mode. -/
theorem stackRelativeModes : Obligations.StackRelativeModes := by
  unfold Obligations.StackRelativeModes
  exact fun s o lo hi b => ⟨rfl, fun h => resolve_sry (memRead16_bank0_ok h)⟩

end
end Sys2Proof.Machine
end

section
/-! # Values at an operand width: the register views, `SetNZ` and the bytes written see a value modulo `2^w` -/
namespace Sys2Proof.Machine

/-- `v mod 2^w` with `w = 8` when `narrow`, else 16. -/
def atWidth (narrow : Bool) (v : Word) : Word := if narrow then mkWord 0x00#8 (loByte v) else v

section
variable (n : Bool) (p : Status) (c : Cpu) (a v w : Word)

theorem trunc_eq_atWidth : (if n then Width.byte else Width.word).trunc v = atWidth n v := by cases n <;> rfl

@[simp] theorem modulus_true : modulus true = 256 := rfl

@[simp] theorem modulus_false : modulus false = 65536 := rfl

theorem modulus_eq : modulus n = 2 ^ (if n then Width.byte else Width.word).bits := by cases n <;> rfl

theorem toNat_atWidth : (atWidth n v).toNat = v.toNat % modulus n := by
  cases n with
  | true => simp [atWidth, toNat_mkWord, toNat_loByte]
  | false => exact (Nat.mod_eq_of_lt v.isLt).symm

theorem getLsbD_mkWord {k : Nat} (hk : k < 8) (hi lo : Byte) : (mkWord hi lo).getLsbD k = lo.getLsbD k := by
  rw [mkWord, BitVec.getLsbD_append, if_pos hk]

theorem getLsbD_loByte {k : Nat} (hk : k < 8) : (loByte v).getLsbD k = v.getLsbD k := by
  simp only [loByte, BitVec.getLsbD_extractLsb', hk, decide_true, Bool.true_and, Nat.zero_add]

theorem getLsbD_atWidth {k : Nat} (hk : k < 8) : (atWidth n v).getLsbD k = v.getLsbD k := by
  cases n with
  | true => exact (getLsbD_mkWord hk _ _).trans (getLsbD_loByte v hk)
  | false => rfl

/-- `SetNZ` sees only the value at the width. -/
@[simp] theorem withNZ_atWidth : withNZ p n (atWidth n v) = withNZ p n v := by
  cases n with
  | true =>
    simp only [withNZ, if_true, getLsbD_atWidth true v (show 7 < 8 by decide)]
    simp [atWidth]
  | false => rfl

@[simp] theorem accumulatorWith_atWidth : accumulatorWith c (atWidth c.p.m v) = accumulatorWith c v := by
  unfold accumulatorWith atWidth
  split <;> simp

@[simp] theorem dataBytes_atWidth : dataBytes n (atWidth n v) = dataBytes n v := by
  cases n <;> simp [dataBytes, atWidth]

theorem withNZ_congr (h : atWidth n v = atWidth n w) : withNZ p n v = withNZ p n w := by
  rw [← withNZ_atWidth, h, withNZ_atWidth]

theorem accumulatorWith_congr (h : atWidth c.p.m v = atWidth c.p.m w) : accumulatorWith c v = accumulatorWith c w := by
  rw [← accumulatorWith_atWidth, h, accumulatorWith_atWidth]

theorem dataBytes_congr (h : atWidth n v = atWidth n w) : dataBytes n v = dataBytes n w := by
  rw [← dataBytes_atWidth, h, dataBytes_atWidth]

/-! ### The model's register views are those of R7, R12, R13 and R23 -/

theorem setNZ_eq : p.setNZ (if n then .byte else .word) v = withNZ p n v := by
  cases n with
  | true =>
    have hz : mkWord 0x00#8 (loByte v) = 0x0000#16 ↔ loByte v = 0x00#8 :=
      ⟨fun h => (mkWord_inj (hi' := 0x00#8) (lo' := 0x00#8) h).2, fun h => by rw [h]; rfl⟩
    simp [Status.setNZ, withNZ, Width.msb, Width.trunc, beq_eq_decide, hz]
  | false => rfl

theorem setNZ_widthA : c.p.setNZ c.widthA v = withNZ c.p c.p.m v := setNZ_eq _ _ _

theorem setNZ_widthXY : c.p.setNZ c.widthXY v = withNZ c.p c.p.x v := setNZ_eq _ _ _

theorem accRead_eq : c.accRead = accumulator c := trunc_eq_atWidth c.p.m c.a

theorem accumulator_eq_atWidth : accumulator c = atWidth c.p.m c.a := rfl

theorem accWrite_eq : c.accWrite v = { c with a := accumulatorWith c v } := by
  unfold Cpu.accWrite Cpu.widthA accumulatorWith
  cases c.p.m <;> rfl

theorem msb_eq : (if n then Width.byte else Width.word).msb v = if n then v.getLsbD 7 else v.getLsbD 15 := by
  cases n <;> rfl

theorem secondBit_eq : v.getLsbD ((if n then Width.byte else Width.word).bits - 2) =
    if n then v.getLsbD 6 else v.getLsbD 14 := by cases n <;> rfl

theorem loadA_eq : c.loadA v = { c with a := accumulatorWith c v, p := withNZ c.p c.p.m v } := by
  rw [Cpu.loadA, accWrite_eq, setNZ_widthA]

theorem loadX_eq : c.loadX v = { c with x := indexValue c v, p := withNZ c.p c.p.x v } := by
  rw [Cpu.loadX, Cpu.xWrite, setNZ_widthXY, Cpu.widthXY, trunc_eq_atWidth]
  rfl

theorem loadY_eq : c.loadY v = { c with y := indexValue c v, p := withNZ c.p c.p.x v } := by
  rw [Cpu.loadY, Cpu.yWrite, setNZ_widthXY, Cpu.widthXY, trunc_eq_atWidth]
  rfl

end

end Sys2Proof.Machine
end

section
/-! # Logic, compares, BIT and the index steps -/
namespace Sys2Proof.Machine

/-! ### AND, ORA, EOR (R133 to R135) -/

section
variable {mn : Mnemonic} {op : Word → Word → Word}

theorem loByte_and (v w : Word) : loByte (v &&& w) = loByte v &&& loByte w := BitVec.extractLsb'_and

theorem loByte_or (v w : Word) : loByte (v ||| w) = loByte v ||| loByte w := BitVec.extractLsb'_or

theorem loByte_xor (v w : Word) : loByte (v ^^^ w) = loByte v ^^^ loByte w := BitVec.extractLsb'_xor

/-- The result at a width does not depend on the hidden bits of the first operand. -/
def IgnoresHidden (op : Word → Word → Word) : Prop := ∀ n a v, atWidth n (op (atWidth n a) v) = atWidth n (op a v)

theorem ignoresHidden_of_loByte {op8 : Byte → Byte → Byte}
    (h : ∀ a v, loByte (op a v) = op8 (loByte a) (loByte v)) : IgnoresHidden op := by
  intro n a v
  cases n with
  | true => simp [atWidth, h]
  | false => rfl

theorem loadA_logic (hop : IgnoresHidden op) (c : Cpu) (v : Word) :
    c.loadA (op c.accRead v) =
      { c with a := accumulatorWith c (op c.a v), p := withNZ c.p c.p.m (op c.a v) } := by
  have hlow : atWidth c.p.m (op (accumulator c) v) = atWidth c.p.m (op c.a v) := hop _ _ _
  rw [loadA_eq, accRead_eq, accumulatorWith_congr _ _ _ hlow, withNZ_congr _ _ _ _ hlow]

theorem logicEffect (hb : bodyOf mn = onData (logic op)) (hop : IgnoresHidden op) :
    ReadingEffect mn (·.p.m) fun _ c v =>
      { c with a := accumulatorWith c (op c.a v), p := withNZ c.p c.p.m (op c.a v) } :=
  readingEffect_of (g := fun _ c v => c.loadA (op c.accRead v)) hb (fun _ _ => rfl)
    fun _ _ c v pc _ _ => loadA_logic hop { c with pc := pc } v

end

/-- Settles O33: the low byte of each result comes from the low bytes, so the hidden byte of `A` does not matter. -/
theorem Arith.logic : Obligations.Logic := by
  unfold Obligations.Logic
  exact ⟨logicEffect rfl (ignoresHidden_of_loByte loByte_and),
    logicEffect rfl (ignoresHidden_of_loByte loByte_or),
    logicEffect rfl (ignoresHidden_of_loByte loByte_xor)⟩

/-! ### CMP, CPX, CPY (R136 to R138) -/

theorem compareFlags_eq (n : Bool) (p : Status) (a m : Word) : compareFlags (if n then .byte else .word) p a m =
    { withNZ p n (a - m) with c := decide (m.toNat ≤ a.toNat) } := by
  rw [compareFlags, trunc_eq_atWidth, setNZ_eq, withNZ_atWidth]

theorem compareFlags_widthA (c : Cpu) (v : Word) : compareFlags c.widthA c.p c.accRead v =
    { withNZ c.p c.p.m (accumulator c - v) with c := decide (v.toNat ≤ (accumulator c).toNat) } := by
  rw [Cpu.widthA, compareFlags_eq, accRead_eq]

theorem compareFlags_widthXY (c : Cpu) (r v : Word) : compareFlags c.widthXY c.p (c.widthXY.trunc r) v =
    { withNZ c.p c.p.x (indexValue c r - v) with c := decide (v.toNat ≤ (indexValue c r).toNat) } := by
  rw [Cpu.widthXY, compareFlags_eq, trunc_eq_atWidth]
  rfl

/-- Settles O36: the wrapped difference is the difference of words, of which `SetNZ` sees the width. -/
theorem compares : Obligations.Compares := by
  unfold Obligations.Compares
  refine ⟨readingEffect_of rfl (fun _ _ => rfl) fun _ _ c v pc _ _ => ?_,
    readingEffect_of rfl (fun _ _ => rfl) fun _ _ c v pc _ _ => ?_,
    readingEffect_of rfl (fun _ _ => rfl) fun _ _ c v pc _ _ => ?_⟩
  · rw [compareFlags_widthA]
    rfl
  · rw [compareFlags_widthXY]
    rfl
  · rw [compareFlags_widthXY]
    rfl

/-! ### INX, INY, DEX, DEY (R142 to R145) -/

/-- Settles O40: each is `IdxWrite` and `SetNZ` of a step of the register. -/
theorem indexSteps : Obligations.IndexSteps := by
  unfold Obligations.IndexSteps
  exact ⟨registerEffect_of rfl (fun _ _ => rfl) fun _ _ => loadX_eq _ _,
    registerEffect_of rfl (fun _ _ => rfl) fun _ _ => loadY_eq _ _,
    registerEffect_of rfl (fun _ _ => rfl) fun _ _ => loadX_eq _ _,
    registerEffect_of rfl (fun _ _ => rfl) fun _ _ => loadY_eq _ _⟩

/-! ### BIT (R139) -/

theorem opcode_of_bit_immediate : ∀ opcode : Byte, (instructionTable opcode).mnemonic = .bit →
    (instructionTable opcode).mode ∈ [Mode.immM, .immX] → opcode = 0x89#8 := by decide

theorem mode_of_immediate {o : Operand} {v : Imm} (h : dataOperand o = some (.imm v)) :
    o.mode ∈ [Mode.immM, .immX] := by
  cases o <;> cases h <;> simp [Operand.mode]

/-- BIT has the immediate form exactly at opcode 89. -/
theorem bitFlags_eq {i : Instr} {o : DataOperand} (hm : i.mnemonic = .bit) (ho : dataOperand i.operand = some o)
    (c : Cpu) (v : Word) : bitFlags o c v = { c.p with
      z := decide (accumulator c &&& v = 0x0000#16)
      n := if i.opcode = 0x89#8 then c.p.n else if c.p.m then v.getLsbD 7 else v.getLsbD 15
      v := if i.opcode = 0x89#8 then c.p.v else if c.p.m then v.getLsbD 6 else v.getLsbD 14 } := by
  cases o with
  | imm imm =>
    have hop : i.opcode = 0x89#8 := by
      apply opcode_of_bit_immediate <;> rw [instructionTable_opcode]
      · exact hm
      · exact mode_of_immediate ho
    rw [bitFlags, bitImmFlags, accRead_eq, if_pos hop, if_pos hop]
    rfl
  | mem m =>
    have hop : i.opcode ≠ 0x89#8 := fun h => by
      have hnone := (bit_immediate h).2
      rw [memOperand_of_dataOperand ho] at hnone
      cases hnone
    rw [bitFlags, bitMemFlags, bitImmFlags, accRead_eq, if_neg hop, if_neg hop, Cpu.widthA, msb_eq, secondBit_eq]
    rfl

/-- Settles O37: the immediate form is opcode 89. -/
theorem Arith.bitTest : Obligations.BitTest := by
  unfold Obligations.BitTest
  refine readingEffect_of rfl (fun _ _ => rfl) fun i o c v pc hm ho => ?_
  rw [bitFlags_eq hm ho]
  rfl

end Sys2Proof.Machine
end

section
/-! # Read-modify-write, in memory and on the accumulator (R140, R141, R146 to R152) -/
namespace Sys2Proof.Machine

/-! ### From a computation to the instruction's effect -/

/-- The computation answers `res` at the width and the flags `fl`, whatever `PC` is. -/
def Computes (f : RmwFn) (res : Cpu → Word → Word) (fl : Cpu → Word → Status) : Prop :=
  ∀ c pc m, atWidth c.p.m (f c.widthA { c with pc := pc } m).1 = atWidth c.p.m (res c m) ∧
    (f c.widthA { c with pc := pc } m).2 = fl c m

section
variable {mn : Mnemonic} {i : Instr} {f : RmwFn} {res : Cpu → Word → Word} {fl : Cpu → Word → Status}

theorem modifyOperand_mem_ok {m : MemOperand} {s t : State} {r : Resolved} {bytes : List Byte} {b b' : Bus}
    (hr : resolve m s = .ok r t) (hl : t.bus.loadAll (dataAddresses s.cpu.p.m r) = some (bytes, b))
    (hs : b.storeAll ((dataAddresses s.cpu.p.m r).zip
      (dataBytes s.cpu.p.m (f s.cpu.widthA s.cpu (wordOfBytes bytes)).1)).reverse = some b') :
    modifyOperand (.mem m) f s = .ok r.facts
      ((t.withBus b').withCpu { t.cpu with p := (f t.cpu.widthA t.cpu (wordOfBytes bytes)).2 }) := by
  have hwidth : (s.cpu.widthA == .byte) = s.cpu.p.m := width_beq_byte _
  rw [← hwidth] at hl hs
  rw [modifyOperand, run_bind_ok s _ (run_getCpu s), run_bind_ok s _ hr, run_bind_ok t _ (readData_ok hl),
    run_bind_ok _ _ (writeDataHiFirst_ok (s := t.withBus b) hs)]
  rfl

theorem modifyingEffect_of (hb : bodyOf mn = onRmw f) (hf : Computes f res fl) : ModifyingEffect mn res fl := by
  intro i m s r bytes b b' b'' hm ho hr hl hs
  obtain ⟨hres, hfl⟩ := hf s.cpu (nextPc i s.cpu.pc) (wordOfBytes bytes)
  rw [← dataBytes_congr _ _ _ hres] at hs
  have hbody := modifyOperand_mem_ok (f := f) hr hl hs
  rw [← hfl]
  exact exec_ok (wf_of_mem ho _ _) (by rw [hm, hb, onRmw, ho]; exact hbody)

theorem accumulatorEffect_of (hb : bodyOf i.mnemonic i.operand = modifyOperand .acc f)
    (hw : ∀ a b, i.wellFormed a b = true) (hf : Computes f res fl) : RegisterEffect i fun c =>
      { c with a := accumulatorWith c (res c (accumulator c)), p := fl c (accumulator c) } := by
  refine registerEffect_of hb hw fun c pc => ?_
  obtain ⟨hres, hfl⟩ := hf c pc (accumulator c)
  rw [accWrite_eq, accRead_eq]
  exact congrArg₂ (fun a p => { c with a := a, p := p, pc := pc }) (accumulatorWith_congr c _ _ hres) hfl

end

/-! ### The eight computations -/

theorem incResult_computes : Computes incResult (fun c m => atWidthA c (m + 1#16))
    fun c m => withNZ c.p c.p.m (m + 1#16) := by
  intro c pc m
  rw [incResult, Cpu.widthA, trunc_eq_atWidth, setNZ_eq, withNZ_atWidth]
  exact ⟨rfl, rfl⟩

theorem decResult_computes : Computes decResult (fun c m => atWidthA c (m - 1#16))
    fun c m => withNZ c.p c.p.m (m - 1#16) := by
  intro c pc m
  rw [decResult, Cpu.widthA, trunc_eq_atWidth, setNZ_eq, withNZ_atWidth]
  exact ⟨rfl, rfl⟩

theorem aslResult_computes : Computes aslResult (fun c m => atWidthA c (m <<< 1)) fun c m =>
    { withNZ c.p c.p.m (m <<< 1) with c := if c.p.m then m.getLsbD 7 else m.getLsbD 15 } := by
  intro c pc m
  rw [aslResult, Cpu.widthA, trunc_eq_atWidth, setNZ_eq, withNZ_atWidth, msb_eq]
  exact ⟨rfl, rfl⟩

theorem lsrResult_computes : Computes lsrResult (fun _ m => m >>> 1) fun c m =>
    { withNZ c.p c.p.m (m >>> 1) with c := m.getLsbD 0 } := by
  intro c pc m
  rw [lsrResult, Cpu.widthA, setNZ_eq]
  exact ⟨rfl, rfl⟩

theorem rolResult_computes : Computes rolResult (fun c m => atWidthA c ((m <<< 1) ||| BitVec.ofNat 16 (bitNat c.p.c)))
    fun c m => { withNZ c.p c.p.m ((m <<< 1) ||| BitVec.ofNat 16 (bitNat c.p.c)) with
      c := if c.p.m then m.getLsbD 7 else m.getLsbD 15 } := by
  intro c pc m
  rw [rolResult, Cpu.widthA, trunc_eq_atWidth, setNZ_eq, withNZ_atWidth, msb_eq]
  exact ⟨rfl, rfl⟩

/-- The carry as bit `w-1`, where ROR puts it. -/
theorem ofNat_carry_at_top (n c : Bool) :
    BitVec.ofNat 16 (bitNat c * 2 ^ ((if n then Width.byte else Width.word).bits - 1)) =
    if c then (if n then 0x0080#16 else 0x8000#16) else 0x0000#16 := by
  revert n c
  decide

theorem rorResult_computes : Computes rorResult
    (fun c m => (m >>> 1) ||| (if c.p.c then (if c.p.m then 0x0080#16 else 0x8000#16) else 0x0000#16))
    fun c m => { withNZ c.p c.p.m
      ((m >>> 1) ||| (if c.p.c then (if c.p.m then 0x0080#16 else 0x8000#16) else 0x0000#16)) with
        c := m.getLsbD 0 } := by
  intro c pc m
  rw [rorResult, Cpu.widthA, setNZ_eq, ofNat_carry_at_top]
  exact ⟨rfl, rfl⟩

theorem tsbResult_computes : Computes tsbResult (fun c m => m ||| accumulator c)
    fun c m => { c.p with z := decide (accumulator c &&& m = 0x0000#16) } := by
  intro c pc m
  rw [tsbResult, accRead_eq]
  exact ⟨rfl, rfl⟩

theorem atWidth_and (n : Bool) (v w : Word) : atWidth n (v &&& atWidth n w) = atWidth n (v &&& w) := by
  cases n with
  | true => simp [atWidth, loByte_and]
  | false => rfl

theorem trbResult_computes : Computes trbResult (fun c m => m &&& ~~~(accumulator c))
    fun c m => { c.p with z := decide (accumulator c &&& m = 0x0000#16) } := by
  intro c pc m
  rw [trbResult, accRead_eq, Cpu.widthA, trunc_eq_atWidth]
  exact ⟨atWidth_and _ _ _, rfl⟩

/-! ### The accumulator in place of the operand -/

/-- The top bit of the accumulator is that of `A` at the width. -/
theorem topBit_accumulator (c : Cpu) : (if c.p.m then (accumulator c).getLsbD 7 else (accumulator c).getLsbD 15) =
    if c.p.m then c.a.getLsbD 7 else c.a.getLsbD 15 := by
  rw [accumulator_eq_atWidth, getLsbD_atWidth _ _ (by decide)]
  cases c.p.m <;> rfl

theorem bitZero_accumulator (c : Cpu) : (accumulator c).getLsbD 0 = c.a.getLsbD 0 :=
  getLsbD_atWidth _ _ (by decide)

theorem accumulatorWith_atWidthA (c : Cpu) (v : Word) : accumulatorWith c (atWidthA c v) = accumulatorWith c v :=
  accumulatorWith_atWidth c v

/-! ### The statements -/

/-- Settles O38: a body of this shape reads, computes and writes back as its computation says. -/
theorem readModifyWrite : Obligations.ReadModifyWrite := by
  unfold Obligations.ReadModifyWrite
  exact ⟨modifyingEffect_of rfl incResult_computes, modifyingEffect_of rfl decResult_computes,
    modifyingEffect_of rfl aslResult_computes, modifyingEffect_of rfl lsrResult_computes,
    modifyingEffect_of rfl rolResult_computes, modifyingEffect_of rfl rorResult_computes,
    modifyingEffect_of rfl tsbResult_computes, modifyingEffect_of rfl trbResult_computes⟩

/-- Settles O39: the computations of O38, on the accumulator. -/
theorem modifyAccumulator : Obligations.ModifyAccumulator := by
  unfold Obligations.ModifyAccumulator
  refine ⟨?_, ?_, ?_, ?_, ?_, ?_⟩
  · simpa only [accumulatorWith_atWidthA] using
      accumulatorEffect_of (i := .incAcc) rfl (fun _ _ => rfl) incResult_computes
  · simpa only [accumulatorWith_atWidthA] using
      accumulatorEffect_of (i := .decAcc) rfl (fun _ _ => rfl) decResult_computes
  · simpa only [accumulatorWith_atWidthA, topBit_accumulator] using
      accumulatorEffect_of (i := .aslAcc) rfl (fun _ _ => rfl) aslResult_computes
  · simpa only [bitZero_accumulator] using accumulatorEffect_of (i := .lsrAcc) rfl (fun _ _ => rfl) lsrResult_computes
  · simpa only [accumulatorWith_atWidthA, topBit_accumulator] using
      accumulatorEffect_of (i := .rolAcc) rfl (fun _ _ => rfl) rolResult_computes
  · simpa only [bitZero_accumulator] using accumulatorEffect_of (i := .rorAcc) rfl (fun _ _ => rfl) rorResult_computes

end Sys2Proof.Machine
end

section
/-! # ADC and SBC in binary -/
namespace Sys2Proof.Machine

/-! ### Operands fit their width (R73, R130) -/

theorem memRead_lt {wrap : Wrap} {k : Nat} {ea : Address} {s t : State} {x : Nat} (h : memRead wrap k ea s = .ok x t) :
    x < 256 ^ k := by
  induction k generalizing ea s x with
  | zero => cases h; decide
  | succ k ih =>
    obtain ⟨lo, s₁, -, h⟩ := of_bind_ok s h
    obtain ⟨rest, s₂, hrest, h⟩ := of_bind_ok s₁ h
    cases h
    have := lo.isLt
    have := ih hrest
    rw [Nat.pow_succ]
    omega

theorem readData_lt {n : Bool} {wrap : Wrap} {ea : Address} {s t : State} {v : Word}
    (h : readData (if n then .byte else .word) wrap ea s = .ok v t) : v.toNat < modulus n := by
  obtain ⟨x, s₁, hx, h⟩ := of_bind_ok s h
  cases h
  have hlt := memRead_lt hx
  rw [BitVec.toNat_ofNat]
  cases n <;> simp [Width.bytes] at hlt ⊢ <;> omega

/-- Only the index instructions have an immediate of the index width (R77). -/
theorem mnemonic_of_immX : ∀ opcode : Byte, (instructionTable opcode).mode = .immX →
    (instructionTable opcode).mnemonic ∈ [Mnemonic.ldx, .ldy, .cpx, .cpy] := by decide

theorem immValue_lt {v : Imm} {n : Bool} (h : v.isByte = n) : (immValue v).toNat < modulus n := by
  subst h
  cases v with
  | imm8 b =>
    rw [immValue, zext16, toNat_mkWord]
    simpa [Imm.isByte] using b.isLt
  | imm16 w => exact w.isLt

/-- An operand of the accumulator's width is a number of that width. -/
theorem readOperand_lt {i : Instr} {o : DataOperand} {s t : State} {m x : Bool} {v : Word} {f : CostFacts}
    (hmn : i.mnemonic ∉ [Mnemonic.ldx, .ldy, .cpx, .cpy]) (ho : dataOperand i.operand = some o)
    (hwf : i.wellFormed m x = true) (h : readOperand (if m then .byte else .word) o s = .ok (v, f) t) :
    v.toNat < modulus m := by
  cases o with
  | mem mo =>
    obtain ⟨r, s₁, -, h⟩ := of_bind_ok s h
    obtain ⟨v', s₂, hv, h⟩ := of_bind_ok s₁ h
    cases h
    exact readData_lt hv
  | imm imm =>
    cases h
    refine immValue_lt ?_
    rw [Instr.wellFormed] at hwf
    cases hop : i.operand with
    | immM v' =>
      rw [hop] at ho hwf
      cases ho
      exact beq_iff_eq.1 hwf
    | immX v' =>
      refine absurd ?_ hmn
      have := mnemonic_of_immX i.opcode
      rw [instructionTable_opcode, hop] at this
      exact this rfl
    | _ => rw [hop] at ho; cases ho

/-- An effect on the operands that can occur. -/
theorem readingEffect_congr {mn : Mnemonic} {eff eff' : Instr → Cpu → Word → Cpu}
    (hmn : mn ∉ [Mnemonic.ldx, .ldy, .cpx, .cpy]) (h : ReadingEffect mn (·.p.m) eff)
    (he : ∀ i c v, v.toNat < modulus c.p.m → eff i c v = eff' i c v) : ReadingEffect mn (·.p.m) eff' := by
  intro i o s v f b hm ho hwf hr
  rw [← he i s.cpu v (readOperand_lt (hm ▸ hmn) ho hwf hr)]
  exact h i o s v f b hm ho hwf hr

/-! ### Signed numbers -/

section
variable (n : Bool) (p : Status) (a v : Word)

theorem msb_eq_decide :
    (if n then Width.byte else Width.word).msb v = decide (modulus n ≤ 2 * (v.toNat % modulus n)) := by
  have top {k : Nat} (x : BitVec k) : x.getLsbD (k - 1) = decide (2 ^ (k - 1) ≤ x.toNat) := by
    rw [← BitVec.msb_eq_getLsbD_last, BitVec.msb_eq_decide]
  cases n with
  | true =>
    rw [msb_eq, if_pos rfl, ← getLsbD_loByte v (by decide), top (loByte v), toNat_loByte,
      decide_eq_decide, modulus_true]
    omega
  | false =>
    have := v.isLt
    rw [msb_eq, if_neg Bool.false_ne_true, top v, decide_eq_decide, modulus_false]
    omega

/-- The signed number is the unsigned one, less `2^w` where that is half of `2^w` or more. -/
theorem signedValue_cases :
    2 * (v.toNat % modulus n) < modulus n ∧ signedValue n v = (v.toNat % modulus n : Nat) ∨
    modulus n ≤ 2 * (v.toNat % modulus n) ∧ signedValue n v = (v.toNat % modulus n : Nat) - modulus n := by
  cases n with
  | true =>
    simp only [signedValue, BitVec.toInt, toNat_loByte, modulus_true, if_true]
    split <;> omega
  | false =>
    have := v.isLt
    simp only [signedValue, BitVec.toInt, modulus_false, Bool.false_eq_true, if_false]
    split <;> omega

theorem signedValue_atWidth : signedValue n (atWidth n v) = signedValue n v := by
  have hlow := signedValue_cases n (atWidth n v)
  have hv := signedValue_cases n v
  rw [toNat_atWidth, Nat.mod_mod] at hlow
  omega

theorem bitNat_le_one (b : Bool) : bitNat b ≤ 1 := by cases b <;> decide

/-! ### Binary sums (R131, R153) -/

/-- V is set exactly when the signed sum does not fit the width. -/
theorem overflow_eq {k : Nat} (hk : k ≤ 1) :
    overflow (if n then .byte else .word) a v (atWidth n (BitVec.ofNat 16 (a.toNat + v.toNat + k))) =
      signedOverflow n (signedValue n a + signedValue n v + k) := by
  have ha := signedValue_cases n a
  have hv := signedValue_cases n v
  have ha16 := a.isLt
  have hv16 := v.isLt
  rw [overflow, msb_eq_decide, msb_eq_decide, msb_eq_decide, toNat_atWidth, Nat.mod_mod, BitVec.toNat_ofNat,
    signedOverflow, Bool.eq_iff_iff]
  simp only [Bool.and_eq_true, beq_iff_eq, bne_iff_ne, ne_eq, decide_eq_decide, decide_eq_true_eq]
  cases n <;> simp only [modulus_true, modulus_false] at ha hv ⊢ <;> omega

/-- Binary addition gives the number `sum` modulo `2^w`, its carry, and its signed overflow. -/
theorem addBinary_eq {sum : Nat} (hsum : a.toNat + v.toNat + bitNat p.c = sum) :
    addBinary (if n then .byte else .word) p a v = (BitVec.ofNat 16 (sum % modulus n),
      { withNZ p n (BitVec.ofNat 16 (sum % modulus n)) with
          c := decide (modulus n ≤ sum)
          v := signedOverflow n (signedValue n a + signedValue n v + bitNat p.c) }) := by
  have hres : atWidth n (BitVec.ofNat 16 sum) = BitVec.ofNat 16 (sum % modulus n) := by
    apply BitVec.eq_of_toNat_eq
    rw [toNat_atWidth, BitVec.toNat_ofNat, BitVec.toNat_ofNat]
    cases n with
    | true => rw [modulus_true]; omega
    | false => rw [modulus_false]
  have hover := overflow_eq n a v (bitNat_le_one p.c)
  rw [hsum, hres] at hover
  rw [addBinary, hsum, trunc_eq_atWidth, hres, setNZ_eq, hover, ← modulus_eq]

/-! ### Differences: the operand enters as its one's complement (R132) -/

theorem toNat_atWidth_not {v : Word} (hv : v.toNat < modulus n) :
    (atWidth n (~~~v)).toNat = modulus n - 1 - v.toNat := by
  rw [toNat_atWidth, BitVec.toNat_not]
  cases n <;> simp only [modulus_true, modulus_false] at hv ⊢ <;> omega

theorem signedValue_not : signedValue n (~~~v) = -1 - signedValue n v := by
  have hnot := signedValue_cases n (~~~v)
  have hv := signedValue_cases n v
  have hv16 := v.isLt
  rw [BitVec.toNat_not] at hnot
  cases n <;> simp only [modulus_true, modulus_false] at hnot hv <;> omega

end

/-! ### ADC and SBC (R131, R132) -/

/-- The registers with a sum's or difference's result and flags. -/
def withResult (c : Cpu) (r : Word × Status) : Cpu := { c with a := accumulatorWith c r.1, p := r.2 }

theorem accWrite_result (c : Cpu) (r : Word × Status) : { c.accWrite r.1 with p := r.2 } = withResult c r := by
  rw [accWrite_eq]
  rfl

theorem adc_effect : ReadingEffect .adc (·.p.m) fun _ c v => withResult c (adcResult c.widthA c.p (accumulator c) v) :=
  readingEffect_of rfl (fun _ _ => rfl) fun _ _ c v pc _ _ =>
    (accWrite_result { c with pc := pc } _).trans (by rw [accRead_eq]; rfl)

theorem sbc_effect : ReadingEffect .sbc (·.p.m) fun _ c v => withResult c (sbcResult c.widthA c.p (accumulator c) v) :=
  readingEffect_of rfl (fun _ _ => rfl) fun _ _ c v pc _ _ =>
    (accWrite_result { c with pc := pc } _).trans (by rw [accRead_eq]; rfl)

section
variable (c : Cpu) (v : Word)

theorem signedValue_accumulator : signedValue c.p.m (accumulator c) = signedValue c.p.m c.a := signedValue_atWidth _ _

theorem adcResult_binary (hd : c.p.d = false) {sum : Nat}
    (hsum : (accumulator c).toNat + v.toNat + bitNat c.p.c = sum) :
    adcResult c.widthA c.p (accumulator c) v = (BitVec.ofNat 16 (sum % modulus c.p.m),
      { withNZ c.p c.p.m (BitVec.ofNat 16 (sum % modulus c.p.m)) with
          c := decide (modulus c.p.m ≤ sum)
          v := signedOverflow c.p.m (signedValue c.p.m c.a + signedValue c.p.m v + bitNat c.p.c) }) := by
  rw [adcResult, if_neg (by simp [hd]), Cpu.widthA, addBinary_eq _ _ _ _ hsum, signedValue_accumulator]

theorem sbcResult_binary (hd : c.p.d = false) (hv : v.toNat < modulus c.p.m) {diff : Nat}
    (hdiff : (accumulator c).toNat + modulus c.p.m - v.toNat - (1 - bitNat c.p.c) = diff) :
    sbcResult c.widthA c.p (accumulator c) v = (BitVec.ofNat 16 (diff % modulus c.p.m),
      { withNZ c.p c.p.m (BitVec.ofNat 16 (diff % modulus c.p.m)) with
          c := decide (v.toNat + (1 - bitNat c.p.c) ≤ (accumulator c).toNat)
          v := signedOverflow c.p.m (signedValue c.p.m c.a - signedValue c.p.m v - (1 - bitNat c.p.c : Nat)) }) := by
  have hbit := bitNat_le_one c.p.c
  have hsum : (accumulator c).toNat + (atWidth c.p.m (~~~v)).toNat + bitNat c.p.c = diff := by
    rw [toNat_atWidth_not _ hv]
    omega
  have hcarry : modulus c.p.m ≤ diff ↔ v.toNat + (1 - bitNat c.p.c) ≤ (accumulator c).toNat := by omega
  have hsigned : signedValue c.p.m c.a + (-1 - signedValue c.p.m v) + bitNat c.p.c =
      signedValue c.p.m c.a - signedValue c.p.m v - (1 - bitNat c.p.c : Nat) := by omega
  rw [sbcResult, if_neg (by simp [hd]), Cpu.widthA, trunc_eq_atWidth, addBinary_eq _ _ _ _ hsum, signedValue_atWidth,
    signedValue_not, signedValue_accumulator, hsigned, decide_eq_decide.2 hcarry]

end

/-- Settles O34: SBC adds the complement of the operand, so both are the binary sum of R131. -/
theorem addSubtract : Obligations.AddSubtract := by
  unfold Obligations.AddSubtract
  refine ⟨readingEffect_congr (by decide) adc_effect fun _ c v _ => ?_,
    readingEffect_congr (by decide) sbc_effect fun _ c v hv => ?_⟩
  · cases hd : c.p.d with
    | true => rfl
    | false => rw [adcResult_binary c v hd rfl]; rfl
  · cases hd : c.p.d with
    | true => rfl
    | false => rw [sbcResult_binary c v hd hv rfl]; rfl

end Sys2Proof.Machine
end

section
/-! # ADC and SBC of decimal operands -/
namespace Sys2Proof.Machine

/-! ### Decimal digits (R131, R132) -/

theorem toBcd_lt (k x : Nat) : toBcd k x < 16 ^ k := by
  induction k generalizing x with
  | zero => exact Nat.one_pos
  | succ k ih =>
    have := ih (x / 10)
    rw [toBcd, Nat.pow_succ]
    omega

theorem toBcd_succ_mod (k x : Nat) : toBcd (k + 1) x % 16 = x % 10 := by
  rw [toBcd]
  omega

theorem toBcd_succ_div (k x : Nat) : toBcd (k + 1) x / 16 = toBcd k (x / 10) := by
  rw [toBcd]
  omega

/-! The digits of the one's complement are the fifteen's complements of the digits. -/

theorem complement_mod (k x : Nat) : (16 ^ (k + 1) - 1 - toBcd (k + 1) x) % 16 = 15 - x % 10 := by
  have := toBcd_lt k (x / 10)
  rw [toBcd, Nat.pow_succ]
  omega

theorem complement_div (k x : Nat) : (16 ^ (k + 1) - 1 - toBcd (k + 1) x) / 16 = 16 ^ k - 1 - toBcd k (x / 10) := by
  have := toBcd_lt k (x / 10)
  rw [toBcd, Nat.pow_succ]
  omega

/-- A digit loop's answer that is the number `z` in `k` decimal digits, with its decimal carry. -/
def decimalSum (k z top : Nat) : DigitSum := ⟨toBcd k (z % 10 ^ k), if 10 ^ k ≤ z then 1 else 0, top⟩

/-- The lowest digit of `z`, then the digits of `z / 10`. -/
theorem decimalSum_succ (k z t top : Nat) :
    (⟨z % 10 + 16 * (decimalSum k (z / 10) t).value, (decimalSum k (z / 10) t).carry, top⟩ : DigitSum) =
      decimalSum (k + 1) z top := by
  have hcarry : 10 ^ k ≤ z / 10 ↔ 10 ^ (k + 1) ≤ z := by
    rw [Nat.le_div_iff_mul_le (by decide), Nat.pow_succ]
  simp only [decimalSum, hcarry, toBcd, Nat.pow_succ', Nat.mod_mul_right_mod, Nat.mod_mul_right_div_self]

theorem decimalSum_zero {c : Nat} (hc : c ≤ 1) : (⟨0, c, 0⟩ : DigitSum) = decimalSum 0 c 0 := by
  obtain rfl | rfl : c = 0 ∨ c = 1 := by omega
  · rfl
  · rfl

/-! The sum `t` of two digits as R131 adjusts it; and as R132 does, which adds the fifteen's complement, 6 more than the
nine's. -/

theorem addAdjust_digit {t : Nat} (ht : t < 20) : (if 9 < t then t + 6 else t) % 16 = t % 10 := by
  split <;> omega

theorem addAdjust_carry {t : Nat} (ht : t < 20) : (if 15 < (if 9 < t then t + 6 else t) then 1 else 0) = t / 10 := by
  split <;> split <;> omega

theorem subAdjust_digit {t : Nat} (ht : t < 20) : (if t + 6 ≤ 15 then t + 6 + 10 else t + 6) % 16 = t % 10 := by
  split <;> omega

theorem subAdjust_carry {t : Nat} (ht : t < 20) : (if 15 < t + 6 then 1 else 0) = t / 10 := by
  split <;> omega

/-- The digit loop of ADC adds decimal numbers. -/
theorem addDigits_toBcd {k x y c : Nat} (hx : x < 10 ^ k) (hy : y < 10 ^ k) (hc : c ≤ 1) :
    ∃ top, addDigits k (toBcd k x) (toBcd k y) c = decimalSum k (x + y + c) top := by
  induction k generalizing x y c with
  | zero =>
    obtain rfl : x = 0 := Nat.lt_one_iff.1 hx
    obtain rfl : y = 0 := Nat.lt_one_iff.1 hy
    exact ⟨0, by simpa [toBcd, addDigits] using decimalSum_zero hc⟩
  | succ k ih =>
    rw [Nat.pow_succ] at hx hy
    have ht : x % 10 + y % 10 + c < 20 := by omega
    have hdigit : (x % 10 + y % 10 + c) % 10 = (x + y + c) % 10 := by omega
    have hrest : x / 10 + y / 10 + (x % 10 + y % 10 + c) / 10 = (x + y + c) / 10 := by omega
    obtain ⟨top, h⟩ := ih (x := x / 10) (y := y / 10) (c := (x % 10 + y % 10 + c) / 10) (by omega)
      (by omega) (by omega)
    refine ⟨if k = 0 then x % 10 + y % 10 + c else top, ?_⟩
    rw [addDigits, toBcd_succ_mod, toBcd_succ_mod, toBcd_succ_div, toBcd_succ_div, addAdjust_carry ht, h,
      addAdjust_digit ht, hdigit, hrest]
    exact decimalSum_succ k _ top _

/-- The digit loop of SBC, on the one's complement of the operand, adds its nine's complement. -/
theorem subDigits_toBcd {k x y c : Nat} (hx : x < 10 ^ k) (hy : y < 10 ^ k) (hc : c ≤ 1) :
    ∃ top, subDigits k (toBcd k x) (16 ^ k - 1 - toBcd k y) c = decimalSum k (x + (10 ^ k - 1 - y) + c) top := by
  induction k generalizing x y c with
  | zero =>
    obtain rfl : x = 0 := Nat.lt_one_iff.1 hx
    obtain rfl : y = 0 := Nat.lt_one_iff.1 hy
    exact ⟨0, by simpa [toBcd, subDigits] using decimalSum_zero hc⟩
  | succ k ih =>
    rw [Nat.pow_succ] at hx hy
    have hsum : x % 10 + (15 - y % 10) + c = x % 10 + (9 - y % 10) + c + 6 := by omega
    have ht : x % 10 + (9 - y % 10) + c < 20 := by omega
    have hdigit : (x % 10 + (9 - y % 10) + c) % 10 = (x + (10 ^ (k + 1) - 1 - y) + c) % 10 := by
      rw [Nat.pow_succ]
      omega
    have hrest : x / 10 + (10 ^ k - 1 - y / 10) + (x % 10 + (9 - y % 10) + c) / 10 =
        (x + (10 ^ (k + 1) - 1 - y) + c) / 10 := by
      rw [Nat.pow_succ]
      omega
    obtain ⟨top, h⟩ := ih (x := x / 10) (y := y / 10) (c := (x % 10 + (9 - y % 10) + c) / 10) (by omega)
      (by omega) (by omega)
    refine ⟨if k = 0 then x % 10 + (9 - y % 10) + c + 6 else top, ?_⟩
    rw [subDigits, toBcd_succ_mod, toBcd_succ_div, complement_mod, complement_div, hsum, subAdjust_carry ht, h,
      subAdjust_digit ht, hdigit, hrest]
    exact decimalSum_succ k _ top _

/-! ### Results and flags of decimal operands -/

section
variable {n : Bool} {p : Status} {k x y : Nat}

/-- The flags of a decimal number: N and Z from its digits, C its carry; V is some value (U7). -/
theorem decimalFlags_sum (a m : Word) (z top : Nat) :
    ∃ v, decimalFlags (if n then .byte else .word) p a m (decimalSum k z top) =
      (BitVec.ofNat 16 (toBcd k (z % 10 ^ k)),
        { withNZ p n (BitVec.ofNat 16 (toBcd k (z % 10 ^ k))) with v := v, c := decide (10 ^ k ≤ z) }) := by
  have hcarry : ((if 10 ^ k ≤ z then 1 else 0) == 1) = decide (10 ^ k ≤ z) := by split <;> simp [*]
  simp only [decimalFlags, setNZ_eq, decimalSum, hcarry]
  exact ⟨_, rfl⟩

theorem digits_eq (hk : k = if n then 2 else 4) : (if n then Width.byte else Width.word).bits / 4 = k := by
  subst hk
  cases n <;> rfl

theorem modulus_eq_digits (hk : k = if n then 2 else 4) : modulus n = 16 ^ k := by
  subst hk
  cases n <;> rfl

theorem toNat_bcd (hk : k = if n then 2 else 4) (x : Nat) : (BitVec.ofNat 16 (toBcd k x)).toNat = toBcd k x := by
  have hlt := toBcd_lt k x
  have hle : 16 ^ k ≤ 2 ^ 16 := by subst hk; cases n <;> decide
  rw [BitVec.toNat_ofNat, Nat.mod_eq_of_lt (by omega)]

theorem adcResult_decimal (hk : k = if n then 2 else 4) (hd : p.d = true) (hx : x < 10 ^ k) (hy : y < 10 ^ k) :
    ∃ v, adcResult (if n then .byte else .word) p (BitVec.ofNat 16 (toBcd k x)) (BitVec.ofNat 16 (toBcd k y)) =
      (BitVec.ofNat 16 (toBcd k ((x + y + bitNat p.c) % 10 ^ k)),
        { withNZ p n (BitVec.ofNat 16 (toBcd k ((x + y + bitNat p.c) % 10 ^ k))) with
            v := v, c := decide (10 ^ k ≤ x + y + bitNat p.c) }) := by
  obtain ⟨top, hsum⟩ := addDigits_toBcd hx hy (bitNat_le_one p.c)
  rw [adcResult, if_pos hd, digits_eq hk, toNat_bcd hk, toNat_bcd hk, hsum]
  exact decimalFlags_sum _ _ _ top

theorem sbcResult_decimal (hk : k = if n then 2 else 4) (hd : p.d = true) (hx : x < 10 ^ k) (hy : y < 10 ^ k) :
    ∃ v, sbcResult (if n then .byte else .word) p (BitVec.ofNat 16 (toBcd k x)) (BitVec.ofNat 16 (toBcd k y)) =
      (BitVec.ofNat 16 (toBcd k ((x + 10 ^ k - y - (1 - bitNat p.c)) % 10 ^ k)),
        { withNZ p n (BitVec.ofNat 16 (toBcd k ((x + 10 ^ k - y - (1 - bitNat p.c)) % 10 ^ k))) with
            v := v, c := decide (y + (1 - bitNat p.c) ≤ x) }) := by
  have hbit := bitNat_le_one p.c
  have hdiff : x + (10 ^ k - 1 - y) + bitNat p.c = x + 10 ^ k - y - (1 - bitNat p.c) := by omega
  have hcarry : 10 ^ k ≤ x + 10 ^ k - y - (1 - bitNat p.c) ↔ y + (1 - bitNat p.c) ≤ x := by omega
  have hcomplement : (atWidth n (~~~BitVec.ofNat 16 (toBcd k y))).toNat = 16 ^ k - 1 - toBcd k y := by
    rw [toNat_atWidth_not, toNat_bcd hk, modulus_eq_digits hk]
    rw [toNat_bcd hk, modulus_eq_digits hk]
    exact toBcd_lt k y
  obtain ⟨top, hsum⟩ := subDigits_toBcd hx hy hbit
  rw [sbcResult, if_pos hd, digits_eq hk, trunc_eq_atWidth, toNat_bcd hk, hcomplement, hsum, hdiff,
    ← decide_eq_decide.2 hcarry]
  exact decimalFlags_sum _ _ _ top

end

/-- Settles O35: the digit loops are decimal addition, of the operand and of its nine's complement. -/
theorem decimalArithmetic : Obligations.DecimalArithmetic := by
  unfold Obligations.DecimalArithmetic
  intro i o s f b x y n ho hwf hd hn hx hy hacc hr
  refine ⟨fun hm => ?_, fun hm => ?_⟩
  · obtain ⟨v, hres⟩ := adcResult_decimal hn hd hx hy
    refine ⟨v, ?_⟩
    simp only [adc_effect i o s _ f b hm ho hwf hr, hacc, Cpu.widthA, hres, withResult]
  · obtain ⟨v, hres⟩ := sbcResult_decimal hn hd hx hy
    refine ⟨v, ?_⟩
    simp only [sbc_effect i o s _ f b hm ho hwf hr, hacc, Cpu.widthA, hres, withResult]

end Sys2Proof.Machine
end

section
/-! # Loads, stores and transfers -/
namespace Sys2Proof.Machine

/-! ### LDA, LDX, LDY (R170 to R172) -/

/-- Settles O31: each body reads its operand and loads the register, which is `AccWrite` or `IdxWrite` and `SetNZ`. -/
theorem loads : Obligations.Loads := by
  unfold Obligations.Loads
  exact ⟨readingEffect_of rfl (fun _ _ => rfl) fun _ _ _ _ _ _ _ => loadA_eq _ _,
    readingEffect_of rfl (fun _ _ => rfl) fun _ _ _ _ _ _ _ => loadX_eq _ _,
    readingEffect_of rfl (fun _ _ => rfl) fun _ _ _ _ _ _ _ => loadY_eq _ _⟩

/-! ### STA, STX, STY, STZ (R173 to R176) -/

/-- A body that stores a value truncated to the operand width has the storing effect of the whole value: the bytes
written are the same. -/
theorem storingEffect_of_atWidth {mn : Mnemonic} {narrow : Cpu → Bool} {width : Cpu → Width} {value value' : Cpu → Word}
    (hb : bodyOf mn = onMem (fun m => storeOperand width m value))
    (hw : ∀ c pc, width { c with pc := pc } = if narrow c then .byte else .word)
    (hv : ∀ c pc, value { c with pc := pc } = atWidth (narrow c) (value' c)) : StoringEffect mn narrow value' :=
  storingEffect_of hb hw fun c pc => by rw [hv, dataBytes_atWidth]

/-- Settles O32: the accumulator and the index registers are stored at their width, STZ stores zero as it is. -/
theorem stores : Obligations.Stores := by
  unfold Obligations.Stores
  exact ⟨storingEffect_of_atWidth rfl (fun _ _ => rfl) fun c _ => trunc_eq_atWidth c.p.m c.a,
    storingEffect_of_atWidth rfl (fun _ _ => rfl) fun c _ => trunc_eq_atWidth c.p.x c.x,
    storingEffect_of_atWidth rfl (fun _ _ => rfl) fun c _ => trunc_eq_atWidth c.p.x c.y,
    storingEffect_of rfl (fun _ _ => rfl) fun _ _ => rfl⟩

/-! ### The transfers (R177 to R189) -/

theorem setNZ_word (p : Status) (v : Word) : p.setNZ .word v = withNZ p false v := setNZ_eq false p v

/-- At 8 bits `SetNZ` sees only the low byte, which XBA fills from the high byte of before. -/
theorem setNZ_byte_mkWord (p : Status) (hi lo : Byte) :
    p.setNZ .byte (mkWord hi lo) = withNZ p true (mkWord 0x00#8 lo) := by
  calc p.setNZ .byte (mkWord hi lo) = withNZ p true (mkWord hi lo) := setNZ_eq true p _
    _ = withNZ p true (mkWord 0x00#8 lo) := withNZ_congr _ _ _ _ (by simp [atWidth])

/-- Settles O41: a transfer is a load of its destination, `SetNZ` at 16 or 8 bits beside a plain copy, or a copy alone. -/
theorem transfers : Obligations.Transfers := by
  unfold Obligations.Transfers
  refine ⟨?tax, ?tay, ?txa, ?tya, ?txy, ?tyx, ?tsx, ?txs, ?tcd, ?tdc, ?tcs, ?tsc, ?xba⟩ <;>
    refine registerEffect_of rfl (fun _ _ => rfl) fun _ _ => ?_
  case tax | tyx | tsx => exact loadX_eq _ _
  case tay | txy => exact loadY_eq _ _
  case txa | tya => exact loadA_eq _ _
  case txs | tcs => rfl
  case tcd | tdc | tsc => rw [setNZ_word]
  case xba => simp only [setNZ_byte_mkWord]

end Sys2Proof.Machine
end

section
/-! # Branches and jumps -/
namespace Sys2Proof.Machine

section
variable {i : Instr} {s t : State} {b : Bus} {c : Cpu} {a : Word} {lo hi : Byte}

/-! ### Where a body ends, the instruction ends -/

/-- A well-formed instruction whose body ends well ends in the state the body leaves, with the cost recorded. -/
theorem exec_eq_ended {f : CostFacts} (hw : i.wellFormed s.cpu.p.m s.cpu.p.x = true)
    (hb : bodyOf i.mnemonic i.operand (advance i s) = .ok f (t.withCpu c)) : exec i s = .next (ended i s t f c) :=
  exec_ok hw hb

theorem plainly_ok {m : BusM Unit} (h : m s = .ok () t) : plainly m s = .ok {} t := run_bind_ok s t h

@[simp] theorem run_jumpTo (s : State) (target : Word) :
    jumpTo target s = .ok () (s.withCpu { s.cpu with pc := target }) := rfl

@[simp] theorem run_jumpLong (s : State) (target : Address) :
    jumpLong target s = .ok () (s.withCpu { s.cpu with pb := bankOf target, pc := offsetOf target }) := rfl

/-! ### Branches (R211 to R220) -/

/-- Settles O42: each body is `branchIf` of the flag condition its rule gives. -/
theorem branches : Obligations.Branches := by
  unfold Obligations.Branches
  refine ⟨?bcc, ?bcs, ?beq, ?bne, ?bmi, ?bpl, ?bvc, ?bvs, ?bra⟩ <;>
    exact branchEffect_of (fun _ => rfl) (fun _ => rfl) fun _ _ _ => rfl

/-! ### Jumps (R221 to R223) -/

@[simp] theorem next_bank_mkAddr (bank : Byte) (off : Word) :
    Wrap.bank.next (mkAddr bank off) = mkAddr bank (off + 1#16) := by
  simp [Wrap.next]

/-- The pointer of `aindx` is read in the program bank, and its offset wraps there (R115). -/
theorem aindxPointer_ok
    (h : s.bus.loadAll [mkAddr s.cpu.pb (a + s.cpu.x), mkAddr s.cpu.pb (a + s.cpu.x + 1#16)] = some ([lo, hi], b)) :
    aindxPointer a s = .ok (mkWord hi lo) (s.withBus b) :=
  memRead16_ok .bank (by rwa [next_bank_mkAddr])

/-- Settles O43: the target is the operand, or the pointer read at the address the mode gives. -/
theorem jumps : Obligations.Jumps := by
  unfold Obligations.Jumps
  refine ⟨fun s d => ?brl, fun s a => ?jmpAbs, fun s a lo hi b h => ?jmpAind, fun s a lo hi b h => ?jmpAindx,
    fun s l => ?jmlLong, fun s a lo mid hi b h => ?jmlAindl⟩ <;> refine exec_eq_ended rfl ?_
  case brl | jmpAbs | jmlLong => rfl
  case jmpAind =>
    have hptr := memRead16_bank0_ok (s := advance (.jmpAind a) s) h
    exact plainly_ok ((run_bind_ok _ _ hptr).trans rfl)
  case jmpAindx =>
    exact run_bind_ok _ _ (aindxPointer_ok (s := advance (.jmpAindx a) s) h)
  case jmlAindl =>
    have hptr := memRead24_bank0_ok (s := advance (.jmlAindl a) s) h
    refine plainly_ok ((run_bind_ok _ _ hptr).trans ?_)
    rw [run_jumpLong, bankOf_mkAddr, offsetOf_mkAddr]
    rfl

end
end Sys2Proof.Machine
end

section
/-! # Calls and returns -/
namespace Sys2Proof.Machine

section
variable {α : Type} {s t : State} {b b' : Bus} {c : Cpu} {a : Word} {l : Address} {lo hi bank : Byte}
  {w : Bool} {sp : Word} {n : Nat}

/-! ### The stack pointer after pushes and pulls -/

theorem hiByte_pushOffset_succ (sp : Word) (n : Nat) : hiByte (pushOffset true sp (n + 1)) = 0x01#8 := by
  simp [pushOffset]

/-- A stack pointer of page 1 stays there under the page-1 arm. -/
theorem page1_pushOffset (hsp : w = true → hiByte sp = 0x01#8) (n : Nat) (hw : w = true) :
    hiByte (pushOffset w sp n) = 0x01#8 := by
  subst hw
  cases n with
  | zero => rw [pushOffset_zero, hsp rfl]
  | succ n => exact hiByte_pushOffset_succ sp n

theorem hiByte_pullOffset (sp : Word) (n : Nat) : hiByte (pullOffset true sp n) = 0x01#8 := by
  simp [pullOffset]

theorem loByte_pushOffset (sp : Word) (n : Nat) :
    loByte (pushOffset true sp n) = loByte sp - BitVec.ofNat 8 n := by
  cases n with
  | zero => simp [pushOffset]
  | succ n => simp [pushOffset]

/-- In Emulation mode the end of a stack instruction leaves a stack pointer of page 1 as it is. -/
theorem stackEnd_of_page1 (h : c.e = true → hiByte sp = 0x01#8) : stackEnd c sp = sp := by
  unfold stackEnd
  split
  · exact mkWord_loByte_of_hiByte (h ‹_›)
  · rfl

/-- A pull takes back the last push. -/
theorem stackUp_pushOffset_succ (hsp : w = true → hiByte sp = 0x01#8) (n : Nat) :
    stackUp w (pushOffset w sp (n + 1)) = pushOffset w sp n := by
  cases w with
  | false =>
    simp only [stackUp, pushOffset, Bool.false_and, Bool.false_eq_true, if_false]
    apply BitVec.eq_of_toNat_eq
    simp
    omega
  | true =>
    have hlow : loByte (pushOffset true sp (n + 1)) + 1#8 = loByte (pushOffset true sp n) := by
      rw [loByte_pushOffset, loByte_pushOffset]
      apply BitVec.eq_of_toNat_eq
      simp
      omega
    rw [stackUp, if_pos rfl, hlow, mkWord_loByte_of_hiByte (page1_pushOffset hsp n rfl)]

/-- As many pulls as pushes restore the stack pointer. -/
theorem pullOffset_pushOffset (hsp : w = true → hiByte sp = 0x01#8) (n : Nat) :
    pullOffset w (pushOffset w sp n) n = sp := by
  cases w with
  | false => simp [pullOffset, pushOffset]
  | true => simp [pullOffset, loByte_pushOffset, mkWord_loByte_of_hiByte (hsp rfl)]

/-- As many pulls as pushes read the addresses pushed to, the last one first. -/
theorem pullReads_pushOffset (hsp : w = true → hiByte sp = 0x01#8) (n : Nat) :
    pullReads w (pushOffset w sp n) n = (stackAddresses w sp n).reverse := by
  induction n with
  | zero => rfl
  | succ n ih =>
    rw [pullReads_succ, stackUp_pushOffset_succ hsp, ih, stackAddresses, stackAddresses, List.range_succ,
      List.map_append, List.reverse_append]
    rfl

/-! ### Stack instructions under the arms of R240 to R242 -/

/-- An instruction of R240 and R241 that leaves `S` in page 1 in Emulation mode leaves it as `stackEnd` says. -/
theorem withStack_ok {body : Bool → BusM Unit} (h : body s.cpu.e s = .ok () (t.withCpu c))
    (hs : s.cpu.e = true → hiByte c.s = 0x01#8) :
    withStack body s = .ok () (t.withCpu { c with s := stackEnd s.cpu c.s }) := by
  rw [stackEnd_of_page1 hs]
  exact h

/-- An instruction of R242 leaves `S` as `stackEnd` says: in page 1 already, or forced there. -/
theorem withStackNew_ok {body : Bool → BusM Unit} (h : body s.stackWrapsNew s = .ok () (t.withCpu c))
    (hs : s.stackWrapsNew = true → hiByte c.s = 0x01#8) :
    withStackNew body s = .ok () (t.withCpu { c with s := stackEnd s.cpu c.s }) := by
  refine (run_bind_ok s _ h).trans ?_
  cases hforce : s.cpu.e && s.params.emuStackNewInsn16Bit with
  | true =>
    obtain ⟨he, -⟩ := Bool.and_eq_true_iff.1 hforce
    rw [stackEnd, if_pos he]
    rfl
  | false =>
    have hpage : s.cpu.e = true → hiByte c.s = 0x01#8 := fun he =>
      hs (by simpa [State.stackWrapsNew, he] using hforce)
    rw [stackEnd_of_page1 hpage]
    rfl

/-! ### JSR and JSL (R224, R225) -/

/-- The return address is pushed high byte first. -/
theorem pushReturn_ok (h : s.bus.storeAll (pushWrites w s.cpu.s 0
      [hiByte (s.cpu.pc - 1#16), loByte (s.cpu.pc - 1#16)]) = some b) :
    pushReturn w s = .ok () ((s.withBus b).withCpu { s.cpu with s := pushOffset w s.cpu.s 2 }) := by
  rw [pushReturn, run_bind_ok s _ (run_getCpu s), pushWord_eq, pushList_ok w h]
  rfl

/-- The address of the last byte of a call, `PCn - 1`. -/
theorem nextPc_sub_one {i : Instr} (h : i.length = n + 1) (pc : Word) :
    nextPc i pc - 1#16 = pc + BitVec.ofNat 16 n := by
  rw [nextPc, h]
  apply BitVec.eq_of_toNat_eq
  simp
  omega

/-- A long call pushes the program bank before the return address. -/
theorem pushBank_pushReturn_then (f : Unit → BusM α) (h : s.bus.storeAll (pushWrites w s.cpu.s 0
      [s.cpu.pb, hiByte (s.cpu.pc - 1#16), loByte (s.cpu.pc - 1#16)]) = some b) :
    (pushByte w s.cpu.pb >>= fun _ => pushReturn w >>= f) s =
      f () ((s.withBus b).withCpu { s.cpu with s := pushOffset w s.cpu.s 3 }) := by
  rw [pushWrites, pushWrites_succ, pushOffset_zero] at h
  obtain ⟨b₁, hbank, hreturn⟩ := of_storeAll_cons h
  rw [run_bind_ok s _ (pushByte_ok w hbank), pushOffset_succ]
  exact run_bind_ok _ _ (pushReturn_ok (s := (s.withBus b₁).withCpu { s.cpu with s := stackDown w s.cpu.s }) hreturn)

theorem jsr_ok (h : s.bus.storeAll (pushWrites s.cpu.e s.cpu.s 0
      [hiByte (s.cpu.pc - 1#16), loByte (s.cpu.pc - 1#16)]) = some b) :
    jsr a s = .ok {} ((s.withBus b).withCpu
      { s.cpu with s := stackEnd s.cpu (pushOffset s.cpu.e s.cpu.s 2), pc := a }) := by
  have hbody : (pushReturn s.cpu.e >>= fun _ => jumpTo a) s =
      .ok () ((s.withBus b).withCpu { s.cpu with s := pushOffset s.cpu.e s.cpu.s 2, pc := a }) :=
    run_bind_ok s _ (pushReturn_ok h)
  refine plainly_ok (Eq.trans (withStack_ok hbody fun he => ?_) rfl)
  rw [he]
  exact hiByte_pushOffset_succ _ 1

/-- The pointer is read after the push, with the registers of before it but `S` (R224). -/
theorem jsrIndexed_ok (hpush : s.bus.storeAll (pushWrites s.stackWrapsNew s.cpu.s 0
      [hiByte (s.cpu.pc - 1#16), loByte (s.cpu.pc - 1#16)]) = some b)
    (hread : b.loadAll [mkAddr s.cpu.pb (a + s.cpu.x), mkAddr s.cpu.pb (a + s.cpu.x + 1#16)] = some ([lo, hi], b')) :
    jsrIndexed a s = .ok (aindxFacts s.cpu a) ((s.withBus b').withCpu
      { s.cpu with s := stackEnd s.cpu (pushOffset s.stackWrapsNew s.cpu.s 2), pc := mkWord hi lo }) := by
  have hpointer := aindxPointer_ok
    (s := (s.withBus b).withCpu { s.cpu with s := pushOffset s.stackWrapsNew s.cpu.s 2 }) hread
  have hbody : (pushReturn s.stackWrapsNew >>= fun _ => aindxPointer a >>= jumpTo) s =
      .ok () ((s.withBus b').withCpu
        { s.cpu with s := pushOffset s.stackWrapsNew s.cpu.s 2, pc := mkWord hi lo }) :=
    (run_bind_ok s _ (pushReturn_ok hpush)).trans (run_bind_ok _ _ hpointer)
  refine (run_bind_ok s _ (run_getCpu s)).trans (run_bind_ok s _ (Eq.trans (withStackNew_ok hbody fun hw => ?_) rfl))
  rw [hw]
  exact hiByte_pushOffset_succ _ 1

theorem jsl_ok (h : s.bus.storeAll (pushWrites s.stackWrapsNew s.cpu.s 0
      [s.cpu.pb, hiByte (s.cpu.pc - 1#16), loByte (s.cpu.pc - 1#16)]) = some b) :
    jsl l s = .ok {} ((s.withBus b).withCpu
      { s.cpu with
          s := stackEnd s.cpu (pushOffset s.stackWrapsNew s.cpu.s 3), pb := bankOf l, pc := offsetOf l }) := by
  have hbody := pushBank_pushReturn_then (fun _ => jumpLong l) h
  rw [run_jumpLong, withCpu_withCpu] at hbody
  refine plainly_ok (Eq.trans (withStackNew_ok hbody fun hw => ?_) rfl)
  rw [hw]
  exact hiByte_pushOffset_succ _ 2

/-- Settles O44: a body that starts at `PCn` pushes the return address of a call, and jumps. -/
theorem calls : Obligations.Calls := by
  unfold Obligations.Calls
  refine ⟨fun s a b h => ?jsrAbs, fun s a lo hi b b' hpush hread => ?jsrAindx, fun s l b h => ?jsl⟩ <;>
    refine exec_eq_ended rfl ?_
  case jsrAbs =>
    rw [← nextPc_sub_one (i := .jsrAbs a) (n := 2) rfl] at h
    exact jsr_ok (s := advance (.jsrAbs a) s) h
  case jsrAindx =>
    rw [← nextPc_sub_one (i := .jsrAindx a) (n := 2) rfl] at hpush
    exact jsrIndexed_ok (s := advance (.jsrAindx a) s) hpush hread
  case jsl =>
    rw [← nextPc_sub_one (i := .jsl l) (n := 3) rfl] at h
    exact jsl_ok (s := advance (.jsl l) s) h

/-! ### RTS and RTL (R226, R227) -/

theorem pullWord_ok (h : s.bus.loadAll (pullReads w s.cpu.s 2) = some ([lo, hi], b)) :
    pullWord w s = .ok (mkWord hi lo) ((s.withBus b).withCpu { s.cpu with s := pullOffset w s.cpu.s 2 }) := by
  rw [pullWord_eq, pullList_ok w h]
  rfl

theorem rts_ok (h : s.bus.loadAll (pullReads s.cpu.e s.cpu.s 2) = some ([lo, hi], b)) :
    rts s = .ok {} ((s.withBus b).withCpu
      { s.cpu with s := stackEnd s.cpu (pullOffset s.cpu.e s.cpu.s 2), pc := mkWord hi lo + 1#16 }) := by
  have hbody : (pullWord s.cpu.e >>= fun t => jumpTo (t + 1#16)) s =
      .ok () ((s.withBus b).withCpu
        { s.cpu with s := pullOffset s.cpu.e s.cpu.s 2, pc := mkWord hi lo + 1#16 }) :=
    run_bind_ok s _ (pullWord_ok h)
  refine plainly_ok (Eq.trans (withStack_ok hbody fun he => ?_) rfl)
  rw [he]
  exact hiByte_pullOffset _ 2

/-- A long return pulls the return address before the program bank. -/
theorem pullWord_pullByte_then (f : Word → Byte → BusM α)
    (h : s.bus.loadAll (pullReads w s.cpu.s 3) = some ([lo, hi, bank], b)) :
    (pullWord w >>= fun v => pullByte w >>= f v) s =
      f (mkWord hi lo) bank ((s.withBus b).withCpu { s.cpu with s := pullOffset w s.cpu.s 3 }) := by
  rw [pullReads_succ, pullReads_succ, pullReads_succ] at h
  obtain ⟨_, b₁, _, hlo, h₁, hbytes⟩ := of_loadAll_cons h
  obtain ⟨_, b₂, _, hhi, h₂, rfl⟩ := of_loadAll_cons h₁
  obtain ⟨_, b₃, _, hbank, h₃, rfl⟩ := of_loadAll_cons h₂
  obtain ⟨rfl, rfl⟩ := of_loadAll_nil h₃
  cases hbytes
  have hword : s.bus.loadAll (pullReads w s.cpu.s 2) = some ([lo, hi], b₂) := by
    rw [pullReads_succ, pullReads_succ]
    exact loadAll_cons_ok hlo (loadAll_cons_ok hhi rfl)
  have hend : pullOffset w s.cpu.s 3 = stackUp w (pullOffset w s.cpu.s 2) := by
    rw [pullOffset_succ, pullOffset_succ, pullOffset_succ, pullOffset_one, pullOffset_one]
  rw [run_bind_ok s _ (pullWord_ok hword), hend]
  refine run_bind_ok _ _ (pullByte_ok (s := (s.withBus b₂).withCpu { s.cpu with s := pullOffset w s.cpu.s 2 }) w ?_)
  rw [withCpu_cpu, pullOffset_succ, pullOffset_one]
  exact hbank

theorem rtl_ok (h : s.bus.loadAll (pullReads s.stackWrapsNew s.cpu.s 3) = some ([lo, hi, bank], b)) :
    rtl s = .ok {} ((s.withBus b).withCpu
      { s.cpu with
          s := stackEnd s.cpu (pullOffset s.stackWrapsNew s.cpu.s 3), pb := bank, pc := mkWord hi lo + 1#16 }) := by
  have hbody := pullWord_pullByte_then (fun t b => jumpLong (mkAddr b (t + 1#16))) h
  rw [run_jumpLong, withCpu_withCpu, bankOf_mkAddr, offsetOf_mkAddr] at hbody
  refine plainly_ok (Eq.trans (withStackNew_ok hbody fun hw => ?_) rfl)
  rw [hw]
  exact hiByte_pullOffset _ 3

/-- Settles O45: the bodies pull the return address, RTL the program bank after it, and jump to the byte after it. -/
theorem returns : Obligations.Returns := by
  unfold Obligations.Returns
  exact ⟨fun s _ _ _ h => exec_eq_ended rfl (rts_ok (s := advance .rts s) h),
    fun s _ _ _ _ h => exec_eq_ended rfl (rtl_ok (s := advance .rtl s) h)⟩

end
end Sys2Proof.Machine
end

section
/-! # A return undoes its call -/
namespace Sys2Proof.Machine

section
variable {s : State} {b b' : Bus} {a : Address} {v : Byte} {w : Bool} {sp : Word} {ws : List (Address × Byte)}

/-! ### What was pushed is read back -/

theorem mapped_of_isRam (h : IsRam b a) : b.mapped a = true := by
  obtain ⟨r, hr, -⟩ := h
  rw [Bus.mapped, hr]
  rfl

theorem mapped_of_peek (h : b.peek a = some v) : b.mapped a = true := by
  obtain ⟨r, hr, -⟩ := Option.bind_eq_some_iff.1 h
  rw [Bus.mapped, hr]
  rfl

/-- Reads of flat bytes answer the bytes that stand there. -/
theorem loadAll_of_peek (h : ∀ p ∈ ws, b.peek p.1 = some p.2) :
    ∃ b', b.loadAll (ws.map Prod.fst) = some (ws.map Prod.snd, b') := by
  induction ws generalizing b with
  | nil => exact ⟨b, rfl⟩
  | cons p ws ih =>
    obtain ⟨hp, hws⟩ := List.forall_mem_cons.1 h
    obtain ⟨⟨x, b₁⟩, hload⟩ := Option.isSome_iff_exists.1 (load_isSome.trans (mapped_of_peek hp))
    obtain rfl := load_eq_peek hload hp
    obtain ⟨-, -, hkeep⟩ := load_keeps hload
    obtain ⟨b', hrest⟩ := ih fun q hq => (hkeep q.1).trans (hws q hq)
    exact ⟨b', loadAll_cons_ok hload hrest⟩

theorem onlyWrites_storeAll (h : b.storeAll ws = some b') : OnlyWrites (ws.map Prod.fst) b b' := by
  induction ws generalizing b with
  | nil => exact of_storeAll_nil h ▸ onlyWrites_refl _ _
  | cons p ws ih =>
    obtain ⟨b₁, hstore, hrest⟩ := of_storeAll_cons h
    exact ((onlyWrites_store hstore).mono (by simp)).trans ((ih hrest).mono (by simp))

/-- Writes to distinct cells of RAM all stand at the end. -/
theorem peek_storeAll (hwf : RegionsWf b) (hram : ∀ p ∈ ws, IsRam b p.1)
    (hcells : (ws.map Prod.fst).Pairwise fun a a' => cellOf b a ≠ cellOf b a') (h : b.storeAll ws = some b') :
    ∀ p ∈ ws, b'.peek p.1 = some p.2 := by
  induction ws generalizing b with
  | nil => exact List.forall_mem_nil _
  | cons p ws ih =>
    obtain ⟨b₁, hstore, hrest⟩ := of_storeAll_cons h
    obtain ⟨hp, hws⟩ := List.forall_mem_cons.1 hram
    obtain ⟨hdistinct, hcells⟩ := List.pairwise_cons.1 hcells
    have hall : b.storeAll [p] = some b₁ := by simp only [Bus.storeAll, hstore]
    obtain ⟨-, -, hcell, hisRam, hwf₁, -⟩ := storeAll_keeps_shape hall
    refine List.forall_mem_cons.2 ⟨?_, ih (hwf₁ hwf) (fun q hq => (hisRam q.1).2 (hws q hq)) ?_ hrest⟩
    · calc b'.peek p.1 = b₁.peek p.1 := (onlyWrites_storeAll hrest).frame (hwf₁ hwf) p.1 fun a ha => by
            rw [hcell, hcell]
            exact hdistinct a ha
        _ = some p.2 := by rw [peek_store_ram hwf hp hstore, if_pos rfl]
    · simpa only [hcell] using hcells

/-! ### The stack -/

theorem map_fst_pushWrites (w : Bool) (sp : Word) (bytes : List Byte) :
    (pushWrites w sp 0 bytes).map Prod.fst = stackAddresses w sp bytes.length := by
  induction bytes generalizing sp with
  | nil => rfl
  | cons v rest ih =>
    rw [pushWrites, pushWrites_succ, pushOffset_zero, List.map_cons, ih, List.length_cons, stackAddresses_succ]
    rfl

theorem map_snd_pushWrites (w : Bool) (sp : Word) (k : Nat) (bytes : List Byte) :
    (pushWrites w sp k bytes).map Prod.snd = bytes := by
  induction bytes generalizing k with
  | nil => rfl
  | cons v rest ih => rw [pushWrites, List.map_cons, ih]

/-- The addresses of the pushes a `StackReady` state allows are RAM, and name distinct cells. -/
theorem stackAddresses_of_ready {n : Nat} (h : StackReady s n) :
    (∀ a ∈ stackAddresses s.cpu.e s.cpu.s n, IsRam s.bus a) ∧
    (stackAddresses s.cpu.e s.cpu.s n).Pairwise fun a a' => cellOf s.bus a ≠ cellOf s.bus a' := by
  obtain ⟨-, hram, hcells⟩ := h
  refine ⟨fun a ha => ?_, List.pairwise_map.2 (List.pairwise_lt_range.imp_of_mem fun hj hk hlt => ?_)⟩
  · obtain ⟨k, hk, rfl⟩ := List.mem_map.1 ha
    exact hram k (List.mem_range.1 hk)
  · exact hcells _ (List.mem_range.1 hj) _ (List.mem_range.1 hk) hlt.ne

/-- On a ready stack bytes can be pushed, and as many pulls read them back, the last one first. -/
theorem pushes_then_pulls (bytes : List Byte) (hw : w = s.cpu.e) (hpage : w = true → hiByte s.cpu.s = 0x01#8)
    (h : StackReady s bytes.length) :
    ∃ b b', s.bus.storeAll (pushWrites w s.cpu.s 0 bytes) = some b ∧
      b.loadAll (pullReads w (pushOffset w s.cpu.s bytes.length) bytes.length) = some (bytes.reverse, b') := by
  subst hw
  obtain ⟨hram, hcells⟩ := stackAddresses_of_ready h
  rw [← map_fst_pushWrites] at hram hcells
  have hram : ∀ p ∈ pushWrites s.cpu.e s.cpu.s 0 bytes, IsRam s.bus p.1 := fun p hp =>
    hram p.1 (List.mem_map_of_mem hp)
  obtain ⟨b, hpush⟩ := storeAll_isSome fun p hp => mapped_of_isRam (hram p hp)
  obtain ⟨hwf, -⟩ := h
  have hpeek := peek_storeAll hwf hram hcells hpush
  obtain ⟨b', hpull⟩ := loadAll_of_peek fun p hp => hpeek p (List.mem_reverse.1 hp)
  refine ⟨b, b', hpush, ?_⟩
  rwa [List.map_reverse, List.map_reverse, map_fst_pushWrites, map_snd_pushWrites,
    ← pullReads_pushOffset hpage] at hpull

/-! ### The statement -/

theorem stack_page1 (h : ModeInv s.cpu) (he : s.cpu.e = true) : hiByte s.cpu.s = 0x01#8 := by
  obtain ⟨hemulation, -⟩ := h
  obtain ⟨-, -, hs⟩ := hemulation he
  exact hs

theorem rts_undoes_jsr (a : Word) (hinv : ModeInv s.cpu) (hready : StackReady s 2) :
    ∃ t u, exec (.jsrAbs a) s = .next t ∧ t.cpu.pc = a ∧ exec .rts t = .next u ∧ u.abortCause = s.abortCause ∧
      u.cpu = { s.cpu with pc := s.cpu.pc + 3#16 } := by
  obtain ⟨hjsr, -⟩ := calls
  obtain ⟨hrts, -⟩ := returns
  have hpage := stack_page1 hinv
  obtain ⟨b, b', hpush, hpull⟩ :=
    pushes_then_pulls [hiByte (s.cpu.pc + 2#16), loByte (s.cpu.pc + 2#16)] rfl hpage hready
  have hcall := hjsr s a b hpush
  rw [stackEnd_of_page1 (page1_pushOffset hpage 2)] at hcall
  refine ⟨_, _, hcall, rfl, hrts _ (loByte (s.cpu.pc + 2#16)) (hiByte (s.cpu.pc + 2#16)) b' hpull, rfl, ?_⟩
  show { s.cpu with
    s := stackEnd s.cpu (pullOffset s.cpu.e (pushOffset s.cpu.e s.cpu.s 2) 2)
    pc := mkWord (hiByte (s.cpu.pc + 2#16)) (loByte (s.cpu.pc + 2#16)) + 1#16 } = _
  rw [pullOffset_pushOffset hpage, stackEnd_of_page1 hpage, mkWord_hiByte_loByte, BitVec.add_assoc]
  rfl

theorem stackWrapsNew_of_default (h : s.params.emuStackNewInsn16Bit = false) : s.stackWrapsNew = s.cpu.e := by
  rw [State.stackWrapsNew, h, Bool.not_false, Bool.and_true]

theorem rtl_undoes_jsl (l : Address) (hinv : ModeInv s.cpu) (hready : StackReady s 3)
    (hparam : s.params.emuStackNewInsn16Bit = false) :
    ∃ t u, exec (.jsl l) s = .next t ∧ mkAddr t.cpu.pb t.cpu.pc = l ∧ exec .rtl t = .next u ∧
      u.abortCause = s.abortCause ∧ u.cpu = { s.cpu with pc := s.cpu.pc + 4#16 } := by
  obtain ⟨-, -, hjsl⟩ := calls
  obtain ⟨-, hrtl⟩ := returns
  have hpage := stack_page1 hinv
  have hwrap := stackWrapsNew_of_default hparam
  obtain ⟨b, b', hpush, hpull⟩ := pushes_then_pulls [s.cpu.pb, hiByte (s.cpu.pc + 3#16), loByte (s.cpu.pc + 3#16)]
    hwrap (hwrap ▸ hpage) hready
  have hcall := hjsl s l b hpush
  rw [stackEnd_of_page1 fun he => page1_pushOffset (hwrap ▸ hpage) 3 (hwrap.trans he)] at hcall
  refine ⟨_, _, hcall, mkAddr_bankOf_offsetOf l,
    hrtl _ (loByte (s.cpu.pc + 3#16)) (hiByte (s.cpu.pc + 3#16)) s.cpu.pb b' hpull, rfl, ?_⟩
  show { s.cpu with
    s := stackEnd s.cpu (pullOffset s.stackWrapsNew (pushOffset s.stackWrapsNew s.cpu.s 3) 3)
    pc := mkWord (hiByte (s.cpu.pc + 3#16)) (loByte (s.cpu.pc + 3#16)) + 1#16 } = _
  rw [pullOffset_pushOffset (hwrap ▸ hpage), stackEnd_of_page1 hpage, mkWord_hiByte_loByte, BitVec.add_assoc]
  rfl

/-- Settles O46: the return reads back the bytes of the call, and adds one to the address of its last byte. -/
theorem returnUndoesCall : Obligations.ReturnUndoesCall := by
  unfold Obligations.ReturnUndoesCall
  exact ⟨fun _ => rts_undoes_jsr, fun _ => rtl_undoes_jsl⟩

end
end Sys2Proof.Machine
end

section
/-! # Pushes, pulls and push-effective-address -/
namespace Sys2Proof.Machine

section
variable {i : Instr} {s : State} {b : Bus} {c : Cpu} {lo hi : Byte} {w : Bool} {bytes : List Byte}
  {wrap1 : State → Bool} {run : (Bool → BusM Unit) → BusM Unit} {body : Bool → BusM Unit}

/-! ### Stack instructions under either arm (R240 to R242) -/

/-- `run` runs the body of a stack instruction with the arm `wrap1`, and ends it with `S` as `stackEnd` says. -/
structure RunsStack (wrap1 : State → Bool) (run : (Bool → BusM Unit) → BusM Unit) : Prop where
  arm_advance : ∀ i s, wrap1 (advance i s) = wrap1 s
  run_ok : ∀ {body : Bool → BusM Unit} {s t : State} {c : Cpu}, body (wrap1 s) s = .ok () (t.withCpu c) →
    (wrap1 s = true → hiByte c.s = 0x01#8) → run body s = .ok () (t.withCpu { c with s := stackEnd s.cpu c.s })

theorem runsStack_withStack : RunsStack (·.cpu.e) withStack := ⟨fun _ _ => rfl, withStack_ok⟩

theorem runsStack_withStackNew : RunsStack State.stackWrapsNew withStackNew := ⟨fun _ _ => rfl, withStackNew_ok⟩

/-- A stack instruction ends where its body does, with `S` as `stackEnd` says. -/
theorem exec_stack (hrun : RunsStack wrap1 run) (hbody : bodyOf i.mnemonic i.operand = plainly (run body))
    (hwf : i.wellFormed s.cpu.p.m s.cpu.p.x = true)
    (hok : body (wrap1 s) (advance i s) = .ok () (((advance i s).withBus b).withCpu c))
    (hpage : wrap1 s = true → hiByte c.s = 0x01#8) :
    exec i s = .next (ended i s (s.withBus b) {} { c with s := stackEnd s.cpu c.s }) := by
  rw [← hrun.arm_advance i s] at hok hpage
  refine exec_eq_ended hwf ?_
  rw [hbody]
  exact plainly_ok (hrun.run_ok hok hpage)

/-! ### PHA, PHX, PHY, PHP, PHB, PHD, PHK (R243 to R249) -/

/-- After at least one push under the page-1 arm, `S` is in page 1. -/
theorem page1_pushOffset_length (hne : bytes ≠ []) (sp : Word) (hw : w = true) :
    hiByte (pushOffset w sp bytes.length) = 0x01#8 := by
  subst hw
  cases bytes with
  | nil => exact absurd rfl hne
  | cons v rest => exact hiByte_pushOffset_succ sp rest.length

/-- A body that pushes a list of bytes has the pushing effect of that list. -/
theorem pushingEffect_of {bytes : Cpu → List Byte} (hrun : RunsStack wrap1 run)
    (hbody : bodyOf i.mnemonic i.operand = plainly (run body)) (hwf : ∀ m x, i.wellFormed m x = true)
    (hpush : ∀ w s, body w (advance i s) = pushList w (bytes s.cpu) (advance i s)) (hne : ∀ c, bytes c ≠ []) :
    PushingEffect i wrap1 bytes := by
  intro s b h
  have hok := pushList_ok (s := advance i s) (wrap1 s) h
  rw [← hpush] at hok
  exact exec_stack hrun hbody (hwf _ _) hok fun hw => page1_pushOffset_length (hne s.cpu) s.cpu.s hw

/-- The bytes of a push at a register's width are its low byte, or both with the high byte first. -/
theorem pushData_width (n w : Bool) (v : Word) (s : State) : pushData (if n then .byte else .word) w v s =
    pushList w (if n then [loByte v] else [hiByte v, loByte v]) s := by
  rw [pushData_eq]
  cases n <;> rfl

theorem pushedBytes_ne_nil (n : Bool) (v : Word) : (if n then [loByte v] else [hiByte v, loByte v]) ≠ [] := by
  cases n <;> simp

/-- Settles O47: each body pushes a register at its width, one byte, or `D` at 16 bits. -/
theorem pushes : Obligations.Pushes := by
  unfold Obligations.Pushes
  refine ⟨?pha, ?phx, ?phy, ?php, ?phb, ?phd, ?phk⟩
  case pha | phx | phy =>
    exact pushingEffect_of runsStack_withStack rfl (fun _ _ => rfl) (fun _ _ => pushData_width _ _ _ _)
      fun _ => pushedBytes_ne_nil _ _
  case php | phb | phk =>
    exact pushingEffect_of runsStack_withStack rfl (fun _ _ => rfl) (fun _ _ => pushByte_eq _ _)
      fun _ => List.cons_ne_nil _ _
  case phd =>
    exact pushingEffect_of runsStack_withStackNew rfl (fun _ _ => rfl) (fun _ _ => pushWord_eq _ _)
      fun _ => List.cons_ne_nil _ _

/-! ### PLA, PLX, PLY, PLP, PLB, PLD (R250 to R255) -/

theorem bytes_width (n : Bool) : (if n then Width.byte else Width.word).bytes = if n then 1 else 2 := by
  cases n <;> rfl

/-- A pull of a width answers the bytes read, the first the less significant. -/
theorem pullData_ok (wd : Width) (h : s.bus.loadAll (pullReads w s.cpu.s wd.bytes) = some (bytes, b)) :
    pullData wd w s =
      .ok (wordOfBytes bytes) ((s.withBus b).withCpu { s.cpu with s := pullOffset w s.cpu.s wd.bytes }) := by
  rw [pullData_eq]
  cases wd <;> simp only [Width.bytes, pullList_ok w h]

/-- Pull a value of a width into the register file: what the bodies of the six pulls share. -/
def pullInto (width : Cpu → Width) (load : Cpu → Word → Cpu) (w : Bool) : BusM Unit := do
  let c ← getCpu
  let v ← pullData (width c) w
  modifyCpu (load · v)

theorem pullReg_eq (width : Cpu → Width) (load : Cpu → Word → Cpu) :
    pullReg width load = plainly (withStack (pullInto width load)) := rfl

/-- A one-byte pull is a pull at 8 bits of which the low byte is loaded. -/
theorem pullByteInto_eq (load : Cpu → Byte → Cpu) :
    pullByteInto load = plainly (withStack (pullInto (fun _ => .byte) fun c v => load c (loByte v))) := by
  have hbody : (fun w => do let v ← pullByte w; modifyCpu (load · v)) =
      pullInto (fun _ => .byte) fun c v => load c (loByte v) := by
    funext w s
    simp only [pullInto, pullData, run_bind, run_getCpu]
    cases pullByte w s <;> simp
  rw [pullByteInto, hbody]

/-- Under the page-1 arm pulls leave `S` in page 1. -/
theorem page1_pullOffset (sp : Word) (n : Nat) (hw : w = true) : hiByte (pullOffset w sp n) = 0x01#8 := by
  subst hw
  exact hiByte_pullOffset sp n

/-- A body that pulls into the register file has the pulling effect of its load, where the load keeps `S` and `PC`. -/
theorem pullingEffect_of {width : Cpu → Width} {n : Cpu → Nat} {load eff : Cpu → Word → Cpu}
    (hrun : RunsStack wrap1 run) (hbody : bodyOf i.mnemonic i.operand = plainly (run (pullInto width load)))
    (hwf : ∀ m x, i.wellFormed m x = true) (hn : ∀ c pc, (width { c with pc := pc }).bytes = n c)
    (hload : ∀ (s : State) sp pc v, (wrap1 s = true → hiByte sp = 0x01#8) →
      load { s.cpu with s := sp, pc := pc } v = { eff s.cpu v with s := sp, pc := pc }) :
    PullingEffect i wrap1 n eff := by
  intro s bytes b h
  have hpage := page1_pullOffset (w := wrap1 s) s.cpu.s (n s.cpu)
  have hpull : pullInto width load (wrap1 s) (advance i s) = .ok () (((advance i s).withBus b).withCpu
      { eff s.cpu (wordOfBytes bytes) with s := pullOffset (wrap1 s) s.cpu.s (n s.cpu), pc := nextPc i s.cpu.pc }) := by
    have hn := hn s.cpu (nextPc i s.cpu.pc)
    rw [← hn] at h hpage ⊢
    rw [← hload s _ _ _ hpage]
    exact run_bind_ok _ _ (pullData_ok (s := advance i s) _ h)
  exact exec_stack hrun hbody (hwf _ _) hpull hpage

/-- `UnpackP` forces `S` into page 1 in Emulation mode, and sees neither it nor `PC` otherwise (R18, R22). -/
theorem withStatusByte_stack (c : Cpu) (sp pc : Word) (b : Byte) :
    withStatusByte { c with s := sp, pc := pc } b = { withStatusByte c b with s := stackEnd c sp, pc := pc } := rfl

/-- The flags of a pulled byte are those of the value pulled at 8 bits. -/
theorem setNZ_loByte (p : Status) (v : Word) : p.setNZ .byte (zext16 (loByte v)) = withNZ p true v :=
  (setNZ_eq true p _).trans (withNZ_atWidth true p v)

/-- Settles O48: each body pulls at its width and loads: `AccWrite` or `IdxWrite` with `SetNZ`, `UnpackP`, or a copy. -/
theorem pulls : Obligations.Pulls := by
  unfold Obligations.Pulls
  refine ⟨?pla, ?plx, ?ply, ?plp, ?plb, ?pld⟩
  case pla =>
    exact pullingEffect_of runsStack_withStack (pullReg_eq _ _) (fun _ _ => rfl) (fun c _ => bytes_width c.p.m)
      fun _ _ _ _ _ => loadA_eq _ _
  case plx =>
    exact pullingEffect_of runsStack_withStack (pullReg_eq _ _) (fun _ _ => rfl) (fun c _ => bytes_width c.p.x)
      fun _ _ _ _ _ => loadX_eq _ _
  case ply =>
    exact pullingEffect_of runsStack_withStack (pullReg_eq _ _) (fun _ _ => rfl) (fun c _ => bytes_width c.p.x)
      fun _ _ _ _ _ => loadY_eq _ _
  case plp =>
    refine pullingEffect_of runsStack_withStack (pullByteInto_eq _) (fun _ _ => rfl) (fun _ _ => rfl)
      fun s sp pc v hpage => ?_
    rw [unpackP_eq, withStatusByte_stack, stackEnd_of_page1 hpage]
  case plb =>
    refine pullingEffect_of runsStack_withStack (pullByteInto_eq _) (fun _ _ => rfl) (fun _ _ => rfl)
      fun s sp pc v _ => ?_
    rw [setNZ_loByte]
  case pld =>
    refine pullingEffect_of (width := fun _ => .word) runsStack_withStackNew rfl (fun _ _ => rfl) (fun _ _ => rfl)
      fun s sp pc v _ => ?_
    rw [setNZ_word]

/-! ### PEA, PEI, PER (R256 to R258) -/

theorem dpPageWraps_iff : s.dpPageWraps = true ↔
    s.params.emuDpPageWrap = true ∧ s.cpu.e = true ∧ loByte s.cpu.d = 0x00#8 := by
  simp [State.dpPageWraps, and_assoc]

/-- The high byte of the pointer at `D + op8` is the next byte of bank 0, or of the page under R121. -/
theorem pointerHighOffset_directOffset (s : State) (o : Byte) : pointerHighOffset s (directOffset s o) =
    if s.params.emuDpPageWrap = true ∧ s.cpu.e = true ∧ loByte s.cpu.d = 0x00#8 then mkWord (hiByte s.cpu.d) (o + 1#8)
    else s.cpu.d + zext16 o + 1#16 := by
  simp only [← dpPageWraps_iff, pointerHighOffset]
  split
  next hw =>
    obtain ⟨-, -, hd⟩ := dpPageWraps_iff.1 hw
    rw [directOffset_of_page hd, loByte_mkWord]
  next => rfl

/-- PEI pushes the pointer it reads, high byte first, and does not follow it (R257). -/
theorem directPointer_pushWord_ok {o : Byte} {b' : Bus}
    (hread : s.bus.loadAll [bank0 (directOffset s o), bank0 (pointerHighOffset s (directOffset s o))] =
      some ([lo, hi], b))
    (hpush : b.storeAll (pushWrites w s.cpu.s 0 [hi, lo]) = some b') :
    (directPointer (directOffset s o) >>= pushWord w) s =
      .ok () ((s.withBus b').withCpu { s.cpu with s := pushOffset w s.cpu.s 2 }) := by
  rw [run_bind_ok s _ (directPointer_ok hread), pushWord_eq, hiByte_mkWord, loByte_mkWord]
  exact pushList_ok (s := s.withBus b) w hpush

/-- Settles O49: PEA and PER push a word computed without memory, PEI the pointer it reads first. -/
theorem pushEffectiveAddress : Obligations.PushEffectiveAddress := by
  unfold Obligations.PushEffectiveAddress
  refine ⟨fun v => ?pea, fun d => ?per, fun s o lo hi b b' hread hpush => ?pei⟩
  case pea | per =>
    exact pushingEffect_of runsStack_withStackNew rfl (fun _ _ => rfl) (fun _ _ => pushWord_eq _ _)
      fun _ => List.cons_ne_nil _ _
  case pei =>
    rw [← pointerHighOffset_directOffset] at hread
    exact exec_stack (i := .pei o) runsStack_withStackNew rfl rfl
      (directPointer_pushWord_ok (s := advance (.pei o) s) hread hpush)
      fun hw => page1_pushOffset_length (List.cons_ne_nil hi [lo]) s.cpu.s hw

end
end Sys2Proof.Machine
end

section
/-! # Block moves -/
namespace Sys2Proof.Machine

section
variable {s : State} {b b' : Bus} {dir : Word} {dst src v : Byte}

/-! ### The registers after one byte (R270) -/

theorem xWrite_eq (c : Cpu) (v : Word) : c.xWrite v = { c with x := indexValue c v } := by
  rw [Cpu.xWrite, Cpu.widthXY, trunc_eq_atWidth]
  rfl

theorem yWrite_eq (c : Cpu) (v : Word) : c.yWrite v = { c with y := indexValue c v } := by
  rw [Cpu.yWrite, Cpu.widthXY, trunc_eq_atWidth]
  rfl

/-- The count is exhausted after the decrement exactly if it was 0 before. -/
theorem sub_one_eq_max_iff (a : Word) : a - 1#16 = 0xFFFF#16 ↔ a = 0x0000#16 := by
  bv_omega

theorem blockStep_eq (c : Cpu) (dir : Word) : c.blockStep dir = { c with
    x := indexValue c (c.x + dir), y := indexValue c (c.y + dir), a := c.a - 1#16
    pc := if c.a = 0x0000#16 then c.pc else c.pc - 3#16 } := by
  simp only [Cpu.blockStep, xWrite_eq, yWrite_eq, sub_one_eq_max_iff]
  rfl

/-- A step from `PCn`, three bytes after the instruction, ends there or back on the instruction. -/
theorem blockStep_nextPc {i : Instr} (hlen : i.length = 3) (c : Cpu) (dst : Byte) (dir : Word) :
    ({ c with pc := nextPc i c.pc, db := dst } : Cpu).blockStep dir = { c with
      db := dst, x := indexValue c (c.x + dir), y := indexValue c (c.y + dir), a := c.a - 1#16
      pc := if c.a = 0x0000#16 then c.pc + 3#16 else c.pc } := by
  have hpc : nextPc i c.pc = c.pc + 3#16 := by rw [nextPc, hlen]
  rw [blockStep_eq, hpc, BitVec.add_sub_cancel]
  rfl

/-! ### One execution -/

/-- The body copies one byte under the new `DB`, then steps the registers. -/
theorem blockMove_ok (hload : s.bus.load (mkAddr src s.cpu.x) = some (v, b))
    (hstore : b.store (mkAddr dst s.cpu.y) v = some b') :
    blockMove dir dst src s = .ok {} ((s.withBus b').withCpu (({ s.cpu with db := dst } : Cpu).blockStep dir)) := by
  have hread := busRead_ok (s := s.withCpu { s.cpu with db := dst }) hload
  have hwrite := busWrite_ok (s := (s.withCpu { s.cpu with db := dst }).withBus b) hstore
  exact plainly_ok ((run_bind_ok _ _ (run_modifyCpu s _)).trans ((run_bind_ok _ _ (run_getCpu _)).trans
    ((run_bind_ok _ _ hread).trans (run_bind_ok _ _ hwrite))))

/-- A byte copied from one address to another changes no byte but the one written. -/
theorem peek_load_store {a a' : Address} (hload : s.bus.load a = some (v, b)) (hstore : b.store a' v = some b')
    (hwf : RegionsWf s.bus) {a₁ : Address} (ha : cellOf s.bus a₁ ≠ cellOf s.bus a') : b'.peek a₁ = s.bus.peek a₁ := by
  have hread : OnlyWrites [a'] s.bus b := onlyWrites_of_keeps _ (load_keeps hload)
  exact (hread.trans (onlyWrites_store hstore)).frame hwf a₁ (by simpa using ha)

/-- An instruction whose body is a block move has its effect. -/
theorem blockMoveEffect_of {mk : Byte → Byte → Instr}
    (hbody : ∀ dst src, bodyOf (mk dst src).mnemonic (mk dst src).operand = blockMove dir dst src)
    (hlen : ∀ dst src, (mk dst src).length = 3) (hwf : ∀ dst src m x, (mk dst src).wellFormed m x = true) :
    BlockMoveEffect mk dir := by
  intro s dst src v b b' hload hstore
  refine ⟨exec_eq_ended (hwf _ _ _ _) ?_, fun hregions a ha => peek_load_store hload hstore hregions ha⟩
  rw [hbody, ← blockStep_nextPc (hlen dst src)]
  exact blockMove_ok (s := advance (mk dst src) s) hload hstore

/-- Settles O50: both are the body of R270, `dir` up for MVN and down for MVP. -/
theorem blockMoves : Obligations.BlockMoves := by
  unfold Obligations.BlockMoves
  refine ⟨?mvn, ?mvp⟩ <;> exact blockMoveEffect_of (fun _ _ => rfl) (fun _ _ => rfl) fun _ _ _ _ => rfl

end
end Sys2Proof.Machine
end

section
/-! # Flags and modes -/
namespace Sys2Proof.Machine

/-! ### Flags (R280 to R288) -/

/-- Settles O51: the single-flag bodies assign their flag; REP and SEP are `UnpackP` of the masked status byte. -/
theorem flagInstructions : Obligations.FlagInstructions := by
  unfold Obligations.FlagInstructions
  refine ⟨?clc, ?sec, ?cli, ?sei, ?cld, ?sed, ?clv, fun v => ?rep, fun v => ?sep⟩ <;>
    refine registerEffect_of rfl (fun _ _ => rfl) fun c pc => ?_
  case clc | sec | cli | sei | cld | sed | clv => rfl
  case rep => exact unpackP_eq _ (c.p.pack &&& ~~~v)
  case sep => exact unpackP_eq _ (c.p.pack ||| v)

/-! ### XCE (R289) -/

/-- Settles O52: the body is `Normalize()` of the exchange, where the new `E` is the old `C`. -/
theorem exchangeCarryEmulation : Obligations.ExchangeCarryEmulation := by
  unfold Obligations.ExchangeCarryEmulation
  exact registerEffect_of rfl (fun _ _ => rfl) fun c pc =>
    normalize_eq { c with p := { c.p with c := c.e }, e := c.p.c, pc := pc }

end Sys2Proof.Machine
end

section
/-! # System instructions -/
namespace Sys2Proof.Machine

section
variable {s : State} {b b' : Bus} {p lo hi bank : Byte} {k : TrapKind} {ret : Word}

/-! ### BRK and COP (R300, R301) -/

theorem length_trapFrame (c : Cpu) (ret : Word) (p : Byte) : (trapFrame c ret p).length = if c.e then 3 else 4 := by
  unfold trapFrame
  split <;> rfl

/-- A frame leaves the stack pointer in page 1 in Emulation mode, so that its end is the offset after the last push. -/
theorem trapCpu_eq (c : Cpu) (target ret : Word) (p : Byte) : trapCpu c target = { c with
    p := { c.p with i := true, d := false }, pb := 0x00#8, pc := target
    s := pushOffset c.e c.s (trapFrame c ret p).length } := by
  have hne : trapFrame c ret p ≠ [] := by
    unfold trapFrame
    split <;> exact List.cons_ne_nil _ _
  rw [trapCpu, ← length_trapFrame c ret p, stackEnd_of_page1 (page1_pushOffset_length hne c.s)]

/-- `TrapEntry(k)` ends well where its frame can be pushed and its vector be read after that (R326). -/
theorem trapEntry_ok
    (hpush : s.bus.storeAll (pushWrites s.cpu.e s.cpu.s 0 (trapFrame s.cpu ret (k.pushedP s.cpu))) = some b)
    (hread : b.loadAll (byteAddresses .bank 2 (k.vector s.cpu.e)) = some ([lo, hi], b')) :
    trapEntry k ret s = .ok () ((s.withBus b').withCpu (trapCpu s.cpu (mkWord hi lo))) := by
  rw [trapEntry_eq, trapCpu_eq s.cpu _ ret (k.pushedP s.cpu), run_bind_ok s _ (pushList_ok _ hpush),
    run_bind_ok _ _ (run_modifyCpu _ _)]
  exact run_bind_ok _ _ (memRead16_ok (s := (s.withBus b).withCpu _) .bank hread)

/-- A software trap pushes the status byte as it is, in either mode (R326). -/
theorem pushedP_of_software (hk : k.isHardware = false) (c : Cpu) : k.pushedP c = c.p.pack := by
  rw [TrapKind.pushedP, hk, Bool.and_false, if_neg Bool.false_ne_true]

/-- A two-byte instruction whose body is a software trap has the effect of that trap. -/
theorem softwareTrapEffect_of {mk : Byte → Instr} (hk : k.isHardware = false)
    (hbody : ∀ sig, bodyOf (mk sig).mnemonic (mk sig).operand = softwareTrap k)
    (hlen : ∀ sig, (mk sig).length = 2) (hwf : ∀ sig m x, (mk sig).wellFormed m x = true) :
    SoftwareTrapEffect mk (k.vector false) (k.vector true) := by
  intro s sig lo hi b b' hpush hread
  have hpc : s.cpu.pc + 2#16 = (advance (mk sig) s).cpu.pc := by rw [advance_cpu, nextPc, hlen]
  have hvector : (if s.cpu.e then k.vector true else k.vector false) = k.vector s.cpu.e := by cases s.cpu.e <;> rfl
  rw [hpc, ← pushedP_of_software hk] at hpush
  rw [hvector] at hread
  refine exec_eq_ended (hwf _ _ _) ?_
  rw [hbody]
  exact plainly_ok ((run_bind_ok _ _ (run_getCpu _)).trans (trapEntry_ok (s := advance (mk sig) s) hpush hread))

/-- Settles O53: both bodies are `TrapEntry` with the offset after the signature byte. -/
theorem softwareTraps : Obligations.SoftwareTraps := by
  unfold Obligations.SoftwareTraps
  exact ⟨softwareTrapEffect_of (k := .brk) rfl (fun _ => rfl) (fun _ => rfl) fun _ _ _ => rfl,
    softwareTrapEffect_of (k := .cop) rfl (fun _ => rfl) (fun _ => rfl) fun _ _ _ => rfl⟩

/-! ### RTI (R302, R330) -/

/-- Reads of two lists that ended well ended well at the first, and at the second from there. -/
theorem of_loadAll_append {as as' : List Address} {vs : List Byte} (h : b.loadAll (as ++ as') = some (vs, b')) :
    ∃ us b₁ ws, b.loadAll as = some (us, b₁) ∧ b₁.loadAll as' = some (ws, b') ∧ vs = us ++ ws := by
  induction as generalizing b vs with
  | nil => exact ⟨[], b, vs, rfl, h, rfl⟩
  | cons a as ih =>
    obtain ⟨v, _, _, hload, hrest, rfl⟩ := of_loadAll_cons h
    obtain ⟨us, b₁, ws, has, has', rfl⟩ := ih hrest
    exact ⟨v :: us, b₁, ws, loadAll_cons_ok hload has, has', rfl⟩

theorem stackUp_pullOffset (w : Bool) (sp : Word) (n : Nat) :
    stackUp w (pullOffset w sp (n + 1)) = pullOffset w sp (n + 2) := by
  induction n generalizing sp with
  | zero => rw [pullOffset_succ, pullOffset_one, pullOffset_one]
  | succ n ih => rw [pullOffset_succ, ih, ← pullOffset_succ]

/-- Three pulls read a word and, where that left the stack pointer, a byte. -/
theorem pullReads_word_byte (w : Bool) (sp : Word) :
    pullReads w sp 3 = pullReads w sp 2 ++ [stackAddr (stackUp w (pullOffset w sp 2))] := by
  rw [stackUp_pullOffset]
  rfl

/-- What `TrapReturn()` does after the status: pull `PC`, and in Native mode `PB` (R330). -/
def pullReturn (e : Bool) : BusM Unit := do
  let pc ← pullWord e
  modifyCpu fun c => { c with pc := pc }
  if e then pure () else do
    let pb ← pullByte e
    modifyCpu fun c => { c with pb := pb }

theorem trapReturn_eq : trapReturn s =
    (pullByte s.cpu.e >>= fun p => modifyCpu (fun c => c.unpackP p) >>= fun _ => pullReturn s.cpu.e) s :=
  run_bind_ok s _ (run_getCpu s)

/-- `UnpackP` after a pull leaves the stack pointer where the pull did, in page 1 in Emulation mode (R18, R22). -/
theorem unpackP_stackUp (c : Cpu) (p : Byte) : ({ c with s := stackUp c.e c.s } : Cpu).unpackP p =
    { withStatusByte c p with s := stackUp c.e c.s } := by
  have hpage : c.e = true → hiByte (stackUp c.e c.s) = 0x01#8 := by
    rw [← pullOffset_one]
    exact page1_pullOffset c.s 1
  rw [unpackP_eq, withStatusByte_stack c _ c.pc, stackEnd_of_page1 hpage]
  rfl

/-- `TrapReturn()` unpacks the first byte it pulls, and pulls the rest from where that left the stack pointer. -/
theorem trapReturn_pulls {n : Nat} {rest : List Byte}
    (h : s.bus.loadAll (pullReads s.cpu.e s.cpu.s (n + 1)) = some (p :: rest, b)) :
    ∃ b₁, b₁.loadAll (pullReads s.cpu.e (stackUp s.cpu.e s.cpu.s) n) = some (rest, b) ∧
      trapReturn s = pullReturn s.cpu.e
        ((s.withBus b₁).withCpu { withStatusByte s.cpu p with s := stackUp s.cpu.e s.cpu.s }) := by
  rw [pullReads_succ] at h
  obtain ⟨_, b₁, _, hstatus, hrest, hbytes⟩ := of_loadAll_cons h
  cases hbytes
  refine ⟨b₁, hrest, ?_⟩
  rw [trapReturn_eq, run_bind_ok s _ (pullByte_ok _ hstatus), run_bind_ok _ _ (run_modifyCpu _ _), withCpu_withCpu,
    withCpu_cpu, unpackP_stackUp]

theorem pullReturn_emulation_ok (h : s.bus.loadAll (pullReads true s.cpu.s 2) = some ([lo, hi], b)) :
    pullReturn true s =
      .ok () ((s.withBus b).withCpu { s.cpu with s := pullOffset true s.cpu.s 2, pc := mkWord hi lo }) := by
  rw [pullReturn, run_bind_ok s _ (pullWord_ok h)]
  rfl

theorem pullReturn_native_ok (h : s.bus.loadAll (pullReads false s.cpu.s 3) = some ([lo, hi, bank], b)) :
    pullReturn false s = .ok () ((s.withBus b).withCpu
      { s.cpu with s := pullOffset false s.cpu.s 3, pc := mkWord hi lo, pb := bank }) := by
  rw [pullReads_word_byte] at h
  obtain ⟨us, b₁, ws, hword, hbyte, hbytes⟩ := of_loadAll_append h
  obtain ⟨rfl, rfl⟩ : us = [lo, hi] ∧ ws = [bank] :=
    List.append_inj (s₂ := [lo, hi]) hbytes.symm (loadAll_length hword)
  obtain ⟨_, _, _, hbank, hnil, hbytes⟩ := of_loadAll_cons hbyte
  obtain ⟨rfl, rfl⟩ := of_loadAll_nil hnil
  cases hbytes
  have hpull := pullByte_ok (s := (s.withBus b₁).withCpu
    { s.cpu with s := pullOffset false s.cpu.s 2, pc := mkWord hi lo }) false hbank
  rw [withCpu_cpu, stackUp_pullOffset] at hpull
  rw [pullReturn, run_bind_ok s _ (pullWord_ok hword), run_bind_ok _ _ (run_modifyCpu _ _)]
  exact run_bind_ok _ _ hpull

theorem trapReturn_emulation_ok (he : s.cpu.e = true)
    (h : s.bus.loadAll (pullReads true s.cpu.s 3) = some ([p, lo, hi], b)) :
    trapReturn s = .ok () ((s.withBus b).withCpu
      { withStatusByte s.cpu p with s := pullOffset true s.cpu.s 3, pc := mkWord hi lo }) := by
  rw [← he] at h
  obtain ⟨b₁, hrest, hreturn⟩ := trapReturn_pulls h
  rw [hreturn, pullOffset_succ]
  rw [he] at hrest ⊢
  exact pullReturn_emulation_ok (s := (s.withBus b₁).withCpu _) hrest

theorem trapReturn_native_ok (he : s.cpu.e = false)
    (h : s.bus.loadAll (pullReads false s.cpu.s 4) = some ([p, lo, hi, bank], b)) :
    trapReturn s = .ok () ((s.withBus b).withCpu
      { withStatusByte s.cpu p with s := pullOffset false s.cpu.s 4, pc := mkWord hi lo, pb := bank }) := by
  rw [← he] at h
  obtain ⟨b₁, hrest, hreturn⟩ := trapReturn_pulls h
  rw [hreturn, pullOffset_succ]
  rw [he] at hrest ⊢
  exact pullReturn_native_ok (s := (s.withBus b₁).withCpu _) hrest

/-- Settles O54: RTI is `TrapReturn()`, which pulls the program bank in Native mode only. -/
theorem returnFromInterrupt : Obligations.ReturnFromInterrupt := by
  unfold Obligations.ReturnFromInterrupt
  refine ⟨fun s p lo hi bank b he h => ?native, fun s p lo hi b he h => ?emulation⟩ <;> refine exec_eq_ended rfl ?_
  case native => exact plainly_ok (trapReturn_native_ok (s := advance .rti s) he h)
  case emulation => exact plainly_ok (trapReturn_emulation_ok (s := advance .rti s) he h)

/-! ### WAI, STP, WDM and NOP (R303 to R306) -/

theorem run_wdm_of_abortOpcode (h : s.params.abortOpcode = 0x42#8) :
    wdm s = .ok noFacts { s with abortCause := .abortInstruction } :=
  if_pos h

/-- Settles O56: each body sets its latch and leaves the registers as `PCn` found them. -/
theorem haltsAndNop : Obligations.HaltsAndNop := by
  unfold Obligations.HaltsAndNop
  refine ⟨fun s => ?wai, fun s => ?stp, fun s v h => ?wdm, fun s => ?nop⟩
  case wai => exact exec_ok (i := .wai) (s := s) rfl rfl
  case stp => exact exec_ok (i := .stp) (s := s) rfl rfl
  case wdm => exact exec_ok (i := .wdm v) (s := s) rfl (run_wdm_of_abortOpcode (s := advance (.wdm v) s) h)
  case nop => exact exec_eq_ended rfl rfl

end
end Sys2Proof.Machine
end

section
/-! # Latched aborts, idle steps, `WidthMismatch` and interrupts -/
namespace Sys2Proof.Machine

section
variable {s t start : State} {i : Instr} {k : TrapKind} {nmi : Bool}

/-! ### A latched abort, and a wait without a request (R84, R303, R324) -/

theorem step_of_latched (h : s.abortCause ≠ .noAbort) : step s = .next s := if_neg h

/-- The result pair of a step that was not refused is its recorded cost and whether a cause is latched now. -/
theorem stepResult_of_step (hrun : s.abortCause = .noAbort) (h : step s = .next t) :
    stepResult s = some (t.cyclesLast, t.abortCause != .noAbort) := by
  rw [stepResult, if_pos hrun, h]

theorem checkInterrupts_of_no_request
    (h : s.params.hasInterruptInputs = false ∨ s.nmiPending = false ∧ s.irqLine = false) :
    checkInterrupts s = .goOn s := by
  unfold checkInterrupts
  rcases h with hin | ⟨hnmi, hirq⟩
  · simp [hin]
  · simp [hnmi, hirq]

theorem step_of_idle (hrun : s.abortCause = .noAbort) (hwait : s.waiting = true)
    (h : s.params.hasInterruptInputs = false ∨ s.nmiPending = false ∧ s.irqLine = false) :
    step s = .next (idleStep s) := by
  simp only [step, stepSession, hrun, if_true, checkInterrupts_of_no_request h, hwait]

/-- Settles O8. -/
theorem latchedAndIdleSteps : Obligations.LatchedAndIdleSteps := by
  unfold Obligations.LatchedAndIdleSteps
  refine ⟨fun s h => ⟨step_of_latched h, if_neg h⟩, fun s hrun hwait h => ?_⟩
  have hstep := step_of_idle hrun hwait h
  have hcause : (idleStep s).abortCause = .noAbort := hrun
  refine ⟨hstep, ?_⟩
  rw [stepResult_of_step hrun hstep, hcause]
  rfl

/-! ### `WidthMismatch` (R323) -/

/-- A decoded instruction is well-formed, so that it does not latch `WidthMismatch`. -/
theorem execDecoded_not_widthMismatch (hw : i.wellFormed s.cpu.p.m s.cpu.p.x = true)
    (hs : s.abortCause ≠ .widthMismatch) (h : execDecoded i s = .next t) : t.abortCause ≠ .widthMismatch := by
  rw [execDecoded_eq] at h
  rcases perform_cases i (if i.opcode = s.params.abortOpcode then abortBody else bodyOf i.mnemonic i.operand) s with
    ⟨f, u, -, hb, he⟩ | ⟨e, u, -, -, he⟩ | ⟨hw', -⟩
  · rw [he] at h
    cases h
    split at hb
    · cases hb
      exact nofun
    · rw [charge_abortCause, abortCause_of_latch (body_ok_latch hb)]
      split_ifs
      · exact nofun
      · exact nofun
      · exact hs
  · rw [he] at h
    cases h
    exact nofun
  · rw [hw] at hw'
    cases hw'

theorem step_not_widthMismatch (hrun : s.abortCause = .noAbort) (h : step s = .next t) :
    t.abortCause ≠ .widthMismatch := by
  have hs : s.abortCause ≠ .widthMismatch := by rw [hrun]; exact nofun
  rcases step_cases hrun h with ⟨k, s', ⟨_, _, rfl⟩, h'⟩ | rfl | ⟨s', ⟨_, _, rfl⟩, h'⟩
  · rcases takeInterrupt_cases h' with ⟨u, hu, rfl⟩ | ⟨e, u, -, rfl⟩
    · rw [charge_abortCause, ((trapEntry_quiet _ _).ok hu).abortCause]
      exact hs
    · exact nofun
  · exact hs
  · rcases runInstruction_cases h' with ⟨e, u, -, rfl⟩ | ⟨bytes, u, i, rest, v, hu, hi, hv, rfl | ⟨a, d, rfl⟩⟩
    · exact nofun
    · refine execDecoded_not_widthMismatch (decode_wellFormed hi) ?_ hv
      rw [(fetchBytes_quiet.ok hu).abortCause]
      exact hs
    · exact nofun

theorem exec_of_not_wellFormed (h : i.wellFormed s.cpu.p.m s.cpu.p.x = false) :
    exec i s = .next (s.rollback s .widthMismatch) := by
  rw [exec_eq_perform, perform, h]
  rfl

/-- Settles O14: a step executes decoded instructions only, which are well-formed. -/
theorem widthMismatch : Obligations.WidthMismatch := by
  unfold Obligations.WidthMismatch
  refine ⟨fun s t h ht => ?_, fun s i h => exec_of_not_wellFormed h⟩
  by_cases hrun : s.abortCause = .noAbort
  · exact absurd ht (step_not_widthMismatch hrun h)
  · rw [step_of_latched hrun] at h
    cases h
    exact ht

/-! ### Taking an interrupt (R326, R328) -/

/-- The interrupt a step takes. -/
def interruptKind (nmi : Bool) : TrapKind := if nmi then .nmi else .irq

/-- A taken interrupt ends the wait and clears `nmi_pending`, which was clear already for an IRQ. -/
theorem step_of_interruptTaken (h : InterruptTaken s nmi) :
    step s = takeInterrupt (interruptKind nmi) s { s with waiting := false, nmiPending := false } := by
  obtain ⟨hrun, hin, hreq⟩ := h
  simp only [step, stepSession, hrun, if_true, checkInterrupts, hin]
  rcases hreq with ⟨rfl, hnmi⟩ | ⟨rfl, hnmi, hirq, hi⟩
  · simp only [hnmi]
    rfl
  · simp [hnmi, hirq, hi, interruptKind]

/-- The status byte a hardware interrupt pushes has bit 4 clear in Emulation mode. -/
theorem pushedP_interruptKind (nmi : Bool) (c : Cpu) :
    (interruptKind nmi).pushedP c = if c.e then c.p.pack &&& 0xEF#8 else c.p.pack := by
  cases nmi <;> simp [interruptKind, TrapKind.pushedP, TrapKind.isHardware]

theorem vector_interruptKind (nmi e : Bool) : (interruptKind nmi).vector e =
    if nmi then (if e then 0x00FFFA#24 else 0x00FFEA#24) else (if e then 0x00FFFE#24 else 0x00FFEE#24) := by
  cases nmi <;> cases e <;> rfl

theorem charge_unbounded (h : s.params.counterWidth = none) (n : Nat) :
    s.charge n = { s with cyclesLast := n, cyclesTotal := s.cyclesTotal + n } := by
  rw [State.charge, h]
  rfl

theorem takeInterrupt_ok {c : Cpu} {b : Bus}
    (h : trapEntry k s.cpu.pc s.notePc = .ok () ((s.notePc.withBus b).withCpu c)) :
    takeInterrupt k start s =
      .next (((s.notePc.withBus b).withCpu c).charge (interruptCost s.params.cycleCost s.cpu.e)) := by
  have hpc : s.notePc.cpu.pc = s.cpu.pc := rfl
  simp only [takeInterrupt, hpc, h]
  rfl

/-! ### A masked IRQ (R328) -/

theorem step_of_masked (hrun : s.abortCause = .noAbort) (hnmi : s.nmiPending = false) (hirq : s.irqLine = true)
    (hi : s.cpu.p.i = true) (hin : s.params.hasInterruptInputs = true) :
    step s = runInstruction s { s with waiting := false } := by
  simp [step, stepSession, checkInterrupts, hrun, hnmi, hirq, hi, hin]

theorem runInstruction_of_decode {bytes rest : List Byte} (hfetch : fetchBytes s.notePc = .ok bytes t)
    (hdec : decode t.cpu.p.m t.cpu.p.x bytes = some (i, rest)) :
    runInstruction start s = settle start (execDecoded i t) := by
  simp only [runInstruction, hfetch, hdec]

/-- Where a step started matters only to the rollback of a bus failure. -/
theorem runInstruction_start (h : runInstruction start s = .next t) (ht : ¬ BusFailed t) (start' : State) :
    runInstruction start' s = .next t := by
  rcases runInstruction_cases h with ⟨e, u, -, rfl⟩ | ⟨bytes, u, i, rest, v, hu, hi, hv, rfl | ⟨a, d, rfl⟩⟩
  · exact absurd ⟨e.addr, e.dir, rfl⟩ ht
  · rw [runInstruction_of_decode hu hi, hv, settle_next fun a d hc => ht ⟨a, d, hc⟩]
  · exact absurd ⟨a, d, rfl⟩ ht

/-- Settles O16: a taken interrupt is its trap entry, and a masked one lets the instruction run. -/
theorem interruptsAreTaken : Obligations.InterruptsAreTaken := by
  unfold Obligations.InterruptsAreTaken
  refine ⟨fun s nmi b b' lo hi hrun hin hcost hwidth hreq hpush hread => ?_,
    fun s t hrun hnmi hirq hi hin h ht => ?_⟩
  · rw [← pushedP_interruptKind nmi] at hpush
    rw [← vector_interruptKind] at hread
    have hentry := trapEntry_ok (s := State.notePc { s with waiting := false, nmiPending := false }) hpush hread
    rw [step_of_interruptTaken ⟨hrun, hin, hreq⟩, takeInterrupt_ok hentry, charge_unbounded]
    · simp only [hcost]
      rfl
    · exact hwidth
  · rw [step_of_masked (s := { s with waiting := false }) hrun hnmi hirq hi hin] at h
    rw [step_of_masked hrun hnmi hirq hi hin]
    exact runInstruction_start h ht s

end
end Sys2Proof.Machine
end

section
/-! # A return from interrupt undoes its trap -/
namespace Sys2Proof.Machine

section
variable {s : State} {b b' : Bus} {bytes : List Byte}

/-- On a fully mapped bus every read is answered. -/
theorem loadAll_of_mapped (h : FullyMapped b) (as : List Address) :
    ∃ bytes b', b.loadAll as = some (bytes, b') := by
  induction as generalizing b with
  | nil => exact ⟨[], b, rfl⟩
  | cons a as ih =>
    obtain ⟨⟨v, b₁⟩, hload⟩ := Option.isSome_iff_exists.1 (load_isSome.trans (h a))
    obtain ⟨hregions, htable, -⟩ := load_keeps hload
    have hmapped : FullyMapped b₁ := fun a' => by
      rw [Bus.mapped, regionAt_congr hregions htable]
      exact h a'
    obtain ⟨bytes, b', hrest⟩ := ih hmapped
    exact ⟨v :: bytes, b', loadAll_cons_ok hload hrest⟩

/-- On a fully mapped bus a vector or pointer is read. -/
theorem loadAll_two_of_mapped (h : FullyMapped b) (a a' : Address) :
    ∃ lo hi b', b.loadAll [a, a'] = some ([lo, hi], b') := by
  obtain ⟨bytes, b', hload⟩ := loadAll_of_mapped h [a, a']
  obtain ⟨lo, hi, rfl⟩ := List.length_eq_two.1 (loadAll_length hload)
  exact ⟨lo, hi, b', hload⟩

/-- Bytes pushed on a ready stack are pulled back, the last one first, also after reads of other addresses. -/
theorem pulls_after_pushes (hpage : s.cpu.e = true → hiByte s.cpu.s = 0x01#8) (h : StackReady s bytes.length)
    (hpush : s.bus.storeAll (pushWrites s.cpu.e s.cpu.s 0 bytes) = some b) (hkeep : KeepsMemory b b') :
    ∃ b'', b'.loadAll (pullReads s.cpu.e (pushOffset s.cpu.e s.cpu.s bytes.length) bytes.length) =
      some (bytes.reverse, b'') := by
  obtain ⟨hram, hcells⟩ := stackAddresses_of_ready h
  rw [← map_fst_pushWrites] at hram hcells
  obtain ⟨hwf, -⟩ := h
  obtain ⟨-, -, hpeek⟩ := hkeep
  have hstands := peek_storeAll hwf (fun p hp => hram p.1 (List.mem_map_of_mem hp)) hcells hpush
  obtain ⟨b'', hpull⟩ := loadAll_of_peek fun p hp => (hpeek p.1).trans (hstands p (List.mem_reverse.1 hp))
  refine ⟨b'', ?_⟩
  rwa [List.map_reverse, List.map_reverse, map_fst_pushWrites, map_snd_pushWrites,
    ← pullReads_pushOffset hpage] at hpull

/-- Where the mode invariants hold, unpacking the packed status changes nothing. -/
theorem withStatusByte_pack {c : Cpu} (h : ModeInv c) : withStatusByte c c.p.pack = c := by
  rw [← unpackP_eq, Cpu.unpackP, unpack_pack, normalize_of_modeInv h]

/-- RTI restores the registers a trap saved: the status from its byte, `S` by as many pulls as pushes. -/
theorem withStatusByte_trapCpu {c : Cpu} (h : ModeInv c) (target pc : Word) (pb : Byte) :
    { withStatusByte (trapCpu c target) c.p.pack with s := c.s, pc := pc, pb := pb } =
      { c with pc := pc, pb := pb } := by
  have hsame : { withStatusByte (trapCpu c target) c.p.pack with s := c.s, pc := pc, pb := pb } =
      { withStatusByte c c.p.pack with s := c.s, pc := pc, pb := pb } := rfl
  rw [hsame, withStatusByte_pack h]

/-- From a ready stack on a fully mapped bus a software trap is taken, and the pulls of a return read its frame back. -/
theorem trap_then_pulls {mk : Byte → Instr} {native emulation : Address}
    (htrap : SoftwareTrapEffect mk native emulation) (sig : Byte) {n : Nat} (hn : n = if s.cpu.e then 3 else 4)
    (hinv : ModeInv s.cpu) (hmapped : FullyMapped s.bus) (hready : StackReady s n) :
    ∃ target b b', exec (mk sig) s = .next (ended (mk sig) s (s.withBus b) {} (trapCpu s.cpu target)) ∧
      pullOffset s.cpu.e (trapCpu s.cpu target).s n = s.cpu.s ∧
      b.loadAll (pullReads s.cpu.e (trapCpu s.cpu target).s n) =
        some ((trapFrame s.cpu (s.cpu.pc + 2#16) s.cpu.p.pack).reverse, b') := by
  rw [← length_trapFrame s.cpu (s.cpu.pc + 2#16) s.cpu.p.pack] at hn
  subst hn
  have hpage := stack_page1 hinv
  obtain ⟨b, hpush⟩ := storeAll_isSome (b := s.bus)
    (ws := pushWrites s.cpu.e s.cpu.s 0 (trapFrame s.cpu (s.cpu.pc + 2#16) s.cpu.p.pack)) fun p _ => hmapped p.1
  obtain ⟨-, -, -, -, -, hsame⟩ := storeAll_keeps_shape hpush
  obtain ⟨lo, hi, b', hread⟩ := loadAll_two_of_mapped (fun a => (hsame a).trans (hmapped a)) _ _
  obtain ⟨b'', hpull⟩ := pulls_after_pushes hpage hready hpush (loadAll_keeps hread)
  refine ⟨mkWord hi lo, b', b'', htrap s sig lo hi b b' hpush hread, ?_⟩
  rw [trapCpu_eq s.cpu _ (s.cpu.pc + 2#16) s.cpu.p.pack]
  exact ⟨pullOffset_pushOffset hpage _, hpull⟩

/-- RTI in the state a software trap left restores the registers of before it. -/
theorem rti_undoes_trap {mk : Byte → Instr} {native emulation : Address}
    (htrap : SoftwareTrapEffect mk native emulation) (sig : Byte) (hinv : ModeInv s.cpu) (hmapped : FullyMapped s.bus)
    (hready : StackReady s (if s.cpu.e then 3 else 4)) :
    ∃ t u, exec (mk sig) s = .next t ∧ t.cpu.pb = 0x00#8 ∧ t.cpu.p.i = true ∧ t.cpu.p.d = false ∧
      exec .rti t = .next u ∧ u.abortCause = s.abortCause ∧
      u.cpu = { s.cpu with pc := s.cpu.pc + 2#16, pb := if s.cpu.e then 0x00#8 else s.cpu.pb } := by
  obtain ⟨hnative, hemulation⟩ := returnFromInterrupt
  obtain ⟨target, b, b', hentry, hstack, hpull⟩ := trap_then_pulls htrap sig rfl hinv hmapped hready
  cases he : s.cpu.e with
  | false =>
    simp only [trapFrame, he, Bool.false_eq_true, if_false] at hpull hstack
    refine ⟨_, _, hentry, rfl, rfl, rfl, hnative _ _ _ _ _ b' he hpull, rfl, ?_⟩
    show { withStatusByte (trapCpu s.cpu target) s.cpu.p.pack with
      s := pullOffset false (trapCpu s.cpu target).s 4
      pc := mkWord (hiByte (s.cpu.pc + 2#16)) (loByte (s.cpu.pc + 2#16)), pb := s.cpu.pb } = _
    rw [hstack, mkWord_hiByte_loByte, withStatusByte_trapCpu hinv]
    rfl
  | true =>
    simp only [trapFrame, he, if_true] at hpull hstack
    refine ⟨_, _, hentry, rfl, rfl, rfl, hemulation _ _ _ _ b' he hpull, rfl, ?_⟩
    show { withStatusByte (trapCpu s.cpu target) s.cpu.p.pack with
      s := pullOffset true (trapCpu s.cpu target).s 3
      pc := mkWord (hiByte (s.cpu.pc + 2#16)) (loByte (s.cpu.pc + 2#16)), pb := 0x00#8 } = _
    rw [hstack, mkWord_hiByte_loByte, withStatusByte_trapCpu hinv]
    rfl

/-- Settles O55: RTI pulls the frame of the trap, last byte first. -/
theorem returnUndoesTrap : Obligations.ReturnUndoesTrap := by
  unfold Obligations.ReturnUndoesTrap
  obtain ⟨hbrk, hcop⟩ := softwareTraps
  rintro s i sig (rfl | rfl) hinv hmapped hready
  · exact rti_undoes_trap hbrk sig hinv hmapped hready
  · exact rti_undoes_trap hcop sig hinv hmapped hready

end
end Sys2Proof.Machine
end

section
/-! # A step that fails on the bus (R49, R322) -/
namespace Sys2Proof.Machine

section
variable {α : Type} {s t u v start : State} {i : Instr} {e : BusFailure} {a : Address} {d : Direction} {k : TrapKind}

/-! ### Failed accesses -/

/-- From `s` an access failed, which left `t`: its address was unmapped at the start already, and it is the last access
recorded. -/
structure AccessFailed (s t : State) (e : BusFailure) : Prop where
  unmapped : s.bus.regionAt e.addr = none
  lastAddr : t.bus.lastAddr = e.addr
  lastDir  : t.bus.lastDir = e.dir
  log      : s.bus.callbackLog <:+ t.bus.callbackLog
  irqLine  : t.irqLine = s.irqLine
  prevPc   : t.prevPc = s.prevPc

/-- Which addresses are unmapped depends only on the segment table and the number of regions. -/
theorem unmapped_of_quiet (h : Quiet s t) (hn : t.bus.regionAt a = none) : s.bus.regionAt a = none := by
  simpa only [regionAt_eq_none, Bus.regionNumber, h.table, List.getElem?_eq_none_iff, h.len] using hn

theorem AccessFailed.after (h : AccessFailed t u e) (hq : Quiet s t) : AccessFailed s u e where
  unmapped := unmapped_of_quiet hq h.unmapped
  lastAddr := h.lastAddr
  lastDir := h.lastDir
  log := hq.log.trans h.log
  irqLine := h.irqLine.trans hq.irq
  prevPc := h.prevPc.trans hq.prevPc

/-- The computation changes nothing but registers and memory, and fails only at an access of an unmapped address. -/
structure FailsAtAccess (m : BusM α) : Prop where
  quiet  : Carries Quiet m
  failed : ∀ s t e, m s = .error e t → AccessFailed s t e

theorem failsAtAccess_closed : BodyClosed fun _ m => FailsAtAccess m where
  pure _ v := ⟨quietRel.closed.pure _ v, fun _ _ _ h => by cases h⟩
  bind _ _ m f hm hf := by
    refine ⟨quietRel.closed.seq hm.quiet fun v => (hf v).quiet, fun s t e h => ?_⟩
    rcases of_bind_error s h with hfirst | ⟨v, u, hfirst, hsecond⟩
    · exact hm.failed s t e hfirst
    · exact ((hf v).failed u t e hsecond).after (hm.quiet.ok hfirst)
  state _ _ h := ⟨quietRel.closed.state _ _ fun s => (h s).quiet, fun s => (h s).failed s⟩
  getCpu := ⟨quietRel.closed.getCpu, fun _ _ _ h => by cases h⟩
  busRead a := by
    refine ⟨quietRel.closed.busRead a, fun s t e h => ?_⟩
    obtain ⟨rfl, hn, rfl⟩ := of_busRead_error h
    exact ⟨hn, rfl, rfl, List.suffix_refl _, rfl, rfl⟩
  busWrite a v := by
    refine ⟨quietRel.closed.busWrite a v, fun s t e h => ?_⟩
    obtain ⟨rfl, hn, rfl⟩ := of_busWrite_error h
    exact ⟨hn, rfl, rfl, List.suffix_refl _, rfl, rfl⟩
  modifyCpu g := ⟨carries_modifyCpu fun s => quietCpu s (g s.cpu), fun _ _ _ h => by cases h⟩

theorem fetchBytes_failed (h : fetchBytes s = .error e t) : AccessFailed s t e :=
  failsAtAccess_closed.toReadClosed.fetchBytes.failed s t e h

theorem trapEntry_failed {ret : Word} (h : trapEntry k ret s = .error e t) : AccessFailed s t e := by
  have hc := failsAtAccess_closed
  exact (hc.trapEntry (fun _ => hc.modifyCpu _) (hc.modifyCpu _) (fun _ => hc.modifyCpu _) k ret).failed s t e h

/-- The three bodies that set latches access no memory. -/
theorem mnemonic_of_body_error (h : bodyOf i.mnemonic i.operand s = .error e t) :
    i.mnemonic ≠ .wai ∧ i.mnemonic ≠ .stp ∧ i.mnemonic ≠ .wdm := by
  refine ⟨fun hm => ?_, fun hm => ?_, fun hm => ?_⟩ <;> rw [hm] at h
  · cases h
  · cases h
  · change wdm s = _ at h
    unfold wdm at h
    split at h <;> cases h

theorem body_failed (h : bodyOf i.mnemonic i.operand s = .error e t) : AccessFailed s t e :=
  (failsAtAccess_closed.body i.mnemonic i.operand (mnemonic_of_body_error h)).failed s t e h

/-! ### The failed instruction -/

/-- An instruction that ends with a bus failure ends with the rollback of an access its body failed at. -/
theorem perform_failed {body : BusM CostFacts}
    (hok : ∀ f u, body (advance i s) = .ok f u → u.abortCause ≠ .busUnmapped a d) (h : perform i body s = .next t)
    (ht : t.abortCause = .busUnmapped a d) :
    ∃ u, body (advance i s) = .error ⟨a, d⟩ u ∧ t = u.rollback s (.busUnmapped a d) := by
  rcases perform_cases i body s with ⟨f, u, -, hb, he⟩ | ⟨e, u, -, hb, he⟩ | ⟨-, he⟩ <;> rw [he] at h <;> cases h
  · exact absurd ht (hok f u hb)
  · cases ht
    exact ⟨u, hb, rfl⟩
  · cases ht

theorem exec_failed (hrun : s.abortCause = .noAbort) (h : exec i s = .next t)
    (ht : t.abortCause = .busUnmapped a d) :
    ∃ u, bodyOf i.mnemonic i.operand (advance i s) = .error ⟨a, d⟩ u ∧ t = u.rollback s (.busUnmapped a d) := by
  rw [exec_eq_perform] at h
  exact perform_failed (fun _ _ hb => not_busUnmapped_of_latch (body_ok_latch hb) hrun a d) h ht

theorem execDecoded_failed (hrun : s.abortCause = .noAbort) (h : execDecoded i s = .next t)
    (ht : t.abortCause = .busUnmapped a d) :
    ∃ u, AccessFailed s u ⟨a, d⟩ ∧ t = u.rollback s (.busUnmapped a d) := by
  by_cases hop : i.opcode = s.params.abortOpcode
  · rw [execDecoded_of_eq hop] at h
    obtain ⟨u, hb, -⟩ := perform_failed (fun _ _ hb => by cases hb; exact nofun) h ht
    cases hb
  · rw [execDecoded_of_ne hop] at h
    obtain ⟨u, hb, rfl⟩ := exec_failed hrun h ht
    have hfailed : AccessFailed (advance i s) u ⟨a, d⟩ := body_failed hb
    exact ⟨u, hfailed.after (quietCpu s _), rfl⟩

/-! ### The failed step -/

theorem settle_failed (h : settle start (.next v) = .next t) (ht : t.abortCause = .busUnmapped a d) :
    v.abortCause = .busUnmapped a d ∧ t = v.rollback start (.busUnmapped a d) := by
  by_cases hv : ∃ a d, v.abortCause = .busUnmapped a d
  · obtain ⟨a', d', hv⟩ := hv
    rw [settle_busUnmapped hv] at h
    cases h
    cases ht
    exact ⟨hv, rfl⟩
  · rw [settle_next fun a d hc => hv ⟨a, d, hc⟩] at h
    cases h
    exact absurd ⟨a, d, ht⟩ hv

theorem runInstruction_failed (hrun : s.abortCause = .noAbort) (h : runInstruction start s = .next t)
    (ht : t.abortCause = .busUnmapped a d) :
    ∃ u, AccessFailed s.notePc u ⟨a, d⟩ ∧ t = u.rollback start (.busUnmapped a d) := by
  rcases runInstruction_cases h with ⟨e, u, hu, rfl⟩ | ⟨bytes, u, i, rest, v, hu, hi, hv, -⟩
  · cases ht
    exact ⟨u, fetchBytes_failed hu, rfl⟩
  · have hq := fetchBytes_quiet.ok hu
    have hrun' : u.abortCause = .noAbort := hq.abortCause.trans hrun
    rw [runInstruction_of_decode hu hi, hv] at h
    obtain ⟨hcause, rfl⟩ := settle_failed h ht
    obtain ⟨w, hw, rfl⟩ := execDecoded_failed hrun' hv hcause
    exact ⟨w, hw.after hq, rollback_rollback _ _ _ _ _⟩

/-- A step fails on the bus in its interrupt entry, its fetch or its instruction: always at one access, after which the
state of the start of the step is put back. -/
theorem step_failed (hrun : s.abortCause = .noAbort) (h : step s = .next t) (ht : t.abortCause = .busUnmapped a d) :
    ∃ u, AccessFailed s.notePc u ⟨a, d⟩ ∧ t = u.rollback s (.busUnmapped a d) := by
  rcases step_cases hrun h with ⟨k, s', ⟨nmi, wait, rfl⟩, h'⟩ | rfl | ⟨s', ⟨nmi, wait, rfl⟩, h'⟩
  · rcases takeInterrupt_cases h' with ⟨u, hu, rfl⟩ | ⟨e, u, hu, rfl⟩
    · rw [charge_abortCause, ((trapEntry_quiet _ _).ok hu).abortCause] at ht
      cases hrun.symm.trans ht
    · cases ht
      obtain ⟨hn, haddr, hdir, hlog, hirq, hprev⟩ := trapEntry_failed hu
      exact ⟨u, ⟨hn, haddr, hdir, hlog, hirq, hprev⟩, rfl⟩
  · cases hrun.symm.trans ht
  · obtain ⟨u, ⟨hn, haddr, hdir, hlog, hirq, hprev⟩, ht⟩ :=
      runInstruction_failed (s := { s with nmiPending := nmi, waiting := wait }) hrun h' ht
    exact ⟨u, ⟨hn, haddr, hdir, hlog, hirq, hprev⟩, ht⟩

end
end Sys2Proof.Machine
end

section
/-! # Where an instruction or an interrupt entry fails (R322) -/
namespace Sys2Proof.Machine

section
variable {α : Type} {s : State} {i : Instr} {b : Bus} {a : Address} {d : Direction} {v : Byte} {nmi : Bool}
  {wrap1 : State → Bool} {k : TrapKind}

/-! ### Stores and read-modify-writes (R173 to R176, R152) -/

/-- The bytes of a value at a width do not depend on what lies above the width. -/
theorem dataBytes_trunc (n : Bool) (v : Word) :
    dataBytes n ((if n then Width.byte else Width.word).trunc v) = dataBytes n v := by
  rw [trunc_eq_atWidth, dataBytes_atWidth]

/-- A store that resolves its operand fails in its writes, the less significant byte first. -/
theorem storingFailure_of {mn : Mnemonic} {narrow : Cpu → Bool} {width : Cpu → Width} {value value' : Cpu → Word}
    (hb : bodyOf mn = onMem (fun m => storeOperand width m value))
    (hw : ∀ c pc, width { c with pc := pc } = if narrow c then .byte else .word)
    (hv : ∀ c pc, dataBytes (narrow c) (value { c with pc := pc }) = dataBytes (narrow c) (value' c)) :
    StoringFailure mn narrow value' := by
  intro i m s r b hm ho hr k a v b' hk hs hn
  have hwidth : (width (advance i s).cpu == .byte) = narrow s.cpu := by
    rw [advance_cpu, hw, width_beq_byte]
  rw [← hv s.cpu (nextPc i s.cpu.pc), ← hwidth] at hk hs
  refine failsOn_of (wf_of_mem ho _ _) ?_
  rw [hm, hb, onMem, ho]
  refine breaks_getCpu (breaks_after (c := (advance i s).cpu) hr (breaks_bind ?_))
  exact writeData_breaks (s := (advance i s).withBus b) hk hs hn

/-- The bodies of the read-modify-writes. -/
theorem body_of_modifier {mn : Mnemonic} (h : mn ∈ modifiers) : ∃ f, bodyOf mn = onRmw f := by
  cases mn with
  | inc | dec | asl | lsr | rol | ror | tsb | trb => exact ⟨_, rfl⟩
  | _ => exact absurd h (by decide)

theorem body_of_modifier_mem {mn : Mnemonic} {o : Operand} {m : MemOperand} (h : mn ∈ modifiers)
    (ho : memOperand o = some m) : ∃ f, bodyOf mn o = modifyOperand (.mem m) f := by
  obtain ⟨f, hf⟩ := body_of_modifier h
  exact ⟨f, by rw [hf, onRmw, ho]⟩

theorem modifyingFailure : ModifyingFailure := by
  intro i m s r b hm ho hr k a bytes b' hk hl hn
  obtain ⟨f, hbody⟩ := body_of_modifier_mem hm ho
  have hwidth : ((advance i s).cpu.widthA == .byte) = s.cpu.p.m := width_beq_byte _
  rw [← hwidth] at hk hl
  refine failsOn_of (wf_of_mem ho _ _) ?_
  rw [hbody]
  refine breaks_getCpu (breaks_after (c := (advance i s).cpu) hr (breaks_bind ?_))
  exact readData_breaks (s := (advance i s).withBus b) hk hl hn

/-! ### Pushes (R243 to R249, R256 to R258) -/

/-- An instruction whose body fails where the pushes of a list of bytes fail. -/
theorem pushingFailure_of {bytes : Cpu → List Byte} (hw : ∀ m x, i.wellFormed m x = true)
    (h : ∀ s b a d, Breaks (pushList (wrap1 s) (bytes s.cpu)) (advance i s) b a d →
      Breaks (bodyOf i.mnemonic i.operand) (advance i s) b a d) : PushingFailure i wrap1 bytes :=
  fun s _ a _ b hk hs hn => failsOn_of (hw _ _) (h s b a .write (pushList_breaks (s := advance i s) hk hs hn))

theorem pei_failure {o : Byte} {p : Word}
    (hread : directPointer (directOffset s o) (advance (.pei o) s) = .ok p ((advance (.pei o) s).withBus b)) :
    WritesStand (.pei o) s b (pushWrites s.stackWrapsNew s.cpu.s 0 [hiByte p, loByte p]) := by
  intro k a v b' hk hs hn
  have hpush : Breaks (pushWord s.stackWrapsNew p) ((advance (.pei o) s).withBus b) b' a .write :=
    breaks_congr (pushWord_eq _ _) (pushList_breaks (s := (advance (.pei o) s).withBus b) hk hs hn)
  exact failsOn_of rfl (breaks_plainly (withStackNew_breaks (breaks_after (c := (advance (.pei o) s).cpu) hread hpush)))

/-! ### Calls (R224, R225) -/

theorem pushReturn_eq {n : Nat} (h : i.length = n + 1) (w : Bool) (s : State) : pushReturn w (advance i s) =
    pushList w [hiByte (s.cpu.pc + BitVec.ofNat 16 n), loByte (s.cpu.pc + BitVec.ofNat 16 n)] (advance i s) := by
  rw [← nextPc_sub_one h, ← pushWord_eq]
  rfl

theorem jsrAbs_failure (l : Word) :
    PushingFailure (.jsrAbs l) (·.cpu.e) fun c => [hiByte (c.pc + 2#16), loByte (c.pc + 2#16)] :=
  pushingFailure_of (fun _ _ => rfl) fun _ _ _ _ h =>
    breaks_plainly (withStack_breaks (breaks_bind (breaks_congr (pushReturn_eq rfl _ _) h)))

theorem jsrAindx_failure (l : Word) :
    PushingFailure (.jsrAindx l) State.stackWrapsNew fun c => [hiByte (c.pc + 2#16), loByte (c.pc + 2#16)] :=
  pushingFailure_of (fun _ _ => rfl) fun _ _ _ _ h =>
    breaks_getCpu (breaks_bind (withStackNew_breaks (breaks_bind (breaks_congr (pushReturn_eq rfl _ _) h))))

theorem jsrAindx_pointer_failure {l : Word}
    (hpush : s.bus.storeAll (pushWrites s.stackWrapsNew s.cpu.s 0
      [hiByte (s.cpu.pc + 2#16), loByte (s.cpu.pc + 2#16)]) = some b) :
    ReadsFail (.jsrAindx l) s b (byteAddresses .bank 2 (mkAddr s.cpu.pb (l + s.cpu.x))) := by
  intro k a bytes b' hk hl hn
  rw [← nextPc_sub_one (i := .jsrAindx l) (n := 2) rfl] at hpush
  have hret := pushReturn_ok (s := advance (.jsrAindx l) s) hpush
  refine failsOn_of rfl (breaks_getCpu (breaks_bind (withStackNew_breaks (breaks_after (c := _) hret ?_))))
  exact breaks_bind (breaks_getCpu (memRead16_breaks .bank hk hl hn))

/-- A byte and a return address pushed after it are pushed as one list. -/
theorem pushByte_pushReturn_eq (w : Bool) (v : Byte) (f : Unit → BusM α) (s : State) :
    (pushByte w v >>= fun _ => pushReturn w >>= f) s =
      (pushList w [v, hiByte (s.cpu.pc - 1#16), loByte (s.cpu.pc - 1#16)] >>= f) s := by
  rw [pushList, bind_assoc]
  cases hs : s.bus.store (stackAddr s.cpu.s) v with
  | none =>
    have herr : pushByte w v s = _ := (run_bind_ok s _ (run_getCpu s)).trans (run_bind_error s _ (busWrite_none hs))
    rw [run_bind_error s _ herr, run_bind_error s _ herr]
  | some b =>
    have hret (t : State) : pushReturn w t = pushList w [hiByte (t.cpu.pc - 1#16), loByte (t.cpu.pc - 1#16)] t :=
      pushWord_eq w _
    rw [run_bind_ok s _ (pushByte_ok w hs), run_bind_ok s _ (pushByte_ok w hs), run_bind, run_bind, hret]
    rfl

theorem jsl_failure (l : Address) : PushingFailure (.jsl l) State.stackWrapsNew
    fun c => [c.pb, hiByte (c.pc + 3#16), loByte (c.pc + 3#16)] := by
  refine pushingFailure_of (fun _ _ => rfl) fun s b a d h => ?_
  rw [← nextPc_sub_one (i := .jsl l) (n := 3) rfl] at h
  exact breaks_plainly (withStackNew_breaks (breaks_getCpu
    (breaks_congr (pushByte_pushReturn_eq _ _ _ (advance (.jsl l) s)) (breaks_bind h))))

/-! ### Block moves (R270) -/

theorem blockMove_failure {dir : Word} {dst src : Byte} (hbody : bodyOf i.mnemonic i.operand = blockMove dir dst src)
    (hw : ∀ m x, i.wellFormed m x = true) (hload : s.bus.load (mkAddr src s.cpu.x) = some (v, b))
    (hn : b.regionAt (mkAddr dst s.cpu.y) = none) : FailsOn i s b (mkAddr dst s.cpu.y) .write := by
  have hread := busRead_ok (s := (advance i s).withCpu { (advance i s).cpu with db := dst }) hload
  refine failsOn_of (hw _ _) ?_
  rw [hbody]
  exact breaks_plainly (breaks_modifyCpu (breaks_getCpu (breaks_after (c := _) hread
    (breaks_bind (breaks_busWrite hn)))))

/-! ### Traps and interrupts (R300, R301, R326) -/

theorem softwareTrapFailure_of {mk : Byte → Instr} (hk : k.isHardware = false)
    (hbody : ∀ sig, bodyOf (mk sig).mnemonic (mk sig).operand = softwareTrap k)
    (hlen : ∀ sig, (mk sig).length = 2) (hwf : ∀ sig m x, (mk sig).wellFormed m x = true) :
    SoftwareTrapFailure mk (k.vector false) (k.vector true) := by
  intro s sig
  have hpc : s.cpu.pc + 2#16 = (advance (mk sig) s).cpu.pc := by rw [advance_cpu, nextPc, hlen]
  have hvector : (if s.cpu.e then k.vector true else k.vector false) = k.vector s.cpu.e := by cases s.cpu.e <;> rfl
  have fails : ∀ {b a d}, Breaks (trapEntry k (advance (mk sig) s).cpu.pc) (advance (mk sig) s) b a d →
      FailsOn (mk sig) s b a d := fun h => failsOn_of (hwf _ _ _) (by
    rw [hbody]
    exact breaks_plainly (breaks_getCpu h))
  rw [hpc, hvector, ← pushedP_of_software hk]
  exact ⟨fun _ _ _ _ hw hs hn => fails (trapEntry_push_breaks (s := advance (mk sig) s) hw hs hn),
    fun _ hpush _ _ _ _ hr hl hn => fails (trapEntry_vector_breaks (s := advance (mk sig) s) hpush hr hl hn)⟩

/-- An interrupt entry that fails puts back the state of the start of the step, also what sampling changed. -/
theorem entryFailsOn_of (h : InterruptTaken s nmi) (hb : Breaks (trapEntry (interruptKind nmi) s.cpu.pc)
      (State.notePc { s with waiting := false, nmiPending := false }) b a d) : EntryFailsOn s b a d := by
  obtain ⟨c, hc⟩ := hb
  rw [EntryFailsOn, step_of_interruptTaken h]
  have hpc : (State.notePc { s with waiting := false, nmiPending := false }).cpu.pc = s.cpu.pc := rfl
  simp only [takeInterrupt, hpc, hc]
  rfl

end
end Sys2Proof.Machine
end

section
/-! # What a failed instruction has written (R322) -/
namespace Sys2Proof.Machine

section
variable {α β : Type} {s t : State} {a : Address} {v : Word}

/-! ### Computations that keep memory where they fail -/

/-- Where the computation fails, it has changed no byte. -/
def FailureKeeps (m : BusM α) : Prop := ∀ s e t, m s = .error e t → KeepsMemory s.bus t.bus

/-- Where the computation fails on a read, it has changed no byte. -/
def ReadFailureKeeps (m : BusM α) : Prop := ∀ s e t, m s = .error e t → e.dir = .read → KeepsMemory s.bus t.bus

/-- The computation fails only on writes. -/
def FailsOnWrite (m : BusM α) : Prop := ∀ s e t, m s = .error e t → e.dir = .write

theorem WritesNothing.failureKeeps {m : BusM α} (h : WritesNothing m) : FailureKeeps m := fun _ _ _ hm => h.error hm

theorem FailureKeeps.read {m : BusM α} (h : FailureKeeps m) : ReadFailureKeeps m := fun s e t hm _ => h s e t hm

theorem FailsOnWrite.read {m : BusM α} (h : FailsOnWrite m) : ReadFailureKeeps m := fun s e t hm hd => by
  cases (h s e t hm).symm.trans hd

/-- What comes before only reads. -/
theorem readFailureKeeps_after {m : BusM α} {f : α → BusM β} (hm : WritesNothing m) (hf : ∀ v, ReadFailureKeeps (f v)) :
    ReadFailureKeeps (m >>= f) := fun s e t h hd => by
  rcases of_bind_error s h with h₁ | ⟨v, u, h₁, h₂⟩
  · exact hm.error h₁
  · exact keepsMemory_trans (hm.ok h₁) (hf v u e t h₂ hd)

theorem failsOnWrite_pure (v : α) : FailsOnWrite (pure v : BusM α) := fun _ _ _ h => by cases h

theorem failsOnWrite_bind {m : BusM α} {f : α → BusM β} (hm : FailsOnWrite m) (hf : ∀ v, FailsOnWrite (f v)) :
    FailsOnWrite (m >>= f) := fun s e t h => by
  rcases of_bind_error s h with h₁ | ⟨v, u, -, h₂⟩
  · exact hm s e t h₁
  · exact hf v u e t h₂

theorem failsOnWrite_getCpu {f : Cpu → BusM α} (h : ∀ c, FailsOnWrite (f c)) : FailsOnWrite (getCpu >>= f) :=
  failsOnWrite_bind (fun _ _ _ h => by cases h) h

theorem failsOnWrite_modifyCpu (g : Cpu → Cpu) : FailsOnWrite (modifyCpu g) := fun _ _ _ h => by cases h

theorem failsOnWrite_writeData (wd : Width) (r : Resolved) (x : Word) : FailsOnWrite (writeData wd r.wrap r.ea x) :=
  fun s e t h => by
    rw [writeData_eq] at h
    obtain ⟨-, -, -, -, hdir, -⟩ := of_writeList_error h
    exact hdir

theorem failsOnWrite_busWrite (a : Address) (v : Byte) : FailsOnWrite (busWrite a v) := fun s e t h => by
  obtain ⟨rfl, -, -⟩ := of_busWrite_error h
  rfl

theorem failsOnWrite_pushByte (w : Bool) (v : Byte) : FailsOnWrite (pushByte w v) :=
  failsOnWrite_getCpu fun _ => failsOnWrite_bind (failsOnWrite_busWrite _ _) fun _ => failsOnWrite_modifyCpu _

theorem failsOnWrite_pushWord (w : Bool) (v : Word) : FailsOnWrite (pushWord w v) :=
  failsOnWrite_bind (failsOnWrite_pushByte _ _) fun _ => failsOnWrite_pushByte _ _

theorem failsOnWrite_pushData (wd : Width) (w : Bool) (v : Word) : FailsOnWrite (pushData wd w v) := by
  cases wd with
  | byte => exact failsOnWrite_pushByte _ _
  | word => exact failsOnWrite_pushWord _ _

theorem failsOnWrite_stack {body : Bool → BusM Unit} (h : ∀ w, FailsOnWrite (body w)) :
    FailsOnWrite (plainly (withStack body)) :=
  failsOnWrite_bind (fun s => h s.stackWraps s) fun _ => failsOnWrite_pure _

/-- The end of an instruction of R242 accesses no memory. -/
theorem withStackNew_error {body : Bool → BusM Unit} {e : BusFailure} (h : withStackNew body s = .error e t) :
    body s.stackWrapsNew s = .error e t := by
  rcases of_bind_error s h with h₁ | ⟨_, u, -, h₂⟩
  · exact h₁
  · split at h₂ <;> cases h₂

theorem plainly_error {m : BusM Unit} {e : BusFailure} (h : plainly m s = .error e t) : m s = .error e t := by
  rcases of_bind_error s h with h₁ | ⟨_, u, -, h₂⟩
  · exact h₁
  · cases h₂

theorem failsOnWrite_stackNew {body : Bool → BusM Unit} (h : ∀ w, FailsOnWrite (body w)) :
    FailsOnWrite (plainly (withStackNew body)) := fun s e t hm =>
  h _ s e t (withStackNew_error (plainly_error hm))

/-! ### Read-modify-writes (R152) -/

/-- What a read has answered is mapped. -/
theorem memRead_mapped {wrap : Wrap} {n x : Nat} {a a' : Address} (h : memRead wrap n a s = .ok x t)
    (ha : a' ∈ byteAddresses wrap n a) : t.bus.mapped a' = true := by
  induction n generalizing s a x with
  | zero => cases ha
  | succ n ih =>
    obtain ⟨v, u, hfirst, h⟩ := of_bind_ok s h
    obtain ⟨y, u', hrest, h⟩ := of_bind_ok u h
    cases h
    rcases List.mem_cons.1 ha with rfl | ha
    · obtain ⟨b, hload, -⟩ := of_busRead_ok hfirst
      have hreads := (onlyReads_rel.closed.busRead a').ok hfirst
      have hreads' := (onlyReads_rel.closed.memRead wrap n _).ok hrest
      rw [Bus.mapped, regionAt_of_onlyReads hreads', regionAt_of_onlyReads hreads, ← Bus.mapped, ← load_isSome, hload]
      rfl
    · exact ih hrest ha

theorem readData_mapped {wd : Width} {r : Resolved} (h : readData wd r.wrap r.ea s = .ok v t)
    (ha : a ∈ dataAddresses (wd == .byte) r) : t.bus.mapped a = true := by
  rw [dataAddresses_eq] at ha
  obtain ⟨x, u, hread, h⟩ := of_bind_ok s h
  cases h
  exact memRead_mapped hread ha

/-- Mapped bytes can be written. -/
theorem writeDataHiFirst_of_mapped {wd : Width} {r : Resolved} (x : Word)
    (h : ∀ a ∈ dataAddresses (wd == .byte) r, s.bus.mapped a = true) :
    ∃ b, writeDataHiFirst wd r.wrap r.ea x s = .ok () (s.withBus b) := by
  obtain ⟨b, hb⟩ := storeAll_isSome (b := s.bus)
    (ws := ((dataAddresses (wd == .byte) r).zip (dataBytes (wd == .byte) x)).reverse)
    fun p hp => h p.1 (fst_mem_dataWrites (List.mem_reverse.1 hp))
  exact ⟨b, writeDataHiFirst_ok hb⟩

/-- A read-modify-write writes to the addresses it has read, so that it fails only before it writes. -/
theorem failureKeeps_modifyOperand (m : MemOperand) (f : RmwFn) : FailureKeeps (modifyOperand (.mem m) f) := by
  intro s e t h
  have k := keepsRel.closed
  rcases of_bind_error s (show (getCpu >>= _) s = _ from h) with h₀ | ⟨c, _, h₀, h⟩
  · cases h₀
  cases h₀
  rcases of_bind_error s h with h₁ | ⟨r, t₁, h₁, h⟩
  · exact (k.resolve m).error h₁
  have hresolve := (k.resolve m).ok h₁
  rcases of_bind_error t₁ h with h₂ | ⟨v, t₂, h₂, h⟩
  · exact keepsMemory_trans hresolve ((k.readData _ _ _).error h₂)
  obtain ⟨b, hwrite⟩ := writeDataHiFirst_of_mapped (f s.cpu.widthA s.cpu v).1 fun a ha => readData_mapped h₂ ha
  rw [run_bind_ok t₂ _ hwrite] at h
  cases h

theorem failureKeeps_modifier {mn : Mnemonic} (h : mn ∈ modifiers) (o : Operand) : FailureKeeps (bodyOf mn o) := by
  obtain ⟨f, hf⟩ := body_of_modifier h
  rw [hf]
  unfold onRmw
  split
  · exact failureKeeps_modifyOperand _ f
  · exact WritesNothing.failureKeeps (keepsRel.closed.plainly (writesNothing_modifyCpu _))

/-- The other instructions of the last clause of the statement write nothing. -/
theorem failureKeeps_body {mn : Mnemonic} (o : Operand)
    (h : mn ∉ [Mnemonic.sta, .stx, .sty, .stz, .mvn, .mvp, .pha, .phx, .phy, .php, .phb, .phd, .phk, .pea, .pei, .per,
      .jsr, .jsl, .brk, .cop]) : FailureKeeps (bodyOf mn o) := by
  by_cases hm : mn ∈ modifiers
  · exact failureKeeps_modifier hm o
  · refine WritesNothing.failureKeeps (writesNothing_body (decide_eq_false fun hw => ?_) o)
    simp only [modifiers, List.mem_cons, List.not_mem_nil, or_false] at h hm hw
    tauto

/-! ### Failing reads -/

theorem readFailureKeeps_storeOperand (width : Cpu → Width) (m : MemOperand) (value : Cpu → Word) :
    ReadFailureKeeps (storeOperand width m value) :=
  readFailureKeeps_after keepsRel.closed.getCpu fun _ => readFailureKeeps_after (keepsRel.closed.resolve m) fun _ =>
    (failsOnWrite_bind (failsOnWrite_writeData _ _ _) fun _ => failsOnWrite_pure _).read

theorem readFailureKeeps_blockMove (dir : Word) (dst src : Byte) : ReadFailureKeeps (blockMove dir dst src) := by
  intro s e t h
  refine readFailureKeeps_after (writesNothing_modifyCpu _) (fun _ => readFailureKeeps_after keepsRel.closed.getCpu
    fun c => readFailureKeeps_after (keepsRel.closed.busRead _) fun v => FailsOnWrite.read ?_) s e t (plainly_error h)
  exact failsOnWrite_bind (failsOnWrite_busWrite _ _) fun _ => failsOnWrite_modifyCpu _

theorem readFailureKeeps_pei (o : Byte) : ReadFailureKeeps (pei o) := by
  intro s e t h
  exact readFailureKeeps_after (keepsRel.closed.directPointer (directOffset s o))
    (fun p => (failsOnWrite_pushWord s.stackWrapsNew p).read) s e t (withStackNew_error (plainly_error h))

/-- Pushes, and the call that only pushes, read nothing. -/
theorem failsOnWrite_body {mn : Mnemonic} (o : Operand)
    (h : mn ∈ [Mnemonic.pha, .phx, .phy, .php, .phb, .phd, .phk, .pea, .per, .jsl]) : FailsOnWrite (bodyOf mn o) := by
  cases mn with
  | pha | phx | phy => exact failsOnWrite_stack fun _ => failsOnWrite_getCpu fun _ => failsOnWrite_pushData _ _ _
  | php | phb | phk => exact failsOnWrite_stack fun _ => failsOnWrite_getCpu fun _ => failsOnWrite_pushByte _ _
  | phd => exact failsOnWrite_stackNew fun _ => failsOnWrite_getCpu fun _ => failsOnWrite_pushWord _ _
  | pea =>
    show FailsOnWrite (onImm16 pea o)
    unfold onImm16
    split
    · exact failsOnWrite_stackNew fun _ => failsOnWrite_pushWord _ _
    · exact failsOnWrite_pure _
  | per =>
    show FailsOnWrite (onRel16 per o)
    unfold onRel16
    split
    · exact failsOnWrite_stackNew fun _ => failsOnWrite_getCpu fun _ => failsOnWrite_pushWord _ _
    · exact failsOnWrite_pure _
  | jsl =>
    show FailsOnWrite (onJumpLong jsl (fun _ => pure noFacts) o)
    unfold onJumpLong
    split
    · exact failsOnWrite_stackNew fun _ => failsOnWrite_getCpu fun _ => failsOnWrite_bind (failsOnWrite_pushByte _ _)
        fun _ => failsOnWrite_bind (failsOnWrite_getCpu fun _ => failsOnWrite_pushWord _ _) fun _ =>
          failsOnWrite_modifyCpu _
    · exact failsOnWrite_pure _
    · exact failsOnWrite_pure _
  | _ => exact absurd h (by decide)

/-- Only JSR, BRK and COP read after they have written (R224, R326). -/
theorem readFailureKeeps_body {mn : Mnemonic} (o : Operand) (h : mn ∉ [Mnemonic.jsr, .brk, .cop]) :
    ReadFailureKeeps (bodyOf mn o) := by
  have nothing : ReadFailureKeeps (pure noFacts) := (failsOnWrite_pure _).read
  have store : ∀ width value, ReadFailureKeeps (onMem (fun m => storeOperand width m value) o) := fun width value => by
    unfold onMem
    split
    · exact readFailureKeeps_storeOperand _ _ _
    · exact nothing
  have move : ∀ dir, ReadFailureKeeps (onBlk (blockMove dir) o) := fun dir => by
    unfold onBlk
    split
    · exact readFailureKeeps_blockMove _ _ _
    · exact nothing
  cases mn with
  | sta | stx | sty | stz => exact store _ _
  | mvn | mvp => exact move _
  | pei =>
    show ReadFailureKeeps (onInd pei o)
    unfold onInd
    split
    · exact readFailureKeeps_pei _
    · exact nothing
  | pha | phx | phy | php | phb | phd | phk | pea | per | jsl => exact (failsOnWrite_body o (by decide)).read
  | jsr | brk | cop => exact absurd (by decide) h
  | _ => exact (failureKeeps_body o (by decide)).read

end

/-! ### The statement -/

/-- Settles O13: a failed step is the rollback of one failed access; where each shared operation fails, the accesses
before it stand; and only JSR, BRK and COP read after they have written. -/
theorem busFailureIsPrecise : Obligations.BusFailureIsPrecise := by
  unfold Obligations.BusFailureIsPrecise
  refine ⟨fun s t a d hrun h ht => ?step, ⟨?sta, ?stx, ?sty, ?stz⟩, modifyingFailure,
    ⟨?pha, ?phx, ?phy, ?php, ?phb, ?phd, ?phk, fun v => ?pea, fun d => ?per, fun s o v b hread => ?pei⟩,
    ⟨fun l => ?jsrAbs, fun l => ?jsl, fun l => ?jsrAindx, fun s l b hpush => ?pointer⟩,
    fun s dst src v b i hi hload hn => ?move, ⟨?brk, ?cop⟩, fun s nmi h => ?interrupt,
    fun i s t a h hrun ht hm => ?read, fun i s t a d h hrun ht hm => ?any⟩
  case step =>
    obtain ⟨u, hu, rfl⟩ := step_failed hrun h ht
    refine ⟨hu.unmapped, hu.lastAddr, hu.lastDir, rfl, rfl, rfl, rfl, hu.irqLine, rfl, rfl, hu.prevPc, hu.log, ?_⟩
    rw [stepResult_of_step hrun h]
    rfl
  case sta => exact storingFailure_of rfl (fun _ _ => rfl) fun c _ => dataBytes_trunc c.p.m c.a
  case stx => exact storingFailure_of rfl (fun _ _ => rfl) fun c _ => dataBytes_trunc c.p.x c.x
  case sty => exact storingFailure_of rfl (fun _ _ => rfl) fun c _ => dataBytes_trunc c.p.x c.y
  case stz => exact storingFailure_of rfl (fun _ _ => rfl) fun _ _ => rfl
  case pha | phx | phy =>
    exact pushingFailure_of (fun _ _ => rfl) fun _ _ _ _ h =>
      breaks_plainly (withStack_breaks (breaks_congr (pushData_width _ _ _ _) h))
  case php | phb | phk =>
    exact pushingFailure_of (fun _ _ => rfl) fun _ _ _ _ h =>
      breaks_plainly (withStack_breaks (breaks_congr (pushByte_eq _ _) h))
  case phd | pea | per =>
    exact pushingFailure_of (fun _ _ => rfl) fun _ _ _ _ h =>
      breaks_plainly (withStackNew_breaks (breaks_congr (pushWord_eq _ _) h))
  case pei => exact pei_failure hread
  case jsrAbs => exact jsrAbs_failure l
  case jsl => exact jsl_failure l
  case jsrAindx => exact jsrAindx_failure l
  case pointer => exact jsrAindx_pointer_failure hpush
  case move => rcases hi with rfl | rfl <;> exact blockMove_failure rfl (fun _ _ => rfl) hload hn
  case brk => exact softwareTrapFailure_of (k := .brk) rfl (fun _ => rfl) (fun _ => rfl) fun _ _ _ => rfl
  case cop => exact softwareTrapFailure_of (k := .cop) rfl (fun _ => rfl) (fun _ => rfl) fun _ _ _ => rfl
  case interrupt =>
    rw [← pushedP_interruptKind nmi, ← vector_interruptKind]
    exact ⟨fun _ _ _ _ hw hs hn => entryFailsOn_of h (trapEntry_push_breaks hw hs hn),
      fun _ _ _ _ _ hpush hr hl hn => entryFailsOn_of h (trapEntry_vector_breaks hpush hr hl hn)⟩
  case read =>
    obtain ⟨u, hu, rfl⟩ := exec_failed hrun h ht
    exact readFailureKeeps_body i.operand hm (advance i s) _ u hu rfl
  case any =>
    obtain ⟨u, hu, rfl⟩ := exec_failed hrun h ht
    exact failureKeeps_body i.operand hm (advance i s) _ u hu

end Sys2Proof.Machine
end
